-- ==== Sys2Proof/Word.lean ====
section
/-!
DEFINITION. The words of the CORE (R6, R7): 32-bit words, bytes, and the numbers of the sixteen general registers.
-/

namespace Sys2Proof

/-- A register, a data word, an instruction word or a byte address: 32 bits (`XLEN`, R6). -/
abbrev Word := BitVec 32

/-- One byte of the byte view of memory (R67: the CORE itself moves words only). -/
abbrev Byte := BitVec 8

/-- The number of one of the sixteen general registers (`NREG`, R6, R20). -/
abbrev Reg := Fin 16

/-- The stack pointer, by name only (R21). -/
abbrev regSP : Reg := 13

/-- The link register (R21), written by a linking branch (R242, R244). -/
abbrev regLR : Reg := 14

/-- The program counter is general register 15 (R21, R24). -/
abbrev regPC : Reg := 15

end Sys2Proof
end

