-- ==== Sys2Proof/Syntax.lean ====
section
/-!
DEFINITION. The instructions of ISASim-32: one constructor for each of the 58 rows of spec/opcode_table.json, carrying
exactly the fields that row names (the ignored bits of R148 take no part), and the decoded fields of R33.
-/

namespace Sys2Proof

/-- The sixteen condition codes, in the order of their numbers 0 to 15 (R180). -/
inductive Cond where
  | eq | ne | cs | cc | mi | pl | vs | vc | hi | ls | ge | lt | gt | le | al | nv
  deriving DecidableEq, Repr

/-- The four shift types, in the order of their numbers 0 to 3 (R184). -/
inductive ShiftType where
  | lsl | lsr | asr | ror
  deriving DecidableEq, Repr

/-- The four instruction classes, in the order of `raw[27:26]` (R142). -/
inductive Cls where
  | alu | memory | branch | noop
  deriving DecidableEq, Repr

/-- The sixteen ALU operations, in the order of their opcodes 0 to 15 (R157). -/
inductive AluOp where
  | and | eor | sub | rsb | add | adc | sbc | rsc | tst | teq | cmp | cmn | orr | mov | bic | mvn
  deriving DecidableEq, Repr

/-- The three layouts of an ALU second operand (R143). -/
inductive Operand2 where
  /-- `R` = 0: an 8-bit immediate -/
  | imm (imm8 : BitVec 8)
  /-- `R` = 1, bit 4 = 0: register `rm` shifted by an immediate amount -/
  | shImm (shamt : BitVec 5) (shtype : ShiftType) (rm : Reg)
  /-- `R` = 1, bit 4 = 1: register `rm` shifted by the amount in register `rs` -/
  | shReg (rs : Reg) (shtype : ShiftType) (rm : Reg)
  deriving DecidableEq, Repr

/-- The instructions: one constructor per row of spec/opcode_table.json (R157, R158). In the ALU rows `s` is the
status-update bit; in the Memory rows `p`, `u`, `wb` are bits 24, 23, 22 (R144). -/
inductive Instr where
  /-- AND, immediate (R202, R143) -/
  | andImm (cond : Cond) (s : Bool) (rd rn : Reg) (imm8 : BitVec 8)
  /-- AND, register, shift by immediate (R202, R143) -/
  | andShImm (cond : Cond) (s : Bool) (rd rn : Reg) (shamt : BitVec 5) (shtype : ShiftType) (rm : Reg)
  /-- AND, register, shift by register (R202, R143) -/
  | andShReg (cond : Cond) (s : Bool) (rd rn rs : Reg) (shtype : ShiftType) (rm : Reg)
  /-- EOR, immediate (R203, R143) -/
  | eorImm (cond : Cond) (s : Bool) (rd rn : Reg) (imm8 : BitVec 8)
  /-- EOR, register, shift by immediate (R203, R143) -/
  | eorShImm (cond : Cond) (s : Bool) (rd rn : Reg) (shamt : BitVec 5) (shtype : ShiftType) (rm : Reg)
  /-- EOR, register, shift by register (R203, R143) -/
  | eorShReg (cond : Cond) (s : Bool) (rd rn rs : Reg) (shtype : ShiftType) (rm : Reg)
  /-- SUB, immediate (R204, R143) -/
  | subImm (cond : Cond) (s : Bool) (rd rn : Reg) (imm8 : BitVec 8)
  /-- SUB, register, shift by immediate (R204, R143) -/
  | subShImm (cond : Cond) (s : Bool) (rd rn : Reg) (shamt : BitVec 5) (shtype : ShiftType) (rm : Reg)
  /-- SUB, register, shift by register (R204, R143) -/
  | subShReg (cond : Cond) (s : Bool) (rd rn rs : Reg) (shtype : ShiftType) (rm : Reg)
  /-- RSB, immediate (R205, R143) -/
  | rsbImm (cond : Cond) (s : Bool) (rd rn : Reg) (imm8 : BitVec 8)
  /-- RSB, register, shift by immediate (R205, R143) -/
  | rsbShImm (cond : Cond) (s : Bool) (rd rn : Reg) (shamt : BitVec 5) (shtype : ShiftType) (rm : Reg)
  /-- RSB, register, shift by register (R205, R143) -/
  | rsbShReg (cond : Cond) (s : Bool) (rd rn rs : Reg) (shtype : ShiftType) (rm : Reg)
  /-- ADD, immediate (R206, R143) -/
  | addImm (cond : Cond) (s : Bool) (rd rn : Reg) (imm8 : BitVec 8)
  /-- ADD, register, shift by immediate (R206, R143) -/
  | addShImm (cond : Cond) (s : Bool) (rd rn : Reg) (shamt : BitVec 5) (shtype : ShiftType) (rm : Reg)
  /-- ADD, register, shift by register (R206, R143) -/
  | addShReg (cond : Cond) (s : Bool) (rd rn rs : Reg) (shtype : ShiftType) (rm : Reg)
  /-- ADC, immediate (R207, R143) -/
  | adcImm (cond : Cond) (s : Bool) (rd rn : Reg) (imm8 : BitVec 8)
  /-- ADC, register, shift by immediate (R207, R143) -/
  | adcShImm (cond : Cond) (s : Bool) (rd rn : Reg) (shamt : BitVec 5) (shtype : ShiftType) (rm : Reg)
  /-- ADC, register, shift by register (R207, R143) -/
  | adcShReg (cond : Cond) (s : Bool) (rd rn rs : Reg) (shtype : ShiftType) (rm : Reg)
  /-- SBC, immediate (R208, R143) -/
  | sbcImm (cond : Cond) (s : Bool) (rd rn : Reg) (imm8 : BitVec 8)
  /-- SBC, register, shift by immediate (R208, R143) -/
  | sbcShImm (cond : Cond) (s : Bool) (rd rn : Reg) (shamt : BitVec 5) (shtype : ShiftType) (rm : Reg)
  /-- SBC, register, shift by register (R208, R143) -/
  | sbcShReg (cond : Cond) (s : Bool) (rd rn rs : Reg) (shtype : ShiftType) (rm : Reg)
  /-- RSC, immediate (R209, R143) -/
  | rscImm (cond : Cond) (s : Bool) (rd rn : Reg) (imm8 : BitVec 8)
  /-- RSC, register, shift by immediate (R209, R143) -/
  | rscShImm (cond : Cond) (s : Bool) (rd rn : Reg) (shamt : BitVec 5) (shtype : ShiftType) (rm : Reg)
  /-- RSC, register, shift by register (R209, R143) -/
  | rscShReg (cond : Cond) (s : Bool) (rd rn rs : Reg) (shtype : ShiftType) (rm : Reg)
  /-- TST, immediate (R210, R143) -/
  | tstImm (cond : Cond) (s : Bool) (rd rn : Reg) (imm8 : BitVec 8)
  /-- TST, register, shift by immediate (R210, R143) -/
  | tstShImm (cond : Cond) (s : Bool) (rd rn : Reg) (shamt : BitVec 5) (shtype : ShiftType) (rm : Reg)
  /-- TST, register, shift by register (R210, R143) -/
  | tstShReg (cond : Cond) (s : Bool) (rd rn rs : Reg) (shtype : ShiftType) (rm : Reg)
  /-- TEQ, immediate (R211, R143) -/
  | teqImm (cond : Cond) (s : Bool) (rd rn : Reg) (imm8 : BitVec 8)
  /-- TEQ, register, shift by immediate (R211, R143) -/
  | teqShImm (cond : Cond) (s : Bool) (rd rn : Reg) (shamt : BitVec 5) (shtype : ShiftType) (rm : Reg)
  /-- TEQ, register, shift by register (R211, R143) -/
  | teqShReg (cond : Cond) (s : Bool) (rd rn rs : Reg) (shtype : ShiftType) (rm : Reg)
  /-- CMP, immediate (R212, R143) -/
  | cmpImm (cond : Cond) (s : Bool) (rd rn : Reg) (imm8 : BitVec 8)
  /-- CMP, register, shift by immediate (R212, R143) -/
  | cmpShImm (cond : Cond) (s : Bool) (rd rn : Reg) (shamt : BitVec 5) (shtype : ShiftType) (rm : Reg)
  /-- CMP, register, shift by register (R212, R143) -/
  | cmpShReg (cond : Cond) (s : Bool) (rd rn rs : Reg) (shtype : ShiftType) (rm : Reg)
  /-- CMN, immediate (R213, R143) -/
  | cmnImm (cond : Cond) (s : Bool) (rd rn : Reg) (imm8 : BitVec 8)
  /-- CMN, register, shift by immediate (R213, R143) -/
  | cmnShImm (cond : Cond) (s : Bool) (rd rn : Reg) (shamt : BitVec 5) (shtype : ShiftType) (rm : Reg)
  /-- CMN, register, shift by register (R213, R143) -/
  | cmnShReg (cond : Cond) (s : Bool) (rd rn rs : Reg) (shtype : ShiftType) (rm : Reg)
  /-- ORR, immediate (R214, R143) -/
  | orrImm (cond : Cond) (s : Bool) (rd rn : Reg) (imm8 : BitVec 8)
  /-- ORR, register, shift by immediate (R214, R143) -/
  | orrShImm (cond : Cond) (s : Bool) (rd rn : Reg) (shamt : BitVec 5) (shtype : ShiftType) (rm : Reg)
  /-- ORR, register, shift by register (R214, R143) -/
  | orrShReg (cond : Cond) (s : Bool) (rd rn rs : Reg) (shtype : ShiftType) (rm : Reg)
  /-- MOV, immediate (R215, R143) -/
  | movImm (cond : Cond) (s : Bool) (rd rn : Reg) (imm8 : BitVec 8)
  /-- MOV, register, shift by immediate (R215, R143) -/
  | movShImm (cond : Cond) (s : Bool) (rd rn : Reg) (shamt : BitVec 5) (shtype : ShiftType) (rm : Reg)
  /-- MOV, register, shift by register (R215, R143) -/
  | movShReg (cond : Cond) (s : Bool) (rd rn rs : Reg) (shtype : ShiftType) (rm : Reg)
  /-- BIC, immediate (R216, R143) -/
  | bicImm (cond : Cond) (s : Bool) (rd rn : Reg) (imm8 : BitVec 8)
  /-- BIC, register, shift by immediate (R216, R143) -/
  | bicShImm (cond : Cond) (s : Bool) (rd rn : Reg) (shamt : BitVec 5) (shtype : ShiftType) (rm : Reg)
  /-- BIC, register, shift by register (R216, R143) -/
  | bicShReg (cond : Cond) (s : Bool) (rd rn rs : Reg) (shtype : ShiftType) (rm : Reg)
  /-- MVN, immediate (R217, R143) -/
  | mvnImm (cond : Cond) (s : Bool) (rd rn : Reg) (imm8 : BitVec 8)
  /-- MVN, register, shift by immediate (R217, R143) -/
  | mvnShImm (cond : Cond) (s : Bool) (rd rn : Reg) (shamt : BitVec 5) (shtype : ShiftType) (rm : Reg)
  /-- MVN, register, shift by register (R217, R143) -/
  | mvnShReg (cond : Cond) (s : Bool) (rd rn rs : Reg) (shtype : ShiftType) (rm : Reg)
  /-- LDR, immediate offset (R231) -/
  | ldrImm (cond : Cond) (p u wb : Bool) (rd rn : Reg) (imm12 : BitVec 12)
  /-- LDR, register offset with shift (R231) -/
  | ldrReg (cond : Cond) (p u wb : Bool) (rd rn : Reg) (shamt : BitVec 5) (shtype : ShiftType) (rm : Reg)
  /-- STR, immediate offset (R232) -/
  | strImm (cond : Cond) (p u wb : Bool) (rd rn : Reg) (imm12 : BitVec 12)
  /-- STR, register offset with shift (R232) -/
  | strReg (cond : Cond) (p u wb : Bool) (rd rn : Reg) (shamt : BitVec 5) (shtype : ShiftType) (rm : Reg)
  /-- B, immediate (R241) -/
  | b (cond : Cond) (imm24 : BitVec 24)
  /-- BL, immediate (R242) -/
  | bl (cond : Cond) (imm24 : BitVec 24)
  /-- BX, register (R243) -/
  | bx (cond : Cond) (rm : Reg)
  /-- BLX, register (R244) -/
  | blx (cond : Cond) (rm : Reg)
  /-- NOP, any word of class 11 but the sentinel (R250) -/
  | nop (cond : Cond)
  /-- END, sentinel (R252) -/
  | endStream
  deriving DecidableEq, Repr

/-- The ALU instruction of operation `op` in the form "immediate" (R143). -/
def Instr.aluImm (op : AluOp) (cond : Cond) (sf : Bool) (rd rn : Reg) (imm8 : BitVec 8) : Instr :=
  match op with
  | .and => .andImm cond sf rd rn imm8
  | .eor => .eorImm cond sf rd rn imm8
  | .sub => .subImm cond sf rd rn imm8
  | .rsb => .rsbImm cond sf rd rn imm8
  | .add => .addImm cond sf rd rn imm8
  | .adc => .adcImm cond sf rd rn imm8
  | .sbc => .sbcImm cond sf rd rn imm8
  | .rsc => .rscImm cond sf rd rn imm8
  | .tst => .tstImm cond sf rd rn imm8
  | .teq => .teqImm cond sf rd rn imm8
  | .cmp => .cmpImm cond sf rd rn imm8
  | .cmn => .cmnImm cond sf rd rn imm8
  | .orr => .orrImm cond sf rd rn imm8
  | .mov => .movImm cond sf rd rn imm8
  | .bic => .bicImm cond sf rd rn imm8
  | .mvn => .mvnImm cond sf rd rn imm8

/-- The ALU instruction of operation `op` in the form "register, shift by immediate" (R143). -/
def Instr.aluShImm (op : AluOp) (cond : Cond) (sf : Bool) (rd rn : Reg) (shamt : BitVec 5) (shtype : ShiftType) (rm : Reg) : Instr :=
  match op with
  | .and => .andShImm cond sf rd rn shamt shtype rm
  | .eor => .eorShImm cond sf rd rn shamt shtype rm
  | .sub => .subShImm cond sf rd rn shamt shtype rm
  | .rsb => .rsbShImm cond sf rd rn shamt shtype rm
  | .add => .addShImm cond sf rd rn shamt shtype rm
  | .adc => .adcShImm cond sf rd rn shamt shtype rm
  | .sbc => .sbcShImm cond sf rd rn shamt shtype rm
  | .rsc => .rscShImm cond sf rd rn shamt shtype rm
  | .tst => .tstShImm cond sf rd rn shamt shtype rm
  | .teq => .teqShImm cond sf rd rn shamt shtype rm
  | .cmp => .cmpShImm cond sf rd rn shamt shtype rm
  | .cmn => .cmnShImm cond sf rd rn shamt shtype rm
  | .orr => .orrShImm cond sf rd rn shamt shtype rm
  | .mov => .movShImm cond sf rd rn shamt shtype rm
  | .bic => .bicShImm cond sf rd rn shamt shtype rm
  | .mvn => .mvnShImm cond sf rd rn shamt shtype rm

/-- The ALU instruction of operation `op` in the form "register, shift by register" (R143). -/
def Instr.aluShReg (op : AluOp) (cond : Cond) (sf : Bool) (rd rn rs : Reg) (shtype : ShiftType) (rm : Reg) : Instr :=
  match op with
  | .and => .andShReg cond sf rd rn rs shtype rm
  | .eor => .eorShReg cond sf rd rn rs shtype rm
  | .sub => .subShReg cond sf rd rn rs shtype rm
  | .rsb => .rsbShReg cond sf rd rn rs shtype rm
  | .add => .addShReg cond sf rd rn rs shtype rm
  | .adc => .adcShReg cond sf rd rn rs shtype rm
  | .sbc => .sbcShReg cond sf rd rn rs shtype rm
  | .rsc => .rscShReg cond sf rd rn rs shtype rm
  | .tst => .tstShReg cond sf rd rn rs shtype rm
  | .teq => .teqShReg cond sf rd rn rs shtype rm
  | .cmp => .cmpShReg cond sf rd rn rs shtype rm
  | .cmn => .cmnShReg cond sf rd rn rs shtype rm
  | .orr => .orrShReg cond sf rd rn rs shtype rm
  | .mov => .movShReg cond sf rd rn rs shtype rm
  | .bic => .bicShReg cond sf rd rn rs shtype rm
  | .mvn => .mvnShReg cond sf rd rn rs shtype rm

/-- The ALU instruction of operation `op` with second operand `o2`: the 48 ALU rows in one name (R143, R157). -/
def Instr.alu (op : AluOp) (cond : Cond) (sf : Bool) (rd rn : Reg) (o2 : Operand2) : Instr :=
  match o2 with
  | .imm imm8 => Instr.aluImm op cond sf rd rn imm8
  | .shImm shamt shtype rm => Instr.aluShImm op cond sf rd rn shamt shtype rm
  | .shReg rs shtype rm => Instr.aluShReg op cond sf rd rn rs shtype rm

/-- The decoded fields of an instruction record (R33): pure functions of the word. A field its class does not name is 0
(or the constructor numbered 0) and its `Used` tag is false (section 4 of 30_encoding). -/
structure Fields where
  /-- condition code, `raw[31:28]` -/
  cond : Cond := .eq
  /-- instruction class, `raw[27:26]` -/
  cls : Cls := .alu
  /-- ALU opcode, `raw[24:21]` (ALU class only) -/
  opcode : BitVec 4 := 0
  /-- `R`: the second operand, offset or target is a register -/
  regOperand : Bool := false
  /-- destination -/
  rd : Reg := 0
  /-- first operand, or base -/
  rn : Reg := 0
  /-- second operand, offset or target -/
  rm : Reg := 0
  /-- shift-amount operand -/
  rs : Reg := 0
  /-- the register-used tags of the four indices -/
  rdUsed : Bool := false
  rnUsed : Bool := false
  rmUsed : Bool := false
  rsUsed : Bool := false
  /-- the immediate or offset, extended (R154) -/
  imm : Word := 0
  /-- shift type -/
  shtype : ShiftType := .lsl
  /-- immediate shift amount -/
  shamt : BitVec 5 := 0
  /-- the shift amount comes from register `rs` -/
  regshift : Bool := false
  /-- `P`: pre-index -/
  p : Bool := false
  /-- `U`: add the offset -/
  u : Bool := false
  /-- `Wb`: write the new address back to the base -/
  wb : Bool := false
  /-- `L`: load -/
  l : Bool := false
  /-- `S`: status update -/
  s : Bool := false
  /-- link flag -/
  link : Bool := false
  deriving DecidableEq, Repr

end Sys2Proof
end

