-- ==== Sys2Proof/WellFormed.lean ====
section
/-!
DEFINITION. Well-formedness of instructions as the assembler writes them (R159, R160). EVERY term of Instr has an
encoding: the field types are exactly as wide as the fields (R22, R147: no encoding is illegal), so encoding needs no check.
What the hardware accepts and the assembler never writes is told apart here. (The checks of a memory chain, R93, are
in Machine/Geometry.lean.)
-/

namespace Sys2Proof

/-- A compare is written with `S` = 1 and a zero `rd` field (R159, R160). -/
def compareFormOk (op : AluOp) (sf : Bool) (rd : Reg) : Bool :=
  match op with
  | .tst | .teq | .cmp | .cmn => sf && rd == 0
  | _ => true

/-- MOV and MVN are written with a zero `rn` field (R160). -/
def moveFormOk (op : AluOp) (rn : Reg) : Bool :=
  match op with
  | .mov | .mvn => rn == 0
  | _ => true

/-- Post-index without write-back has no syntax (R160). -/
def indexFormOk (p wb : Bool) : Bool := p || wb

/-- The assembler writes a non-negative `imm12`, and clears `U` only for a negative offset (R160). -/
def offsetFormOk (u : Bool) (imm12 : BitVec 12) : Bool := !imm12.msb && (u || imm12 != 0)

/-- An ALU instruction that the assembler writes. -/
def aluFormOk (op : AluOp) (sf : Bool) (rd rn : Reg) : Bool := compareFormOk op sf rd && moveFormOk op rn

/-- The instruction has an assembler form (R159, R160): its encoding is a word the assembler writes. -/
def Instr.wf (i : Instr) : Bool :=
  match i with
  | .andImm _ s rd rn _ => aluFormOk .and s rd rn
  | .andShImm _ s rd rn _ _ _ => aluFormOk .and s rd rn
  | .andShReg _ s rd rn _ _ _ => aluFormOk .and s rd rn
  | .eorImm _ s rd rn _ => aluFormOk .eor s rd rn
  | .eorShImm _ s rd rn _ _ _ => aluFormOk .eor s rd rn
  | .eorShReg _ s rd rn _ _ _ => aluFormOk .eor s rd rn
  | .subImm _ s rd rn _ => aluFormOk .sub s rd rn
  | .subShImm _ s rd rn _ _ _ => aluFormOk .sub s rd rn
  | .subShReg _ s rd rn _ _ _ => aluFormOk .sub s rd rn
  | .rsbImm _ s rd rn _ => aluFormOk .rsb s rd rn
  | .rsbShImm _ s rd rn _ _ _ => aluFormOk .rsb s rd rn
  | .rsbShReg _ s rd rn _ _ _ => aluFormOk .rsb s rd rn
  | .addImm _ s rd rn _ => aluFormOk .add s rd rn
  | .addShImm _ s rd rn _ _ _ => aluFormOk .add s rd rn
  | .addShReg _ s rd rn _ _ _ => aluFormOk .add s rd rn
  | .adcImm _ s rd rn _ => aluFormOk .adc s rd rn
  | .adcShImm _ s rd rn _ _ _ => aluFormOk .adc s rd rn
  | .adcShReg _ s rd rn _ _ _ => aluFormOk .adc s rd rn
  | .sbcImm _ s rd rn _ => aluFormOk .sbc s rd rn
  | .sbcShImm _ s rd rn _ _ _ => aluFormOk .sbc s rd rn
  | .sbcShReg _ s rd rn _ _ _ => aluFormOk .sbc s rd rn
  | .rscImm _ s rd rn _ => aluFormOk .rsc s rd rn
  | .rscShImm _ s rd rn _ _ _ => aluFormOk .rsc s rd rn
  | .rscShReg _ s rd rn _ _ _ => aluFormOk .rsc s rd rn
  | .tstImm _ s rd rn _ => aluFormOk .tst s rd rn
  | .tstShImm _ s rd rn _ _ _ => aluFormOk .tst s rd rn
  | .tstShReg _ s rd rn _ _ _ => aluFormOk .tst s rd rn
  | .teqImm _ s rd rn _ => aluFormOk .teq s rd rn
  | .teqShImm _ s rd rn _ _ _ => aluFormOk .teq s rd rn
  | .teqShReg _ s rd rn _ _ _ => aluFormOk .teq s rd rn
  | .cmpImm _ s rd rn _ => aluFormOk .cmp s rd rn
  | .cmpShImm _ s rd rn _ _ _ => aluFormOk .cmp s rd rn
  | .cmpShReg _ s rd rn _ _ _ => aluFormOk .cmp s rd rn
  | .cmnImm _ s rd rn _ => aluFormOk .cmn s rd rn
  | .cmnShImm _ s rd rn _ _ _ => aluFormOk .cmn s rd rn
  | .cmnShReg _ s rd rn _ _ _ => aluFormOk .cmn s rd rn
  | .orrImm _ s rd rn _ => aluFormOk .orr s rd rn
  | .orrShImm _ s rd rn _ _ _ => aluFormOk .orr s rd rn
  | .orrShReg _ s rd rn _ _ _ => aluFormOk .orr s rd rn
  | .movImm _ s rd rn _ => aluFormOk .mov s rd rn
  | .movShImm _ s rd rn _ _ _ => aluFormOk .mov s rd rn
  | .movShReg _ s rd rn _ _ _ => aluFormOk .mov s rd rn
  | .bicImm _ s rd rn _ => aluFormOk .bic s rd rn
  | .bicShImm _ s rd rn _ _ _ => aluFormOk .bic s rd rn
  | .bicShReg _ s rd rn _ _ _ => aluFormOk .bic s rd rn
  | .mvnImm _ s rd rn _ => aluFormOk .mvn s rd rn
  | .mvnShImm _ s rd rn _ _ _ => aluFormOk .mvn s rd rn
  | .mvnShReg _ s rd rn _ _ _ => aluFormOk .mvn s rd rn
  | .ldrImm _ p u wb _ _ imm12 => indexFormOk p wb && offsetFormOk u imm12
  | .ldrReg _ p _ wb _ _ _ _ _ => indexFormOk p wb
  | .strImm _ p u wb _ _ imm12 => indexFormOk p wb && offsetFormOk u imm12
  | .strReg _ p _ wb _ _ _ _ _ => indexFormOk p wb
  | .b _ _ => true
  | .bl _ _ => true
  | .bx _ _ => true
  | .blx _ _ => true
  | .nop _ => true
  | .endStream => true

end Sys2Proof
end

