-- ==== Sys2Proof/Decode.lean ====
section
/-!
DEFINITION. The decoder (section 4 of 30_encoding, R150 to R153), the decoded fields of a record (R33), the register-use set (R155), and
after them the encoder, written from the formats R143 to R146.
-/

namespace Sys2Proof

/-- `w[lo+n-1 : lo]`: the `n` bits from bit `lo` up, as an unsigned number (R7). -/
def slice (w : Word) (lo n : Nat) : Nat := w.toNat / 2 ^ lo % 2 ^ n

/-- Bit `k` of a word (R7). -/
def bitOf (w : Word) (k : Nat) : Bool := slice w k 1 == 1

/-- A 4-bit register field whose lowest bit is bit `lo`. Every number names a register (R22). -/
def regAt (w : Word) (lo : Nat) : Reg := ⟨slice w lo 4, Nat.mod_lt _ (by decide)⟩

/-- Condition code of a number (R180). -/
def Cond.ofCode (n : Nat) : Cond :=
  match n with
  | 0 => .eq | 1 => .ne | 2 => .cs | 3 => .cc | 4 => .mi | 5 => .pl | 6 => .vs | 7 => .vc
  | 8 => .hi | 9 => .ls | 10 => .ge | 11 => .lt | 12 => .gt | 13 => .le | 14 => .al | _ => .nv

/-- Number of a condition code (R180). -/
def Cond.code (c : Cond) : Nat :=
  match c with
  | .eq => 0 | .ne => 1 | .cs => 2 | .cc => 3 | .mi => 4 | .pl => 5 | .vs => 6 | .vc => 7
  | .hi => 8 | .ls => 9 | .ge => 10 | .lt => 11 | .gt => 12 | .le => 13 | .al => 14 | .nv => 15

/-- Shift type of a number (R184). -/
def ShiftType.ofCode (n : Nat) : ShiftType :=
  match n with
  | 0 => .lsl | 1 => .lsr | 2 => .asr | _ => .ror

/-- Number of a shift type (R184). -/
def ShiftType.code (t : ShiftType) : Nat :=
  match t with
  | .lsl => 0 | .lsr => 1 | .asr => 2 | .ror => 3

/-- Instruction class of `raw[27:26]` (R142): each of the four values has a meaning (R147). -/
def Cls.ofCode (n : Nat) : Cls :=
  match n with
  | 0 => .alu | 1 => .memory | 2 => .branch | _ => .noop

/-- ALU operation of an opcode number (R157). -/
def AluOp.ofCode (n : Nat) : AluOp :=
  match n with
  | 0 => .and | 1 => .eor | 2 => .sub | 3 => .rsb | 4 => .add | 5 => .adc | 6 => .sbc | 7 => .rsc
  | 8 => .tst | 9 => .teq | 10 => .cmp | 11 => .cmn | 12 => .orr | 13 => .mov | 14 => .bic | _ => .mvn

/-- Opcode number of an ALU operation (R157). -/
def AluOp.code (o : AluOp) : Nat :=
  match o with
  | .and => 0 | .eor => 1 | .sub => 2 | .rsb => 3 | .add => 4 | .adc => 5 | .sbc => 6 | .rsc => 7
  | .tst => 8 | .teq => 9 | .cmp => 10 | .cmn => 11 | .orr => 12 | .mov => 13 | .bic => 14 | .mvn => 15

/-- The condition field, common to all instructions (R141). -/
def condAt (w : Word) : Cond := Cond.ofCode (slice w 28 4)

/-- The shift-type field, bits 6:5 (R143, R144). -/
def shtypeAt (w : Word) : ShiftType := ShiftType.ofCode (slice w 5 2)

/-- The immediate shift amount, bits 11:7 (R143, R144). -/
def shamtAt (w : Word) : BitVec 5 := BitVec.ofNat 5 (slice w 7 5)

/-- The end-of-stream sentinel (R149). -/
def sentinelWord : Word := 0xFFFFFFFF

/-- ALU class: `raw[24:21]` chooses the operation, `raw[25]` and `raw[4]` the operand layout (R158). -/
def decodeAlu (w : Word) : Instr :=
  let op := AluOp.ofCode (slice w 21 4)
  if bitOf w 25 then
    if bitOf w 4 then Instr.aluShReg op (condAt w) (bitOf w 20) (regAt w 16) (regAt w 12) (regAt w 8) (shtypeAt w) (regAt w 0)
    else Instr.aluShImm op (condAt w) (bitOf w 20) (regAt w 16) (regAt w 12) (shamtAt w) (shtypeAt w) (regAt w 0)
  else Instr.aluImm op (condAt w) (bitOf w 20) (regAt w 16) (regAt w 12) (BitVec.ofNat 8 (slice w 0 8))

/-- Memory class: `raw[21]` chooses LDR or STR, `raw[25]` the offset layout (R158). -/
def decodeMemory (w : Word) : Instr :=
  let p := bitOf w 24
  let u := bitOf w 23
  let wb := bitOf w 22
  let imm12 := BitVec.ofNat 12 (slice w 0 12)
  if bitOf w 25 then
    if bitOf w 21 then .ldrReg (condAt w) p u wb (regAt w 16) (regAt w 12) (shamtAt w) (shtypeAt w) (regAt w 0)
    else .strReg (condAt w) p u wb (regAt w 16) (regAt w 12) (shamtAt w) (shtypeAt w) (regAt w 0)
  else
    if bitOf w 21 then .ldrImm (condAt w) p u wb (regAt w 16) (regAt w 12) imm12
    else .strImm (condAt w) p u wb (regAt w 16) (regAt w 12) imm12

/-- Branch class: `raw[25]` chooses the target, `raw[24]` whether it links (R158). -/
def decodeBranch (w : Word) : Instr :=
  let imm24 := BitVec.ofNat 24 (slice w 0 24)
  if bitOf w 25 then
    if bitOf w 24 then .blx (condAt w) (regAt w 0) else .bx (condAt w) (regAt w 0)
  else
    if bitOf w 24 then .bl (condAt w) imm24 else .b (condAt w) imm24

/-- The decoder: a total function, since every 32-bit word decodes (R147). END lies inside NOP and takes priority
(R149, R158). -/
def decode (w : Word) : Instr :=
  if w = sentinelWord then .endStream
  else
    match Cls.ofCode (slice w 26 2) with
    | .alu => decodeAlu w
    | .memory => decodeMemory w
    | .branch => decodeBranch w
    | .noop => .nop (condAt w)

/-- Why a string of bytes is no instruction. The only reason: R147 gives every 32-bit word a meaning. -/
inductive DecodeReject where
  /-- fewer than the four bytes of an instruction word (R140) were left; safe: nothing is run -/
  | truncated (count : Nat)
  deriving DecidableEq, Repr

/-- The word of four bytes, least significant byte first (R67, the byte view). -/
def wordOfBytes (b0 b1 b2 b3 : Byte) : Word :=
  BitVec.ofNat 32 (b0.toNat + b1.toNat * 2 ^ 8 + b2.toNat * 2 ^ 16 + b3.toNat * 2 ^ 24)

/-- Byte `j` of a word: bits `8j+7 : 8j` (R67). -/
def byteOfWord (w : Word) (j : Nat) : Byte := BitVec.ofNat 8 (slice w (8 * j) 8)

/-- The decoder on a string of bytes as the byte view of memory holds them (R67): the first instruction and the bytes
left, or the reason there is none. -/
def decodeBytes (bs : List Byte) : Except DecodeReject (Instr × List Byte) :=
  match bs with
  | b0 :: b1 :: b2 :: b3 :: rest => .ok (decode (wordOfBytes b0 b1 b2 b3), rest)
  | _ => .error (.truncated bs.length)

/-- The host's question: the instruction whose bits, numbered as the opcode table numbers them, are `w`. Bits above `nbits`
are 0; an instruction has 32 bits (R140). -/
def decodeTableWord (nbits w : Nat) : Option Instr :=
  let word : Word := BitVec.ofNat 32 (w % 2 ^ nbits)
  if nbits ≤ 32 then
    match decodeBytes [byteOfWord word 0, byteOfWord word 1, byteOfWord word 2, byteOfWord word 3] with
    | .ok (i, _) => some i
    | .error _ => none
  else none

/-! ### The decoded fields of a record (R33) -/

/-- Fields that the three ALU layouts share (R150): `rn` is tagged used for every opcode, `rd` unless the opcode is in 8 to 11. -/
def aluFields (op : AluOp) (cond : Cond) (sf : Bool) (rd rn : Reg) : Fields :=
  { cond := cond, cls := .alu, opcode := BitVec.ofNat 4 op.code, s := sf,
    rd := rd, rdUsed := !(decide (8 ≤ op.code) && decide (op.code ≤ 11)), rn := rn, rnUsed := true }

/-- R150 with `R` = 0. -/
def aluImmFields (op : AluOp) (cond : Cond) (sf : Bool) (rd rn : Reg) (imm8 : BitVec 8) : Fields :=
  { aluFields op cond sf rd rn with imm := imm8.setWidth 32 }

/-- R150 with `R` = 1 and bit 4 = 0. -/
def aluShImmFields (op : AluOp) (cond : Cond) (sf : Bool) (rd rn : Reg) (shamt : BitVec 5) (shtype : ShiftType)
    (rm : Reg) : Fields :=
  { aluFields op cond sf rd rn with regOperand := true, rm := rm, rmUsed := true, shtype := shtype, shamt := shamt }

/-- R150 with `R` = 1 and bit 4 = 1. -/
def aluShRegFields (op : AluOp) (cond : Cond) (sf : Bool) (rd rn rs : Reg) (shtype : ShiftType) (rm : Reg) : Fields :=
  { aluFields op cond sf rd rn with
    regOperand := true, rm := rm, rmUsed := true, shtype := shtype, regshift := true, rs := rs, rsUsed := true }

/-- Fields that the two Memory layouts share (R151): `rd` is tagged used for loads and stores. -/
def memFields (cond : Cond) (p u wb l : Bool) (rd rn : Reg) : Fields :=
  { cond := cond, cls := .memory, p := p, u := u, wb := wb, l := l, rd := rd, rdUsed := true, rn := rn, rnUsed := true }

/-- R151 with `R` = 0: the offset is sign-extended (R154). -/
def memImmFields (cond : Cond) (p u wb l : Bool) (rd rn : Reg) (imm12 : BitVec 12) : Fields :=
  { memFields cond p u wb l rd rn with imm := imm12.signExtend 32 }

/-- R151 with `R` = 1. -/
def memRegFields (cond : Cond) (p u wb l : Bool) (rd rn : Reg) (shamt : BitVec 5) (shtype : ShiftType) (rm : Reg) : Fields :=
  { memFields cond p u wb l rd rn with regOperand := true, rm := rm, rmUsed := true, shtype := shtype, shamt := shamt }

/-- R152 with `R` = 0: the destination index is 15 and is tagged used; the offset is sign-extended (R154). -/
def branchImmFields (cond : Cond) (link : Bool) (imm24 : BitVec 24) : Fields :=
  { cond := cond, cls := .branch, link := link, rd := regPC, rdUsed := true, imm := imm24.signExtend 32 }

/-- R152 with `R` = 1. -/
def branchRegFields (cond : Cond) (link : Bool) (rm : Reg) : Fields :=
  { cond := cond, cls := .branch, link := link, rd := regPC, rdUsed := true, regOperand := true, rm := rm, rmUsed := true }

/-- R153: no field is extracted. -/
def noopFields (cond : Cond) : Fields := { cond := cond, cls := .noop }

/-- The decoded fields of an instruction (R33, R150 to R153). The sentinel decodes as class No-op with condition 15 (R149). -/
def Instr.fields (i : Instr) : Fields :=
  match i with
  | .andImm cond sf rd rn imm8 => aluImmFields .and cond sf rd rn imm8
  | .andShImm cond sf rd rn shamt shtype rm => aluShImmFields .and cond sf rd rn shamt shtype rm
  | .andShReg cond sf rd rn rs shtype rm => aluShRegFields .and cond sf rd rn rs shtype rm
  | .eorImm cond sf rd rn imm8 => aluImmFields .eor cond sf rd rn imm8
  | .eorShImm cond sf rd rn shamt shtype rm => aluShImmFields .eor cond sf rd rn shamt shtype rm
  | .eorShReg cond sf rd rn rs shtype rm => aluShRegFields .eor cond sf rd rn rs shtype rm
  | .subImm cond sf rd rn imm8 => aluImmFields .sub cond sf rd rn imm8
  | .subShImm cond sf rd rn shamt shtype rm => aluShImmFields .sub cond sf rd rn shamt shtype rm
  | .subShReg cond sf rd rn rs shtype rm => aluShRegFields .sub cond sf rd rn rs shtype rm
  | .rsbImm cond sf rd rn imm8 => aluImmFields .rsb cond sf rd rn imm8
  | .rsbShImm cond sf rd rn shamt shtype rm => aluShImmFields .rsb cond sf rd rn shamt shtype rm
  | .rsbShReg cond sf rd rn rs shtype rm => aluShRegFields .rsb cond sf rd rn rs shtype rm
  | .addImm cond sf rd rn imm8 => aluImmFields .add cond sf rd rn imm8
  | .addShImm cond sf rd rn shamt shtype rm => aluShImmFields .add cond sf rd rn shamt shtype rm
  | .addShReg cond sf rd rn rs shtype rm => aluShRegFields .add cond sf rd rn rs shtype rm
  | .adcImm cond sf rd rn imm8 => aluImmFields .adc cond sf rd rn imm8
  | .adcShImm cond sf rd rn shamt shtype rm => aluShImmFields .adc cond sf rd rn shamt shtype rm
  | .adcShReg cond sf rd rn rs shtype rm => aluShRegFields .adc cond sf rd rn rs shtype rm
  | .sbcImm cond sf rd rn imm8 => aluImmFields .sbc cond sf rd rn imm8
  | .sbcShImm cond sf rd rn shamt shtype rm => aluShImmFields .sbc cond sf rd rn shamt shtype rm
  | .sbcShReg cond sf rd rn rs shtype rm => aluShRegFields .sbc cond sf rd rn rs shtype rm
  | .rscImm cond sf rd rn imm8 => aluImmFields .rsc cond sf rd rn imm8
  | .rscShImm cond sf rd rn shamt shtype rm => aluShImmFields .rsc cond sf rd rn shamt shtype rm
  | .rscShReg cond sf rd rn rs shtype rm => aluShRegFields .rsc cond sf rd rn rs shtype rm
  | .tstImm cond sf rd rn imm8 => aluImmFields .tst cond sf rd rn imm8
  | .tstShImm cond sf rd rn shamt shtype rm => aluShImmFields .tst cond sf rd rn shamt shtype rm
  | .tstShReg cond sf rd rn rs shtype rm => aluShRegFields .tst cond sf rd rn rs shtype rm
  | .teqImm cond sf rd rn imm8 => aluImmFields .teq cond sf rd rn imm8
  | .teqShImm cond sf rd rn shamt shtype rm => aluShImmFields .teq cond sf rd rn shamt shtype rm
  | .teqShReg cond sf rd rn rs shtype rm => aluShRegFields .teq cond sf rd rn rs shtype rm
  | .cmpImm cond sf rd rn imm8 => aluImmFields .cmp cond sf rd rn imm8
  | .cmpShImm cond sf rd rn shamt shtype rm => aluShImmFields .cmp cond sf rd rn shamt shtype rm
  | .cmpShReg cond sf rd rn rs shtype rm => aluShRegFields .cmp cond sf rd rn rs shtype rm
  | .cmnImm cond sf rd rn imm8 => aluImmFields .cmn cond sf rd rn imm8
  | .cmnShImm cond sf rd rn shamt shtype rm => aluShImmFields .cmn cond sf rd rn shamt shtype rm
  | .cmnShReg cond sf rd rn rs shtype rm => aluShRegFields .cmn cond sf rd rn rs shtype rm
  | .orrImm cond sf rd rn imm8 => aluImmFields .orr cond sf rd rn imm8
  | .orrShImm cond sf rd rn shamt shtype rm => aluShImmFields .orr cond sf rd rn shamt shtype rm
  | .orrShReg cond sf rd rn rs shtype rm => aluShRegFields .orr cond sf rd rn rs shtype rm
  | .movImm cond sf rd rn imm8 => aluImmFields .mov cond sf rd rn imm8
  | .movShImm cond sf rd rn shamt shtype rm => aluShImmFields .mov cond sf rd rn shamt shtype rm
  | .movShReg cond sf rd rn rs shtype rm => aluShRegFields .mov cond sf rd rn rs shtype rm
  | .bicImm cond sf rd rn imm8 => aluImmFields .bic cond sf rd rn imm8
  | .bicShImm cond sf rd rn shamt shtype rm => aluShImmFields .bic cond sf rd rn shamt shtype rm
  | .bicShReg cond sf rd rn rs shtype rm => aluShRegFields .bic cond sf rd rn rs shtype rm
  | .mvnImm cond sf rd rn imm8 => aluImmFields .mvn cond sf rd rn imm8
  | .mvnShImm cond sf rd rn shamt shtype rm => aluShImmFields .mvn cond sf rd rn shamt shtype rm
  | .mvnShReg cond sf rd rn rs shtype rm => aluShRegFields .mvn cond sf rd rn rs shtype rm
  | .ldrImm cond p u wb rd rn imm12 => memImmFields cond p u wb true rd rn imm12
  | .ldrReg cond p u wb rd rn shamt shtype rm => memRegFields cond p u wb true rd rn shamt shtype rm
  | .strImm cond p u wb rd rn imm12 => memImmFields cond p u wb false rd rn imm12
  | .strReg cond p u wb rd rn shamt shtype rm => memRegFields cond p u wb false rd rn shamt shtype rm
  | .b cond imm24 => branchImmFields cond false imm24
  | .bl cond imm24 => branchImmFields cond true imm24
  | .bx cond rm => branchRegFields cond false rm
  | .blx cond rm => branchRegFields cond true rm
  | .nop cond => noopFields cond
  | .endStream => noopFields .nv

/-- The register-use set of a record (R155); 14 is added for a linking branch. -/
def Fields.uses (f : Fields) : List Reg :=
  (if f.rdUsed then [f.rd] else []) ++ (if f.rnUsed then [f.rn] else []) ++ (if f.rmUsed then [f.rm] else []) ++
    (if f.rsUsed then [f.rs] else []) ++ (if f.cls == .branch && f.link then [regLR] else [])

/-- `uses(I)` (R155). -/
def Instr.uses (i : Instr) : List Reg := i.fields.uses

/-! ### The encoder -/

/-- ALU format, `R` = 0 (R143); the ignored bits 11:8 are written 0. -/
def packAluImm (op : AluOp) (cond : Cond) (sf : Bool) (rd rn : Reg) (imm8 : BitVec 8) : Word :=
  BitVec.ofNat 32 (cond.code * 2 ^ 28 + op.code * 2 ^ 21 + sf.toNat * 2 ^ 20 + rd.val * 2 ^ 16 + rn.val * 2 ^ 12 + imm8.toNat)

/-- ALU format, `R` = 1, bit 4 = 0 (R143). -/
def packAluShImm (op : AluOp) (cond : Cond) (sf : Bool) (rd rn : Reg) (shamt : BitVec 5) (shtype : ShiftType) (rm : Reg) : Word :=
  BitVec.ofNat 32 (cond.code * 2 ^ 28 + 2 ^ 25 + op.code * 2 ^ 21 + sf.toNat * 2 ^ 20 + rd.val * 2 ^ 16 + rn.val * 2 ^ 12 +
    shamt.toNat * 2 ^ 7 + shtype.code * 2 ^ 5 + rm.val)

/-- ALU format, `R` = 1, bit 4 = 1 (R143); the ignored bit 7 is written 0. -/
def packAluShReg (op : AluOp) (cond : Cond) (sf : Bool) (rd rn rs : Reg) (shtype : ShiftType) (rm : Reg) : Word :=
  BitVec.ofNat 32 (cond.code * 2 ^ 28 + 2 ^ 25 + op.code * 2 ^ 21 + sf.toNat * 2 ^ 20 + rd.val * 2 ^ 16 + rn.val * 2 ^ 12 +
    rs.val * 2 ^ 8 + shtype.code * 2 ^ 5 + 2 ^ 4 + rm.val)

/-- Memory format, `R` = 0 (R144); the ignored bit 20 is written 0. -/
def packMemImm (cond : Cond) (p u wb l : Bool) (rd rn : Reg) (imm12 : BitVec 12) : Word :=
  BitVec.ofNat 32 (cond.code * 2 ^ 28 + 2 ^ 26 + p.toNat * 2 ^ 24 + u.toNat * 2 ^ 23 + wb.toNat * 2 ^ 22 + l.toNat * 2 ^ 21 +
    rd.val * 2 ^ 16 + rn.val * 2 ^ 12 + imm12.toNat)

/-- Memory format, `R` = 1 (R144); the ignored bits 20 and 4 are written 0. -/
def packMemReg (cond : Cond) (p u wb l : Bool) (rd rn : Reg) (shamt : BitVec 5) (shtype : ShiftType) (rm : Reg) : Word :=
  BitVec.ofNat 32 (cond.code * 2 ^ 28 + 2 ^ 26 + 2 ^ 25 + p.toNat * 2 ^ 24 + u.toNat * 2 ^ 23 + wb.toNat * 2 ^ 22 + l.toNat * 2 ^ 21 +
    rd.val * 2 ^ 16 + rn.val * 2 ^ 12 + shamt.toNat * 2 ^ 7 + shtype.code * 2 ^ 5 + rm.val)

/-- Branch format, `R` = 0 (R145). -/
def packBranchImm (cond : Cond) (link : Bool) (imm24 : BitVec 24) : Word :=
  BitVec.ofNat 32 (cond.code * 2 ^ 28 + 2 ^ 27 + link.toNat * 2 ^ 24 + imm24.toNat)

/-- Branch format, `R` = 1 (R145); the ignored bits 23:4 are written 0. -/
def packBranchReg (cond : Cond) (link : Bool) (rm : Reg) : Word :=
  BitVec.ofNat 32 (cond.code * 2 ^ 28 + 2 ^ 27 + 2 ^ 25 + link.toNat * 2 ^ 24 + rm.val)

/-- No-op format (R146); the ignored bits 25:0 are written 0. -/
def packNoop (cond : Cond) : Word := BitVec.ofNat 32 (cond.code * 2 ^ 28 + 2 ^ 27 + 2 ^ 26)

/-- The word of an instruction, every ignored bit written 0 (R143 to R146, R148, R149). -/
def encode (i : Instr) : Word :=
  match i with
  | .andImm cond sf rd rn imm8 => packAluImm .and cond sf rd rn imm8
  | .andShImm cond sf rd rn shamt shtype rm => packAluShImm .and cond sf rd rn shamt shtype rm
  | .andShReg cond sf rd rn rs shtype rm => packAluShReg .and cond sf rd rn rs shtype rm
  | .eorImm cond sf rd rn imm8 => packAluImm .eor cond sf rd rn imm8
  | .eorShImm cond sf rd rn shamt shtype rm => packAluShImm .eor cond sf rd rn shamt shtype rm
  | .eorShReg cond sf rd rn rs shtype rm => packAluShReg .eor cond sf rd rn rs shtype rm
  | .subImm cond sf rd rn imm8 => packAluImm .sub cond sf rd rn imm8
  | .subShImm cond sf rd rn shamt shtype rm => packAluShImm .sub cond sf rd rn shamt shtype rm
  | .subShReg cond sf rd rn rs shtype rm => packAluShReg .sub cond sf rd rn rs shtype rm
  | .rsbImm cond sf rd rn imm8 => packAluImm .rsb cond sf rd rn imm8
  | .rsbShImm cond sf rd rn shamt shtype rm => packAluShImm .rsb cond sf rd rn shamt shtype rm
  | .rsbShReg cond sf rd rn rs shtype rm => packAluShReg .rsb cond sf rd rn rs shtype rm
  | .addImm cond sf rd rn imm8 => packAluImm .add cond sf rd rn imm8
  | .addShImm cond sf rd rn shamt shtype rm => packAluShImm .add cond sf rd rn shamt shtype rm
  | .addShReg cond sf rd rn rs shtype rm => packAluShReg .add cond sf rd rn rs shtype rm
  | .adcImm cond sf rd rn imm8 => packAluImm .adc cond sf rd rn imm8
  | .adcShImm cond sf rd rn shamt shtype rm => packAluShImm .adc cond sf rd rn shamt shtype rm
  | .adcShReg cond sf rd rn rs shtype rm => packAluShReg .adc cond sf rd rn rs shtype rm
  | .sbcImm cond sf rd rn imm8 => packAluImm .sbc cond sf rd rn imm8
  | .sbcShImm cond sf rd rn shamt shtype rm => packAluShImm .sbc cond sf rd rn shamt shtype rm
  | .sbcShReg cond sf rd rn rs shtype rm => packAluShReg .sbc cond sf rd rn rs shtype rm
  | .rscImm cond sf rd rn imm8 => packAluImm .rsc cond sf rd rn imm8
  | .rscShImm cond sf rd rn shamt shtype rm => packAluShImm .rsc cond sf rd rn shamt shtype rm
  | .rscShReg cond sf rd rn rs shtype rm => packAluShReg .rsc cond sf rd rn rs shtype rm
  | .tstImm cond sf rd rn imm8 => packAluImm .tst cond sf rd rn imm8
  | .tstShImm cond sf rd rn shamt shtype rm => packAluShImm .tst cond sf rd rn shamt shtype rm
  | .tstShReg cond sf rd rn rs shtype rm => packAluShReg .tst cond sf rd rn rs shtype rm
  | .teqImm cond sf rd rn imm8 => packAluImm .teq cond sf rd rn imm8
  | .teqShImm cond sf rd rn shamt shtype rm => packAluShImm .teq cond sf rd rn shamt shtype rm
  | .teqShReg cond sf rd rn rs shtype rm => packAluShReg .teq cond sf rd rn rs shtype rm
  | .cmpImm cond sf rd rn imm8 => packAluImm .cmp cond sf rd rn imm8
  | .cmpShImm cond sf rd rn shamt shtype rm => packAluShImm .cmp cond sf rd rn shamt shtype rm
  | .cmpShReg cond sf rd rn rs shtype rm => packAluShReg .cmp cond sf rd rn rs shtype rm
  | .cmnImm cond sf rd rn imm8 => packAluImm .cmn cond sf rd rn imm8
  | .cmnShImm cond sf rd rn shamt shtype rm => packAluShImm .cmn cond sf rd rn shamt shtype rm
  | .cmnShReg cond sf rd rn rs shtype rm => packAluShReg .cmn cond sf rd rn rs shtype rm
  | .orrImm cond sf rd rn imm8 => packAluImm .orr cond sf rd rn imm8
  | .orrShImm cond sf rd rn shamt shtype rm => packAluShImm .orr cond sf rd rn shamt shtype rm
  | .orrShReg cond sf rd rn rs shtype rm => packAluShReg .orr cond sf rd rn rs shtype rm
  | .movImm cond sf rd rn imm8 => packAluImm .mov cond sf rd rn imm8
  | .movShImm cond sf rd rn shamt shtype rm => packAluShImm .mov cond sf rd rn shamt shtype rm
  | .movShReg cond sf rd rn rs shtype rm => packAluShReg .mov cond sf rd rn rs shtype rm
  | .bicImm cond sf rd rn imm8 => packAluImm .bic cond sf rd rn imm8
  | .bicShImm cond sf rd rn shamt shtype rm => packAluShImm .bic cond sf rd rn shamt shtype rm
  | .bicShReg cond sf rd rn rs shtype rm => packAluShReg .bic cond sf rd rn rs shtype rm
  | .mvnImm cond sf rd rn imm8 => packAluImm .mvn cond sf rd rn imm8
  | .mvnShImm cond sf rd rn shamt shtype rm => packAluShImm .mvn cond sf rd rn shamt shtype rm
  | .mvnShReg cond sf rd rn rs shtype rm => packAluShReg .mvn cond sf rd rn rs shtype rm
  | .ldrImm cond p u wb rd rn imm12 => packMemImm cond p u wb true rd rn imm12
  | .ldrReg cond p u wb rd rn shamt shtype rm => packMemReg cond p u wb true rd rn shamt shtype rm
  | .strImm cond p u wb rd rn imm12 => packMemImm cond p u wb false rd rn imm12
  | .strReg cond p u wb rd rn shamt shtype rm => packMemReg cond p u wb false rd rn shamt shtype rm
  | .b cond imm24 => packBranchImm cond false imm24
  | .bl cond imm24 => packBranchImm cond true imm24
  | .bx cond rm => packBranchReg cond false rm
  | .blx cond rm => packBranchReg cond true rm
  | .nop cond => packNoop cond
  | .endStream => sentinelWord

/-- The bytes of an instruction in the byte view, least significant first (R67). -/
def encodeBytes (i : Instr) : List Byte :=
  [byteOfWord (encode i) 0, byteOfWord (encode i) 1, byteOfWord (encode i) 2, byteOfWord (encode i) 3]

end Sys2Proof
end

