-- ==== Sys2Proof/Machine/Geometry.lean ====
section
/-!
DEFINITION. The geometry of a memory level (R90), the quantities derived from it (R91), what makes it valid (R93), and
the address codec (R94, R95). Flat addresses are word addresses (R62), held as natural numbers.
-/

namespace Sys2Proof.Machine

/-- The constructor parameters of one memory level (R90). `word_bits` is fixed at 32 (R6). -/
structure Geometry where
  /-- polls an access waits at this level before it is served (R120) -/
  latency : Nat
  /-- associativity -/
  ways : Nat
  /-- total size in bytes -/
  sizeBytes : Nat
  /-- line length in bytes -/
  lineBytes : Nat
  /-- the backing-store flag -/
  terminal : Bool
  deriving DecidableEq, Repr

/-- `ceil(log2 n)`, with `ceil(log2 1) = 0` (R91). -/
def ceilLog2 (n : Nat) : Nat := if n ≤ 1 then 0 else Nat.log2 (n - 1) + 1

/-- `words_per_line = line_bytes / 4` (R91). -/
def Geometry.wordsPerLine (g : Geometry) : Nat := g.lineBytes / 4

/-- `total_lines = size_bytes / line_bytes` (R91). -/
def Geometry.totalLines (g : Geometry) : Nat := g.sizeBytes / g.lineBytes

/-- `set_count = ceil(total_lines / ways)` (R91). -/
def Geometry.setCount (g : Geometry) : Nat := (g.totalLines + g.ways - 1) / g.ways

/-- `index_bits = ceil(log2 set_count)` (R91). -/
def Geometry.indexBits (g : Geometry) : Nat := ceilLog2 g.setCount

/-- `offset_bits = ceil(log2 words_per_line)` (R91). -/
def Geometry.offsetBits (g : Geometry) : Nat := ceilLog2 g.wordsPerLine

/-- `tag_bits = 32 - index_bits - offset_bits` (R91, R92). -/
def Geometry.tagBits (g : Geometry) : Nat := 32 - g.indexBits - g.offsetBits

/-- `offset(a)`: the low `offset_bits` bits (R94). -/
def Geometry.offset (g : Geometry) (a : Nat) : Nat := a % 2 ^ g.offsetBits

/-- `index(a)`: the `index_bits` bits above the offset (R94). -/
def Geometry.index (g : Geometry) (a : Nat) : Nat := a / 2 ^ g.offsetBits % 2 ^ g.indexBits

/-- `tag(a)`: the bits above the index (R94). -/
def Geometry.tag (g : Geometry) (a : Nat) : Nat := a / 2 ^ (g.offsetBits + g.indexBits)

/-- `encode(tag, index, offset) = (tag << index_bits | index) << offset_bits | offset` (R95). -/
def Geometry.encode (g : Geometry) (tag index offset : Nat) : Nat :=
  ((tag <<< g.indexBits ||| index) <<< g.offsetBits) ||| offset

/-- `base(a) = encode(tag(a), index(a), 0)`: the address of word 0 of the line that holds `a` (R95). -/
def Geometry.base (g : Geometry) (a : Nat) : Nat := g.encode (g.tag a) (g.index a) 0

/-- `n` is a power of two (1, 2, 4, …). -/
def isPow2 (n : Nat) : Bool := n != 0 && 2 ^ ceilLog2 n == n

/-- R93 line 1: `line_bytes` is a multiple of 4 and `words_per_line` is a power of two. -/
def Geometry.lineOk (g : Geometry) : Bool := g.lineBytes % 4 == 0 && isPow2 g.wordsPerLine

/-- R93 line 2: `size_bytes` is a multiple of `line_bytes`, `total_lines` is a multiple of `ways`, `ways ≥ 1`. -/
def Geometry.waysOk (g : Geometry) : Bool :=
  g.sizeBytes % g.lineBytes == 0 && g.totalLines % g.ways == 0 && decide (1 ≤ g.ways)

/-- R93 line 3: `set_count` is a power of two. -/
def Geometry.setsOk (g : Geometry) : Bool := isPow2 g.setCount

/-- R93 line 4: `index_bits + offset_bits ≤ 30`. -/
def Geometry.widthOk (g : Geometry) : Bool := decide (g.indexBits + g.offsetBits ≤ 30)

/-- A valid cache level taken alone: R93 lines 1 to 4, and not the terminal level (line 6). -/
def Geometry.cacheOk (g : Geometry) : Bool :=
  g.lineOk && g.waysOk && g.setsOk && g.widthOk && !g.terminal

/-- R93 line 5: down the chain `words_per_line` of a cache divides that of the next cache. -/
def linesNest : List Geometry → Bool
  | g :: g' :: rest => g'.wordsPerLine % g.wordsPerLine == 0 && linesNest (g' :: rest)
  | _ => true

/-- R93 for a whole chain: the caches, level 0 first, over the terminal level (whose size, ways and line length are
accepted and ignored, R116). `NLEVEL ≥ 1` holds by the form. -/
def chainOk (caches : List Geometry) (backing : Geometry) : Bool :=
  caches.all Geometry.cacheOk && linesNest caches && backing.terminal

end Sys2Proof.Machine
end

