-- ==== Sys2Proof/Machine/Sparse.lean ====
section
/-!
DEFINITION. Sparse total maps as plain data: a list of (key, value) pairs in ONE canonical form (keys strictly rising,
no entry equal to the default), so that equal maps are equal lists. The backing store (R116) and the per-address timers
(R120) are held in this form.
-/

namespace Sys2Proof.Machine

/-- The value at key `a`; an unlisted key reads as `d`. -/
def sparseGet {α : Type} (d : α) : List (Nat × α) → Nat → α
  | [], _ => d
  | (k, v) :: rest, a => if k = a then v else sparseGet d rest a

/-- Forget key `a`. -/
def sparseErase {α : Type} (m : List (Nat × α)) (a : Nat) : List (Nat × α) :=
  m.filter fun e => e.1 != a

/-- Put an entry before the first entry of a greater key. -/
def sparseInsert {α : Type} (a : Nat) (v : α) : List (Nat × α) → List (Nat × α)
  | [] => [(a, v)]
  | (k, x) :: rest => if a < k then (a, v) :: (k, x) :: rest else (k, x) :: sparseInsert a v rest

/-- Write `v` at key `a`; writing the default removes the entry. -/
def sparseSet {α : Type} [DecidableEq α] (d : α) (m : List (Nat × α)) (a : Nat) (v : α) : List (Nat × α) :=
  if v = d then sparseErase m a else sparseInsert a v (sparseErase m a)

/-- The canonical form: keys strictly rising, no entry equal to the default. -/
def sparseCanonical {α : Type} [DecidableEq α] (d : α) (m : List (Nat × α)) : Bool :=
  decide (m.Pairwise fun x y => x.1 < y.1) && m.all fun e => decide (e.2 ≠ d)

end Sys2Proof.Machine
end

