-- ==== Sys2Proof/Config.lean ====
section
/-!
DEFINITION. The implementation parameters of the CORE (R6): the memory chain, the initial contents of the backing store
(`mem0`) and the reset value of the program counter (`RESET_PC`). The type admits only chains valid by R93 (U7: a model
refuses the others).
-/

namespace Sys2Proof

open Sys2Proof.Machine

/-- A valid memory chain (R79, R93): the cache levels, level 0 first, and the terminal level. -/
structure Chain where
  /-- levels `0 .. NLEVEL-2` -/
  caches : List Geometry
  /-- level `NLEVEL-1`; only its latency has an effect (R116) -/
  backing : Geometry
  /-- R93 holds -/
  valid : chainOk caches backing = true
  deriving DecidableEq, Repr

/-- The parameters that fix one CORE (R6). -/
structure Config where
  /-- the memory chain -/
  chain : Chain
  /-- contents of the backing store at launch, as bytes by byte address; an unlisted byte is 0 -/
  mem0 : List (Nat × Byte)
  /-- `mem0` is in canonical form and inside the address space -/
  mem0Ok : (sparseCanonical 0 mem0 && mem0.all fun e => decide (e.1 < 2 ^ 32)) = true
  /-- value of `x[15]` after reset -/
  resetPc : Word
  deriving DecidableEq, Repr

/-- One terminal level of latency 0 and no cache: the chain the test vectors take unless they say otherwise (95).
DESIGN CHOICE (log 2). -/
def Chain.plain : Chain :=
  { caches := [], backing := { latency := 0, ways := 1, sizeBytes := 4, lineBytes := 4, terminal := true }, valid := rfl }

/-- The configuration `State.reset` is built from: the test vectors' chain, `mem0` = 0 everywhere, `RESET_PC` = 0 (R40).
DESIGN CHOICE (log 2, log 3). -/
def Config.plain : Config := { chain := Chain.plain, mem0 := [], mem0Ok := rfl, resetPc := 0 }

end Sys2Proof
end

