-- ==== Sys2Proof/Machine/State.lean ====
section
/-!
DEFINITION. The state of the CORE as plain data (10_state, R20 to R43): the register file, the flags, the cycle counter,
the halted latch, the five pipeline slots, the state of every memory level, and beside them the diagnostic stream (R38),
the inputs the host will give to the coming steps (R37) and two marks of the model's own that R262 needs inside one
step. The reasons a step can stop, and the state after reset.
-/

namespace Sys2Proof.Machine

/-- The four flags (R27). -/
structure Flags where
  /-- negative -/
  n : Bool
  /-- zero -/
  z : Bool
  /-- carry; after a subtraction, no borrow (R201) -/
  c : Bool
  /-- overflow -/
  v : Bool
  deriving DecidableEq, Repr

/-- The instruction record (R33): the fields written when fetch creates it and those the stages write. The decoded fields
are pure functions of `raw` (R33) and are read through `decode`. A field not yet written holds 0. -/
structure Record where
  /-- the 32-bit encoding -/
  raw : Word
  /-- the byte address the word was fetched from -/
  pc : Word
  /-- decode: the hazard check passed in this step and the snapshot was taken -/
  decoded : Bool := false
  /-- decode: snapshot of `x[rd]` -/
  vRd : Word := 0
  /-- decode: snapshot of `x[rn]` -/
  vRn : Word := 0
  /-- decode: snapshot of `x[rm]` -/
  vRm : Word := 0
  /-- decode: snapshot of `x[rs]` -/
  vRs : Word := 0
  /-- execute: the condition evaluated true -/
  pass : Bool := false
  /-- execute: ALU result, or the link value of a branch -/
  result : Word := 0
  /-- execute: the byte address of a Memory instruction -/
  addr : Word := 0
  /-- execute: the value for the base register of a Memory instruction -/
  wbval : Word := 0
  /-- memory: the word a load read -/
  loaded : Word := 0
  deriving DecidableEq, Repr

/-- A cache line (R96). -/
structure Line where
  /-- `words[0 .. words_per_line-1]` -/
  words : List Word
  /-- the tag -/
  tag : Nat
  /-- the contents differ from the next level -/
  dirty : Bool
  /-- occupancy; a line that is not occupied is empty -/
  occupied : Bool
  /-- least-recently-used rank, unbounded (R106) -/
  age : Nat
  deriving DecidableEq, Repr

/-- The state of one cache level (R36): its timers by flat address (0 where unlisted) and its sets of lines. -/
structure CacheState where
  /-- per-address timers (R120) -/
  timer : List (Nat × Nat)
  /-- `set_count` sets of `ways` lines (R101) -/
  sets : List (List Line)
  deriving DecidableEq, Repr

/-- The state of the terminal level (R36, R116): its timers and the backing store, held as bytes by byte address
(log 1), an unlisted byte reading 0 (log 3). -/
structure Backing where
  /-- per-address timers (R120) -/
  timer : List (Nat × Nat)
  /-- the store, in canonical form -/
  cells : List Host.Cell
  deriving DecidableEq, Repr

/-- The state of the whole memory chain (R36): the cache levels, level 0 first, and the terminal level. -/
structure Hierarchy where
  /-- levels `0 .. NLEVEL-2` -/
  caches : List CacheState
  /-- level `NLEVEL-1` -/
  backing : Backing
  deriving DecidableEq, Repr

/-- The kinds of diagnostic event (R301). -/
inductive DiagKind where
  /-- `MemRead` at a byte address that is not a multiple of 4 (R64, R66) -/
  | misalignedRead
  /-- `MemWrite` at a byte address that is not a multiple of 4 (R65, R66) -/
  | misalignedWrite
  /-- an unrecognised instruction class: no 32-bit word has one (R147), so nothing emits this kind -/
  | decodeError
  deriving DecidableEq, Repr

/-- One diagnostic event (R38, R301). -/
structure Diagnostic where
  /-- what happened -/
  kind : DiagKind
  /-- the byte address -/
  addr : Word
  deriving DecidableEq, Repr

/-- The inputs of one `step`, chosen by the host at every call (R37). -/
structure StepInput where
  /-- pipelined (true) or serial (false) operation (R279) -/
  usePipeline : Bool
  /-- access through the caches (true) or straight to the terminal level (false) (R71) -/
  useCache : Bool
  /-- a word that takes the place of the fetched one (R275, R280) -/
  inject : Option Word
  deriving DecidableEq, Repr

/-- The phases of R262 in which an instruction's own lines act, in the order of one step: the stage tags M, D, E and W of R9,
and the sentinel check of phase 2b. -/
inductive Phase where
  /-- phase 0: the `[M]` lines, on slot M -/
  | memory
  /-- phase 1: the `[D]` lines, on slot D -/
  | decode
  /-- phase 2: the `[E]` lines, on slot E -/
  | execute
  /-- phase 2b: the sentinel check, on slot D -/
  | sentinel
  /-- phase 3: the `[W]` lines, on slot W -/
  | writeback
  deriving DecidableEq, Repr

/-- The state of the CORE. -/
structure State where
  /-- the memory chain the CORE was built with; never changes (R79) -/
  chain : Chain
  /-- `x[0]` to `x[15]`; `x[15]` is the program counter (R20, R24) -/
  regs : Vector Word 16
  /-- N, Z, C, V (R27) -/
  flags : Flags
  /-- the cycle counter, unbounded (R30) -/
  cycle : Nat
  /-- the halted latch (R31) -/
  halted : Bool
  /-- slot F: the record fetched most recently; `none` is EMPTY (R32, R35) -/
  slotF : Option Record
  /-- slot D -/
  slotD : Option Record
  /-- slot E -/
  slotE : Option Record
  /-- slot M -/
  slotM : Option Record
  /-- slot W -/
  slotW : Option Record
  /-- the lines, timers and store of every memory level (R36) -/
  mem : Hierarchy
  /-- the diagnostic stream, oldest event first (R38) -/
  diags : List Diagnostic
  /-- the inputs the host has ready for the coming steps, the next step's first (R37; log 4) -/
  inputs : List StepInput
  /-- the inputs of a step for which `inputs` has none ready (R37; log 4) -/
  lines : StepInput
  /-- the model's own: the phase of R262 that `exec` is asked to act in; between steps, the first (log 5) -/
  phase : Phase
  /-- the model's own: the variable `mwait` of R262, false between steps (log 5) -/
  mwait : Bool
  deriving DecidableEq, Repr

/-- Reasons a step stops with a fault. There is none: the CORE has no exception, no trap and no error that stops it
(R300, R301, R303); an error becomes a no-op and a diagnostic event. -/
inductive Fault where
  deriving DecidableEq, Repr

/-- Reasons a step has no meaning. -/
inductive Refusal where
  /-- raised by an arm of `exec` for an instruction that has no meaning yet; no arm raises it now; safe -/
  | notModelled (mnemonic : String)
  deriving DecidableEq, Repr

/-- What a step answers (Host/Core.lean). -/
abbrev Result := Host.Outcome State Fault Refusal

/-- A never-filled line: not occupied, clean, age 0, tag 0, all words 0 (R43). -/
def Line.empty (wordsPerLine : Nat) : Line :=
  { words := List.replicate wordsPerLine 0, tag := 0, dirty := false, occupied := false, age := 0 }

/-- A cache level as constructed (R43). -/
def CacheState.initial (g : Geometry) : CacheState :=
  { timer := [], sets := List.replicate g.setCount (List.replicate g.ways (Line.empty g.wordsPerLine)) }

/-- The memory chain as constructed: every line empty, every timer 0, the store holding `mem0` (R43). -/
def Hierarchy.initial (c : Config) : Hierarchy :=
  { caches := c.chain.caches.map CacheState.initial, backing := { timer := [], cells := c.mem0 } }

/-- The inputs every test vector takes unless it says otherwise (95): pipelined, through the caches, nothing injected.
DESIGN CHOICE (log 4). -/
def StepInput.usual : StepInput := { usePipeline := true, useCache := true, inject := none }

/-- The state right after construction with the parameters `c` (R40 to R43, R320, R321). -/
def State.launch (c : Config) : State :=
  { chain := c.chain
    regs := (Vector.replicate 16 0).set 15 c.resetPc
    flags := { n := false, z := false, c := false, v := false }
    cycle := 0
    halted := false
    slotF := none
    slotD := none
    slotE := none
    slotM := none
    slotW := none
    mem := Hierarchy.initial c
    diags := []
    inputs := []
    lines := StepInput.usual
    phase := .memory
    mwait := false }

/-- The machine right after reset (R321), with the parameters of the test vectors (log 2). -/
def State.reset : State := State.launch Config.plain

end Sys2Proof.Machine
end

