-- ==== Sys2Proof/Machine/Cache.lean ====
section
/-!
DEFINITION. The memory chain at work (21_cache_hierarchy): lines, sets, victim choice and ageing, the terminal level, and
`Access` (R121), one call of which is one poll. Also the word a read returns when nothing is waited for (R72), which is the
model's read of memory.
-/

namespace Sys2Proof.Machine

/-! ### The backing store as bytes -/

/-- Read one byte of the store. -/
def readCell (cells : List Host.Cell) (a : Nat) : Byte := sparseGet 0 cells a

/-- Write one byte of the store, keeping its canonical form. -/
def writeCell (cells : List Host.Cell) (a : Nat) (v : Byte) : List Host.Cell := sparseSet 0 cells a v

/-- The store is in canonical form and holds no byte outside the 2^32 byte addresses (R61, R70). -/
def Memory.wf (cells : List Host.Cell) : Bool := sparseCanonical 0 cells && cells.all fun e => decide (e.1 < 2 ^ 32)

/-- The byte address of byte 0 of the word at flat address `wa`. The store has the 2^30 words of R70 and no others. -/
def byteAddr (wa : Nat) : Nat := wa % 2 ^ 30 * 4

/-- The word at flat address `wa`, least significant byte at the lowest address (R67, R116). -/
def readWord (cells : List Host.Cell) (wa : Nat) : Word :=
  wordOfBytes (readCell cells (byteAddr wa)) (readCell cells (byteAddr wa + 1)) (readCell cells (byteAddr wa + 2))
    (readCell cells (byteAddr wa + 3))

/-- Replace the word at flat address `wa` (R116). -/
def writeWord (cells : List Host.Cell) (wa : Nat) (v : Word) : List Host.Cell :=
  writeCell (writeCell (writeCell (writeCell cells (byteAddr wa) (byteOfWord v 0)) (byteAddr wa + 1) (byteOfWord v 1))
    (byteAddr wa + 2) (byteOfWord v 2)) (byteAddr wa + 3) (byteOfWord v 3)

/-- `[store[a], …, store[a+n-1]]` (R116). -/
def readWords (cells : List Host.Cell) (a : Nat) : Nat → List Word
  | 0 => []
  | n + 1 => readWord cells a :: readWords cells (a + 1) n

/-- `store[a+i] <- data[i]` for every `i` (R116). -/
def writeWords (cells : List Host.Cell) (a : Nat) : List Word → List Host.Cell
  | [] => cells
  | v :: rest => writeWords (writeWord cells a v) (a + 1) rest

/-! ### Lines -/

/-- `is_hit(tag)`: the tag matches and the line is occupied (R97). -/
def Line.isHit (l : Line) (tag : Nat) : Bool := l.occupied && l.tag == tag

/-- `words[o .. o+n-1]` (R98, R111). -/
def Line.read (l : Line) (o n : Nat) : List Word := (l.words.drop o).take n

/-- `words[o .. o+n-1] <- data`, which occupies the line (R99); the level marks it dirty (R111). -/
def Line.write (l : Line) (o : Nat) (data : List Word) : Line :=
  { l with words := l.words.take o ++ data ++ l.words.drop (o + data.length), occupied := true, dirty := true }

/-- `evict()`: empty, clean, age 0; words and tag stay (R100). -/
def Line.evict (l : Line) : Line := { l with occupied := false, dirty := false, age := 0 }

/-- The line after the block of tag `tag` is installed (R114). -/
def Line.fill (l : Line) (tag : Nat) (block : List Word) : Line :=
  { l with words := block, tag := tag, occupied := true, dirty := false }

/-! ### Sets -/

/-- `find_hit(tag)`: the lowest way that hits (R102). -/
def findHit : List Line → Nat → Option Nat
  | [], _ => none
  | l :: rest, tag => if l.isHit tag then some 0 else (findHit rest tag).map (· + 1)

/-- The lowest way that is empty, if any (R103). -/
def findEmpty : List Line → Option Nat
  | [] => none
  | l :: rest => if !l.occupied then some 0 else (findEmpty rest).map (· + 1)

/-- The scan of R104 from way `w` on, `v` being the way chosen so far and `age` its age: strictly greater ages only. -/
def oldestFrom (w v age : Nat) : List Line → Nat
  | [] => v
  | l :: rest => if age < l.age then oldestFrom (w + 1) w l.age rest else oldestFrom (w + 1) v age rest

/-- `find_LRU()`: an empty line first (lowest way), else the first line of the greatest age (R103, R104). -/
def findLRU (set : List Line) : Nat :=
  match findEmpty set with
  | some w => w
  | none =>
    match set with
    | [] => 0
    | l :: rest => oldestFrom 1 0 l.age rest

/-- The ageing of a line that is not the accessed one (R105). -/
def Line.older (l : Line) : Line := { l with age := l.age + 1 }

/-- `touch(set, w)`: the accessed line's age becomes 0, every other line's age rises by 1, occupied or not (R105). -/
def touch : List Line → Nat → List Line
  | [], _ => []
  | l :: rest, 0 => { l with age := 0 } :: rest.map Line.older
  | l :: rest, w + 1 => l.older :: touch rest w

/-! ### Access -/

/-- Reads and writes (R110). -/
inductive AccessKind where
  | read | write
  deriving DecidableEq, Repr

/-- One request to a level (R110): `n` words from flat address `addr`; `data` are the words of a write. -/
structure Request where
  /-- read or write -/
  kind : AccessKind
  /-- flat address of the first word -/
  addr : Nat
  /-- number of words -/
  n : Nat
  /-- the words of a write -/
  data : List Word
  deriving DecidableEq, Repr

/-- The result of one poll (R10, R64). -/
inductive Poll (α : Type) where
  /-- the access has not completed -/
  | waiting
  /-- it has completed with this answer -/
  | done (a : α)
  deriving DecidableEq, Repr

/-- The timer of flat address `a` (R120). -/
def timerAt (timer : List (Nat × Nat)) (a : Nat) : Nat := sparseGet 0 timer a

/-- Set the timer of flat address `a` (R120). -/
def setTimer (timer : List (Nat × Nat)) (a t : Nat) : List (Nat × Nat) := sparseSet 0 timer a t

/-- Steps 1 and 2 of R121 at the terminal level, of latency `latency` (R116). -/
def terminalAccess (latency : Nat) (r : Request) (b : Backing) : Poll (List Word) × Backing :=
  if timerAt b.timer r.addr < latency then
    (.waiting, { b with timer := setTimer b.timer r.addr (timerAt b.timer r.addr + 1) })
  else
    match r.kind with
    | .read => (.done (readWords b.cells r.addr r.n), { b with timer := setTimer b.timer r.addr 0 })
    | .write => (.done [], { timer := setTimer b.timer r.addr 0, cells := writeWords b.cells r.addr r.data })

/-- The set an index names (R101). -/
def CacheState.set (c : CacheState) (index : Nat) : List Line := c.sets.getD index []

/-- Replace the set an index names. -/
def CacheState.putSet (c : CacheState) (index : Nat) (lines : List Line) : CacheState :=
  { c with sets := c.sets.set index lines }

/-- Way `w` of a set. -/
def lineAt (lines : List Line) (w : Nat) : Line := lines.getD w (Line.empty 0)

/-- The line of way `w` after the access of step 4 of R121. -/
def Line.access (l : Line) (o : Nat) (r : Request) : Line :=
  match r.kind with
  | .read => l
  | .write => l.write o r.data

/-- Step 4 of R121: the access itself, on the resident line of way `w`; then `touch`, and the timer becomes 0. -/
def serve (g : Geometry) (r : Request) (w : Nat) (c : CacheState) : Poll (List Word) × CacheState :=
  let lines := c.set (g.index r.addr)
  let l := lineAt lines w
  let out := match r.kind with
    | .read => l.read (g.offset r.addr) r.n
    | .write => []
  let c1 := c.putSet (g.index r.addr) (touch (lines.set w (l.access (g.offset r.addr) r)) w)
  (.done out, { c1 with timer := setTimer c.timer r.addr 0 })

/-- The fill of R121 (R114): ask the next level for the line of `r.addr`, install it in way `v`, then serve. -/
def fillAndServe (g : Geometry) (next : Request → Hierarchy → Poll (List Word) × Hierarchy) (r : Request) (v : Nat)
    (c : CacheState) (h : Hierarchy) : Poll (List Word) × CacheState × Hierarchy :=
  match next { kind := .read, addr := g.base r.addr, n := g.wordsPerLine, data := [] } h with
  | (.waiting, h1) => (.waiting, c, h1)
  | (.done block, h1) =>
    let lines := c.set (g.index r.addr)
    let c1 := c.putSet (g.index r.addr) (lines.set v ((lineAt lines v).fill (g.tag r.addr) block))
    let (out, c2) := serve g r v c1
    (out, c2, h1)

/-- The miss of R121 (R112, R113): choose the victim; if it is occupied and dirty write it to the next level and evict it;
then fill. -/
def missAccess (g : Geometry) (next : Request → Hierarchy → Poll (List Word) × Hierarchy) (r : Request)
    (c : CacheState) (h : Hierarchy) : Poll (List Word) × CacheState × Hierarchy :=
  let lines := c.set (g.index r.addr)
  let v := findLRU lines
  let victim := lineAt lines v
  if victim.occupied && victim.dirty then
    match next { kind := .write, addr := g.encode victim.tag (g.index r.addr) 0, n := g.wordsPerLine, data := victim.words } h with
    | (.waiting, h1) => (.waiting, c, h1)
    | (.done _, h1) => fillAndServe g next r v (c.putSet (g.index r.addr) (lines.set v victim.evict)) h1
  else fillAndServe g next r v c h

/-- R121 at a cache level of geometry `g` over the level `next`: the latency gate first, whatever hits (R120). -/
def cacheAccess (g : Geometry) (next : Request → Hierarchy → Poll (List Word) × Hierarchy) (r : Request)
    (c : CacheState) (h : Hierarchy) : Poll (List Word) × CacheState × Hierarchy :=
  if timerAt c.timer r.addr < g.latency then
    (.waiting, { c with timer := setTimer c.timer r.addr (timerAt c.timer r.addr + 1) }, h)
  else
    match findHit (c.set (g.index r.addr)) (g.tag r.addr) with
    | some w =>
      let (out, c1) := serve g r w c
      (out, c1, h)
    | none => missAccess g next r c h

/-- `Access` (R121) on the chain of caches `gs`, level 0 first, over a terminal level of latency `latency`. With no
cache it is the terminal level alone, which is also what the bypass of R71 accesses. -/
def access (latency : Nat) : List Geometry → Request → Hierarchy → Poll (List Word) × Hierarchy
  | [], r, h =>
    let (out, b) := terminalAccess latency r h.backing
    (out, { h with backing := b })
  | g :: gs, r, h =>
    match h.caches with
    | [] =>
      let (out, b) := terminalAccess latency r h.backing
      (out, { h with backing := b })
    | c :: cs =>
      let (out, c1, h1) := cacheAccess g (access latency gs) r c { caches := cs, backing := h.backing }
      (out, { caches := c1 :: h1.caches, backing := h1.backing })

/-! ### What a read returns -/

/-- The word at flat address `a` as a completed read through the caches `gs` returns it (R72): the word of the first level
that holds it. Nothing is polled and nothing changes. -/
def viewWord : List Geometry → List CacheState → List Host.Cell → Nat → Word
  | g :: gs, c :: cs, cells, a =>
    match findHit (c.set (g.index a)) (g.tag a) with
    | some w => (lineAt (c.set (g.index a)) w).words.getD (g.offset a) 0
    | none => viewWord gs cs cells a
  | _, _, cells, a => readWord cells a

end Sys2Proof.Machine
end

