-- ==== Sys2Proof/Machine/Flags.lean ====
section
/-!
DEFINITION. Results and flags of the sixteen ALU operations (R200 to R217): the adder of R200, the two flag groups of R201,
and one function per opcode.
-/

namespace Sys2Proof.Machine

/-- What an ALU operation gives: the 32-bit result, and the adder's carry and overflow if it is of the arithmetic group. -/
structure AluOut where
  /-- the truncated 32-bit result -/
  value : Word
  /-- (carry, overflow) of `AddWithCarry`; `none` for the logical and move group -/
  adder : Option (Bool × Bool)
  deriving DecidableEq, Repr

/-- `AddWithCarry(p, q, cin)` (R200): exact unsigned and signed sums; carry and overflow are their truncation mismatches. -/
def addWithCarry (p q : Word) (cin : Bool) : AluOut :=
  let usum : Nat := p.toNat + q.toNat + cin.toNat
  let ssum : Int := p.toInt + q.toInt + cin.toNat
  let result : Word := BitVec.ofNat 32 usum
  { value := result, adder := some (decide (result.toNat ≠ usum), decide (result.toInt ≠ ssum)) }

/-- A result of the logical and move group (R201). -/
def logical (v : Word) : AluOut := { value := v, adder := none }

/-- The flags an operation writes when `S` = 1 (R201): N and Z from the result; C and V from the adder, or unchanged for the
logical and move group (R186: the shifter has no carry-out). -/
def AluOut.flags (o : AluOut) (f : Flags) : Flags :=
  match o.adder with
  | some (carry, overflow) => { n := o.value.msb, z := o.value == 0, c := carry, v := overflow }
  | none => { n := o.value.msb, z := o.value == 0, c := f.c, v := f.v }

/-- R202 AND: `a AND b`. -/
def aluAnd (a b : Word) (_c : Bool) : AluOut := logical (a &&& b)

/-- R203 EOR: `a XOR b`. -/
def aluEor (a b : Word) (_c : Bool) : AluOut := logical (a ^^^ b)

/-- R204 SUB: `AddWithCarry(a, NOT b, 1)`. -/
def aluSub (a b : Word) (_c : Bool) : AluOut := addWithCarry a (~~~b) true

/-- R205 RSB: `AddWithCarry(b, NOT a, 1)`. -/
def aluRsb (a b : Word) (_c : Bool) : AluOut := addWithCarry b (~~~a) true

/-- R206 ADD: `AddWithCarry(a, b, 0)`. -/
def aluAdd (a b : Word) (_c : Bool) : AluOut := addWithCarry a b false

/-- R207 ADC: `AddWithCarry(a, b, C)`. -/
def aluAdc (a b : Word) (c : Bool) : AluOut := addWithCarry a b c

/-- R208 SBC: `AddWithCarry(a, NOT b, C)`. -/
def aluSbc (a b : Word) (c : Bool) : AluOut := addWithCarry a (~~~b) c

/-- R209 RSC: `AddWithCarry(b, NOT a, C)`. -/
def aluRsc (a b : Word) (c : Bool) : AluOut := addWithCarry b (~~~a) c

/-- R210 TST: `a AND b`. -/
def aluTst (a b : Word) (_c : Bool) : AluOut := logical (a &&& b)

/-- R211 TEQ: `a XOR b`. -/
def aluTeq (a b : Word) (_c : Bool) : AluOut := logical (a ^^^ b)

/-- R212 CMP: `AddWithCarry(a, NOT b, 1)`. -/
def aluCmp (a b : Word) (_c : Bool) : AluOut := addWithCarry a (~~~b) true

/-- R213 CMN: `AddWithCarry(a, b, 0)`. -/
def aluCmn (a b : Word) (_c : Bool) : AluOut := addWithCarry a b false

/-- R214 ORR: `a OR b`. -/
def aluOrr (a b : Word) (_c : Bool) : AluOut := logical (a ||| b)

/-- R215 MOV: `b`. -/
def aluMov (_a b : Word) (_c : Bool) : AluOut := logical b

/-- R216 BIC: `a AND (NOT b)`. -/
def aluBic (a b : Word) (_c : Bool) : AluOut := logical (a &&& ~~~b)

/-- R217 MVN: `NOT b`. -/
def aluMvn (_a b : Word) (_c : Bool) : AluOut := logical (~~~b)

end Sys2Proof.Machine
end

