-- ==== Sys2Proof/Machine/Operands.lean ====
section
/-!
DEFINITION. The condition evaluator, the barrel shifter and operand assembly (40_condition_shifter_operands).
-/

namespace Sys2Proof.Machine

/-- `CondPass(c)` on the flags (R180). -/
def condPass (c : Cond) (f : Flags) : Bool :=
  match c with
  | .eq => f.z
  | .ne => !f.z
  | .cs => f.c
  | .cc => !f.c
  | .mi => f.n
  | .pl => !f.n
  | .vs => f.v
  | .vc => !f.v
  | .hi => f.c && !f.z
  | .ls => !f.c || f.z
  | .ge => f.n == f.v
  | .lt => f.n != f.v
  | .gt => !f.z && f.n == f.v
  | .le => f.z || f.n != f.v
  | .al => true
  | .nv => false

/-- `Shift(v, t, n)` for any amount (R184). A type is one of four, so the fallback of R185 is never reached. -/
def shift (v : Word) (t : ShiftType) (n : Nat) : Word :=
  match t with
  | .lsl => if 32 ≤ n then 0 else v <<< n
  | .lsr => if 32 ≤ n then 0 else v >>> n
  | .asr => if 32 ≤ n then (if v.msb then 0xFFFFFFFF else 0) else v.sshiftRight n
  | .ror => if n % 32 = 0 then v else (v >>> (n % 32)) ||| (v <<< (32 - n % 32))

/-- `Operand2(I)` (R187), from the snapshot of the record. A register amount is the whole 32-bit value. -/
def operand2 (f : Fields) (r : Record) : Word :=
  if f.regOperand then
    if f.regshift then shift r.vRm f.shtype r.vRs.toNat else shift r.vRm f.shtype f.shamt.toNat
  else f.imm

/-- `off` of R188. -/
def rawOffset (f : Fields) (r : Record) : Word :=
  if f.regOperand then shift r.vRm f.shtype f.shamt.toNat else f.imm

/-- `Offset(I)`: the effective offset `eo`, added or subtracted by `U` (R188). -/
def effectiveOffset (f : Fields) (r : Record) : Word :=
  if f.u then rawOffset f r else 0 - rawOffset f r

/-- The target of a branch (R240): relative to the branch's own address, or the snapshot of `rm`. -/
def branchTarget (f : Fields) (r : Record) : Word :=
  if f.regOperand then r.vRm else r.pc + f.imm

end Sys2Proof.Machine
end

