-- ==== Sys2Proof/Machine/Ops.lean ====
section
/-!
DEFINITION. The named operations the meanings are made of: the register file, the diagnostic event (all the CORE has in
the place of an exception, R301), the two processor-level memory operations (R64, R65), the stages as R262 runs them, and
the lines of the ALU, Memory, Branch and No-op classes by stage.
-/

namespace Sys2Proof.Machine

/-! ### Registers, inputs, diagnostics -/

/-- `x[i]` (R8, R20). -/
def State.reg (s : State) (i : Reg) : Word := s.regs[i]

/-- `x[i] <- v` (R8, R20). -/
def State.setReg (s : State) (i : Reg) (v : Word) : State := { s with regs := s.regs.set i v }

/-- The program counter, `x[15]` (R24). -/
def State.pc (s : State) : Word := s.reg regPC

/-- The inputs of the present step (R37). -/
def State.input (s : State) : StepInput := s.inputs.headD s.lines

/-- `diagnostic(kind, addr)`: append one event to the stream; nothing else changes (R301). -/
def State.diagnose (s : State) (kind : DiagKind) (addr : Word) : State :=
  { s with diags := s.diags ++ [{ kind := kind, addr := addr }] }

/-! ### Memory as the processor sees it -/

/-- The address is a multiple of 4 (R61). -/
def aligned (addr : Word) : Bool := slice addr 0 2 == 0

/-- The flat address of a byte address: `addr[31:2]` (R62). -/
def flatAddr (addr : Word) : Nat := addr.toNat / 4

/-- The levels an access goes through (R71): all caches, or none of them. -/
def State.path (s : State) (useCache : Bool) : List Geometry := if useCache then s.chain.caches else []

/-- One poll of the top level (R64, R65, R121). -/
def State.poll (s : State) (useCache : Bool) (r : Request) : Poll (List Word) × State :=
  let (out, m) := access s.chain.backing.latency (s.path useCache) r s.mem
  (out, { s with mem := m })

/-- `MemRead(addr)` (R64). A misaligned read completes at once with 0 and a diagnostic, and touches no level (R66). -/
def State.memRead (s : State) (useCache : Bool) (addr : Word) : Poll Word × State :=
  if aligned addr then
    match s.poll useCache { kind := .read, addr := flatAddr addr, n := 1, data := [] } with
    | (.waiting, s1) => (.waiting, s1)
    | (.done words, s1) => (.done (words.headD 0), s1)
  else (.done 0, s.diagnose .misalignedRead addr)

/-- `MemWrite(addr, v)` (R65). A misaligned write completes at once with a diagnostic and writes nothing (R66). -/
def State.memWrite (s : State) (useCache : Bool) (addr v : Word) : Poll Unit × State :=
  if aligned addr then
    match s.poll useCache { kind := .write, addr := flatAddr addr, n := 1, data := [v] } with
    | (.waiting, s1) => (.waiting, s1)
    | (.done _, s1) => (.done (), s1)
  else (.done (), s.diagnose .misalignedWrite addr)

/-- The word a completed `MemRead` of flat address `a` returns in this state (R72), through the caches or past them. -/
def State.wordAt (s : State) (useCache : Bool) (a : Nat) : Word :=
  viewWord (s.path useCache) s.mem.caches s.mem.backing.cells a

/-- The model's read of one byte of memory: byte `a mod 4` of the word that holds it (R67), as memory is seen with the
inputs of the present step. -/
def State.byteAt (s : State) (a : Word) : Byte := byteOfWord (s.wordAt s.input.useCache (flatAddr a)) (a.toNat % 4)

/-! ### Slots -/

/-- The instruction of a record: the decoder applied to its word (R33). -/
def Record.instr (r : Record) : Instr := decode r.raw

/-- `uses` of a slot; an EMPTY slot uses nothing (R35, R155). -/
def slotUses (slot : Option Record) : List Reg :=
  match slot with
  | none => []
  | some r => r.instr.uses

/-- The slot a phase works on (R262). -/
def State.slot (s : State) (p : Phase) : Option Record :=
  match p with
  | .memory => s.slotM
  | .decode => s.slotD
  | .execute => s.slotE
  | .sentinel => s.slotD
  | .writeback => s.slotW

/-- A flush: slots F and D become EMPTY (R269). -/
def State.flush (s : State) : State := { s with slotF := none, slotD := none }

/-- `busy`: the registers in use by the records in E, M and W (R266). -/
def State.busy (s : State) : List Reg := slotUses s.slotE ++ slotUses s.slotM ++ slotUses s.slotW

/-- No register of `uses` is busy (R266). -/
def State.hazardFree (s : State) (uses : List Reg) : Bool := uses.all fun i => !s.busy.contains i

/-- The record with the snapshots of its four registers taken (R266). -/
def State.snapshot (s : State) (f : Fields) (r : Record) : Record :=
  { r with decoded := true, vRd := s.reg f.rd, vRn := s.reg f.rn, vRm := s.reg f.rm, vRs := s.reg f.rs }

/-! ### The stages -/

/-- Phase 1 on the record in D (R262, R266): hold it, or take its snapshot. -/
def decodeStage (i : Instr) (s : State) : State :=
  match s.slotD with
  | none => s
  | some r =>
    if s.hazardFree i.uses then { s with slotD := some (s.snapshot i.fields r) }
    else { s with slotD := some { r with decoded := false } }

/-- Phase 2 on the record in E (R262, R268): evaluate the condition, keep it as `pass`, and if it is true perform the `[E]`
lines `e` on the record. -/
def executeStage (i : Instr) (e : Record → State → State) (s : State) : State :=
  match s.slotE with
  | none => s
  | some r =>
    let r1 := { r with pass := condPass i.fields.cond s.flags }
    let s1 := { s with slotE := some r1 }
    if r1.pass then e r1 s1 else s1

/-- Phase 0 on the record in M (R262, R264): the `[M]` lines `m`, if its condition passed. -/
def memoryStage (m : Record → State → State) (s : State) : State :=
  match s.slotM with
  | none => s
  | some r => if r.pass then m r s else s

/-- Phase 3 on the record in W (R262, R272): the `[W]` lines `w`, if its condition passed. -/
def writebackStage (w : Record → State → State) (s : State) : State :=
  match s.slotW with
  | none => s
  | some r => if r.pass then w r s else s

/-- Lines that do nothing. -/
def noLines (_r : Record) (s : State) : State := s

/-- The lines of instruction `i` for the phase the state is in: `m`, `e`, `w` its `[M]`, `[E]`, `[W]` lines (R9). Its `[D]`
lines are the hazard check and the snapshot, for every instruction (R266); phase 2b acts for END only (R252). -/
def stages (i : Instr) (m e w : Record → State → State) (s : State) : State :=
  match s.phase with
  | .memory => memoryStage m s
  | .decode => decodeStage i s
  | .execute => executeStage i e s
  | .sentinel => s
  | .writeback => writebackStage w s

/-! ### ALU class (R201) -/

/-- `[E]` of an ALU instruction: result, and the flags when `S` = 1. -/
def aluExecute (f : Fields) (op : Word → Word → Bool → AluOut) (r : Record) (s : State) : State :=
  let out := op r.vRn (operand2 f r) s.flags.c
  { s with
    slotE := some { r with result := out.value }
    flags := if f.s then out.flags s.flags else s.flags }

/-- `[W]` of an ALU instruction: the destination, unless the opcode is 8 to 11. -/
def aluWriteback (f : Fields) (r : Record) (s : State) : State :=
  if f.rdUsed then s.setReg f.rd r.result else s

/-- An ALU instruction of operation `op` (R201). -/
def aluMeaning (i : Instr) (op : Word → Word → Bool → AluOut) (s : State) : Result :=
  .next (stages i noLines (aluExecute i.fields op) (aluWriteback i.fields) s)

/-! ### Memory class (R230 to R232) -/

/-- `[E]` of a Memory instruction: `wbval` and `addr` (R230). -/
def memExecute (f : Fields) (r : Record) (s : State) : State :=
  let wbval := r.vRn + effectiveOffset f r
  { s with slotE := some { r with wbval := wbval, addr := if f.p then wbval else r.vRn } }

/-- `[M]` of a load (R231): one poll; the loaded word, or a wait. -/
def loadMemory (r : Record) (s : State) : State :=
  match s.memRead s.input.useCache r.addr with
  | (.waiting, s1) => { s1 with mwait := true }
  | (.done w, s1) => { s1 with slotM := some { r with loaded := w } }

/-- `[M]` of a store (R232): one poll; the store done, or a wait. -/
def storeMemory (r : Record) (s : State) : State :=
  match s.memWrite s.input.useCache r.addr r.vRd with
  | (.waiting, s1) => { s1 with mwait := true }
  | (.done _, s1) => s1

/-- The base update of a Memory instruction, if write-back is asked for (R231, R232, R272). -/
def baseWriteback (f : Fields) (r : Record) (s : State) : State :=
  if f.wb then s.setReg f.rn r.wbval else s

/-- `[W]` of a load: the base first, then the destination (R231). -/
def loadWriteback (f : Fields) (r : Record) (s : State) : State :=
  (baseWriteback f r s).setReg f.rd r.loaded

/-- A load (R231). -/
def loadMeaning (i : Instr) (s : State) : Result :=
  .next (stages i loadMemory (memExecute i.fields) (loadWriteback i.fields) s)

/-- A store (R232). -/
def storeMeaning (i : Instr) (s : State) : Result :=
  .next (stages i storeMemory (memExecute i.fields) (baseWriteback i.fields) s)

/-! ### Branch class (R240) -/

/-- `[E]` of a taken branch: the link value, the program counter, and the flush. -/
def branchExecute (f : Fields) (r : Record) (s : State) : State :=
  ({ s with slotE := some { r with result := r.pc + 4 } }.setReg regPC (branchTarget f r)).flush

/-- `[W]` of a branch: the link register, if it links; register 15 is not written here (R247). -/
def branchWriteback (f : Fields) (r : Record) (s : State) : State :=
  if f.link then s.setReg regLR r.result else s

/-- A branch (R240). -/
def branchMeaning (i : Instr) (s : State) : Result :=
  .next (stages i noLines (branchExecute i.fields) (branchWriteback i.fields) s)

/-! ### No-op class (R250, R252) -/

/-- NOP: the condition is evaluated, without effect (R250). -/
def noopMeaning (i : Instr) (s : State) : Result :=
  .next (stages i noLines noLines noLines s)

/-- The sentinel's own effect in phase 2b, on slot D (R252): halt and flush. -/
def sentinelStage (s : State) : State :=
  match s.slotD with
  | none => s
  | some _ => { s with halted := true }.flush

/-- END: a No-op in every stage, and in phase 2b the end of the stream (R252). -/
def sentinelMeaning (i : Instr) (s : State) : Result :=
  match s.phase with
  | .sentinel => .next (sentinelStage s)
  | _ => noopMeaning i s

end Sys2Proof.Machine
end

