-- ==== Sys2Proof/Machine/Alu.lean ====
section
/-!
DEFINITION. The meanings of the 48 ALU rows (R202 to R217), each one line over `aluMeaning` (R201) and the operation of its
opcode (Flags.lean).
-/

namespace Sys2Proof.Machine

/-- AND, immediate (R202). -/
def execAndImm (cond : Cond) (sf : Bool) (rd rn : Reg) (imm8 : BitVec 8) (st : State) : Result :=
  aluMeaning (.andImm cond sf rd rn imm8) aluAnd st

/-- AND, register, shift by immediate (R202). -/
def execAndShImm (cond : Cond) (sf : Bool) (rd rn : Reg) (shamt : BitVec 5) (shtype : ShiftType) (rm : Reg) (st : State) : Result :=
  aluMeaning (.andShImm cond sf rd rn shamt shtype rm) aluAnd st

/-- AND, register, shift by register (R202). -/
def execAndShReg (cond : Cond) (sf : Bool) (rd rn rs : Reg) (shtype : ShiftType) (rm : Reg) (st : State) : Result :=
  aluMeaning (.andShReg cond sf rd rn rs shtype rm) aluAnd st

/-- EOR, immediate (R203). -/
def execEorImm (cond : Cond) (sf : Bool) (rd rn : Reg) (imm8 : BitVec 8) (st : State) : Result :=
  aluMeaning (.eorImm cond sf rd rn imm8) aluEor st

/-- EOR, register, shift by immediate (R203). -/
def execEorShImm (cond : Cond) (sf : Bool) (rd rn : Reg) (shamt : BitVec 5) (shtype : ShiftType) (rm : Reg) (st : State) : Result :=
  aluMeaning (.eorShImm cond sf rd rn shamt shtype rm) aluEor st

/-- EOR, register, shift by register (R203). -/
def execEorShReg (cond : Cond) (sf : Bool) (rd rn rs : Reg) (shtype : ShiftType) (rm : Reg) (st : State) : Result :=
  aluMeaning (.eorShReg cond sf rd rn rs shtype rm) aluEor st

/-- SUB, immediate (R204). -/
def execSubImm (cond : Cond) (sf : Bool) (rd rn : Reg) (imm8 : BitVec 8) (st : State) : Result :=
  aluMeaning (.subImm cond sf rd rn imm8) aluSub st

/-- SUB, register, shift by immediate (R204). -/
def execSubShImm (cond : Cond) (sf : Bool) (rd rn : Reg) (shamt : BitVec 5) (shtype : ShiftType) (rm : Reg) (st : State) : Result :=
  aluMeaning (.subShImm cond sf rd rn shamt shtype rm) aluSub st

/-- SUB, register, shift by register (R204). -/
def execSubShReg (cond : Cond) (sf : Bool) (rd rn rs : Reg) (shtype : ShiftType) (rm : Reg) (st : State) : Result :=
  aluMeaning (.subShReg cond sf rd rn rs shtype rm) aluSub st

/-- RSB, immediate (R205). -/
def execRsbImm (cond : Cond) (sf : Bool) (rd rn : Reg) (imm8 : BitVec 8) (st : State) : Result :=
  aluMeaning (.rsbImm cond sf rd rn imm8) aluRsb st

/-- RSB, register, shift by immediate (R205). -/
def execRsbShImm (cond : Cond) (sf : Bool) (rd rn : Reg) (shamt : BitVec 5) (shtype : ShiftType) (rm : Reg) (st : State) : Result :=
  aluMeaning (.rsbShImm cond sf rd rn shamt shtype rm) aluRsb st

/-- RSB, register, shift by register (R205). -/
def execRsbShReg (cond : Cond) (sf : Bool) (rd rn rs : Reg) (shtype : ShiftType) (rm : Reg) (st : State) : Result :=
  aluMeaning (.rsbShReg cond sf rd rn rs shtype rm) aluRsb st

/-- ADD, immediate (R206). -/
def execAddImm (cond : Cond) (sf : Bool) (rd rn : Reg) (imm8 : BitVec 8) (st : State) : Result :=
  aluMeaning (.addImm cond sf rd rn imm8) aluAdd st

/-- ADD, register, shift by immediate (R206). -/
def execAddShImm (cond : Cond) (sf : Bool) (rd rn : Reg) (shamt : BitVec 5) (shtype : ShiftType) (rm : Reg) (st : State) : Result :=
  aluMeaning (.addShImm cond sf rd rn shamt shtype rm) aluAdd st

/-- ADD, register, shift by register (R206). -/
def execAddShReg (cond : Cond) (sf : Bool) (rd rn rs : Reg) (shtype : ShiftType) (rm : Reg) (st : State) : Result :=
  aluMeaning (.addShReg cond sf rd rn rs shtype rm) aluAdd st

/-- ADC, immediate (R207). -/
def execAdcImm (cond : Cond) (sf : Bool) (rd rn : Reg) (imm8 : BitVec 8) (st : State) : Result :=
  aluMeaning (.adcImm cond sf rd rn imm8) aluAdc st

/-- ADC, register, shift by immediate (R207). -/
def execAdcShImm (cond : Cond) (sf : Bool) (rd rn : Reg) (shamt : BitVec 5) (shtype : ShiftType) (rm : Reg) (st : State) : Result :=
  aluMeaning (.adcShImm cond sf rd rn shamt shtype rm) aluAdc st

/-- ADC, register, shift by register (R207). -/
def execAdcShReg (cond : Cond) (sf : Bool) (rd rn rs : Reg) (shtype : ShiftType) (rm : Reg) (st : State) : Result :=
  aluMeaning (.adcShReg cond sf rd rn rs shtype rm) aluAdc st

/-- SBC, immediate (R208). -/
def execSbcImm (cond : Cond) (sf : Bool) (rd rn : Reg) (imm8 : BitVec 8) (st : State) : Result :=
  aluMeaning (.sbcImm cond sf rd rn imm8) aluSbc st

/-- SBC, register, shift by immediate (R208). -/
def execSbcShImm (cond : Cond) (sf : Bool) (rd rn : Reg) (shamt : BitVec 5) (shtype : ShiftType) (rm : Reg) (st : State) : Result :=
  aluMeaning (.sbcShImm cond sf rd rn shamt shtype rm) aluSbc st

/-- SBC, register, shift by register (R208). -/
def execSbcShReg (cond : Cond) (sf : Bool) (rd rn rs : Reg) (shtype : ShiftType) (rm : Reg) (st : State) : Result :=
  aluMeaning (.sbcShReg cond sf rd rn rs shtype rm) aluSbc st

/-- RSC, immediate (R209). -/
def execRscImm (cond : Cond) (sf : Bool) (rd rn : Reg) (imm8 : BitVec 8) (st : State) : Result :=
  aluMeaning (.rscImm cond sf rd rn imm8) aluRsc st

/-- RSC, register, shift by immediate (R209). -/
def execRscShImm (cond : Cond) (sf : Bool) (rd rn : Reg) (shamt : BitVec 5) (shtype : ShiftType) (rm : Reg) (st : State) : Result :=
  aluMeaning (.rscShImm cond sf rd rn shamt shtype rm) aluRsc st

/-- RSC, register, shift by register (R209). -/
def execRscShReg (cond : Cond) (sf : Bool) (rd rn rs : Reg) (shtype : ShiftType) (rm : Reg) (st : State) : Result :=
  aluMeaning (.rscShReg cond sf rd rn rs shtype rm) aluRsc st

/-- TST, immediate (R210). -/
def execTstImm (cond : Cond) (sf : Bool) (rd rn : Reg) (imm8 : BitVec 8) (st : State) : Result :=
  aluMeaning (.tstImm cond sf rd rn imm8) aluTst st

/-- TST, register, shift by immediate (R210). -/
def execTstShImm (cond : Cond) (sf : Bool) (rd rn : Reg) (shamt : BitVec 5) (shtype : ShiftType) (rm : Reg) (st : State) : Result :=
  aluMeaning (.tstShImm cond sf rd rn shamt shtype rm) aluTst st

/-- TST, register, shift by register (R210). -/
def execTstShReg (cond : Cond) (sf : Bool) (rd rn rs : Reg) (shtype : ShiftType) (rm : Reg) (st : State) : Result :=
  aluMeaning (.tstShReg cond sf rd rn rs shtype rm) aluTst st

/-- TEQ, immediate (R211). -/
def execTeqImm (cond : Cond) (sf : Bool) (rd rn : Reg) (imm8 : BitVec 8) (st : State) : Result :=
  aluMeaning (.teqImm cond sf rd rn imm8) aluTeq st

/-- TEQ, register, shift by immediate (R211). -/
def execTeqShImm (cond : Cond) (sf : Bool) (rd rn : Reg) (shamt : BitVec 5) (shtype : ShiftType) (rm : Reg) (st : State) : Result :=
  aluMeaning (.teqShImm cond sf rd rn shamt shtype rm) aluTeq st

/-- TEQ, register, shift by register (R211). -/
def execTeqShReg (cond : Cond) (sf : Bool) (rd rn rs : Reg) (shtype : ShiftType) (rm : Reg) (st : State) : Result :=
  aluMeaning (.teqShReg cond sf rd rn rs shtype rm) aluTeq st

/-- CMP, immediate (R212). -/
def execCmpImm (cond : Cond) (sf : Bool) (rd rn : Reg) (imm8 : BitVec 8) (st : State) : Result :=
  aluMeaning (.cmpImm cond sf rd rn imm8) aluCmp st

/-- CMP, register, shift by immediate (R212). -/
def execCmpShImm (cond : Cond) (sf : Bool) (rd rn : Reg) (shamt : BitVec 5) (shtype : ShiftType) (rm : Reg) (st : State) : Result :=
  aluMeaning (.cmpShImm cond sf rd rn shamt shtype rm) aluCmp st

/-- CMP, register, shift by register (R212). -/
def execCmpShReg (cond : Cond) (sf : Bool) (rd rn rs : Reg) (shtype : ShiftType) (rm : Reg) (st : State) : Result :=
  aluMeaning (.cmpShReg cond sf rd rn rs shtype rm) aluCmp st

/-- CMN, immediate (R213). -/
def execCmnImm (cond : Cond) (sf : Bool) (rd rn : Reg) (imm8 : BitVec 8) (st : State) : Result :=
  aluMeaning (.cmnImm cond sf rd rn imm8) aluCmn st

/-- CMN, register, shift by immediate (R213). -/
def execCmnShImm (cond : Cond) (sf : Bool) (rd rn : Reg) (shamt : BitVec 5) (shtype : ShiftType) (rm : Reg) (st : State) : Result :=
  aluMeaning (.cmnShImm cond sf rd rn shamt shtype rm) aluCmn st

/-- CMN, register, shift by register (R213). -/
def execCmnShReg (cond : Cond) (sf : Bool) (rd rn rs : Reg) (shtype : ShiftType) (rm : Reg) (st : State) : Result :=
  aluMeaning (.cmnShReg cond sf rd rn rs shtype rm) aluCmn st

/-- ORR, immediate (R214). -/
def execOrrImm (cond : Cond) (sf : Bool) (rd rn : Reg) (imm8 : BitVec 8) (st : State) : Result :=
  aluMeaning (.orrImm cond sf rd rn imm8) aluOrr st

/-- ORR, register, shift by immediate (R214). -/
def execOrrShImm (cond : Cond) (sf : Bool) (rd rn : Reg) (shamt : BitVec 5) (shtype : ShiftType) (rm : Reg) (st : State) : Result :=
  aluMeaning (.orrShImm cond sf rd rn shamt shtype rm) aluOrr st

/-- ORR, register, shift by register (R214). -/
def execOrrShReg (cond : Cond) (sf : Bool) (rd rn rs : Reg) (shtype : ShiftType) (rm : Reg) (st : State) : Result :=
  aluMeaning (.orrShReg cond sf rd rn rs shtype rm) aluOrr st

/-- MOV, immediate (R215). -/
def execMovImm (cond : Cond) (sf : Bool) (rd rn : Reg) (imm8 : BitVec 8) (st : State) : Result :=
  aluMeaning (.movImm cond sf rd rn imm8) aluMov st

/-- MOV, register, shift by immediate (R215). -/
def execMovShImm (cond : Cond) (sf : Bool) (rd rn : Reg) (shamt : BitVec 5) (shtype : ShiftType) (rm : Reg) (st : State) : Result :=
  aluMeaning (.movShImm cond sf rd rn shamt shtype rm) aluMov st

/-- MOV, register, shift by register (R215). -/
def execMovShReg (cond : Cond) (sf : Bool) (rd rn rs : Reg) (shtype : ShiftType) (rm : Reg) (st : State) : Result :=
  aluMeaning (.movShReg cond sf rd rn rs shtype rm) aluMov st

/-- BIC, immediate (R216). -/
def execBicImm (cond : Cond) (sf : Bool) (rd rn : Reg) (imm8 : BitVec 8) (st : State) : Result :=
  aluMeaning (.bicImm cond sf rd rn imm8) aluBic st

/-- BIC, register, shift by immediate (R216). -/
def execBicShImm (cond : Cond) (sf : Bool) (rd rn : Reg) (shamt : BitVec 5) (shtype : ShiftType) (rm : Reg) (st : State) : Result :=
  aluMeaning (.bicShImm cond sf rd rn shamt shtype rm) aluBic st

/-- BIC, register, shift by register (R216). -/
def execBicShReg (cond : Cond) (sf : Bool) (rd rn rs : Reg) (shtype : ShiftType) (rm : Reg) (st : State) : Result :=
  aluMeaning (.bicShReg cond sf rd rn rs shtype rm) aluBic st

/-- MVN, immediate (R217). -/
def execMvnImm (cond : Cond) (sf : Bool) (rd rn : Reg) (imm8 : BitVec 8) (st : State) : Result :=
  aluMeaning (.mvnImm cond sf rd rn imm8) aluMvn st

/-- MVN, register, shift by immediate (R217). -/
def execMvnShImm (cond : Cond) (sf : Bool) (rd rn : Reg) (shamt : BitVec 5) (shtype : ShiftType) (rm : Reg) (st : State) : Result :=
  aluMeaning (.mvnShImm cond sf rd rn shamt shtype rm) aluMvn st

/-- MVN, register, shift by register (R217). -/
def execMvnShReg (cond : Cond) (sf : Bool) (rd rn rs : Reg) (shtype : ShiftType) (rm : Reg) (st : State) : Result :=
  aluMeaning (.mvnShReg cond sf rd rn rs shtype rm) aluMvn st

end Sys2Proof.Machine
end

