-- ==== Sys2Proof/Machine/Branch.lean ====
section
/-!
DEFINITION. The meanings of the Branch rows (R241 to R244), each over the shared branch of Ops.lean (R240).
-/

namespace Sys2Proof.Machine

/-- B, immediate (R241). -/
def execB (cond : Cond) (imm24 : BitVec 24) (st : State) : Result :=
  branchMeaning (.b cond imm24) st

/-- BL, immediate (R242). -/
def execBl (cond : Cond) (imm24 : BitVec 24) (st : State) : Result :=
  branchMeaning (.bl cond imm24) st

/-- BX, register (R243). -/
def execBx (cond : Cond) (rm : Reg) (st : State) : Result :=
  branchMeaning (.bx cond rm) st

/-- BLX, register (R244). -/
def execBlx (cond : Cond) (rm : Reg) (st : State) : Result :=
  branchMeaning (.blx cond rm) st

end Sys2Proof.Machine
end

