-- ==== Sys2Proof/Machine/LoadStore.lean ====
section
/-!
DEFINITION. The meanings of the Memory rows (R231, R232), each over the shared load or store of Ops.lean.
-/

namespace Sys2Proof.Machine

/-- LDR, immediate offset (R231). -/
def execLdrImm (cond : Cond) (p u wb : Bool) (rd rn : Reg) (imm12 : BitVec 12) (st : State) : Result :=
  loadMeaning (.ldrImm cond p u wb rd rn imm12) st

/-- LDR, register offset with shift (R231). -/
def execLdrReg (cond : Cond) (p u wb : Bool) (rd rn : Reg) (shamt : BitVec 5) (shtype : ShiftType) (rm : Reg) (st : State) : Result :=
  loadMeaning (.ldrReg cond p u wb rd rn shamt shtype rm) st

/-- STR, immediate offset (R232). -/
def execStrImm (cond : Cond) (p u wb : Bool) (rd rn : Reg) (imm12 : BitVec 12) (st : State) : Result :=
  storeMeaning (.strImm cond p u wb rd rn imm12) st

/-- STR, register offset with shift (R232). -/
def execStrReg (cond : Cond) (p u wb : Bool) (rd rn : Reg) (shamt : BitVec 5) (shtype : ShiftType) (rm : Reg) (st : State) : Result :=
  storeMeaning (.strReg cond p u wb rd rn shamt shtype rm) st

end Sys2Proof.Machine
end

