-- ==== Sys2Proof/Machine/Noop.lean ====
section
/-!
DEFINITION. The meanings of the No-op row and of the sentinel (R250, R252).
-/

namespace Sys2Proof.Machine

/-- NOP, any word of class 11 but the sentinel (R250). -/
def execNop (cond : Cond) (st : State) : Result :=
  noopMeaning (.nop cond) st

/-- END, sentinel (R252). -/
def execEndStream (st : State) : Result :=
  sentinelMeaning .endStream st

end Sys2Proof.Machine
end

