-- ==== Sys2Proof/Machine/Dispatch.lean ====
section
/-!
DEFINITION. One arm per instruction. `exec i s` performs, on the record in the slot that the state's phase works on, the
lines of `i` that R9 tags with that phase (R262).
-/

namespace Sys2Proof.Machine

def exec (i : Instr) (s : State) : Host.Outcome State Fault Refusal :=
  match i with
  | .andImm cond sf rd rn imm8 => Sys2Proof.Machine.execAndImm cond sf rd rn imm8 s
  | .andShImm cond sf rd rn shamt shtype rm => Sys2Proof.Machine.execAndShImm cond sf rd rn shamt shtype rm s
  | .andShReg cond sf rd rn rs shtype rm => Sys2Proof.Machine.execAndShReg cond sf rd rn rs shtype rm s
  | .eorImm cond sf rd rn imm8 => Sys2Proof.Machine.execEorImm cond sf rd rn imm8 s
  | .eorShImm cond sf rd rn shamt shtype rm => Sys2Proof.Machine.execEorShImm cond sf rd rn shamt shtype rm s
  | .eorShReg cond sf rd rn rs shtype rm => Sys2Proof.Machine.execEorShReg cond sf rd rn rs shtype rm s
  | .subImm cond sf rd rn imm8 => Sys2Proof.Machine.execSubImm cond sf rd rn imm8 s
  | .subShImm cond sf rd rn shamt shtype rm => Sys2Proof.Machine.execSubShImm cond sf rd rn shamt shtype rm s
  | .subShReg cond sf rd rn rs shtype rm => Sys2Proof.Machine.execSubShReg cond sf rd rn rs shtype rm s
  | .rsbImm cond sf rd rn imm8 => Sys2Proof.Machine.execRsbImm cond sf rd rn imm8 s
  | .rsbShImm cond sf rd rn shamt shtype rm => Sys2Proof.Machine.execRsbShImm cond sf rd rn shamt shtype rm s
  | .rsbShReg cond sf rd rn rs shtype rm => Sys2Proof.Machine.execRsbShReg cond sf rd rn rs shtype rm s
  | .addImm cond sf rd rn imm8 => Sys2Proof.Machine.execAddImm cond sf rd rn imm8 s
  | .addShImm cond sf rd rn shamt shtype rm => Sys2Proof.Machine.execAddShImm cond sf rd rn shamt shtype rm s
  | .addShReg cond sf rd rn rs shtype rm => Sys2Proof.Machine.execAddShReg cond sf rd rn rs shtype rm s
  | .adcImm cond sf rd rn imm8 => Sys2Proof.Machine.execAdcImm cond sf rd rn imm8 s
  | .adcShImm cond sf rd rn shamt shtype rm => Sys2Proof.Machine.execAdcShImm cond sf rd rn shamt shtype rm s
  | .adcShReg cond sf rd rn rs shtype rm => Sys2Proof.Machine.execAdcShReg cond sf rd rn rs shtype rm s
  | .sbcImm cond sf rd rn imm8 => Sys2Proof.Machine.execSbcImm cond sf rd rn imm8 s
  | .sbcShImm cond sf rd rn shamt shtype rm => Sys2Proof.Machine.execSbcShImm cond sf rd rn shamt shtype rm s
  | .sbcShReg cond sf rd rn rs shtype rm => Sys2Proof.Machine.execSbcShReg cond sf rd rn rs shtype rm s
  | .rscImm cond sf rd rn imm8 => Sys2Proof.Machine.execRscImm cond sf rd rn imm8 s
  | .rscShImm cond sf rd rn shamt shtype rm => Sys2Proof.Machine.execRscShImm cond sf rd rn shamt shtype rm s
  | .rscShReg cond sf rd rn rs shtype rm => Sys2Proof.Machine.execRscShReg cond sf rd rn rs shtype rm s
  | .tstImm cond sf rd rn imm8 => Sys2Proof.Machine.execTstImm cond sf rd rn imm8 s
  | .tstShImm cond sf rd rn shamt shtype rm => Sys2Proof.Machine.execTstShImm cond sf rd rn shamt shtype rm s
  | .tstShReg cond sf rd rn rs shtype rm => Sys2Proof.Machine.execTstShReg cond sf rd rn rs shtype rm s
  | .teqImm cond sf rd rn imm8 => Sys2Proof.Machine.execTeqImm cond sf rd rn imm8 s
  | .teqShImm cond sf rd rn shamt shtype rm => Sys2Proof.Machine.execTeqShImm cond sf rd rn shamt shtype rm s
  | .teqShReg cond sf rd rn rs shtype rm => Sys2Proof.Machine.execTeqShReg cond sf rd rn rs shtype rm s
  | .cmpImm cond sf rd rn imm8 => Sys2Proof.Machine.execCmpImm cond sf rd rn imm8 s
  | .cmpShImm cond sf rd rn shamt shtype rm => Sys2Proof.Machine.execCmpShImm cond sf rd rn shamt shtype rm s
  | .cmpShReg cond sf rd rn rs shtype rm => Sys2Proof.Machine.execCmpShReg cond sf rd rn rs shtype rm s
  | .cmnImm cond sf rd rn imm8 => Sys2Proof.Machine.execCmnImm cond sf rd rn imm8 s
  | .cmnShImm cond sf rd rn shamt shtype rm => Sys2Proof.Machine.execCmnShImm cond sf rd rn shamt shtype rm s
  | .cmnShReg cond sf rd rn rs shtype rm => Sys2Proof.Machine.execCmnShReg cond sf rd rn rs shtype rm s
  | .orrImm cond sf rd rn imm8 => Sys2Proof.Machine.execOrrImm cond sf rd rn imm8 s
  | .orrShImm cond sf rd rn shamt shtype rm => Sys2Proof.Machine.execOrrShImm cond sf rd rn shamt shtype rm s
  | .orrShReg cond sf rd rn rs shtype rm => Sys2Proof.Machine.execOrrShReg cond sf rd rn rs shtype rm s
  | .movImm cond sf rd rn imm8 => Sys2Proof.Machine.execMovImm cond sf rd rn imm8 s
  | .movShImm cond sf rd rn shamt shtype rm => Sys2Proof.Machine.execMovShImm cond sf rd rn shamt shtype rm s
  | .movShReg cond sf rd rn rs shtype rm => Sys2Proof.Machine.execMovShReg cond sf rd rn rs shtype rm s
  | .bicImm cond sf rd rn imm8 => Sys2Proof.Machine.execBicImm cond sf rd rn imm8 s
  | .bicShImm cond sf rd rn shamt shtype rm => Sys2Proof.Machine.execBicShImm cond sf rd rn shamt shtype rm s
  | .bicShReg cond sf rd rn rs shtype rm => Sys2Proof.Machine.execBicShReg cond sf rd rn rs shtype rm s
  | .mvnImm cond sf rd rn imm8 => Sys2Proof.Machine.execMvnImm cond sf rd rn imm8 s
  | .mvnShImm cond sf rd rn shamt shtype rm => Sys2Proof.Machine.execMvnShImm cond sf rd rn shamt shtype rm s
  | .mvnShReg cond sf rd rn rs shtype rm => Sys2Proof.Machine.execMvnShReg cond sf rd rn rs shtype rm s
  | .ldrImm cond p u wb rd rn imm12 => Sys2Proof.Machine.execLdrImm cond p u wb rd rn imm12 s
  | .ldrReg cond p u wb rd rn shamt shtype rm => Sys2Proof.Machine.execLdrReg cond p u wb rd rn shamt shtype rm s
  | .strImm cond p u wb rd rn imm12 => Sys2Proof.Machine.execStrImm cond p u wb rd rn imm12 s
  | .strReg cond p u wb rd rn shamt shtype rm => Sys2Proof.Machine.execStrReg cond p u wb rd rn shamt shtype rm s
  | .b cond imm24 => Sys2Proof.Machine.execB cond imm24 s
  | .bl cond imm24 => Sys2Proof.Machine.execBl cond imm24 s
  | .bx cond rm => Sys2Proof.Machine.execBx cond rm s
  | .blx cond rm => Sys2Proof.Machine.execBlx cond rm s
  | .nop cond => Sys2Proof.Machine.execNop cond s
  | .endStream => Sys2Proof.Machine.execEndStream s

end Sys2Proof.Machine
end

