-- ==== Sys2Proof/Machine/Pipeline.lean ====
section
/-!
DEFINITION. The pipeline engine (50_pipeline): the phases of one step, the advance of the slots, fetch, and the clock cycle
that R262 composes of them. Step.lean only calls it.
-/

namespace Sys2Proof.Machine

/-- Go on with the next part of a step unless this part stopped. -/
def andThen (o : Result) (k : State → Result) : Result :=
  match o with
  | .next s => k s
  | .fault f => .fault f
  | .refused r => .refused r

/-- One of the phases 0 to 3 of R262: `exec` of the instruction in the phase's slot; an EMPTY slot does nothing (R35). -/
def runPhase (p : Phase) (s : State) : Result :=
  match s.slot p with
  | none => .next { s with phase := p }
  | some r => exec r.instr { s with phase := p }

/-- Phases 1, 2 and 2b: decode, execute, sentinel check; none of them acts in a step whose memory poll waits (R262, R265). -/
def middlePhases (s : State) : Result :=
  if s.mwait then .next s
  else andThen (runPhase .decode s) fun s1 => andThen (runPhase .execute s1) (runPhase .sentinel)

/-- The record fetch creates (R33, R275). -/
def newRecord (raw pc : Word) : Record := { raw := raw, pc := pc }

/-- Put the fetched word into F and advance the program counter by 4 (R24, R25, R275). -/
def State.fetched (s : State) (raw : Word) : State :=
  { s with slotF := some (newRecord raw s.pc) }.setReg regPC (s.pc + 4)

/-- `Fetch` (R275): the injected word if there is one, else one poll at `x[15]`; a waiting poll leaves F EMPTY. -/
def State.fetch (s : State) : State :=
  match s.input.inject with
  | some w => s.fetched w
  | none =>
    match s.memRead s.input.useCache s.pc with
    | (.waiting, s1) => s1
    | (.done w, s1) => s1.fetched w

/-- The record in D was held (R262 phase 4, R276). -/
def State.held (s : State) : Bool :=
  match s.slotD with
  | none => false
  | some r => !r.decoded

/-- Slots D, E, M and W are all EMPTY: the serial condition of R279. -/
def State.drained (s : State) : Bool := s.slotD.isNone && s.slotE.isNone && s.slotM.isNone && s.slotW.isNone

/-- The shift of the "otherwise" row of R276, before the fetch. -/
def State.shift (s : State) : State :=
  { s with slotW := s.slotM, slotM := s.slotE, slotE := s.slotD, slotD := s.slotF, slotF := none }

/-- Phase 4 (R276): memory wait, decode hold, or shift and fetch. -/
def State.advance (s : State) : State :=
  if s.mwait then { s with slotW := none }
  else if s.held then { s with slotW := s.slotM, slotM := s.slotE, slotE := none }
  else
    if !s.halted && (s.input.usePipeline || s.shift.drained) then s.shift.fetch else s.shift

/-- Phase 5 (R277): the cycle counter; the inputs of this step are used up, and the model's own marks are put back. -/
def State.endCycle (s : State) : State :=
  { s with cycle := s.cycle + 1, inputs := s.inputs.tail, phase := .memory, mwait := false }

/-- One clock cycle: the `step` of R262. -/
def State.clock (s : State) : Result :=
  andThen (runPhase .memory { s with mwait := false }) fun s0 =>
  andThen (middlePhases s0) fun s1 =>
  andThen (runPhase .writeback s1) fun s2 =>
  .next s2.advance.endCycle

/-- `still_running`, the result of the `step` that led to this state (R254, R278): false exactly when the core is halted and
all five slots are EMPTY. -/
def State.stillRunning (s : State) : Bool := !(s.halted && s.slotF.isNone && s.drained)

/-! ### Placing an instruction (log 6) -/

/-- The inputs of a step that lets one instruction through alone: serial, past the caches, nothing injected (R71, R279). -/
def StepInput.alone : StepInput := { usePipeline := false, useCache := false, inject := none }

/-- How many steps lie before the one in which the word's own lines first act: three (F, D and the decode stage) before the
execute stage; for the sentinel, which acts on slot D, two (R252, R261). -/
def stepsBefore (w : Word) : Nat := if w = sentinelWord then 2 else 3

/-- The address of the word at the program counter: its low two bits cleared. -/
def State.fetchAddr (s : State) : Word := BitVec.ofNat 32 (flatAddr s.pc * 4)

/-- The core with five EMPTY slots, not halted, and `w` in the store at the program counter, its timer at `t`. -/
def State.withWordAtPC (s : State) (w : Word) (t : Nat) : State :=
  { s with
    halted := false
    slotF := none
    slotD := none
    slotE := none
    slotM := none
    slotW := none
    mem := { s.mem with backing := {
      timer := setTimer s.mem.backing.timer (flatAddr s.pc) t
      cells := writeWord s.mem.backing.cells (flatAddr s.pc) w } } }

/-- Place a word where the next step fetches it, and let it go alone up to the step that executes it: the fetch address
aligned, the poll going straight to the terminal level with its timer run out (R275, R71, R120). -/
def State.placeFetchWord (s : State) (w : Word) : State :=
  { s.withWordAtPC w s.chain.backing.latency with
    inputs := List.replicate (stepsBefore w) StepInput.alone ++ s.inputs }.setReg regPC s.fetchAddr

/-- Place a word so that the next step executes it: the state `stepsBefore w` steps after `placeFetchWord`, but for the cycle
counter. The word is in memory, has been fetched, its address is behind the program counter, and its record, decoded and with
its snapshots, is in E; the sentinel's record is in D, the slot it acts on (R252, R266, R276). -/
def State.placeExecWord (s : State) (w : Word) : State :=
  let s1 := (s.withWordAtPC w 0).setReg regPC (s.fetchAddr + 4)
  let r := newRecord w s.fetchAddr
  if w = sentinelWord then { s1 with slotD := some r }
  else { s1 with slotE := some (s1.snapshot (decode w).fields r) }

end Sys2Proof.Machine
end

