-- ==== Sys2Proof/Machine/Step.lean ====
section
/-!
DEFINITION. The step of the CORE: one call is one clock cycle (R260, R262).
-/

namespace Sys2Proof.Machine

/-- One call of the spec's `step` (R262), its inputs taken from the state (R37). -/
def step (s : State) : Host.Outcome State Fault Refusal := s.clock

/-- `s` with the instruction word `w` (of `nbits` bits, those above 0) stored at the program counter, fetched and decoded, so
that the very next step runs it (log 6). -/
def State.withFetchWord (s : State) (nbits w : Nat) : State := s.placeExecWord (BitVec.ofNat 32 (w % 2 ^ nbits))

end Sys2Proof.Machine
end

