-- ==== Sys2Proof/Laws/Sparse.lean ====
section
/-!
SUPPORT. The laws of sparse maps: a read after a write, and every operation keeps the canonical form. The store of bytes
and the timers inherit them.
-/

namespace Sys2Proof.Machine

variable {α : Type}

@[simp] theorem sparseGet_nil (d : α) (a : Nat) : sparseGet d [] a = d := rfl

theorem sparseGet_cons (d : α) (k : Nat) (v : α) (m : List (Nat × α)) (a : Nat) :
    sparseGet d ((k, v) :: m) a = if k = a then v else sparseGet d m a := rfl

theorem sparseGet_erase (d : α) (m : List (Nat × α)) (a b : Nat) :
    sparseGet d (sparseErase m a) b = if a = b then d else sparseGet d m b := by
  induction m with
  | nil => simp [sparseErase]
  | cons e m ih =>
    obtain ⟨k, v⟩ := e
    unfold sparseErase at ih ⊢
    by_cases hk : k = a
    · subst hk
      simp only [List.filter_cons, bne_self_eq_false, Bool.false_eq_true, if_false, ih, sparseGet_cons]
      split <;> simp_all
    · simp only [List.filter_cons, bne_iff_ne, ne_eq, hk, not_false_eq_true, if_true, sparseGet_cons, ih]
      split <;> split <;> simp_all

theorem sparseGet_insert (d : α) (m : List (Nat × α)) (a b : Nat) (v : α) (h : ∀ e ∈ m, e.1 ≠ a) :
    sparseGet d (sparseInsert a v m) b = if a = b then v else sparseGet d m b := by
  induction m with
  | nil => simp [sparseInsert, sparseGet_cons]
  | cons e m ih =>
    obtain ⟨k, x⟩ := e
    have hk : k ≠ a := h (k, x) (by simp)
    have ih := ih fun e he => h e (by simp [he])
    unfold sparseInsert
    split
    · rfl
    · simp only [sparseGet_cons, ih]
      split <;> split <;> simp_all

theorem sparseErase_key_ne (m : List (Nat × α)) (a : Nat) : ∀ e ∈ sparseErase m a, e.1 ≠ a := by
  intro e he
  simpa using (List.mem_filter.1 he).2

/-- Read after write: the value written where it was written, and what was there everywhere else. -/
theorem sparseGet_set [DecidableEq α] (d : α) (m : List (Nat × α)) (a b : Nat) (v : α) :
    sparseGet d (sparseSet d m a v) b = if a = b then v else sparseGet d m b := by
  unfold sparseSet
  split
  · rename_i h
    rw [sparseGet_erase, h]
  · rw [sparseGet_insert _ _ _ _ _ (sparseErase_key_ne m a), sparseGet_erase]
    split <;> rfl

theorem sparseInsert_mem {a : Nat} {v : α} {m : List (Nat × α)} {e : Nat × α} :
    e ∈ sparseInsert a v m ↔ e = (a, v) ∨ e ∈ m := by
  induction m with
  | nil => simp [sparseInsert]
  | cons x m ih =>
    obtain ⟨k, y⟩ := x
    unfold sparseInsert
    split
    · simp
    · simp only [List.mem_cons, ih]
      tauto

theorem sparseInsert_pairwise {a : Nat} {v : α} {m : List (Nat × α)} (h : m.Pairwise fun x y => x.1 < y.1)
    (ha : ∀ e ∈ m, e.1 ≠ a) : (sparseInsert a v m).Pairwise fun x y => x.1 < y.1 := by
  induction m with
  | nil => simp [sparseInsert]
  | cons x m ih =>
    obtain ⟨k, y⟩ := x
    rw [List.pairwise_cons] at h
    have hk : k ≠ a := ha (k, y) (by simp)
    unfold sparseInsert
    split
    · rename_i hlt
      rw [List.pairwise_cons]
      refine ⟨fun e he => ?_, List.pairwise_cons.2 h⟩
      rcases List.mem_cons.1 he with rfl | he
      · exact hlt
      · exact lt_trans hlt (h.1 e he)
    · rename_i hlt
      rw [List.pairwise_cons]
      refine ⟨fun e he => ?_, ih h.2 fun e he => ha e (by simp [he])⟩
      rcases sparseInsert_mem.1 he with rfl | he
      · simp only; omega
      · exact h.1 e he

theorem sparseCanonical_iff [DecidableEq α] {d : α} {m : List (Nat × α)} :
    sparseCanonical d m = true ↔ (m.Pairwise fun x y => x.1 < y.1) ∧ ∀ e ∈ m, e.2 ≠ d := by
  simp [sparseCanonical]

@[simp] theorem sparseCanonical_nil [DecidableEq α] (d : α) : sparseCanonical d ([] : List (Nat × α)) = true := rfl

/-- A write keeps the canonical form. -/
theorem sparseCanonical_set [DecidableEq α] {d : α} {m : List (Nat × α)} (a : Nat) (v : α)
    (h : sparseCanonical d m = true) : sparseCanonical d (sparseSet d m a v) = true := by
  rw [sparseCanonical_iff] at h ⊢
  have herase : (sparseErase m a).Pairwise fun x y => x.1 < y.1 := h.1.filter _
  have hmem : ∀ e ∈ sparseErase m a, e.2 ≠ d := fun e he => h.2 e (List.mem_filter.1 he).1
  unfold sparseSet
  split
  · exact ⟨herase, hmem⟩
  · rename_i hv
    refine ⟨sparseInsert_pairwise herase (sparseErase_key_ne m a), fun e he => ?_⟩
    rcases sparseInsert_mem.1 he with rfl | he
    · exact hv
    · exact hmem e he

/-- A write lists no key but its own and those listed before. -/
theorem sparseSet_keys [DecidableEq α] {d : α} {m : List (Nat × α)} {a : Nat} {v : α} {P : Nat → Prop}
    (hm : ∀ e ∈ m, P e.1) (ha : P a) : ∀ e ∈ sparseSet d m a v, P e.1 := by
  intro e he
  unfold sparseSet at he
  split at he
  · exact hm e (List.mem_filter.1 he).1
  · rcases sparseInsert_mem.1 he with rfl | he
    · exact ha
    · exact hm e (List.mem_filter.1 he).1

/-! ### Timers and bytes -/

theorem timerAt_setTimer (m : List (Nat × Nat)) (a t b : Nat) :
    timerAt (setTimer m a t) b = if a = b then t else timerAt m b := sparseGet_set 0 m a b t

theorem setTimer_canonical {m : List (Nat × Nat)} (a t : Nat) (h : sparseCanonical 0 m = true) :
    sparseCanonical 0 (setTimer m a t) = true := sparseCanonical_set a t h

theorem readCell_writeCell (m : List Host.Cell) (a b : Nat) (v : Byte) :
    readCell (writeCell m a v) b = if a = b then v else readCell m b := sparseGet_set 0 m a b v

theorem writeCell_wf {m : List Host.Cell} {a : Nat} (v : Byte) (h : Memory.wf m = true) (ha : a < 2 ^ 32) :
    Memory.wf (writeCell m a v) = true := by
  simp only [Memory.wf, Bool.and_eq_true, List.all_eq_true, decide_eq_true_eq] at h ⊢
  exact ⟨sparseCanonical_set a v h.1, sparseSet_keys (P := fun k => k < 2 ^ 32) h.2 ha⟩

end Sys2Proof.Machine
end

