-- ==== Sys2Proof/Laws/Memory.lean ====
section
/-!
SUPPORT. The backing store as words: a word is its four bytes, a read after a write, and every write keeps the canonical
form of the store.
-/

namespace Sys2Proof.Machine

theorem slice_toNat (w : Word) (lo n : Nat) : slice w lo n = w.toNat / 2 ^ lo % 2 ^ n := rfl

/-- The bytes of a word put together again are the word (R67). -/
@[simp] theorem wordOfBytes_byteOfWord (w : Word) :
    wordOfBytes (byteOfWord w 0) (byteOfWord w 1) (byteOfWord w 2) (byteOfWord w 3) = w := by
  apply BitVec.eq_of_toNat_eq
  have := w.isLt
  simp only [wordOfBytes, byteOfWord, slice, BitVec.toNat_ofNat]
  omega

theorem byteAddr_lt (wa : Nat) : byteAddr wa + 3 < 2 ^ 32 := by
  unfold byteAddr
  omega

/-- Read after write of words (R116). -/
theorem readWord_writeWord (m : List Host.Cell) (a b : Nat) (v : Word) :
    readWord (writeWord m a v) b = if a % 2 ^ 30 = b % 2 ^ 30 then v else readWord m b := by
  unfold readWord writeWord
  simp only [readCell_writeCell]
  by_cases h : a % 2 ^ 30 = b % 2 ^ 30
  · have hb : byteAddr a = byteAddr b := by
      unfold byteAddr
      rw [h]
    rw [if_pos h, hb]
    simp
  · have h0 : ∀ i j, i < 4 → j < 4 → byteAddr a + i ≠ byteAddr b + j := by
      intro i j hi hj
      unfold byteAddr
      omega
    have e : ∀ i j, i < 4 → j < 4 → (byteAddr a + i = byteAddr b + j) = False := fun i j hi hj => by
      simpa using h0 i j hi hj
    have e0 : (byteAddr a = byteAddr b) = False := by simpa using h0 0 0 (by omega) (by omega)
    have e1 : ∀ j, j < 4 → (byteAddr a = byteAddr b + j) = False := fun j hj => by
      simpa using h0 0 j (by omega) hj
    have e2 : ∀ i, i < 4 → (byteAddr a + i = byteAddr b) = False := fun i hi => by
      simpa using h0 i 0 hi (by omega)
    rw [if_neg h]
    simp [e, e0, e1, e2]

/-- A write of a word keeps the canonical form. -/
theorem writeWord_wf {m : List Host.Cell} (a : Nat) (v : Word) (h : Memory.wf m = true) :
    Memory.wf (writeWord m a v) = true := by
  have := byteAddr_lt a
  unfold writeWord
  exact writeCell_wf _ (writeCell_wf _ (writeCell_wf _ (writeCell_wf _ h (by omega)) (by omega)) (by omega)) (by omega)

theorem writeWords_wf {m : List Host.Cell} (a : Nat) (data : List Word) (h : Memory.wf m = true) :
    Memory.wf (writeWords m a data) = true := by
  induction data generalizing m a with
  | nil => exact h
  | cons v rest ih => exact ih (a + 1) (writeWord_wf a v h)

/-- A block read is the words read one by one (R116). -/
theorem readWords_eq (m : List Host.Cell) (a n : Nat) : readWords m a n = (List.range n).map fun i => readWord m (a + i) := by
  induction n generalizing a with
  | zero => rfl
  | succ n ih =>
    rw [readWords, ih, List.range_succ_eq_map, List.map_cons, List.map_map]
    congr 1
    apply List.map_congr_left
    intro i _
    simp only [Function.comp_apply, Nat.succ_eq_add_one]
    congr 1
    omega

/-- A block write replaces the words of the block and no others (R116). -/
theorem readWord_writeWords (m : List Host.Cell) (a b : Nat) (data : List Word) (ha : a + data.length ≤ 2 ^ 30)
    (hb : b < 2 ^ 30) :
    readWord (writeWords m a data) b = if a ≤ b ∧ b < a + data.length then data.getD (b - a) 0 else readWord m b := by
  induction data generalizing m a with
  | nil => simp [writeWords]
  | cons v rest ih =>
    rw [List.length_cons] at ha
    rw [writeWords, ih _ (a + 1) (by omega), readWord_writeWord]
    have hb' : b % 2 ^ 30 = b := Nat.mod_eq_of_lt hb
    have ha' : a % 2 ^ 30 = a := Nat.mod_eq_of_lt (by omega)
    rw [ha', hb', List.length_cons]
    by_cases h1 : a + 1 ≤ b ∧ b < a + 1 + rest.length
    · rw [if_pos h1, if_pos (by omega)]
      obtain ⟨d, rfl⟩ : ∃ d, b = a + 1 + d := ⟨b - (a + 1), by omega⟩
      have e1 : a + 1 + d - (a + 1) = d := by omega
      have e2 : a + 1 + d - a = d + 1 := by omega
      rw [e1, e2, List.getD_cons_succ]
    · rw [if_neg h1]
      by_cases h2 : a = b
      · subst h2
        rw [if_pos rfl, if_pos (by omega)]
        simp
      · rw [if_neg h2, if_neg (by omega)]

end Sys2Proof.Machine
end

