-- ==== Sys2Proof/Safety.lean ====
section
/-!
DEFINITION. The terms the statements use: what a legal state is (canonical memory, the shape and the coherence of the caches,
the interlock of the pipeline, the halted pipeline), and the machine that executes one instruction at a time (R283), which
the serial mode is measured against.
-/

namespace Sys2Proof

open Sys2Proof.Machine

/-! ### What the rules of the ALU say, in exact arithmetic -/

/-- The compare-only opcodes, 8 to 11 (R157). -/
def AluOp.isCompare (op : AluOp) : Bool :=
  match op with
  | .tst | .teq | .cmp | .cmn => true
  | _ => false

/-- The logical and move group of R201. -/
def AluOp.isLogical (op : AluOp) : Bool :=
  match op with
  | .and | .eor | .tst | .teq | .orr | .mov | .bic | .mvn => true
  | _ => false

/-- The operations of the arithmetic group that subtract: C means no borrow after them (R201). -/
def AluOp.subtracts (op : AluOp) : Bool :=
  match op with
  | .sub | .rsb | .sbc | .rsc | .cmp => true
  | _ => false

/-- The result of an operation of the logical and move group (R202, R203, R210, R211, R214 to R217); 0 for the others. -/
def AluOp.logicalResult (op : AluOp) (a b : Word) : Word :=
  match op with
  | .and | .tst => a &&& b
  | .eor | .teq => a ^^^ b
  | .orr => a ||| b
  | .mov => b
  | .bic => a &&& ~~~b
  | .mvn => ~~~b
  | _ => 0

/-- The exact integer an operation of the arithmetic group stands for, from exact operands and the carry as 0 or 1 (the
"Operation" column of R157); 0 for the others. -/
def AluOp.exact (op : AluOp) (a b c : Int) : Int :=
  match op with
  | .sub | .cmp => a - b
  | .rsb => b - a
  | .add | .cmn => a + b
  | .adc => a + b + c
  | .sbc => a - b - (1 - c)
  | .rsc => b - a - (1 - c)
  | _ => 0

/-- N, Z, C, V after an operation of the arithmetic group: N and Z of the truncated result; C the carry out of an addition,
no borrow of a subtraction; V when the signed value does not fit 32 bits (R200, R201). -/
def AluOp.exactFlags (op : AluOp) (a b : Word) (c : Bool) : Flags :=
  let u := op.exact a.toNat b.toNat c.toNat
  let i := op.exact a.toInt b.toInt c.toNat
  { n := (BitVec.ofInt 32 u).msb
    z := decide (BitVec.ofInt 32 u = 0)
    c := if op.subtracts then decide (0 ≤ u) else decide (2 ^ 32 ≤ u)
    v := decide (i < -2 ^ 31 ∨ 2 ^ 31 ≤ i) }

/-- The instruction names `r15` in a register field that is tagged used (R151 to R155), as source, destination or base; the
destination 15 that every branch has of itself is no register field. -/
def Instr.namesPC (i : Instr) : Bool :=
  if i.fields.cls == .branch then i.fields.regOperand && i.fields.rm == regPC else i.uses.contains regPC

/-- The second operand of a record under each of the three layouts (R187). -/
def Operand2.value (o2 : Operand2) (r : Record) : Word :=
  match o2 with
  | .imm imm8 => imm8.setWidth 32
  | .shImm shamt shtype _ => shift r.vRm shtype shamt.toNat
  | .shReg _ shtype _ => shift r.vRm shtype r.vRs.toNat

/-- The row of spec/opcode_table.json an instruction belongs to: its mask and its match (R158). -/
def Instr.tableRow (i : Instr) : Word × Word :=
  match i with
  | .andImm _ _ _ _ _ => (0x0FE00000, 0x00000000)
  | .andShImm _ _ _ _ _ _ _ => (0x0FE00010, 0x02000000)
  | .andShReg _ _ _ _ _ _ _ => (0x0FE00010, 0x02000010)
  | .eorImm _ _ _ _ _ => (0x0FE00000, 0x00200000)
  | .eorShImm _ _ _ _ _ _ _ => (0x0FE00010, 0x02200000)
  | .eorShReg _ _ _ _ _ _ _ => (0x0FE00010, 0x02200010)
  | .subImm _ _ _ _ _ => (0x0FE00000, 0x00400000)
  | .subShImm _ _ _ _ _ _ _ => (0x0FE00010, 0x02400000)
  | .subShReg _ _ _ _ _ _ _ => (0x0FE00010, 0x02400010)
  | .rsbImm _ _ _ _ _ => (0x0FE00000, 0x00600000)
  | .rsbShImm _ _ _ _ _ _ _ => (0x0FE00010, 0x02600000)
  | .rsbShReg _ _ _ _ _ _ _ => (0x0FE00010, 0x02600010)
  | .addImm _ _ _ _ _ => (0x0FE00000, 0x00800000)
  | .addShImm _ _ _ _ _ _ _ => (0x0FE00010, 0x02800000)
  | .addShReg _ _ _ _ _ _ _ => (0x0FE00010, 0x02800010)
  | .adcImm _ _ _ _ _ => (0x0FE00000, 0x00A00000)
  | .adcShImm _ _ _ _ _ _ _ => (0x0FE00010, 0x02A00000)
  | .adcShReg _ _ _ _ _ _ _ => (0x0FE00010, 0x02A00010)
  | .sbcImm _ _ _ _ _ => (0x0FE00000, 0x00C00000)
  | .sbcShImm _ _ _ _ _ _ _ => (0x0FE00010, 0x02C00000)
  | .sbcShReg _ _ _ _ _ _ _ => (0x0FE00010, 0x02C00010)
  | .rscImm _ _ _ _ _ => (0x0FE00000, 0x00E00000)
  | .rscShImm _ _ _ _ _ _ _ => (0x0FE00010, 0x02E00000)
  | .rscShReg _ _ _ _ _ _ _ => (0x0FE00010, 0x02E00010)
  | .tstImm _ _ _ _ _ => (0x0FE00000, 0x01000000)
  | .tstShImm _ _ _ _ _ _ _ => (0x0FE00010, 0x03000000)
  | .tstShReg _ _ _ _ _ _ _ => (0x0FE00010, 0x03000010)
  | .teqImm _ _ _ _ _ => (0x0FE00000, 0x01200000)
  | .teqShImm _ _ _ _ _ _ _ => (0x0FE00010, 0x03200000)
  | .teqShReg _ _ _ _ _ _ _ => (0x0FE00010, 0x03200010)
  | .cmpImm _ _ _ _ _ => (0x0FE00000, 0x01400000)
  | .cmpShImm _ _ _ _ _ _ _ => (0x0FE00010, 0x03400000)
  | .cmpShReg _ _ _ _ _ _ _ => (0x0FE00010, 0x03400010)
  | .cmnImm _ _ _ _ _ => (0x0FE00000, 0x01600000)
  | .cmnShImm _ _ _ _ _ _ _ => (0x0FE00010, 0x03600000)
  | .cmnShReg _ _ _ _ _ _ _ => (0x0FE00010, 0x03600010)
  | .orrImm _ _ _ _ _ => (0x0FE00000, 0x01800000)
  | .orrShImm _ _ _ _ _ _ _ => (0x0FE00010, 0x03800000)
  | .orrShReg _ _ _ _ _ _ _ => (0x0FE00010, 0x03800010)
  | .movImm _ _ _ _ _ => (0x0FE00000, 0x01A00000)
  | .movShImm _ _ _ _ _ _ _ => (0x0FE00010, 0x03A00000)
  | .movShReg _ _ _ _ _ _ _ => (0x0FE00010, 0x03A00010)
  | .bicImm _ _ _ _ _ => (0x0FE00000, 0x01C00000)
  | .bicShImm _ _ _ _ _ _ _ => (0x0FE00010, 0x03C00000)
  | .bicShReg _ _ _ _ _ _ _ => (0x0FE00010, 0x03C00010)
  | .mvnImm _ _ _ _ _ => (0x0FE00000, 0x01E00000)
  | .mvnShImm _ _ _ _ _ _ _ => (0x0FE00010, 0x03E00000)
  | .mvnShReg _ _ _ _ _ _ _ => (0x0FE00010, 0x03E00010)
  | .ldrImm _ _ _ _ _ _ _ => (0x0E200000, 0x04200000)
  | .ldrReg _ _ _ _ _ _ _ _ _ => (0x0E200000, 0x06200000)
  | .strImm _ _ _ _ _ _ _ => (0x0E200000, 0x04000000)
  | .strReg _ _ _ _ _ _ _ _ _ => (0x0E200000, 0x06000000)
  | .b _ _ => (0x0F000000, 0x08000000)
  | .bl _ _ => (0x0F000000, 0x09000000)
  | .bx _ _ => (0x0F000000, 0x0A000000)
  | .blx _ _ => (0x0F000000, 0x0B000000)
  | .nop _ => (0x0C000000, 0x0C000000)
  | .endStream => (0xFFFFFFFF, 0xFFFFFFFF)

end Sys2Proof

namespace Sys2Proof.Machine

/-! ### Legal memory -/

/-- Every timer map is in canonical form. -/
def Hierarchy.timersCanonical (h : Hierarchy) : Bool :=
  sparseCanonical 0 h.backing.timer && h.caches.all fun c => sparseCanonical 0 c.timer

/-- The backing store and the timers are in their canonical forms. -/
def State.memoryCanonical (s : State) : Bool := Memory.wf s.mem.backing.cells && s.mem.timersCanonical

/-- Two lines of one set that are both occupied have different tags (R101) and different ages (R104). -/
def linesDiffer (l l' : Line) : Bool := !(l.occupied && l'.occupied) || (l.tag != l'.tag && l.age != l'.age)

/-- A legal line of a level: `words_per_line` words (R96); its addresses are word addresses (R62: the top two bits of a
flat address are 0) if it is occupied; clean if it is empty (R100). -/
def lineOk (g : Geometry) (l : Line) : Bool :=
  l.words.length == g.wordsPerLine && (!l.occupied || decide (l.tag < 2 ^ (30 - g.indexBits - g.offsetBits))) &&
    (l.occupied || !l.dirty)

/-- A legal set: `ways` legal lines (R101), no tag and no age twice among the occupied ones. -/
def setOk (g : Geometry) (lines : List Line) : Bool :=
  lines.length == g.ways && lines.all (lineOk g) && decide (lines.Pairwise fun l l' => linesDiffer l l' = true)

/-- A legal cache level: `set_count` legal sets (R36). -/
def cacheOk (g : Geometry) (c : CacheState) : Bool := c.sets.length == g.setCount && c.sets.all (setOk g)

/-- A clean occupied line of set `i` holds the words that the levels below give at its addresses. -/
def lineAgrees (g : Geometry) (i : Nat) (below : Nat → Word) (l : Line) : Bool :=
  !l.occupied || l.dirty || (List.range g.wordsPerLine).all fun o => l.words.getD o 0 == below (g.encode l.tag i o)

/-- Every clean line of a cache agrees with the levels below it: a line differs from what lies below only if it is dirty
(the glossary's Dirty, R10). -/
def cacheAgrees (g : Geometry) (c : CacheState) (below : Nat → Word) : Bool :=
  (List.range g.setCount).all fun i => (c.set i).all (lineAgrees g i below)

/-- The caches `gs` are legal and agree with what lies below them. -/
def coherent : List Geometry → List CacheState → List Host.Cell → Bool
  | [], _, _ => true
  | g :: gs, c :: cs, cells => cacheOk g c && cacheAgrees g c (viewWord gs cs cells) && coherent gs cs cells
  | _ :: _, [], _ => false

/-- The caches of the CORE are legal and coherent. -/
def State.memoryCoherent (s : State) : Bool := coherent s.chain.caches s.mem.caches s.mem.backing.cells

/-! ### Legal pipelines -/

/-- Two sets of registers have none in common. -/
def disjoint (xs ys : List Reg) : Bool := xs.all fun i => !ys.contains i

/-- No two of the records in E, M and W use a common register (R267). -/
def State.interlocked (s : State) : Bool :=
  disjoint (slotUses s.slotE) (slotUses s.slotM) && disjoint (slotUses s.slotE) (slotUses s.slotW) &&
    disjoint (slotUses s.slotM) (slotUses s.slotW)

/-- A record is marked decoded. -/
def slotDecoded (slot : Option Record) : Bool := slot.all fun r => r.decoded

/-- Every record past D has been marked decoded (R281). -/
def State.pastDecodeDecoded (s : State) : Bool := slotDecoded s.slotE && slotDecoded s.slotM && slotDecoded s.slotW

/-- A halted core has nothing in F and D (R252). -/
def State.haltedIsFlushed (s : State) : Bool := !s.halted || (s.slotF.isNone && s.slotD.isNone)

/-- The model's own marks are as they stand between steps. -/
def State.betweenSteps (s : State) : Bool := s.phase == .memory && !s.mwait

/-- A legal pipeline between steps. -/
def State.pipelineOk (s : State) : Bool :=
  s.interlocked && s.pastDecodeDecoded && s.haltedIsFlushed && s.betweenSteps

/-- A step is safe if it answers a next state. -/
def StepSafe (s : State) : Prop := ∃ t, step s = .next t

/-! ### Launch (R44) -/

/-- A launch state of a run: the state after construction, but for the registers, the flags and the contents of the store,
which the host may have set (R44). -/
def State.launchWith (c : Config) (regs : Vector Word 16) (flags : Flags) (cells : List Host.Cell) : State :=
  { State.launch c with
    regs := regs
    flags := flags
    mem := { Hierarchy.initial c with backing := { timer := [], cells := cells } } }

/-! ### Terms about words and steps -/

/-- The bits of a word that its format marks ignored (R143 to R146). -/
def ignoredBits (w : Word) : Word :=
  if w.extractLsb' 26 2 = 0 then
    if w.getLsbD 25 then (if w.getLsbD 4 then 0x80 else 0) else 0xF00
  else if w.extractLsb' 26 2 = 1 then
    if w.getLsbD 25 then 0x00100010 else 0x00100000
  else if w.extractLsb' 26 2 = 2 then
    if w.getLsbD 25 then 0x00FFFFF0 else 0
  else 0x03FFFFFF

/-- The memory stage's poll of this state does not complete (R264, R265): there is a load or store in M whose condition
passed, its address is aligned, and one poll of the top level answers that it waits. -/
def State.memoryWaits (s : State) : Bool :=
  match s.slotM with
  | none => false
  | some r =>
    r.instr.fields.cls == .memory && r.pass && aligned r.addr &&
      (s.poll s.input.useCache
        (if r.instr.fields.l then { kind := .read, addr := flatAddr r.addr, n := 1, data := [] }
          else { kind := .write, addr := flatAddr r.addr, n := 1, data := [r.vRd] })).1 == .waiting

/-- The record in E is a branch whose condition passes: it is taken in this step, unless the memory stage waits (R240). -/
def State.branchTaken (s : State) : Bool :=
  match s.slotE with
  | none => false
  | some r => r.instr.fields.cls == .branch && condPass r.instr.fields.cond s.flags

/-- The word in D is the sentinel (R252). -/
def State.sentinelInD (s : State) : Bool := s.slotD.any fun r => r.raw == sentinelWord

/-! ### One instruction at a time (R283) -/

/-- What a program sees of the CORE when every memory access is made at once: registers, flags, the store, the diagnostics. -/
structure Arch where
  /-- `x[0]` to `x[15]` -/
  regs : Vector Word 16
  /-- the flags -/
  flags : Flags
  /-- the backing store -/
  cells : List Host.Cell
  /-- the diagnostic stream -/
  diags : List Diagnostic
  deriving DecidableEq, Repr

/-- What a program sees of a state. -/
def State.arch (s : State) : Arch := { regs := s.regs, flags := s.flags, cells := s.mem.backing.cells, diags := s.diags }

/-- `x[i]`. -/
def Arch.reg (a : Arch) (i : Reg) : Word := a.regs[i]

/-- `x[i] <- v`. -/
def Arch.setReg (a : Arch) (i : Reg) (v : Word) : Arch := { a with regs := a.regs.set i v }

/-- A read that is made at once: the word, or 0 and a diagnostic (R66). -/
def Arch.read (a : Arch) (addr : Word) : Word × Arch :=
  if aligned addr then (readWord a.cells (flatAddr addr), a)
  else (0, { a with diags := a.diags ++ [{ kind := .misalignedRead, addr := addr }] })

/-- A write that is made at once: the word, or nothing and a diagnostic (R66). -/
def Arch.write (a : Arch) (addr v : Word) : Arch :=
  if aligned addr then { a with cells := writeWord a.cells (flatAddr addr) v }
  else { a with diags := a.diags ++ [{ kind := .misalignedWrite, addr := addr }] }

/-- The operation of each opcode (R157, R202 to R217). -/
def aluOperation (op : AluOp) : Word → Word → Bool → AluOut :=
  match op with
  | .and => aluAnd | .eor => aluEor | .sub => aluSub | .rsb => aluRsb
  | .add => aluAdd | .adc => aluAdc | .sbc => aluSbc | .rsc => aluRsc
  | .tst => aluTst | .teq => aluTeq | .cmp => aluCmp | .cmn => aluCmn
  | .orr => aluOrr | .mov => aluMov | .bic => aluBic | .mvn => aluMvn

/-- A shifted register operand, read from the registers. -/
def Arch.shifted (a : Arch) (f : Fields) : Word :=
  shift (a.reg f.rm) f.shtype (if f.regshift then (a.reg f.rs).toNat else f.shamt.toNat)

/-- The second operand, offset or immediate of an instruction, read from the registers (R187, R188). -/
def Arch.operand (a : Arch) (f : Fields) : Word := if f.regOperand then a.shifted f else f.imm

/-- A whole ALU instruction (R201). -/
def Arch.alu (a : Arch) (f : Fields) : Arch :=
  let out := aluOperation (AluOp.ofCode f.opcode.toNat) (a.reg f.rn) (a.operand f) a.flags.c
  let a1 := if f.s then { a with flags := out.flags a.flags } else a
  if f.rdUsed then a1.setReg f.rd out.value else a1

/-- The base register moved by the offset: the value for the base, and the address of a pre-indexed access (R230). -/
def Arch.moved (a : Arch) (f : Fields) : Word :=
  if f.u then a.reg f.rn + a.operand f else a.reg f.rn - a.operand f

/-- The address of a load or store (R230). -/
def Arch.accessAddr (a : Arch) (f : Fields) : Word := if f.p then a.moved f else a.reg f.rn

/-- A whole load or store (R230 to R232). -/
def Arch.loadStore (a : Arch) (f : Fields) : Arch :=
  let (w, a1) := if f.l then a.read (a.accessAddr f) else (0, a.write (a.accessAddr f) (a.reg f.rd))
  let a2 := if f.wb then a1.setReg f.rn (a.moved f) else a1
  if f.l then a2.setReg f.rd w else a2

/-- A whole branch fetched from `pc` (R240). -/
def Arch.branch (a : Arch) (pc : Word) (f : Fields) : Arch :=
  let target := if f.regOperand then a.reg f.rm else pc + f.imm
  let a1 := a.setReg regPC target
  if f.link then a1.setReg regLR (pc + 4) else a1

/-- A whole instruction fetched from `pc`, executed completely: condition, execute, memory, writeback (R283). -/
def Arch.perform (a : Arch) (pc : Word) (i : Instr) : Arch :=
  if condPass i.fields.cond a.flags then
    match i.fields.cls with
    | .alu => a.alu i.fields
    | .memory => a.loadStore i.fields
    | .branch => a.branch pc i.fields
    | .noop => a
  else a

/-- Fetch the next instruction word and advance the program counter (R275). -/
def Arch.fetch (a : Arch) : Word × Arch :=
  let (w, a1) := a.read (a.reg regPC)
  (w, a1.setReg regPC (a.reg regPC + 4))

/-- A one-at-a-time machine between two instructions: the word fetched last, its address, and what the program sees. -/
structure Fetched where
  /-- the word -/
  word : Word
  /-- its byte address -/
  pc : Word
  /-- registers, flags, store and diagnostics, the program counter already advanced -/
  arch : Arch
  deriving DecidableEq, Repr

/-- A one-at-a-time machine that has just fetched the instruction at its program counter. -/
def Arch.start (a : Arch) : Fetched := { word := a.fetch.1, pc := a.reg regPC, arch := a.fetch.2 }

/-- Execute the fetched instruction completely, then fetch the next (R283). -/
def Fetched.next (x : Fetched) : Fetched := (x.arch.perform x.pc (decode x.word)).start

/-- `k` instructions one at a time; `none` when the sentinel comes up among them. -/
def Fetched.run : Nat → Fetched → Option Fetched
  | 0, x => some x
  | k + 1, x => if x.word = sentinelWord then none else Fetched.run k x.next

/-- The flat address of the word that the fetched instruction writes, if it is a store that writes one (R232). -/
def Fetched.stored (x : Fetched) : Option Nat :=
  let f := (decode x.word).fields
  if f.cls == .memory && !f.l && condPass f.cond x.arch.flags && aligned (x.arch.accessAddr f) then
    some (flatAddr (x.arch.accessAddr f))
  else none

/-- After this instruction fetching does not go straight on: it is a taken branch or the sentinel (R240, R252). -/
def Fetched.turns (x : Fetched) : Bool :=
  x.word == sentinelWord ||
    ((decode x.word).fields.cls == .branch && condPass (decode x.word).fields.cond x.arch.flags)

/-- The addresses of the next `k` fetches, up to the next turn: what follows a taken branch is fetched when the branch is
executed, after every older store (R77). -/
def Fetched.fetchesAfter : Nat → Fetched → List Word
  | 0, _ => []
  | k + 1, x => if x.turns then [] else x.next.pc :: Fetched.fetchesAfter k x.next

/-- The fetched instruction meets (a), (b) and (c) of R283: it does not name `r15`, and it stores to no word that is fetched
as an instruction within the next three fetches. -/
def Fetched.orderly (x : Fetched) : Prop :=
  (decode x.word).namesPC = false ∧
    ∀ p ∈ Fetched.fetchesAfter 3 x, aligned p = true → x.stored ≠ some (flatAddr p)

/-- Every instruction that is executed from here on, up to the sentinel, meets (a), (b) and (c) of R283. -/
def Fetched.orderlyRun (x : Fetched) : Prop :=
  ∀ (k : Nat) (y : Fetched), Fetched.run k x = some y → y.word ≠ sentinelWord → y.orderly

/-- The CORE in serial mode (R279) between two instructions, over one backing store of latency 0 that is reached directly:
the word fetched last is in F, nothing else is in the pipeline. -/
def State.serialAt (s : State) (x : Fetched) : Prop :=
  s.slotF = some (newRecord x.word x.pc) ∧ s.slotD = none ∧ s.slotE = none ∧ s.slotM = none ∧ s.slotW = none ∧
    s.halted = false ∧ s.arch = x.arch ∧ s.inputs = [] ∧ s.lines.usePipeline = false ∧ s.lines.inject = none ∧
    s.path s.lines.useCache = [] ∧ s.chain.backing.latency = 0 ∧ s.mem.backing.timer = []

end Sys2Proof.Machine
end

