-- ==== Sys2Proof/Laws/State.lean ====
section
/-!
SUPPORT. What each update of the state changes: one lemma per field and update, so that no later proof unfolds a record
update.
-/

namespace Sys2Proof.Machine

/-! ### `x[i] <- v` -/

@[simp] theorem State.setReg_chain (s : State) (i : Reg) (v : Word) : (s.setReg i v).chain = s.chain := rfl
@[simp] theorem State.setReg_regs (s : State) (i : Reg) (v : Word) : (s.setReg i v).regs = s.regs.set i v := rfl
@[simp] theorem State.setReg_flags (s : State) (i : Reg) (v : Word) : (s.setReg i v).flags = s.flags := rfl
@[simp] theorem State.setReg_cycle (s : State) (i : Reg) (v : Word) : (s.setReg i v).cycle = s.cycle := rfl
@[simp] theorem State.setReg_halted (s : State) (i : Reg) (v : Word) : (s.setReg i v).halted = s.halted := rfl
@[simp] theorem State.setReg_slotF (s : State) (i : Reg) (v : Word) : (s.setReg i v).slotF = s.slotF := rfl
@[simp] theorem State.setReg_slotD (s : State) (i : Reg) (v : Word) : (s.setReg i v).slotD = s.slotD := rfl
@[simp] theorem State.setReg_slotE (s : State) (i : Reg) (v : Word) : (s.setReg i v).slotE = s.slotE := rfl
@[simp] theorem State.setReg_slotM (s : State) (i : Reg) (v : Word) : (s.setReg i v).slotM = s.slotM := rfl
@[simp] theorem State.setReg_slotW (s : State) (i : Reg) (v : Word) : (s.setReg i v).slotW = s.slotW := rfl
@[simp] theorem State.setReg_mem (s : State) (i : Reg) (v : Word) : (s.setReg i v).mem = s.mem := rfl
@[simp] theorem State.setReg_diags (s : State) (i : Reg) (v : Word) : (s.setReg i v).diags = s.diags := rfl
@[simp] theorem State.setReg_inputs (s : State) (i : Reg) (v : Word) : (s.setReg i v).inputs = s.inputs := rfl
@[simp] theorem State.setReg_lines (s : State) (i : Reg) (v : Word) : (s.setReg i v).lines = s.lines := rfl
@[simp] theorem State.setReg_phase (s : State) (i : Reg) (v : Word) : (s.setReg i v).phase = s.phase := rfl
@[simp] theorem State.setReg_mwait (s : State) (i : Reg) (v : Word) : (s.setReg i v).mwait = s.mwait := rfl
@[simp] theorem State.setReg_input (s : State) (i : Reg) (v : Word) : (s.setReg i v).input = s.input := rfl

/-- A register holds the last value written to it (R20). -/
theorem State.reg_setReg (s : State) (i j : Reg) (v : Word) : (s.setReg i v).reg j = if i = j then v else s.reg j := by
  simp only [State.reg, State.setReg, Fin.getElem_fin, Vector.getElem_set, Fin.ext_iff]

@[simp] theorem State.reg_setReg_self (s : State) (i : Reg) (v : Word) : (s.setReg i v).reg i = v := by
  simp [State.reg_setReg]

theorem State.reg_setReg_of_ne (s : State) {i j : Reg} (v : Word) (h : i ≠ j) : (s.setReg i v).reg j = s.reg j := by
  simp [State.reg_setReg, h]

/-- Reading a register looks at the register file only. -/
theorem State.reg_congr {s t : State} (h : s.regs = t.regs) (i : Reg) : s.reg i = t.reg i := by
  simp only [State.reg, h]

/-! ### A diagnostic event -/

@[simp] theorem State.diagnose_chain (s : State) (k : DiagKind) (a : Word) : (s.diagnose k a).chain = s.chain := rfl
@[simp] theorem State.diagnose_regs (s : State) (k : DiagKind) (a : Word) : (s.diagnose k a).regs = s.regs := rfl
@[simp] theorem State.diagnose_flags (s : State) (k : DiagKind) (a : Word) : (s.diagnose k a).flags = s.flags := rfl
@[simp] theorem State.diagnose_cycle (s : State) (k : DiagKind) (a : Word) : (s.diagnose k a).cycle = s.cycle := rfl
@[simp] theorem State.diagnose_halted (s : State) (k : DiagKind) (a : Word) : (s.diagnose k a).halted = s.halted := rfl
@[simp] theorem State.diagnose_slotF (s : State) (k : DiagKind) (a : Word) : (s.diagnose k a).slotF = s.slotF := rfl
@[simp] theorem State.diagnose_slotD (s : State) (k : DiagKind) (a : Word) : (s.diagnose k a).slotD = s.slotD := rfl
@[simp] theorem State.diagnose_slotE (s : State) (k : DiagKind) (a : Word) : (s.diagnose k a).slotE = s.slotE := rfl
@[simp] theorem State.diagnose_slotM (s : State) (k : DiagKind) (a : Word) : (s.diagnose k a).slotM = s.slotM := rfl
@[simp] theorem State.diagnose_slotW (s : State) (k : DiagKind) (a : Word) : (s.diagnose k a).slotW = s.slotW := rfl
@[simp] theorem State.diagnose_mem (s : State) (k : DiagKind) (a : Word) : (s.diagnose k a).mem = s.mem := rfl
@[simp] theorem State.diagnose_diags (s : State) (k : DiagKind) (a : Word) : (s.diagnose k a).diags = s.diags ++ [{ kind := k, addr := a }] := rfl
@[simp] theorem State.diagnose_inputs (s : State) (k : DiagKind) (a : Word) : (s.diagnose k a).inputs = s.inputs := rfl
@[simp] theorem State.diagnose_lines (s : State) (k : DiagKind) (a : Word) : (s.diagnose k a).lines = s.lines := rfl
@[simp] theorem State.diagnose_phase (s : State) (k : DiagKind) (a : Word) : (s.diagnose k a).phase = s.phase := rfl
@[simp] theorem State.diagnose_mwait (s : State) (k : DiagKind) (a : Word) : (s.diagnose k a).mwait = s.mwait := rfl
@[simp] theorem State.diagnose_input (s : State) (k : DiagKind) (a : Word) : (s.diagnose k a).input = s.input := rfl

/-! ### The flush -/

@[simp] theorem State.flush_chain (s : State) : (s.flush).chain = s.chain := rfl
@[simp] theorem State.flush_regs (s : State) : (s.flush).regs = s.regs := rfl
@[simp] theorem State.flush_flags (s : State) : (s.flush).flags = s.flags := rfl
@[simp] theorem State.flush_cycle (s : State) : (s.flush).cycle = s.cycle := rfl
@[simp] theorem State.flush_halted (s : State) : (s.flush).halted = s.halted := rfl
@[simp] theorem State.flush_slotF (s : State) : (s.flush).slotF = none := rfl
@[simp] theorem State.flush_slotD (s : State) : (s.flush).slotD = none := rfl
@[simp] theorem State.flush_slotE (s : State) : (s.flush).slotE = s.slotE := rfl
@[simp] theorem State.flush_slotM (s : State) : (s.flush).slotM = s.slotM := rfl
@[simp] theorem State.flush_slotW (s : State) : (s.flush).slotW = s.slotW := rfl
@[simp] theorem State.flush_mem (s : State) : (s.flush).mem = s.mem := rfl
@[simp] theorem State.flush_diags (s : State) : (s.flush).diags = s.diags := rfl
@[simp] theorem State.flush_inputs (s : State) : (s.flush).inputs = s.inputs := rfl
@[simp] theorem State.flush_lines (s : State) : (s.flush).lines = s.lines := rfl
@[simp] theorem State.flush_phase (s : State) : (s.flush).phase = s.phase := rfl
@[simp] theorem State.flush_mwait (s : State) : (s.flush).mwait = s.mwait := rfl

/-! ### A poll -/

@[simp] theorem State.poll_chain (s : State) (u : Bool) (r : Request) : ((s.poll u r).2).chain = s.chain := rfl
@[simp] theorem State.poll_regs (s : State) (u : Bool) (r : Request) : ((s.poll u r).2).regs = s.regs := rfl
@[simp] theorem State.poll_flags (s : State) (u : Bool) (r : Request) : ((s.poll u r).2).flags = s.flags := rfl
@[simp] theorem State.poll_cycle (s : State) (u : Bool) (r : Request) : ((s.poll u r).2).cycle = s.cycle := rfl
@[simp] theorem State.poll_halted (s : State) (u : Bool) (r : Request) : ((s.poll u r).2).halted = s.halted := rfl
@[simp] theorem State.poll_slotF (s : State) (u : Bool) (r : Request) : ((s.poll u r).2).slotF = s.slotF := rfl
@[simp] theorem State.poll_slotD (s : State) (u : Bool) (r : Request) : ((s.poll u r).2).slotD = s.slotD := rfl
@[simp] theorem State.poll_slotE (s : State) (u : Bool) (r : Request) : ((s.poll u r).2).slotE = s.slotE := rfl
@[simp] theorem State.poll_slotM (s : State) (u : Bool) (r : Request) : ((s.poll u r).2).slotM = s.slotM := rfl
@[simp] theorem State.poll_slotW (s : State) (u : Bool) (r : Request) : ((s.poll u r).2).slotW = s.slotW := rfl
@[simp] theorem State.poll_mem (s : State) (u : Bool) (r : Request) : ((s.poll u r).2).mem = (access s.chain.backing.latency (s.path u) r s.mem).2 := rfl
@[simp] theorem State.poll_diags (s : State) (u : Bool) (r : Request) : ((s.poll u r).2).diags = s.diags := rfl
@[simp] theorem State.poll_inputs (s : State) (u : Bool) (r : Request) : ((s.poll u r).2).inputs = s.inputs := rfl
@[simp] theorem State.poll_lines (s : State) (u : Bool) (r : Request) : ((s.poll u r).2).lines = s.lines := rfl
@[simp] theorem State.poll_phase (s : State) (u : Bool) (r : Request) : ((s.poll u r).2).phase = s.phase := rfl
@[simp] theorem State.poll_mwait (s : State) (u : Bool) (r : Request) : ((s.poll u r).2).mwait = s.mwait := rfl
@[simp] theorem State.poll_answer (s : State) (u : Bool) (r : Request) :
    (s.poll u r).1 = (access s.chain.backing.latency (s.path u) r s.mem).1 := rfl

/-! ### The fetched record -/

@[simp] theorem State.fetched_chain (s : State) (w : Word) : (s.fetched w).chain = s.chain := rfl
@[simp] theorem State.fetched_regs (s : State) (w : Word) : (s.fetched w).regs = s.regs.set 15 (s.pc + 4) := rfl
@[simp] theorem State.fetched_flags (s : State) (w : Word) : (s.fetched w).flags = s.flags := rfl
@[simp] theorem State.fetched_cycle (s : State) (w : Word) : (s.fetched w).cycle = s.cycle := rfl
@[simp] theorem State.fetched_halted (s : State) (w : Word) : (s.fetched w).halted = s.halted := rfl
@[simp] theorem State.fetched_slotF (s : State) (w : Word) : (s.fetched w).slotF = some (newRecord w s.pc) := rfl
@[simp] theorem State.fetched_slotD (s : State) (w : Word) : (s.fetched w).slotD = s.slotD := rfl
@[simp] theorem State.fetched_slotE (s : State) (w : Word) : (s.fetched w).slotE = s.slotE := rfl
@[simp] theorem State.fetched_slotM (s : State) (w : Word) : (s.fetched w).slotM = s.slotM := rfl
@[simp] theorem State.fetched_slotW (s : State) (w : Word) : (s.fetched w).slotW = s.slotW := rfl
@[simp] theorem State.fetched_mem (s : State) (w : Word) : (s.fetched w).mem = s.mem := rfl
@[simp] theorem State.fetched_diags (s : State) (w : Word) : (s.fetched w).diags = s.diags := rfl
@[simp] theorem State.fetched_inputs (s : State) (w : Word) : (s.fetched w).inputs = s.inputs := rfl
@[simp] theorem State.fetched_lines (s : State) (w : Word) : (s.fetched w).lines = s.lines := rfl
@[simp] theorem State.fetched_phase (s : State) (w : Word) : (s.fetched w).phase = s.phase := rfl
@[simp] theorem State.fetched_mwait (s : State) (w : Word) : (s.fetched w).mwait = s.mwait := rfl

/-! ### The shift -/

@[simp] theorem State.shift_chain (s : State) : (s.shift).chain = s.chain := rfl
@[simp] theorem State.shift_regs (s : State) : (s.shift).regs = s.regs := rfl
@[simp] theorem State.shift_flags (s : State) : (s.shift).flags = s.flags := rfl
@[simp] theorem State.shift_cycle (s : State) : (s.shift).cycle = s.cycle := rfl
@[simp] theorem State.shift_halted (s : State) : (s.shift).halted = s.halted := rfl
@[simp] theorem State.shift_slotF (s : State) : (s.shift).slotF = none := rfl
@[simp] theorem State.shift_slotD (s : State) : (s.shift).slotD = s.slotF := rfl
@[simp] theorem State.shift_slotE (s : State) : (s.shift).slotE = s.slotD := rfl
@[simp] theorem State.shift_slotM (s : State) : (s.shift).slotM = s.slotE := rfl
@[simp] theorem State.shift_slotW (s : State) : (s.shift).slotW = s.slotM := rfl
@[simp] theorem State.shift_mem (s : State) : (s.shift).mem = s.mem := rfl
@[simp] theorem State.shift_diags (s : State) : (s.shift).diags = s.diags := rfl
@[simp] theorem State.shift_inputs (s : State) : (s.shift).inputs = s.inputs := rfl
@[simp] theorem State.shift_lines (s : State) : (s.shift).lines = s.lines := rfl
@[simp] theorem State.shift_phase (s : State) : (s.shift).phase = s.phase := rfl
@[simp] theorem State.shift_mwait (s : State) : (s.shift).mwait = s.mwait := rfl

/-! ### The end of a cycle -/

@[simp] theorem State.endCycle_chain (s : State) : (s.endCycle).chain = s.chain := rfl
@[simp] theorem State.endCycle_regs (s : State) : (s.endCycle).regs = s.regs := rfl
@[simp] theorem State.endCycle_flags (s : State) : (s.endCycle).flags = s.flags := rfl
@[simp] theorem State.endCycle_cycle (s : State) : (s.endCycle).cycle = s.cycle + 1 := rfl
@[simp] theorem State.endCycle_halted (s : State) : (s.endCycle).halted = s.halted := rfl
@[simp] theorem State.endCycle_slotF (s : State) : (s.endCycle).slotF = s.slotF := rfl
@[simp] theorem State.endCycle_slotD (s : State) : (s.endCycle).slotD = s.slotD := rfl
@[simp] theorem State.endCycle_slotE (s : State) : (s.endCycle).slotE = s.slotE := rfl
@[simp] theorem State.endCycle_slotM (s : State) : (s.endCycle).slotM = s.slotM := rfl
@[simp] theorem State.endCycle_slotW (s : State) : (s.endCycle).slotW = s.slotW := rfl
@[simp] theorem State.endCycle_mem (s : State) : (s.endCycle).mem = s.mem := rfl
@[simp] theorem State.endCycle_diags (s : State) : (s.endCycle).diags = s.diags := rfl
@[simp] theorem State.endCycle_inputs (s : State) : (s.endCycle).inputs = s.inputs.tail := rfl
@[simp] theorem State.endCycle_lines (s : State) : (s.endCycle).lines = s.lines := rfl
@[simp] theorem State.endCycle_phase (s : State) : (s.endCycle).phase = .memory := rfl
@[simp] theorem State.endCycle_mwait (s : State) : (s.endCycle).mwait = false := rfl

end Sys2Proof.Machine
end

