-- ==== Sys2Proof/Laws/Exec.lean ====
section
/-!
SUPPORT. Once and for all what `exec` answers: one equation over all 58 arms, with the stage lines of an instruction read
off its decoded fields; then one lemma per phase, and what each kind of lines changes.
-/

namespace Sys2Proof.Machine

/-- The `[M]` lines of an instruction, by its fields (R231, R232). -/
def memoryLines (f : Fields) : Record → State → State :=
  match f.cls with
  | .memory => if f.l then loadMemory else storeMemory
  | _ => noLines

/-- The `[E]` lines of an instruction, by its fields (R201, R230, R240, R250). -/
def executeLines (f : Fields) : Record → State → State :=
  match f.cls with
  | .alu => aluExecute f (aluOperation (AluOp.ofCode f.opcode.toNat))
  | .memory => memExecute f
  | .branch => branchExecute f
  | .noop => noLines

/-- The `[W]` lines of an instruction, by its fields (R272). -/
def writebackLines (f : Fields) : Record → State → State :=
  match f.cls with
  | .alu => aluWriteback f
  | .memory => if f.l then loadWriteback f else baseWriteback f
  | .branch => branchWriteback f
  | .noop => noLines

/-- Every instruction but END answers the next state its stage lines give. -/
theorem exec_eq_stages (i : Instr) (s : State) (h : i ≠ .endStream) :
    exec i s = .next (stages i (memoryLines i.fields) (executeLines i.fields) (writebackLines i.fields) s) := by
  cases i <;> first | rfl | exact absurd rfl h

/-- The state `exec` answers with. -/
def execState (i : Instr) (s : State) : State :=
  match s.phase with
  | .memory => memoryStage (memoryLines i.fields) s
  | .decode => decodeStage i s
  | .execute => executeStage i (executeLines i.fields) s
  | .sentinel => if i = .endStream then sentinelStage s else s
  | .writeback => writebackStage (writebackLines i.fields) s

/-- Every instruction answers a next state, and which. -/
theorem exec_eq (i : Instr) (s : State) : exec i s = .next (execState i s) := by
  by_cases h : i = .endStream
  · subst h
    simp only [exec, execEndStream, sentinelMeaning, noopMeaning, stages, execState]
    all_goals (cases s.phase <;> rfl)
  · rw [exec_eq_stages i s h]
    simp only [stages, execState, h, if_false]
    all_goals (cases s.phase <;> rfl)

/-! ### One lemma per phase -/

/-- Phase 0 with a record whose condition passed: the `[M]` lines. -/
theorem exec_memory {i : Instr} {s : State} {r : Record} (hp : s.phase = .memory) (hs : s.slotM = some r)
    (hr : r.pass = true) : exec i s = .next (memoryLines i.fields r s) := by
  simp only [exec_eq, execState, hp, memoryStage, hs, hr, if_true]

/-- Phase 0 with a record whose condition failed: nothing (R182). -/
theorem exec_memory_failed {i : Instr} {s : State} {r : Record} (hp : s.phase = .memory) (hs : s.slotM = some r)
    (hr : r.pass = false) : exec i s = .next s := by
  simp only [exec_eq, execState, hp, memoryStage, hs, hr, Bool.false_eq_true, if_false]

/-- Phase 1: the record is held or its snapshots are taken (R266). -/
theorem exec_decode {i : Instr} {s : State} {r : Record} (hp : s.phase = .decode) (hs : s.slotD = some r) :
    exec i s = .next (if s.hazardFree i.uses then { s with slotD := some (s.snapshot i.fields r) }
      else { s with slotD := some { r with decoded := false } }) := by
  simp only [exec_eq, execState, hp, decodeStage, hs]

/-- Phase 2 with a condition that passes: the `[E]` lines (R268). -/
theorem exec_execute {i : Instr} {s : State} {r : Record} (hp : s.phase = .execute) (hs : s.slotE = some r)
    (hr : condPass i.fields.cond s.flags = true) :
    exec i s = .next (executeLines i.fields { r with pass := true } { s with slotE := some { r with pass := true } }) := by
  simp only [exec_eq, execState, hp, executeStage, hs, hr, if_true]

/-- Phase 2 with a condition that fails: the mark, and nothing else (R182). -/
theorem exec_execute_failed {i : Instr} {s : State} {r : Record} (hp : s.phase = .execute) (hs : s.slotE = some r)
    (hr : condPass i.fields.cond s.flags = false) : exec i s = .next { s with slotE := some { r with pass := false } } := by
  simp only [exec_eq, execState, hp, executeStage, hs, hr, Bool.false_eq_true, if_false]

/-- Phase 3 with a record whose condition passed: the `[W]` lines (R272). -/
theorem exec_writeback {i : Instr} {s : State} {r : Record} (hp : s.phase = .writeback) (hs : s.slotW = some r)
    (hr : r.pass = true) : exec i s = .next (writebackLines i.fields r s) := by
  simp only [exec_eq, execState, hp, writebackStage, hs, hr, if_true]

/-- Phase 3 with a record whose condition failed: nothing (R182). -/
theorem exec_writeback_failed {i : Instr} {s : State} {r : Record} (hp : s.phase = .writeback) (hs : s.slotW = some r)
    (hr : r.pass = false) : exec i s = .next s := by
  simp only [exec_eq, execState, hp, writebackStage, hs, hr, Bool.false_eq_true, if_false]

/-! ### The fields of the ALU rows -/

/-- The decoded fields of an ALU row, by the layout of its second operand (R150). -/
theorem alu_fields (op : AluOp) (cond : Cond) (sf : Bool) (rd rn : Reg) (o2 : Operand2) :
    (Instr.alu op cond sf rd rn o2).fields =
      match o2 with
      | .imm imm8 => aluImmFields op cond sf rd rn imm8
      | .shImm shamt shtype rm => aluShImmFields op cond sf rd rn shamt shtype rm
      | .shReg rs shtype rm => aluShRegFields op cond sf rd rn rs shtype rm := by
  cases o2 <;> cases op <;> rfl

@[simp] theorem alu_fields_cond (op : AluOp) (cond : Cond) (sf : Bool) (rd rn : Reg) (o2 : Operand2) :
    (Instr.alu op cond sf rd rn o2).fields.cond = cond := by
  rw [alu_fields]
  cases o2 <;> rfl

@[simp] theorem alu_fields_cls (op : AluOp) (cond : Cond) (sf : Bool) (rd rn : Reg) (o2 : Operand2) :
    (Instr.alu op cond sf rd rn o2).fields.cls = .alu := by
  rw [alu_fields]
  cases o2 <;> rfl

@[simp] theorem alu_fields_s (op : AluOp) (cond : Cond) (sf : Bool) (rd rn : Reg) (o2 : Operand2) :
    (Instr.alu op cond sf rd rn o2).fields.s = sf := by
  rw [alu_fields]
  cases o2 <;> rfl

@[simp] theorem alu_fields_rd (op : AluOp) (cond : Cond) (sf : Bool) (rd rn : Reg) (o2 : Operand2) :
    (Instr.alu op cond sf rd rn o2).fields.rd = rd := by
  rw [alu_fields]
  cases o2 <;> rfl

@[simp] theorem alu_fields_rn (op : AluOp) (cond : Cond) (sf : Bool) (rd rn : Reg) (o2 : Operand2) :
    (Instr.alu op cond sf rd rn o2).fields.rn = rn := by
  rw [alu_fields]
  cases o2 <;> rfl

@[simp] theorem alu_fields_rdUsed (op : AluOp) (cond : Cond) (sf : Bool) (rd rn : Reg) (o2 : Operand2) :
    (Instr.alu op cond sf rd rn o2).fields.rdUsed = !op.isCompare := by
  rw [alu_fields]
  cases o2 <;> cases op <;> rfl

/-- The operation an ALU row's opcode names is its own (R157). -/
@[simp] theorem alu_fields_op (op : AluOp) (cond : Cond) (sf : Bool) (rd rn : Reg) (o2 : Operand2) :
    AluOp.ofCode (Instr.alu op cond sf rd rn o2).fields.opcode.toNat = op := by
  rw [alu_fields]
  cases o2 <;> cases op <;> rfl

/-- The second operand of an ALU row (R187). -/
@[simp] theorem alu_operand2 (op : AluOp) (cond : Cond) (sf : Bool) (rd rn : Reg) (o2 : Operand2) (r : Record) :
    operand2 (Instr.alu op cond sf rd rn o2).fields r = o2.value r := by
  rw [alu_fields]
  cases o2 <;> rfl

end Sys2Proof.Machine
end

