-- ==== Sys2Proof/Laws/Step.lean ====
section
/-!
SUPPORT. One step as a function: every phase answers a next state, so a step does; what each phase can change, field by
field; and what the memory operations change besides memory.
-/

namespace Sys2Proof.Machine

/-! ### What a memory operation changes besides memory -/

/-- A poll that answers: the state with the memory it leaves. -/
theorem State.memRead_aligned {s : State} {u : Bool} {a : Word} (h : aligned a = true) :
    s.memRead u a = (match (s.poll u { kind := .read, addr := flatAddr a, n := 1, data := [] }).1 with
      | .waiting => .waiting
      | .done words => .done (words.headD 0), (s.poll u { kind := .read, addr := flatAddr a, n := 1, data := [] }).2) := by
  unfold State.memRead
  rw [if_pos h]
  split <;> simp_all

/-- A misaligned read answers 0 at once and leaves a diagnostic (R66). -/
theorem State.memRead_misaligned {s : State} {u : Bool} {a : Word} (h : aligned a = false) :
    s.memRead u a = (.done 0, s.diagnose .misalignedRead a) := by
  simp [State.memRead, h]

theorem State.memWrite_aligned {s : State} {u : Bool} {a v : Word} (h : aligned a = true) :
    s.memWrite u a v = (match (s.poll u { kind := .write, addr := flatAddr a, n := 1, data := [v] }).1 with
      | .waiting => .waiting
      | .done _ => .done (), (s.poll u { kind := .write, addr := flatAddr a, n := 1, data := [v] }).2) := by
  unfold State.memWrite
  rw [if_pos h]
  split <;> simp_all

/-- A misaligned write writes nothing and leaves a diagnostic (R66). -/
theorem State.memWrite_misaligned {s : State} {u : Bool} {a v : Word} (h : aligned a = false) :
    s.memWrite u a v = (.done (), s.diagnose .misalignedWrite a) := by
  simp [State.memWrite, h]

@[simp] theorem State.memRead_chain (s : State) (u : Bool) (a : Word) : (s.memRead u a).2.chain = s.chain := by
  cases h : aligned a <;> simp [State.memRead_aligned, State.memRead_misaligned, h]

@[simp] theorem State.memRead_regs (s : State) (u : Bool) (a : Word) : (s.memRead u a).2.regs = s.regs := by
  cases h : aligned a <;> simp [State.memRead_aligned, State.memRead_misaligned, h]

@[simp] theorem State.memRead_flags (s : State) (u : Bool) (a : Word) : (s.memRead u a).2.flags = s.flags := by
  cases h : aligned a <;> simp [State.memRead_aligned, State.memRead_misaligned, h]

@[simp] theorem State.memRead_cycle (s : State) (u : Bool) (a : Word) : (s.memRead u a).2.cycle = s.cycle := by
  cases h : aligned a <;> simp [State.memRead_aligned, State.memRead_misaligned, h]

@[simp] theorem State.memRead_halted (s : State) (u : Bool) (a : Word) : (s.memRead u a).2.halted = s.halted := by
  cases h : aligned a <;> simp [State.memRead_aligned, State.memRead_misaligned, h]

@[simp] theorem State.memRead_slotF (s : State) (u : Bool) (a : Word) : (s.memRead u a).2.slotF = s.slotF := by
  cases h : aligned a <;> simp [State.memRead_aligned, State.memRead_misaligned, h]

@[simp] theorem State.memRead_slotD (s : State) (u : Bool) (a : Word) : (s.memRead u a).2.slotD = s.slotD := by
  cases h : aligned a <;> simp [State.memRead_aligned, State.memRead_misaligned, h]

@[simp] theorem State.memRead_slotE (s : State) (u : Bool) (a : Word) : (s.memRead u a).2.slotE = s.slotE := by
  cases h : aligned a <;> simp [State.memRead_aligned, State.memRead_misaligned, h]

@[simp] theorem State.memRead_slotM (s : State) (u : Bool) (a : Word) : (s.memRead u a).2.slotM = s.slotM := by
  cases h : aligned a <;> simp [State.memRead_aligned, State.memRead_misaligned, h]

@[simp] theorem State.memRead_slotW (s : State) (u : Bool) (a : Word) : (s.memRead u a).2.slotW = s.slotW := by
  cases h : aligned a <;> simp [State.memRead_aligned, State.memRead_misaligned, h]

@[simp] theorem State.memRead_inputs (s : State) (u : Bool) (a : Word) : (s.memRead u a).2.inputs = s.inputs := by
  cases h : aligned a <;> simp [State.memRead_aligned, State.memRead_misaligned, h]

@[simp] theorem State.memRead_lines (s : State) (u : Bool) (a : Word) : (s.memRead u a).2.lines = s.lines := by
  cases h : aligned a <;> simp [State.memRead_aligned, State.memRead_misaligned, h]

@[simp] theorem State.memRead_phase (s : State) (u : Bool) (a : Word) : (s.memRead u a).2.phase = s.phase := by
  cases h : aligned a <;> simp [State.memRead_aligned, State.memRead_misaligned, h]

@[simp] theorem State.memRead_mwait (s : State) (u : Bool) (a : Word) : (s.memRead u a).2.mwait = s.mwait := by
  cases h : aligned a <;> simp [State.memRead_aligned, State.memRead_misaligned, h]

@[simp] theorem State.memWrite_chain (s : State) (u : Bool) (a v : Word) : (s.memWrite u a v).2.chain = s.chain := by
  cases h : aligned a <;> simp [State.memWrite_aligned, State.memWrite_misaligned, h]

@[simp] theorem State.memWrite_regs (s : State) (u : Bool) (a v : Word) : (s.memWrite u a v).2.regs = s.regs := by
  cases h : aligned a <;> simp [State.memWrite_aligned, State.memWrite_misaligned, h]

@[simp] theorem State.memWrite_flags (s : State) (u : Bool) (a v : Word) : (s.memWrite u a v).2.flags = s.flags := by
  cases h : aligned a <;> simp [State.memWrite_aligned, State.memWrite_misaligned, h]

@[simp] theorem State.memWrite_cycle (s : State) (u : Bool) (a v : Word) : (s.memWrite u a v).2.cycle = s.cycle := by
  cases h : aligned a <;> simp [State.memWrite_aligned, State.memWrite_misaligned, h]

@[simp] theorem State.memWrite_halted (s : State) (u : Bool) (a v : Word) : (s.memWrite u a v).2.halted = s.halted := by
  cases h : aligned a <;> simp [State.memWrite_aligned, State.memWrite_misaligned, h]

@[simp] theorem State.memWrite_slotF (s : State) (u : Bool) (a v : Word) : (s.memWrite u a v).2.slotF = s.slotF := by
  cases h : aligned a <;> simp [State.memWrite_aligned, State.memWrite_misaligned, h]

@[simp] theorem State.memWrite_slotD (s : State) (u : Bool) (a v : Word) : (s.memWrite u a v).2.slotD = s.slotD := by
  cases h : aligned a <;> simp [State.memWrite_aligned, State.memWrite_misaligned, h]

@[simp] theorem State.memWrite_slotE (s : State) (u : Bool) (a v : Word) : (s.memWrite u a v).2.slotE = s.slotE := by
  cases h : aligned a <;> simp [State.memWrite_aligned, State.memWrite_misaligned, h]

@[simp] theorem State.memWrite_slotM (s : State) (u : Bool) (a v : Word) : (s.memWrite u a v).2.slotM = s.slotM := by
  cases h : aligned a <;> simp [State.memWrite_aligned, State.memWrite_misaligned, h]

@[simp] theorem State.memWrite_slotW (s : State) (u : Bool) (a v : Word) : (s.memWrite u a v).2.slotW = s.slotW := by
  cases h : aligned a <;> simp [State.memWrite_aligned, State.memWrite_misaligned, h]

@[simp] theorem State.memWrite_inputs (s : State) (u : Bool) (a v : Word) : (s.memWrite u a v).2.inputs = s.inputs := by
  cases h : aligned a <;> simp [State.memWrite_aligned, State.memWrite_misaligned, h]

@[simp] theorem State.memWrite_lines (s : State) (u : Bool) (a v : Word) : (s.memWrite u a v).2.lines = s.lines := by
  cases h : aligned a <;> simp [State.memWrite_aligned, State.memWrite_misaligned, h]

@[simp] theorem State.memWrite_phase (s : State) (u : Bool) (a v : Word) : (s.memWrite u a v).2.phase = s.phase := by
  cases h : aligned a <;> simp [State.memWrite_aligned, State.memWrite_misaligned, h]

@[simp] theorem State.memWrite_mwait (s : State) (u : Bool) (a v : Word) : (s.memWrite u a v).2.mwait = s.mwait := by
  cases h : aligned a <;> simp [State.memWrite_aligned, State.memWrite_misaligned, h]

/-- A memory operation leaves at most one diagnostic (R306). -/
theorem State.memRead_diags (s : State) (u : Bool) (a : Word) :
    (s.memRead u a).2.diags = s.diags ++ if aligned a then [] else [{ kind := .misalignedRead, addr := a }] := by
  cases h : aligned a <;> simp [State.memRead_aligned, State.memRead_misaligned, h]

theorem State.memWrite_diags (s : State) (u : Bool) (a v : Word) :
    (s.memWrite u a v).2.diags = s.diags ++ if aligned a then [] else [{ kind := .misalignedWrite, addr := a }] := by
  cases h : aligned a <;> simp [State.memWrite_aligned, State.memWrite_misaligned, h]

/-! ### The phases as functions -/

/-- The state a phase of R262 leaves. -/
def phaseState (p : Phase) (s : State) : State :=
  match s.slot p with
  | none => { s with phase := p }
  | some r => execState r.instr { s with phase := p }

theorem runPhase_eq (p : Phase) (s : State) : runPhase p s = .next (phaseState p s) := by
  unfold runPhase phaseState
  split <;> simp_all [exec_eq]

/-- The state phases 1 to 2b leave. -/
def middleState (s : State) : State :=
  if s.mwait then s else phaseState .sentinel (phaseState .execute (phaseState .decode s))

theorem middlePhases_eq (s : State) : middlePhases s = .next (middleState s) := by
  unfold middlePhases middleState
  split <;> simp [runPhase_eq, andThen]

/-- The state the phases 0 to 3 leave. -/
def workState (s : State) : State := phaseState .writeback (middleState (phaseState .memory { s with mwait := false }))

/-- Every step answers a next state, and which. -/
theorem step_eq (s : State) : step s = .next (workState s).advance.endCycle := by
  simp [step, State.clock, runPhase_eq, middlePhases_eq, andThen, workState]

/-- Phase 0, spelled out (R264). -/
theorem memoryPhase_eq (s : State) : phaseState .memory s =
    match s.slotM with
    | none => { s with phase := .memory }
    | some r =>
      if r.pass then memoryLines r.instr.fields r { s with phase := .memory } else { s with phase := .memory } := by
  unfold phaseState
  simp only [State.slot]
  split
  · rfl
  · rename_i r h
    simp [execState, memoryStage, h]

/-- Phase 1, spelled out (R266). -/
theorem decodePhase_eq (s : State) : phaseState .decode s =
    match s.slotD with
    | none => { s with phase := .decode }
    | some r => { s with
        phase := .decode
        slotD := some (if s.hazardFree r.instr.uses then s.snapshot r.instr.fields r else { r with decoded := false }) } := by
  unfold phaseState
  simp only [State.slot]
  split
  · rfl
  · rename_i r h
    simp only [execState, decodeStage, h]
    change (if s.hazardFree r.instr.uses then _ else _) = _
    split <;> rfl

/-- Phase 2, spelled out (R268). -/
theorem executePhase_eq (s : State) : phaseState .execute s =
    match s.slotE with
    | none => { s with phase := .execute }
    | some r =>
      if condPass r.instr.fields.cond s.flags then
        executeLines r.instr.fields { r with pass := true } { s with phase := .execute, slotE := some { r with pass := true } }
      else { s with phase := .execute, slotE := some { r with pass := false } } := by
  unfold phaseState
  simp only [State.slot]
  split
  · rfl
  · rename_i r h
    simp only [execState, executeStage, h]
    cases hc : condPass r.instr.fields.cond s.flags <;> simp

theorem instr_eq_endStream (r : Record) : r.instr = .endStream ↔ r.raw = sentinelWord := by
  unfold Record.instr decode
  split
  · simp_all
  · rename_i h
    simp only [h, iff_false]
    split
    · unfold decodeAlu
      split
      · split
        · cases AluOp.ofCode (slice r.raw 21 4) <;> simp [Instr.aluShReg]
        · cases AluOp.ofCode (slice r.raw 21 4) <;> simp [Instr.aluShImm]
      · cases AluOp.ofCode (slice r.raw 21 4) <;> simp [Instr.aluImm]
    · unfold decodeMemory
      split <;> split <;> simp
    · unfold decodeBranch
      split <;> split <;> simp
    · simp

/-- Phase 2b, spelled out (R252). -/
theorem sentinelPhase_eq (s : State) : phaseState .sentinel s =
    if s.sentinelInD then { s with phase := .sentinel, halted := true, slotF := none, slotD := none }
    else { s with phase := .sentinel } := by
  unfold phaseState State.sentinelInD
  simp only [State.slot]
  split
  · rename_i h
    simp [h]
  · rename_i r h
    simp only [execState, instr_eq_endStream, h, Option.any_some, beq_iff_eq, sentinelStage]
    split <;> rfl

/-- Phase 3, spelled out (R272). -/
theorem writebackPhase_eq (s : State) : phaseState .writeback s =
    match s.slotW with
    | none => { s with phase := .writeback }
    | some r =>
      if r.pass then writebackLines r.instr.fields r { s with phase := .writeback } else { s with phase := .writeback } := by
  unfold phaseState
  simp only [State.slot]
  split
  · rfl
  · rename_i r h
    simp [execState, writebackStage, h]

/-- The three kinds of `[M]` lines. -/
theorem memoryLines_cases (f : Fields) : memoryLines f = noLines ∨ (f.cls = .memory ∧ f.l = true ∧ memoryLines f = loadMemory) ∨
    (f.cls = .memory ∧ f.l = false ∧ memoryLines f = storeMemory) := by
  unfold memoryLines
  cases f.cls <;> cases f.l <;> simp

@[simp] theorem memoryLines_chain (f : Fields) (r : Record) (s : State) : (memoryLines f r s).chain = s.chain := by
  rcases memoryLines_cases f with h | ⟨-, -, h⟩ | ⟨-, -, h⟩ <;> rw [h]
  · rfl
  · unfold loadMemory
    have := State.memRead_chain s s.input.useCache r.addr
    split <;> simp_all
  · unfold storeMemory
    have := State.memWrite_chain s s.input.useCache r.addr r.vRd
    split <;> simp_all

@[simp] theorem memoryLines_regs (f : Fields) (r : Record) (s : State) : (memoryLines f r s).regs = s.regs := by
  rcases memoryLines_cases f with h | ⟨-, -, h⟩ | ⟨-, -, h⟩ <;> rw [h]
  · rfl
  · unfold loadMemory
    have := State.memRead_regs s s.input.useCache r.addr
    split <;> simp_all
  · unfold storeMemory
    have := State.memWrite_regs s s.input.useCache r.addr r.vRd
    split <;> simp_all

@[simp] theorem memoryLines_flags (f : Fields) (r : Record) (s : State) : (memoryLines f r s).flags = s.flags := by
  rcases memoryLines_cases f with h | ⟨-, -, h⟩ | ⟨-, -, h⟩ <;> rw [h]
  · rfl
  · unfold loadMemory
    have := State.memRead_flags s s.input.useCache r.addr
    split <;> simp_all
  · unfold storeMemory
    have := State.memWrite_flags s s.input.useCache r.addr r.vRd
    split <;> simp_all

@[simp] theorem memoryLines_cycle (f : Fields) (r : Record) (s : State) : (memoryLines f r s).cycle = s.cycle := by
  rcases memoryLines_cases f with h | ⟨-, -, h⟩ | ⟨-, -, h⟩ <;> rw [h]
  · rfl
  · unfold loadMemory
    have := State.memRead_cycle s s.input.useCache r.addr
    split <;> simp_all
  · unfold storeMemory
    have := State.memWrite_cycle s s.input.useCache r.addr r.vRd
    split <;> simp_all

@[simp] theorem memoryLines_halted (f : Fields) (r : Record) (s : State) : (memoryLines f r s).halted = s.halted := by
  rcases memoryLines_cases f with h | ⟨-, -, h⟩ | ⟨-, -, h⟩ <;> rw [h]
  · rfl
  · unfold loadMemory
    have := State.memRead_halted s s.input.useCache r.addr
    split <;> simp_all
  · unfold storeMemory
    have := State.memWrite_halted s s.input.useCache r.addr r.vRd
    split <;> simp_all

@[simp] theorem memoryLines_slotF (f : Fields) (r : Record) (s : State) : (memoryLines f r s).slotF = s.slotF := by
  rcases memoryLines_cases f with h | ⟨-, -, h⟩ | ⟨-, -, h⟩ <;> rw [h]
  · rfl
  · unfold loadMemory
    have := State.memRead_slotF s s.input.useCache r.addr
    split <;> simp_all
  · unfold storeMemory
    have := State.memWrite_slotF s s.input.useCache r.addr r.vRd
    split <;> simp_all

@[simp] theorem memoryLines_slotD (f : Fields) (r : Record) (s : State) : (memoryLines f r s).slotD = s.slotD := by
  rcases memoryLines_cases f with h | ⟨-, -, h⟩ | ⟨-, -, h⟩ <;> rw [h]
  · rfl
  · unfold loadMemory
    have := State.memRead_slotD s s.input.useCache r.addr
    split <;> simp_all
  · unfold storeMemory
    have := State.memWrite_slotD s s.input.useCache r.addr r.vRd
    split <;> simp_all

@[simp] theorem memoryLines_slotE (f : Fields) (r : Record) (s : State) : (memoryLines f r s).slotE = s.slotE := by
  rcases memoryLines_cases f with h | ⟨-, -, h⟩ | ⟨-, -, h⟩ <;> rw [h]
  · rfl
  · unfold loadMemory
    have := State.memRead_slotE s s.input.useCache r.addr
    split <;> simp_all
  · unfold storeMemory
    have := State.memWrite_slotE s s.input.useCache r.addr r.vRd
    split <;> simp_all

@[simp] theorem memoryLines_slotW (f : Fields) (r : Record) (s : State) : (memoryLines f r s).slotW = s.slotW := by
  rcases memoryLines_cases f with h | ⟨-, -, h⟩ | ⟨-, -, h⟩ <;> rw [h]
  · rfl
  · unfold loadMemory
    have := State.memRead_slotW s s.input.useCache r.addr
    split <;> simp_all
  · unfold storeMemory
    have := State.memWrite_slotW s s.input.useCache r.addr r.vRd
    split <;> simp_all

@[simp] theorem memoryLines_inputs (f : Fields) (r : Record) (s : State) : (memoryLines f r s).inputs = s.inputs := by
  rcases memoryLines_cases f with h | ⟨-, -, h⟩ | ⟨-, -, h⟩ <;> rw [h]
  · rfl
  · unfold loadMemory
    have := State.memRead_inputs s s.input.useCache r.addr
    split <;> simp_all
  · unfold storeMemory
    have := State.memWrite_inputs s s.input.useCache r.addr r.vRd
    split <;> simp_all

@[simp] theorem memoryLines_lines (f : Fields) (r : Record) (s : State) : (memoryLines f r s).lines = s.lines := by
  rcases memoryLines_cases f with h | ⟨-, -, h⟩ | ⟨-, -, h⟩ <;> rw [h]
  · rfl
  · unfold loadMemory
    have := State.memRead_lines s s.input.useCache r.addr
    split <;> simp_all
  · unfold storeMemory
    have := State.memWrite_lines s s.input.useCache r.addr r.vRd
    split <;> simp_all

@[simp] theorem memoryLines_phase (f : Fields) (r : Record) (s : State) : (memoryLines f r s).phase = s.phase := by
  rcases memoryLines_cases f with h | ⟨-, -, h⟩ | ⟨-, -, h⟩ <;> rw [h]
  · rfl
  · unfold loadMemory
    have := State.memRead_phase s s.input.useCache r.addr
    split <;> simp_all
  · unfold storeMemory
    have := State.memWrite_phase s s.input.useCache r.addr r.vRd
    split <;> simp_all

/-! ### What phase 0 changes -/

@[simp] theorem memoryPhase_chain (s : State) : (phaseState .memory s).chain = s.chain := by
  rw [memoryPhase_eq]
  repeat' split
  all_goals simp

@[simp] theorem memoryPhase_regs (s : State) : (phaseState .memory s).regs = s.regs := by
  rw [memoryPhase_eq]
  repeat' split
  all_goals simp

@[simp] theorem memoryPhase_flags (s : State) : (phaseState .memory s).flags = s.flags := by
  rw [memoryPhase_eq]
  repeat' split
  all_goals simp

@[simp] theorem memoryPhase_cycle (s : State) : (phaseState .memory s).cycle = s.cycle := by
  rw [memoryPhase_eq]
  repeat' split
  all_goals simp

@[simp] theorem memoryPhase_halted (s : State) : (phaseState .memory s).halted = s.halted := by
  rw [memoryPhase_eq]
  repeat' split
  all_goals simp

@[simp] theorem memoryPhase_slotF (s : State) : (phaseState .memory s).slotF = s.slotF := by
  rw [memoryPhase_eq]
  repeat' split
  all_goals simp

@[simp] theorem memoryPhase_slotD (s : State) : (phaseState .memory s).slotD = s.slotD := by
  rw [memoryPhase_eq]
  repeat' split
  all_goals simp

@[simp] theorem memoryPhase_slotE (s : State) : (phaseState .memory s).slotE = s.slotE := by
  rw [memoryPhase_eq]
  repeat' split
  all_goals simp

@[simp] theorem memoryPhase_slotW (s : State) : (phaseState .memory s).slotW = s.slotW := by
  rw [memoryPhase_eq]
  repeat' split
  all_goals simp

@[simp] theorem memoryPhase_inputs (s : State) : (phaseState .memory s).inputs = s.inputs := by
  rw [memoryPhase_eq]
  repeat' split
  all_goals simp

@[simp] theorem memoryPhase_lines (s : State) : (phaseState .memory s).lines = s.lines := by
  rw [memoryPhase_eq]
  repeat' split
  all_goals simp

@[simp] theorem memoryPhase_phase (s : State) : (phaseState .memory s).phase = .memory := by
  rw [memoryPhase_eq]
  repeat' split
  all_goals simp

/-! ### What phase 1 changes -/

@[simp] theorem decodePhase_chain (s : State) : (phaseState .decode s).chain = s.chain := by
  rw [decodePhase_eq]
  split <;> rfl

@[simp] theorem decodePhase_regs (s : State) : (phaseState .decode s).regs = s.regs := by
  rw [decodePhase_eq]
  split <;> rfl

@[simp] theorem decodePhase_flags (s : State) : (phaseState .decode s).flags = s.flags := by
  rw [decodePhase_eq]
  split <;> rfl

@[simp] theorem decodePhase_cycle (s : State) : (phaseState .decode s).cycle = s.cycle := by
  rw [decodePhase_eq]
  split <;> rfl

@[simp] theorem decodePhase_halted (s : State) : (phaseState .decode s).halted = s.halted := by
  rw [decodePhase_eq]
  split <;> rfl

@[simp] theorem decodePhase_slotF (s : State) : (phaseState .decode s).slotF = s.slotF := by
  rw [decodePhase_eq]
  split <;> rfl

@[simp] theorem decodePhase_slotE (s : State) : (phaseState .decode s).slotE = s.slotE := by
  rw [decodePhase_eq]
  split <;> rfl

@[simp] theorem decodePhase_slotM (s : State) : (phaseState .decode s).slotM = s.slotM := by
  rw [decodePhase_eq]
  split <;> rfl

@[simp] theorem decodePhase_slotW (s : State) : (phaseState .decode s).slotW = s.slotW := by
  rw [decodePhase_eq]
  split <;> rfl

@[simp] theorem decodePhase_mem (s : State) : (phaseState .decode s).mem = s.mem := by
  rw [decodePhase_eq]
  split <;> rfl

@[simp] theorem decodePhase_diags (s : State) : (phaseState .decode s).diags = s.diags := by
  rw [decodePhase_eq]
  split <;> rfl

@[simp] theorem decodePhase_inputs (s : State) : (phaseState .decode s).inputs = s.inputs := by
  rw [decodePhase_eq]
  split <;> rfl

@[simp] theorem decodePhase_lines (s : State) : (phaseState .decode s).lines = s.lines := by
  rw [decodePhase_eq]
  split <;> rfl

@[simp] theorem decodePhase_phase (s : State) : (phaseState .decode s).phase = .decode := by
  rw [decodePhase_eq]
  split <;> rfl

@[simp] theorem decodePhase_mwait (s : State) : (phaseState .decode s).mwait = s.mwait := by
  rw [decodePhase_eq]
  split <;> rfl

@[simp] theorem executeLines_chain (f : Fields) (r : Record) (s : State) : (executeLines f r s).chain = s.chain := by
  unfold executeLines
  cases f.cls <;> rfl

@[simp] theorem executeLines_cycle (f : Fields) (r : Record) (s : State) : (executeLines f r s).cycle = s.cycle := by
  unfold executeLines
  cases f.cls <;> rfl

@[simp] theorem executeLines_halted (f : Fields) (r : Record) (s : State) : (executeLines f r s).halted = s.halted := by
  unfold executeLines
  cases f.cls <;> rfl

@[simp] theorem executeLines_slotM (f : Fields) (r : Record) (s : State) : (executeLines f r s).slotM = s.slotM := by
  unfold executeLines
  cases f.cls <;> rfl

@[simp] theorem executeLines_slotW (f : Fields) (r : Record) (s : State) : (executeLines f r s).slotW = s.slotW := by
  unfold executeLines
  cases f.cls <;> rfl

@[simp] theorem executeLines_mem (f : Fields) (r : Record) (s : State) : (executeLines f r s).mem = s.mem := by
  unfold executeLines
  cases f.cls <;> rfl

@[simp] theorem executeLines_diags (f : Fields) (r : Record) (s : State) : (executeLines f r s).diags = s.diags := by
  unfold executeLines
  cases f.cls <;> rfl

@[simp] theorem executeLines_inputs (f : Fields) (r : Record) (s : State) : (executeLines f r s).inputs = s.inputs := by
  unfold executeLines
  cases f.cls <;> rfl

@[simp] theorem executeLines_lines (f : Fields) (r : Record) (s : State) : (executeLines f r s).lines = s.lines := by
  unfold executeLines
  cases f.cls <;> rfl

@[simp] theorem executeLines_phase (f : Fields) (r : Record) (s : State) : (executeLines f r s).phase = s.phase := by
  unfold executeLines
  cases f.cls <;> rfl

@[simp] theorem executeLines_mwait (f : Fields) (r : Record) (s : State) : (executeLines f r s).mwait = s.mwait := by
  unfold executeLines
  cases f.cls <;> rfl

/-! ### What phase 2 changes -/

@[simp] theorem executePhase_chain (s : State) : (phaseState .execute s).chain = s.chain := by
  rw [executePhase_eq]
  split
  · rfl
  · split
    · simp
    · rfl

@[simp] theorem executePhase_cycle (s : State) : (phaseState .execute s).cycle = s.cycle := by
  rw [executePhase_eq]
  split
  · rfl
  · split
    · simp
    · rfl

@[simp] theorem executePhase_halted (s : State) : (phaseState .execute s).halted = s.halted := by
  rw [executePhase_eq]
  split
  · rfl
  · split
    · simp
    · rfl

@[simp] theorem executePhase_slotM (s : State) : (phaseState .execute s).slotM = s.slotM := by
  rw [executePhase_eq]
  split
  · rfl
  · split
    · simp
    · rfl

@[simp] theorem executePhase_slotW (s : State) : (phaseState .execute s).slotW = s.slotW := by
  rw [executePhase_eq]
  split
  · rfl
  · split
    · simp
    · rfl

@[simp] theorem executePhase_mem (s : State) : (phaseState .execute s).mem = s.mem := by
  rw [executePhase_eq]
  split
  · rfl
  · split
    · simp
    · rfl

@[simp] theorem executePhase_diags (s : State) : (phaseState .execute s).diags = s.diags := by
  rw [executePhase_eq]
  split
  · rfl
  · split
    · simp
    · rfl

@[simp] theorem executePhase_inputs (s : State) : (phaseState .execute s).inputs = s.inputs := by
  rw [executePhase_eq]
  split
  · rfl
  · split
    · simp
    · rfl

@[simp] theorem executePhase_lines (s : State) : (phaseState .execute s).lines = s.lines := by
  rw [executePhase_eq]
  split
  · rfl
  · split
    · simp
    · rfl

@[simp] theorem executePhase_phase (s : State) : (phaseState .execute s).phase = .execute := by
  rw [executePhase_eq]
  split
  · rfl
  · split
    · simp
    · rfl

@[simp] theorem executePhase_mwait (s : State) : (phaseState .execute s).mwait = s.mwait := by
  rw [executePhase_eq]
  split
  · rfl
  · split
    · simp
    · rfl

/-! ### What phase 2b changes -/

@[simp] theorem sentinelPhase_chain (s : State) : (phaseState .sentinel s).chain = s.chain := by
  rw [sentinelPhase_eq]
  split <;> rfl

@[simp] theorem sentinelPhase_regs (s : State) : (phaseState .sentinel s).regs = s.regs := by
  rw [sentinelPhase_eq]
  split <;> rfl

@[simp] theorem sentinelPhase_flags (s : State) : (phaseState .sentinel s).flags = s.flags := by
  rw [sentinelPhase_eq]
  split <;> rfl

@[simp] theorem sentinelPhase_cycle (s : State) : (phaseState .sentinel s).cycle = s.cycle := by
  rw [sentinelPhase_eq]
  split <;> rfl

@[simp] theorem sentinelPhase_slotE (s : State) : (phaseState .sentinel s).slotE = s.slotE := by
  rw [sentinelPhase_eq]
  split <;> rfl

@[simp] theorem sentinelPhase_slotM (s : State) : (phaseState .sentinel s).slotM = s.slotM := by
  rw [sentinelPhase_eq]
  split <;> rfl

@[simp] theorem sentinelPhase_slotW (s : State) : (phaseState .sentinel s).slotW = s.slotW := by
  rw [sentinelPhase_eq]
  split <;> rfl

@[simp] theorem sentinelPhase_mem (s : State) : (phaseState .sentinel s).mem = s.mem := by
  rw [sentinelPhase_eq]
  split <;> rfl

@[simp] theorem sentinelPhase_diags (s : State) : (phaseState .sentinel s).diags = s.diags := by
  rw [sentinelPhase_eq]
  split <;> rfl

@[simp] theorem sentinelPhase_inputs (s : State) : (phaseState .sentinel s).inputs = s.inputs := by
  rw [sentinelPhase_eq]
  split <;> rfl

@[simp] theorem sentinelPhase_lines (s : State) : (phaseState .sentinel s).lines = s.lines := by
  rw [sentinelPhase_eq]
  split <;> rfl

@[simp] theorem sentinelPhase_phase (s : State) : (phaseState .sentinel s).phase = .sentinel := by
  rw [sentinelPhase_eq]
  split <;> rfl

@[simp] theorem sentinelPhase_mwait (s : State) : (phaseState .sentinel s).mwait = s.mwait := by
  rw [sentinelPhase_eq]
  split <;> rfl

/-- Writeback changes registers only: which, and to what (R272). -/
theorem writebackLines_eq (f : Fields) (r : Record) (s : State) : ∃ regs, writebackLines f r s = { s with regs := regs } := by
  have hb : ∀ s : State, ∃ regs, baseWriteback f r s = { s with regs := regs } := fun s => by
    unfold baseWriteback
    split
    · exact ⟨_, rfl⟩
    · exact ⟨s.regs, rfl⟩
  unfold writebackLines
  cases f.cls
  · simp only [aluWriteback]
    split
    · exact ⟨_, rfl⟩
    · exact ⟨s.regs, rfl⟩
  · cases f.l
    · exact hb s
    · obtain ⟨regs, h⟩ := hb s
      simp only [loadWriteback, h, if_true]
      exact ⟨_, rfl⟩
  · simp only [branchWriteback]
    split
    · exact ⟨_, rfl⟩
    · exact ⟨s.regs, rfl⟩
  · exact ⟨s.regs, rfl⟩

@[simp] theorem writebackLines_chain (f : Fields) (r : Record) (s : State) : (writebackLines f r s).chain = s.chain := by
  obtain ⟨regs, h⟩ := writebackLines_eq f r s
  rw [h]

@[simp] theorem writebackLines_flags (f : Fields) (r : Record) (s : State) : (writebackLines f r s).flags = s.flags := by
  obtain ⟨regs, h⟩ := writebackLines_eq f r s
  rw [h]

@[simp] theorem writebackLines_cycle (f : Fields) (r : Record) (s : State) : (writebackLines f r s).cycle = s.cycle := by
  obtain ⟨regs, h⟩ := writebackLines_eq f r s
  rw [h]

@[simp] theorem writebackLines_halted (f : Fields) (r : Record) (s : State) : (writebackLines f r s).halted = s.halted := by
  obtain ⟨regs, h⟩ := writebackLines_eq f r s
  rw [h]

@[simp] theorem writebackLines_slotF (f : Fields) (r : Record) (s : State) : (writebackLines f r s).slotF = s.slotF := by
  obtain ⟨regs, h⟩ := writebackLines_eq f r s
  rw [h]

@[simp] theorem writebackLines_slotD (f : Fields) (r : Record) (s : State) : (writebackLines f r s).slotD = s.slotD := by
  obtain ⟨regs, h⟩ := writebackLines_eq f r s
  rw [h]

@[simp] theorem writebackLines_slotE (f : Fields) (r : Record) (s : State) : (writebackLines f r s).slotE = s.slotE := by
  obtain ⟨regs, h⟩ := writebackLines_eq f r s
  rw [h]

@[simp] theorem writebackLines_slotM (f : Fields) (r : Record) (s : State) : (writebackLines f r s).slotM = s.slotM := by
  obtain ⟨regs, h⟩ := writebackLines_eq f r s
  rw [h]

@[simp] theorem writebackLines_slotW (f : Fields) (r : Record) (s : State) : (writebackLines f r s).slotW = s.slotW := by
  obtain ⟨regs, h⟩ := writebackLines_eq f r s
  rw [h]

@[simp] theorem writebackLines_mem (f : Fields) (r : Record) (s : State) : (writebackLines f r s).mem = s.mem := by
  obtain ⟨regs, h⟩ := writebackLines_eq f r s
  rw [h]

@[simp] theorem writebackLines_diags (f : Fields) (r : Record) (s : State) : (writebackLines f r s).diags = s.diags := by
  obtain ⟨regs, h⟩ := writebackLines_eq f r s
  rw [h]

@[simp] theorem writebackLines_inputs (f : Fields) (r : Record) (s : State) : (writebackLines f r s).inputs = s.inputs := by
  obtain ⟨regs, h⟩ := writebackLines_eq f r s
  rw [h]

@[simp] theorem writebackLines_lines (f : Fields) (r : Record) (s : State) : (writebackLines f r s).lines = s.lines := by
  obtain ⟨regs, h⟩ := writebackLines_eq f r s
  rw [h]

@[simp] theorem writebackLines_phase (f : Fields) (r : Record) (s : State) : (writebackLines f r s).phase = s.phase := by
  obtain ⟨regs, h⟩ := writebackLines_eq f r s
  rw [h]

@[simp] theorem writebackLines_mwait (f : Fields) (r : Record) (s : State) : (writebackLines f r s).mwait = s.mwait := by
  obtain ⟨regs, h⟩ := writebackLines_eq f r s
  rw [h]

/-! ### What phase 3 changes -/

@[simp] theorem writebackPhase_chain (s : State) : (phaseState .writeback s).chain = s.chain := by
  rw [writebackPhase_eq]
  split
  · rfl
  · split
    · simp
    · rfl

@[simp] theorem writebackPhase_flags (s : State) : (phaseState .writeback s).flags = s.flags := by
  rw [writebackPhase_eq]
  split
  · rfl
  · split
    · simp
    · rfl

@[simp] theorem writebackPhase_cycle (s : State) : (phaseState .writeback s).cycle = s.cycle := by
  rw [writebackPhase_eq]
  split
  · rfl
  · split
    · simp
    · rfl

@[simp] theorem writebackPhase_halted (s : State) : (phaseState .writeback s).halted = s.halted := by
  rw [writebackPhase_eq]
  split
  · rfl
  · split
    · simp
    · rfl

@[simp] theorem writebackPhase_slotF (s : State) : (phaseState .writeback s).slotF = s.slotF := by
  rw [writebackPhase_eq]
  split
  · rfl
  · split
    · simp
    · rfl

@[simp] theorem writebackPhase_slotD (s : State) : (phaseState .writeback s).slotD = s.slotD := by
  rw [writebackPhase_eq]
  split
  · rfl
  · split
    · simp
    · rfl

@[simp] theorem writebackPhase_slotE (s : State) : (phaseState .writeback s).slotE = s.slotE := by
  rw [writebackPhase_eq]
  split
  · rfl
  · split
    · simp
    · rfl

@[simp] theorem writebackPhase_slotM (s : State) : (phaseState .writeback s).slotM = s.slotM := by
  rw [writebackPhase_eq]
  split
  · rfl
  · split
    · simp
    · rfl

@[simp] theorem writebackPhase_slotW (s : State) : (phaseState .writeback s).slotW = s.slotW := by
  rw [writebackPhase_eq]
  split
  · rfl
  · split
    · simp
    · rfl

@[simp] theorem writebackPhase_mem (s : State) : (phaseState .writeback s).mem = s.mem := by
  rw [writebackPhase_eq]
  split
  · rfl
  · split
    · simp
    · rfl

@[simp] theorem writebackPhase_diags (s : State) : (phaseState .writeback s).diags = s.diags := by
  rw [writebackPhase_eq]
  split
  · rfl
  · split
    · simp
    · rfl

@[simp] theorem writebackPhase_inputs (s : State) : (phaseState .writeback s).inputs = s.inputs := by
  rw [writebackPhase_eq]
  split
  · rfl
  · split
    · simp
    · rfl

@[simp] theorem writebackPhase_lines (s : State) : (phaseState .writeback s).lines = s.lines := by
  rw [writebackPhase_eq]
  split
  · rfl
  · split
    · simp
    · rfl

@[simp] theorem writebackPhase_phase (s : State) : (phaseState .writeback s).phase = .writeback := by
  rw [writebackPhase_eq]
  split
  · rfl
  · split
    · simp
    · rfl

@[simp] theorem writebackPhase_mwait (s : State) : (phaseState .writeback s).mwait = s.mwait := by
  rw [writebackPhase_eq]
  split
  · rfl
  · split
    · simp
    · rfl

end Sys2Proof.Machine
end

