-- ==== Sys2Proof/Laws/Canonical.lean ====
section
/-!
SUPPORT. Every memory operation keeps the canonical form of the store and of the timers, whatever the state of the caches.
-/

namespace Sys2Proof.Machine

/-- The store and the timers of a hierarchy are in their canonical forms. -/
def Hierarchy.canonical (h : Hierarchy) : Prop := Memory.wf h.backing.cells = true ∧ h.timersCanonical = true

theorem canonical_iff (h : Hierarchy) : h.canonical ↔ Memory.wf h.backing.cells = true ∧
    sparseCanonical 0 h.backing.timer = true ∧ ∀ c ∈ h.caches, sparseCanonical 0 c.timer = true := by
  simp [Hierarchy.canonical, Hierarchy.timersCanonical]

theorem State.memoryCanonical_iff (s : State) : s.memoryCanonical = true ↔ s.mem.canonical := by
  simp [State.memoryCanonical, Hierarchy.canonical]

theorem terminalAccess_canonical (latency : Nat) (r : Request) {b : Backing} (h1 : Memory.wf b.cells = true)
    (h2 : sparseCanonical 0 b.timer = true) : Memory.wf (terminalAccess latency r b).2.cells = true ∧
      sparseCanonical 0 (terminalAccess latency r b).2.timer = true := by
  have ht := fun t => setTimer_canonical r.addr t h2
  unfold terminalAccess
  split
  · exact ⟨h1, by dsimp only; exact ht _⟩
  · split
    · exact ⟨h1, by dsimp only; exact ht _⟩
    · exact ⟨writeWords_wf _ _ h1, by dsimp only; exact ht _⟩

/-- A level below keeps the canonical form. -/
def KeepsCanonical (next : Request → Hierarchy → Poll (List Word) × Hierarchy) : Prop :=
  ∀ r h, h.canonical → (next r h).2.canonical

theorem fillAndServe_canonical {g : Geometry} {next : Request → Hierarchy → Poll (List Word) × Hierarchy} {r : Request}
    {v : Nat} {c : CacheState} {h : Hierarchy} (hn : KeepsCanonical next) (hc : sparseCanonical 0 c.timer = true)
    (hh : h.canonical) : sparseCanonical 0 (fillAndServe g next r v c h).2.1.timer = true ∧
      (fillAndServe g next r v c h).2.2.canonical := by
  have ht := fun t => setTimer_canonical r.addr t hc
  unfold fillAndServe
  split
  · rename_i h1 he
    exact ⟨hc, by simpa [he] using hn { kind := .read, addr := g.base r.addr, n := g.wordsPerLine, data := [] } h hh⟩
  · rename_i block h1 he
    exact ⟨by dsimp only [serve, CacheState.putSet]; exact ht _, by simpa [he] using hn { kind := .read, addr := g.base r.addr, n := g.wordsPerLine, data := [] } h hh⟩

theorem cacheAccess_canonical {g : Geometry} {next : Request → Hierarchy → Poll (List Word) × Hierarchy} {r : Request}
    {c : CacheState} {h : Hierarchy} (hn : KeepsCanonical next) (hc : sparseCanonical 0 c.timer = true) (hh : h.canonical) :
    sparseCanonical 0 (cacheAccess g next r c h).2.1.timer = true ∧ (cacheAccess g next r c h).2.2.canonical := by
  have ht := fun t => setTimer_canonical r.addr t hc
  unfold cacheAccess
  split
  · exact ⟨by dsimp only; exact ht _, hh⟩
  · split
    · exact ⟨by dsimp only [serve, CacheState.putSet]; exact ht _, hh⟩
    · unfold missAccess
      dsimp only
      split
      · split
        · rename_i h1 he
          refine ⟨hc, ?_⟩
          rw [← show _ = h1 from congrArg Prod.snd he]
          exact hn _ h hh
        · rename_i ws h1 he
          refine fillAndServe_canonical hn hc ?_
          rw [← show _ = h1 from congrArg Prod.snd he]
          exact hn _ h hh
      · exact fillAndServe_canonical hn hc hh

/-- One poll of any chain keeps the canonical form. -/
theorem access_canonical (latency : Nat) (gs : List Geometry) : KeepsCanonical (access latency gs) := by
  induction gs with
  | nil =>
    intro r h hh
    rw [canonical_iff] at hh ⊢
    have := terminalAccess_canonical latency r hh.1 hh.2.1
    exact ⟨this.1, this.2, hh.2.2⟩
  | cons g gs ih =>
    rintro r ⟨cs, b⟩ hh
    rw [canonical_iff] at hh
    cases cs with
    | nil =>
      have := terminalAccess_canonical latency r hh.1 hh.2.1
      rw [canonical_iff]
      exact ⟨this.1, this.2, hh.2.2⟩
    | cons c cs =>
      have hlow : Hierarchy.canonical { caches := cs, backing := b } := by
        rw [canonical_iff]
        exact ⟨hh.1, hh.2.1, fun c hc => hh.2.2 c (by simp [hc])⟩
      have := cacheAccess_canonical (g := g) (r := r) ih (hh.2.2 c (by simp)) hlow
      rw [canonical_iff] at this ⊢
      refine ⟨this.2.1, this.2.2.1, fun c' hc' => ?_⟩
      rcases List.mem_cons.1 hc' with rfl | hc'
      · exact this.1
      · exact this.2.2.2 c' hc'

theorem State.poll_canonical {s : State} (u : Bool) (r : Request) (h : s.memoryCanonical = true) :
    (s.poll u r).2.memoryCanonical = true := by
  rw [State.memoryCanonical_iff] at h ⊢
  exact access_canonical _ _ r _ h

/-- A read keeps the canonical form. -/
theorem State.memRead_canonical {s : State} (u : Bool) (a : Word) (h : s.memoryCanonical = true) :
    (s.memRead u a).2.memoryCanonical = true := by
  cases ha : aligned a
  · rw [State.memRead_misaligned ha]
    exact h
  · rw [State.memRead_aligned ha]
    exact State.poll_canonical u _ h

/-- A write keeps the canonical form. -/
theorem State.memWrite_canonical {s : State} (u : Bool) (a v : Word) (h : s.memoryCanonical = true) :
    (s.memWrite u a v).2.memoryCanonical = true := by
  cases ha : aligned a
  · rw [State.memWrite_misaligned ha]
    exact h
  · rw [State.memWrite_aligned ha]
    exact State.poll_canonical u _ h

end Sys2Proof.Machine
end

