-- ==== Sys2Proof/Laws/Codec.lean ====
section
/-!
SUPPORT. The address codec on a valid geometry (R93 to R95): line and set counts are the powers of two their field widths
say, and encoding inverts decoding.
-/

namespace Sys2Proof.Machine

theorem isPow2_eq {n : Nat} (h : isPow2 n = true) : 2 ^ ceilLog2 n = n := by
  simp only [isPow2, Bool.and_eq_true, beq_iff_eq] at h
  exact h.2

/-- What R93 says of one cache level, in the terms the proofs use. -/
theorem cacheGeometry_facts {g : Geometry} (h : g.cacheOk = true) :
    2 ^ g.offsetBits = g.wordsPerLine ∧ 2 ^ g.indexBits = g.setCount ∧ 1 ≤ g.ways ∧
      g.indexBits + g.offsetBits ≤ 30 := by
  simp only [Geometry.cacheOk, Geometry.lineOk, Geometry.waysOk, Geometry.setsOk, Geometry.widthOk, Bool.and_eq_true,
    decide_eq_true_eq] at h
  exact ⟨isPow2_eq h.1.1.1.1.2, isPow2_eq h.1.1.2, h.1.1.1.2.2, h.1.2⟩

/-- The shifts and ors of R95 are the weighted sum of the fields. -/
theorem encode_eq {g : Geometry} {t i o : Nat} (hi : i < 2 ^ g.indexBits) (ho : o < 2 ^ g.offsetBits) :
    g.encode t i o = (t * 2 ^ g.indexBits + i) * 2 ^ g.offsetBits + o := by
  unfold Geometry.encode
  rw [← Nat.shiftLeft_add_eq_or_of_lt hi, ← Nat.shiftLeft_add_eq_or_of_lt ho, Nat.shiftLeft_eq, Nat.shiftLeft_eq]

theorem offset_encode {g : Geometry} {t i o : Nat} (hi : i < 2 ^ g.indexBits) (ho : o < 2 ^ g.offsetBits) :
    g.offset (g.encode t i o) = o := by
  rw [encode_eq hi ho, Geometry.offset, Nat.mul_add_mod', Nat.mod_eq_of_lt ho]

theorem index_encode {g : Geometry} {t i o : Nat} (hi : i < 2 ^ g.indexBits) (ho : o < 2 ^ g.offsetBits) :
    g.index (g.encode t i o) = i := by
  have hp : 0 < 2 ^ g.offsetBits := Nat.pos_of_ne_zero (by positivity)
  rw [encode_eq hi ho, Geometry.index, Nat.add_comm, Nat.add_mul_div_right _ _ hp, Nat.div_eq_of_lt ho, Nat.zero_add,
    Nat.mul_add_mod', Nat.mod_eq_of_lt hi]

theorem tag_encode {g : Geometry} {t i o : Nat} (hi : i < 2 ^ g.indexBits) (ho : o < 2 ^ g.offsetBits) :
    g.tag (g.encode t i o) = t := by
  have hp : 0 < 2 ^ g.offsetBits := Nat.pos_of_ne_zero (by positivity)
  have hq : 0 < 2 ^ g.indexBits := Nat.pos_of_ne_zero (by positivity)
  rw [encode_eq hi ho, Geometry.tag, pow_add, ← Nat.div_div_eq_div_mul, Nat.add_comm, Nat.add_mul_div_right _ _ hp,
    Nat.div_eq_of_lt ho, Nat.zero_add, Nat.add_comm, Nat.add_mul_div_right _ _ hq, Nat.div_eq_of_lt hi, Nat.zero_add]

theorem offset_lt (g : Geometry) (a : Nat) : g.offset a < 2 ^ g.offsetBits := Nat.mod_lt _ (by positivity)

theorem index_lt (g : Geometry) (a : Nat) : g.index a < 2 ^ g.indexBits := Nat.mod_lt _ (by positivity)

/-- Encoding the fields of an address gives the address back (R95). -/
theorem encode_decode (g : Geometry) (a : Nat) : g.encode (g.tag a) (g.index a) (g.offset a) = a := by
  rw [encode_eq (index_lt g a) (offset_lt g a)]
  unfold Geometry.tag Geometry.index Geometry.offset
  rw [pow_add, ← Nat.div_div_eq_div_mul, Nat.div_add_mod', Nat.div_add_mod']

/-- Two addresses in one line are as far apart as their offsets. -/
theorem base_add_offset (g : Geometry) (a : Nat) : g.base a + g.offset a = a := by
  have h0 : 0 < 2 ^ g.offsetBits := by positivity
  conv_rhs => rw [← encode_decode g a]
  rw [Geometry.base, encode_eq (index_lt g a) h0, encode_eq (index_lt g a) (offset_lt g a)]
  omega

end Sys2Proof.Machine
end

