-- ==== Sys2Proof/Laws/Cache.lean ====
section
/-!
SUPPORT. What the operations of a cache level do to its lines, and what one level shows of memory: the facts that
`access_spec` (Laws/Access.lean) is put together from.
-/

namespace Sys2Proof.Machine

/-! ### Lines and sets by way number -/

theorem lineAt_set {lines : List Line} {v i : Nat} {l : Line} (hv : v < lines.length) :
    lineAt (lines.set v l) i = if i = v then l else lineAt lines i := by
  unfold lineAt
  by_cases h : i = v
  · subst h
    simp [List.getD_eq_getElem?_getD, hv]
  · simp [List.getD_eq_getElem?_getD, h, Ne.symm h]

@[simp] theorem length_touch (lines : List Line) (w : Nat) : (touch lines w).length = lines.length := by
  induction lines generalizing w with
  | nil => rfl
  | cons l rest ih => cases w <;> simp [touch, ih]

theorem lineAt_cons_succ (l : Line) (rest : List Line) (i : Nat) : lineAt (l :: rest) (i + 1) = lineAt rest i := rfl

/-- `touch` sets the accessed line's age to 0 and adds 1 to every other age; nothing else changes (R105). -/
theorem lineAt_touch {lines : List Line} {w i : Nat} (hi : i < lines.length) :
    lineAt (touch lines w) i = { lineAt lines i with age := if i = w then 0 else (lineAt lines i).age + 1 } := by
  induction lines generalizing w i with
  | nil => simp at hi
  | cons l rest ih =>
    cases w with
    | zero =>
      cases i with
      | zero => rfl
      | succ i =>
        have hi : i < rest.length := by simpa using hi
        have : lineAt (rest.map Line.older) i = (lineAt rest i).older := by
          simp [lineAt, List.getD_eq_getElem?_getD, hi]
        simp only [touch, lineAt_cons_succ, this]
        rfl
    | succ w =>
      cases i with
      | zero => rfl
      | succ i =>
        have hi : i < rest.length := by simpa using hi
        simp only [touch, lineAt_cons_succ, ih hi, Nat.add_right_cancel_iff]

theorem findHit_some {lines : List Line} {t w : Nat} (h : findHit lines t = some w) :
    w < lines.length ∧ (lineAt lines w).isHit t = true := by
  induction lines generalizing w with
  | nil => simp [findHit] at h
  | cons l rest ih =>
    unfold findHit at h
    split at h
    · simp only [Option.some.injEq] at h
      subst h
      rename_i hl
      exact ⟨by simp, hl⟩
    · simp only [Option.map_eq_some_iff] at h
      obtain ⟨k, hk, rfl⟩ := h
      have := ih hk
      exact ⟨by simpa using this.1, this.2⟩

theorem findHit_none {lines : List Line} {t : Nat} (h : findHit lines t = none) :
    ∀ w, w < lines.length → (lineAt lines w).isHit t = false := by
  induction lines with
  | nil => simp
  | cons l rest ih =>
    unfold findHit at h
    split at h
    · simp at h
    · rename_i hl
      simp only [Option.map_eq_none_iff] at h
      intro w hw
      cases w with
      | zero => simpa [lineAt] using hl
      | succ w => exact ih h w (by simpa using hw)

theorem findEmpty_lt {lines : List Line} {w : Nat} (h : findEmpty lines = some w) :
    w < lines.length ∧ (lineAt lines w).occupied = false := by
  induction lines generalizing w with
  | nil => simp [findEmpty] at h
  | cons l rest ih =>
    unfold findEmpty at h
    split at h
    · simp only [Option.some.injEq] at h
      subst h
      rename_i hl
      exact ⟨by simp, by simpa [lineAt] using hl⟩
    · simp only [Option.map_eq_some_iff] at h
      obtain ⟨k, hk, rfl⟩ := h
      have := ih hk
      exact ⟨by simpa using this.1, this.2⟩

theorem oldestFrom_lt {lines : List Line} {w v age n : Nat} (hv : v < n) (hn : w + lines.length ≤ n) :
    oldestFrom w v age lines < n := by
  induction lines generalizing w v age with
  | nil => exact hv
  | cons l rest ih =>
    simp only [List.length_cons] at hn
    unfold oldestFrom
    split
    · exact ih (by omega) (by omega)
    · exact ih hv (by omega)

/-- The victim is a way of the set (R103). -/
theorem findLRU_lt {lines : List Line} (h : 1 ≤ lines.length) : findLRU lines < lines.length := by
  unfold findLRU
  split
  · rename_i w hw
    exact (findEmpty_lt hw).1
  · cases lines with
    | nil => simp at h
    | cons l rest => exact oldestFrom_lt h (by simp [Nat.add_comm])

theorem set_putSet {c : CacheState} {i j : Nat} {lines : List Line} (hi : i < c.sets.length) :
    (c.putSet i lines).set j = if j = i then lines else c.set j := by
  unfold CacheState.putSet CacheState.set
  by_cases h : j = i
  · subst h
    simp [List.getD_eq_getElem?_getD, hi]
  · simp [List.getD_eq_getElem?_getD, h, Ne.symm h]

@[simp] theorem putSet_length (c : CacheState) (i : Nat) (lines : List Line) :
    (c.putSet i lines).sets.length = c.sets.length := by simp [CacheState.putSet]

@[simp] theorem putSet_timer (c : CacheState) (i : Nat) (lines : List Line) : (c.putSet i lines).timer = c.timer := rfl

/-! ### Legal sets and levels, by way number -/

/-- A legal set, but that the age of way `v` may be any (it has just been filled; `v` out of range excepts none). -/
structure SetInv (g : Geometry) (lines : List Line) (v : Nat) : Prop where
  len : lines.length = g.ways
  line : ∀ i < g.ways, lineOk g (lineAt lines i) = true
  differ : ∀ i < g.ways, ∀ j < g.ways, i ≠ j → (lineAt lines i).occupied = true → (lineAt lines j).occupied = true →
    (lineAt lines i).tag ≠ (lineAt lines j).tag ∧ (i ≠ v → j ≠ v → (lineAt lines i).age ≠ (lineAt lines j).age)

theorem lineAt_eq_getElem {lines : List Line} {i : Nat} (h : i < lines.length) : lineAt lines i = lines[i] := by
  simp [lineAt, h]

theorem setOk_iff (g : Geometry) (lines : List Line) : setOk g lines = true ↔ SetInv g lines g.ways := by
  simp only [setOk, Bool.and_eq_true, beq_iff_eq, List.all_eq_true, decide_eq_true_eq]
  constructor
  · rintro ⟨⟨hl, hok⟩, hp⟩
    rw [List.pairwise_iff_getElem] at hp
    refine ⟨hl, fun i hi => ?_, fun i hi j hj hij hoi hoj => ?_⟩
    · rw [lineAt_eq_getElem (by omega)]
      exact hok _ (List.getElem_mem _)
    · rw [lineAt_eq_getElem (by omega)] at hoi ⊢
      rw [lineAt_eq_getElem (by omega)] at hoj ⊢
      rcases Nat.lt_or_gt_of_ne hij with h | h
      · have := hp i j (by omega) (by omega) h
        simp only [linesDiffer, hoi, hoj, Bool.and_self, Bool.not_true, Bool.false_or, Bool.and_eq_true, bne_iff_ne] at this
        exact ⟨this.1, fun _ _ => this.2⟩
      · have := hp j i (by omega) (by omega) h
        simp only [linesDiffer, hoi, hoj, Bool.and_self, Bool.not_true, Bool.false_or, Bool.and_eq_true, bne_iff_ne] at this
        exact ⟨this.1.symm, fun _ _ => this.2.symm⟩
  · intro h
    refine ⟨⟨h.len, fun l hl => ?_⟩, ?_⟩
    · obtain ⟨i, hi, rfl⟩ := List.getElem_of_mem hl
      rw [← lineAt_eq_getElem hi]
      exact h.line i (by have := h.len; omega)
    · rw [List.pairwise_iff_getElem]
      intro i j hi hj hij
      have hlen := h.len
      have hd := h.differ i (by omega) j (by omega) (by omega)
      rw [lineAt_eq_getElem hi, lineAt_eq_getElem hj] at hd
      by_cases hoi : lines[i].occupied = true
      · by_cases hoj : lines[j].occupied = true
        · have := hd hoi hoj
          simp [linesDiffer, this.1, this.2 (by omega) (by omega)]
        · simp [linesDiffer, hoj]
      · simp [linesDiffer, hoi]

/-- A legal level, but that in set `i0` the age of way `v` may be any. -/
structure CacheInv (g : Geometry) (c : CacheState) (i0 v : Nat) : Prop where
  len : c.sets.length = g.setCount
  sets : ∀ i < g.setCount, SetInv g (c.set i) (if i = i0 then v else g.ways)

theorem cacheOk_iff (g : Geometry) (c : CacheState) (i0 : Nat) : cacheOk g c = true ↔ CacheInv g c i0 g.ways := by
  simp only [cacheOk, Bool.and_eq_true, beq_iff_eq, List.all_eq_true]
  constructor
  · rintro ⟨hl, h⟩
    refine ⟨hl, fun i hi => ?_⟩
    rw [ite_self, ← setOk_iff]
    have : i < c.sets.length := by omega
    have e : c.set i = c.sets[i] := by simp [CacheState.set, this]
    rw [e]
    exact h _ (List.getElem_mem _)
  · intro h
    refine ⟨h.len, fun s hs => ?_⟩
    obtain ⟨i, hi, rfl⟩ := List.getElem_of_mem hs
    have := h.sets i (by have := h.len; omega)
    rw [ite_self, ← setOk_iff] at this
    have e : c.set i = c.sets[i] := by simp [CacheState.set, hi]
    rwa [e] at this

/-- An exception for an age can be forgotten about. -/
theorem CacheInv.weaken {g : Geometry} {c : CacheState} {i0 v : Nat} (h : CacheInv g c i0 g.ways) :
    CacheInv g c i0 v := by
  refine ⟨h.len, fun i hi => ?_⟩
  have hs := h.sets i hi
  rw [ite_self] at hs
  exact ⟨hs.len, hs.line, fun a ha b hb hab hoa hob =>
    ⟨(hs.differ a ha b hb hab hoa hob).1, fun _ _ => (hs.differ a ha b hb hab hoa hob).2 (by omega) (by omega)⟩⟩

/-- Every clean occupied line holds what lies below at its addresses. -/
def Agrees (g : Geometry) (c : CacheState) (below : Nat → Word) : Prop :=
  ∀ i < g.setCount, ∀ w < g.ways, (lineAt (c.set i) w).occupied = true → (lineAt (c.set i) w).dirty = false →
    ∀ o < g.wordsPerLine, (lineAt (c.set i) w).words.getD o 0 = below (g.encode (lineAt (c.set i) w).tag i o)

theorem cacheAgrees_iff {g : Geometry} {c : CacheState} {i0 v : Nat} (h : CacheInv g c i0 v) (below : Nat → Word) :
    cacheAgrees g c below = true ↔ Agrees g c below := by
  simp only [cacheAgrees, List.all_eq_true, List.mem_range, lineAgrees, Bool.or_eq_true, Bool.not_eq_true', beq_iff_eq]
  constructor
  · intro hc i hi w hw ho hd o hoo
    have hl := (h.sets i hi).len
    have hm : lineAt (c.set i) w ∈ c.set i := by
      rw [lineAt_eq_getElem (by omega)]
      exact List.getElem_mem _
    have := hc i hi _ hm
    simp only [ho, hd, Bool.true_eq_false, Bool.false_eq_true, false_or] at this
    exact this o hoo
  · intro hc i hi l hl
    obtain ⟨w, hw, rfl⟩ := List.getElem_of_mem hl
    have hlen := (h.sets i hi).len
    have := hc i hi w (by omega)
    rw [lineAt_eq_getElem hw] at this
    by_cases ho : (c.set i)[w].occupied = true
    · by_cases hd : (c.set i)[w].dirty = true
      · exact .inl (.inr hd)
      · exact .inr (this ho (by simpa using hd))
    · exact .inl (.inl (by simpa using ho))

/-! ### What one level shows -/

/-- The word one level shows at flat address `x` over what lies below it: `viewWord`, one level deep. -/
def levelView (g : Geometry) (c : CacheState) (below : Nat → Word) (x : Nat) : Word :=
  match findHit (c.set (g.index x)) (g.tag x) with
  | some w => (lineAt (c.set (g.index x)) w).words.getD (g.offset x) 0
  | none => below x

theorem viewWord_cons (g : Geometry) (gs : List Geometry) (c : CacheState) (cs : List CacheState) (cells : List Host.Cell)
    (x : Nat) : viewWord (g :: gs) (c :: cs) cells x = levelView g c (viewWord gs cs cells) x := rfl

/-- The line of way `w` of the set of address `x` holds `x`. -/
def Holds (g : Geometry) (c : CacheState) (x w : Nat) : Prop :=
  w < g.ways ∧ (lineAt (c.set (g.index x)) w).occupied = true ∧ (lineAt (c.set (g.index x)) w).tag = g.tag x

theorem index_lt_setCount {g : Geometry} (hg : g.cacheOk = true) (x : Nat) : g.index x < g.setCount := by
  rw [← (cacheGeometry_facts hg).2.1]
  exact index_lt g x

theorem offset_lt_words {g : Geometry} (hg : g.cacheOk = true) (x : Nat) : g.offset x < g.wordsPerLine := by
  rw [← (cacheGeometry_facts hg).1]
  exact offset_lt g x

theorem levelView_hit {g : Geometry} {c : CacheState} {i0 v x w : Nat} (hg : g.cacheOk = true) (h : CacheInv g c i0 v)
    (hw : Holds g c x w) (below : Nat → Word) :
    levelView g c below x = (lineAt (c.set (g.index x)) w).words.getD (g.offset x) 0 := by
  obtain ⟨hw, ho, ht⟩ := hw
  have hs := h.sets _ (index_lt_setCount hg x)
  unfold levelView
  split
  · rename_i w' hf
    obtain ⟨hw', hh⟩ := findHit_some hf
    simp only [Line.isHit, Bool.and_eq_true, beq_iff_eq] at hh
    by_cases e : w' = w
    · rw [e]
    · exact absurd (hh.2.trans ht.symm) (hs.differ w' (by have := hs.len; omega) w hw e hh.1 ho).1
  · rename_i hf
    have := findHit_none hf w (by have := hs.len; omega)
    simp [Line.isHit, ho, ht] at this

theorem levelView_miss {g : Geometry} {c : CacheState} {i0 v x : Nat} (hg : g.cacheOk = true) (h : CacheInv g c i0 v)
    (hn : ∀ w, ¬Holds g c x w) (below : Nat → Word) : levelView g c below x = below x := by
  have hs := h.sets _ (index_lt_setCount hg x)
  unfold levelView
  split
  · rename_i w hf
    obtain ⟨hw, hh⟩ := findHit_some hf
    simp only [Line.isHit, Bool.and_eq_true, beq_iff_eq] at hh
    exact absurd ⟨by have := hs.len; omega, hh.1, hh.2⟩ (hn w)
  · rfl

/-- The addresses of one line: those of one tag and index. -/
theorem mem_line_iff {g : Geometry} {t i x : Nat} (hi : i < 2 ^ g.indexBits) :
    (g.encode t i 0 ≤ x ∧ x < g.encode t i 0 + 2 ^ g.offsetBits) ↔ g.index x = i ∧ g.tag x = t := by
  have h0 : 0 < 2 ^ g.offsetBits := by positivity
  rw [encode_eq hi h0, Nat.add_zero]
  constructor
  · rintro ⟨h1, h2⟩
    obtain ⟨o, rfl⟩ := Nat.exists_eq_add_of_le h1
    have ho : o < 2 ^ g.offsetBits := by omega
    rw [← encode_eq hi ho]
    exact ⟨index_encode hi ho, tag_encode hi ho⟩
  · rintro ⟨rfl, rfl⟩
    have := base_add_offset g x
    have ho := offset_lt g x
    rw [Geometry.base, encode_eq hi h0, Nat.add_zero] at this
    omega

/-- An address lies as far into its line as its offset says. -/
theorem encode_add_offset {g : Geometry} (x : Nat) : x = g.encode (g.tag x) (g.index x) 0 + g.offset x :=
  (base_add_offset g x).symm

end Sys2Proof.Machine
end

