-- ==== Sys2Proof/Laws/Access.lean ====
section
/-!
SUPPORT. `access_spec`: all that one poll of the memory chain can do (R121, R72). It keeps the caches legal and coherent;
a poll that waits, or completes a read, changes no word that a read returns; a read that completes returns those words;
a write that completes replaces its own words and no others.
-/

namespace Sys2Proof.Machine

/-- A request as R110 and R117 allow it: some words, aligned to their number, inside the 2^30 word addresses and inside
one line of the level asked. -/
structure RequestOk (gs : List Geometry) (r : Request) : Prop where
  pos : 1 ≤ r.n
  range : r.addr + r.n ≤ 2 ^ 30
  aligned : r.addr % r.n = 0
  fits : ∀ g ∈ gs.head?, g.wordsPerLine % r.n = 0
  data : r.kind = .write → r.data.length = r.n

/-- What is seen at `x` after a request that has completed, `before` being what was seen before it. -/
def seenAfter (r : Request) (before : Nat → Word) (x : Nat) : Word :=
  if r.kind = .write ∧ r.addr ≤ x ∧ x < r.addr + r.n then r.data.getD (x - r.addr) 0 else before x

/-- What a poll answers and what is seen after it. -/
def PollOk (r : Request) (out : Poll (List Word)) (before after : Nat → Word) : Prop :=
  match out with
  | .waiting => ∀ x < 2 ^ 30, after x = before x
  | .done ws => (r.kind = .read → ws = (List.range r.n).map fun k => before (r.addr + k)) ∧
      ∀ x < 2 ^ 30, after x = seenAfter r before x

/-- What the levels `gs` show of a hierarchy. -/
def Hierarchy.view (gs : List Geometry) (h : Hierarchy) (x : Nat) : Word := viewWord gs h.caches h.backing.cells x

/-- The caches `gs` of a hierarchy are legal and coherent. -/
def Hierarchy.coherent (gs : List Geometry) (h : Hierarchy) : Prop :=
  Machine.coherent gs h.caches h.backing.cells = true

/-- The spec of one poll of the levels `gs`. -/
def AccessOk (gs : List Geometry) (next : Request → Hierarchy → Poll (List Word) × Hierarchy) : Prop :=
  ∀ r h, RequestOk gs r → h.coherent gs → (next r h).2.coherent gs ∧ PollOk r (next r h).1 (h.view gs) ((next r h).2.view gs)

/-! ### The terminal level -/

theorem terminal_pollOk (latency : Nat) (gs : List Geometry) (r : Request) (b : Backing) (hr : RequestOk gs r) :
    PollOk r (terminalAccess latency r b).1 (readWord b.cells) (readWord (terminalAccess latency r b).2.cells) := by
  unfold terminalAccess
  split
  · exact fun x _ => rfl
  · split
    · rename_i hk
      refine ⟨fun _ => readWords_eq _ _ _, fun x _ => ?_⟩
      simp [seenAfter, hk]
    · rename_i hk
      refine ⟨fun h => by simp [hk] at h, fun x hx => ?_⟩
      have hd := hr.data hk
      have hrange := hr.range
      simp only [seenAfter, hk, true_and]
      rw [readWord_writeWords _ _ _ _ (by omega) hx, hd]

/-! ### One cache level: serving a resident line -/

theorem request_inLine {g : Geometry} {r : Request} (hg : g.cacheOk = true) (ha : r.addr % r.n = 0)
    (hf : g.wordsPerLine % r.n = 0) : g.offset r.addr + r.n ≤ g.wordsPerLine := by
  have ho := offset_lt_words hg r.addr
  have e : g.offset r.addr % r.n = 0 := by
    rw [Geometry.offset, (cacheGeometry_facts hg).1, Nat.mod_mod_of_dvd _ (Nat.dvd_of_mod_eq_zero hf), ha]
  obtain ⟨p, hp⟩ := Nat.dvd_of_mod_eq_zero e
  obtain ⟨q, hq⟩ := Nat.dvd_of_mod_eq_zero hf
  rw [hp, hq] at ho ⊢
  have : p < q := lt_of_mul_lt_mul_left ho (Nat.zero_le _)
  calc r.n * p + r.n = r.n * (p + 1) := by ring
    _ ≤ r.n * q := Nat.mul_le_mul_left _ this

theorem getD_write {l : Line} {o : Nat} {data : List Word} (h : o + data.length ≤ l.words.length) (k : Nat) :
    (l.write o data).words.getD k 0 = if o ≤ k ∧ k < o + data.length then data.getD (k - o) 0 else l.words.getD k 0 := by
  unfold Line.write
  simp only [List.getD_eq_getElem?_getD, List.getElem?_append, List.getElem?_take, List.getElem?_drop, List.length_append,
    List.length_take]
  have e : min o l.words.length = o := by omega
  rw [e]
  by_cases h1 : k < o
  · simp [h1, Nat.lt_add_right data.length h1, Nat.not_le.2 h1]
  · by_cases h2 : k < o + data.length
    · simp [h1, h2, Nat.not_lt.1 h1]
    · have e3 : o + data.length + (k - (o + data.length)) = k := by omega
      simp [h2, e3]

theorem length_write {l : Line} {o : Nat} {data : List Word} (h : o + data.length ≤ l.words.length) :
    (l.write o data).words.length = l.words.length := by
  simp [Line.write]
  omega

/-- The line that serves a request stays legal and keeps its tag. -/
theorem access_line {g : Geometry} {l : Line} {o : Nat} {r : Request} (hl : lineOk g l = true) (ho : l.occupied = true)
    (hfit : o + r.n ≤ g.wordsPerLine) (hd : r.kind = .write → r.data.length = r.n) :
    lineOk g (l.access o r) = true ∧ (l.access o r).occupied = true ∧ (l.access o r).tag = l.tag ∧
      ((l.access o r).dirty = false → l.access o r = l) ∧
      ∀ k, (l.access o r).words.getD k 0 =
        if r.kind = .write ∧ o ≤ k ∧ k < o + r.n then r.data.getD (k - o) 0 else l.words.getD k 0 := by
  unfold Line.access
  split
  · rename_i hk
    simp [hl, ho, hk]
  · rename_i hk
    have hlen := hd hk
    simp only [lineOk, Bool.and_eq_true, beq_iff_eq, ho, Bool.not_true, Bool.false_or, decide_eq_true_eq, Bool.true_or,
      and_true] at hl ⊢
    refine ⟨⟨?_, ?_⟩, rfl, rfl, ?_, fun k => ?_⟩
    · refine ⟨?_, by simpa [Line.write] using hl.2⟩
      rw [length_write (by omega)]
      exact hl.1
    · simp [Line.write]
    · simp [Line.write]
    · rw [getD_write (by omega), hlen]
      simp [hk]

/-- Step 4 of R121: serving a resident line. -/
theorem serve_spec {g : Geometry} {r : Request} {w : Nat} {c : CacheState} {below : Nat → Word} (hg : g.cacheOk = true)
    (hpos : 1 ≤ r.n) (hal : r.addr % r.n = 0) (hfit : g.wordsPerLine % r.n = 0) (hd : r.kind = .write → r.data.length = r.n)
    (hinv : CacheInv g c (g.index r.addr) w) (hagr : Agrees g c below) (hw : Holds g c r.addr w) :
    CacheInv g (serve g r w c).2 (g.index r.addr) g.ways ∧ Agrees g (serve g r w c).2 below ∧
      ∃ ws, (serve g r w c).1 = .done ws ∧
        (r.kind = .read → ws = (List.range r.n).map fun k => levelView g c below (r.addr + k)) ∧
        ∀ x, levelView g (serve g r w c).2 below x = seenAfter r (levelView g c below) x := by
  have hfit := request_inLine hg hal hfit
  have hi := index_lt_setCount hg r.addr
  have hset := hinv.sets _ hi
  rw [if_pos rfl] at hset
  obtain ⟨hww, hocc, htag⟩ := hw
  obtain ⟨hline, haocc, hatag, hadirty, hawords⟩ := access_line (hset.line w hww) hocc hfit hd
  have hlt : g.index r.addr < c.sets.length := by rw [hinv.len]; exact hi
  -- the sets and lines after serving
  have hsets : ∀ j, (serve g r w c).2.set j = if j = g.index r.addr then
      touch ((c.set (g.index r.addr)).set w ((lineAt (c.set (g.index r.addr)) w).access (g.offset r.addr) r)) w
      else c.set j := fun j => set_putSet hlt
  have hlines : ∀ k < g.ways, lineAt ((serve g r w c).2.set (g.index r.addr)) k =
      { (if k = w then (lineAt (c.set (g.index r.addr)) w).access (g.offset r.addr) r
          else lineAt (c.set (g.index r.addr)) k) with
        age := if k = w then 0 else (lineAt (c.set (g.index r.addr)) k).age + 1 } := by
    intro k hk
    rw [hsets, if_pos rfl, lineAt_touch (by rw [List.length_set, hset.len]; exact hk),
      lineAt_set (by rw [hset.len]; exact hww)]
    by_cases e : k = w <;> simp [e]
  have hinv' : CacheInv g (serve g r w c).2 (g.index r.addr) g.ways := by
    refine ⟨by simpa [serve] using hinv.len, fun j hj => ?_⟩
    rw [ite_self]
    by_cases e : j = g.index r.addr
    · subst e
      refine ⟨by rw [hsets, if_pos rfl, length_touch, List.length_set, hset.len], fun k hk => ?_, ?_⟩
      · rw [hlines k hk]
        by_cases e : k = w
        · simpa [e, lineOk] using hline
        · simpa [e, lineOk] using hset.line k hk
      · intro k hk k' hk' hne
        rw [hlines k hk, hlines k' hk']
        by_cases e : k = w
        · by_cases e' : k' = w
          · exact absurd (e.trans e'.symm) hne
          · simp only [e, e', if_true, if_false]
            intro h1 h2
            have := (hset.differ w hww k' hk' (by omega) hocc h2).1
            exact ⟨by rw [hatag]; exact this, fun _ _ => by omega⟩
        · by_cases e' : k' = w
          · simp only [e, e', if_true, if_false]
            intro h1 h2
            have := (hset.differ k hk w hww (by omega) h1 hocc).1
            exact ⟨by rw [hatag]; exact this, fun _ _ => by omega⟩
          · simp only [e, e', if_false]
            intro h1 h2
            have := hset.differ k hk k' hk' hne h1 h2
            exact ⟨this.1, fun _ _ => by have := this.2 e e'; omega⟩
    · have := hinv.sets j hj
      rw [if_neg e] at this
      rw [hsets, if_neg e]
      exact this
  have hagr' : Agrees g (serve g r w c).2 below := by
    intro j hj k hk
    by_cases e : j = g.index r.addr
    · subst e
      rw [hlines k hk]
      by_cases e : k = w
      · simp only [e, if_true]
        intro h1 h2
        have := hadirty h2
        rw [this] at h2 ⊢
        exact hagr _ hj w hww hocc h2
      · simp only [e, if_false]
        exact hagr _ hj k hk
    · rw [hsets, if_neg e]
      exact hagr j hj k hk
  have hkeep : ∀ x k, Holds g c x k → Holds g (serve g r w c).2 x k ∧
      (lineAt ((serve g r w c).2.set (g.index x)) k).words.getD (g.offset x) 0 =
        if g.index x = g.index r.addr ∧ k = w ∧ r.kind = .write ∧ g.offset r.addr ≤ g.offset x ∧
            g.offset x < g.offset r.addr + r.n
        then r.data.getD (g.offset x - g.offset r.addr) 0
        else (lineAt (c.set (g.index x)) k).words.getD (g.offset x) 0 := by
    intro x k hk
    obtain ⟨hkw, hko, hkt⟩ := hk
    by_cases e : g.index x = g.index r.addr
    · rw [e] at hko hkt
      unfold Holds
      rw [e, hlines k hkw]
      by_cases e' : k = w
      · subst e'
        simp only [if_true, hawords, true_and]
        exact ⟨⟨hkw, haocc, hatag.trans hkt⟩, trivial⟩
      · simp only [e', if_false, false_and, and_false]
        exact ⟨⟨hkw, hko, hkt⟩, trivial⟩
    · unfold Holds
      rw [hsets, if_neg e]
      exact ⟨⟨hkw, hko, hkt⟩, by simp [e]⟩
  have hback : ∀ x k, Holds g (serve g r w c).2 x k → Holds g c x k := by
    intro x k hk
    obtain ⟨hkw, hko, hkt⟩ := hk
    by_cases e : g.index x = g.index r.addr
    · rw [e, hlines k hkw] at hko hkt
      refine ⟨hkw, ?_⟩
      rw [e]
      by_cases e' : k = w
      · subst e'
        simp only [if_true] at hko hkt
        exact ⟨hocc, hatag.symm.trans hkt⟩
      · simp only [e', if_false] at hko hkt
        exact ⟨hko, hkt⟩
    · rw [hsets, if_neg e] at hko hkt
      exact ⟨hkw, hko, hkt⟩
  -- where the request lies
  have hin : ∀ x, g.index x = g.index r.addr → g.tag x = g.tag r.addr →
      x + g.offset r.addr = r.addr + g.offset x := by
    intro x e1 e2
    have h1 := encode_add_offset (g := g) x
    have h2 := encode_add_offset (g := g) r.addr
    rw [e1, e2] at h1
    omega
  have hsame : ∀ x, r.addr ≤ x → x < r.addr + r.n → g.index x = g.index r.addr ∧ g.tag x = g.tag r.addr := by
    intro x h1 h2
    have hb := encode_add_offset (g := g) r.addr
    rw [← mem_line_iff (index_lt g r.addr), (cacheGeometry_facts hg).1]
    omega
  have hview : ∀ x, levelView g (serve g r w c).2 below x = seenAfter r (levelView g c below) x := by
    intro x
    by_cases hx : ∃ k, Holds g c x k
    · obtain ⟨k, hk⟩ := hx
      obtain ⟨hk', hwords⟩ := hkeep x k hk
      rw [levelView_hit hg hinv' hk', hwords]
      unfold seenAfter
      rw [levelView_hit hg hinv hk]
      by_cases hr : r.kind = .write ∧ r.addr ≤ x ∧ x < r.addr + r.n
      · obtain ⟨e1, e2⟩ := hsame x hr.2.1 hr.2.2
        have hkw : k = w := by
          by_contra hne
          have hko := hk.2.1
          have hkt := hk.2.2
          rw [e1] at hko hkt
          exact (hset.differ k hk.1 w hww hne hko hocc).1 (hkt.trans (e2.trans htag.symm))
        have := hin x e1 e2
        rw [if_pos hr, if_pos ⟨e1, hkw, hr.1, by omega, by omega⟩]
        congr 1
        omega
      · rw [if_neg hr, if_neg]
        rintro ⟨e1, rfl, hk1, h1, h2⟩
        have hkt := hk.2.2
        rw [e1, htag] at hkt
        have := hin x e1 hkt.symm
        exact hr ⟨hk1, by omega, by omega⟩
    · have hn : ∀ k, ¬Holds g c x k := fun k hk => hx ⟨k, hk⟩
      rw [levelView_miss hg hinv' (fun k hk => hn k (hback x k hk))]
      unfold seenAfter
      rw [levelView_miss hg hinv hn, if_neg]
      rintro ⟨-, h1, h2⟩
      obtain ⟨e1, e2⟩ := hsame x h1 h2
      refine hn w ⟨hww, ?_, ?_⟩
      · rw [e1]; exact hocc
      · rw [e1, e2]; exact htag
  refine ⟨hinv', hagr', _, rfl, fun hk => ?_, hview⟩
  simp only [hk]
  have hwl : (lineAt (c.set (g.index r.addr)) w).words.length = g.wordsPerLine := by
    have := hset.line w hww
    simp only [lineOk, Bool.and_eq_true, beq_iff_eq] at this
    exact this.1.1
  apply List.ext_getElem
  · simp [Line.read]
    omega
  · intro k h1 h2
    simp only [List.length_map, List.length_range] at h2
    simp only [Line.read, List.getElem_take, List.getElem_drop, List.getElem_map, List.getElem_range]
    obtain ⟨e1, e2⟩ := hsame (r.addr + k) (by omega) (by omega)
    have := hin _ e1 e2
    rw [levelView_hit hg hinv (w := w) ⟨hww, by rw [e1]; exact hocc, by rw [e1, e2]; exact htag⟩, e1]
    have e3 : g.offset (r.addr + k) = g.offset r.addr + k := by omega
    rw [e3, List.getD_eq_getElem?_getD, List.getElem?_eq_getElem (by omega)]
    rfl

/-! ### One cache level: replacing a line -/

theorem tag_lt {g : Geometry} (hg : g.cacheOk = true) {a : Nat} (ha : a < 2 ^ 30) :
    g.tag a < 2 ^ (30 - g.indexBits - g.offsetBits) := by
  have hb := (cacheGeometry_facts hg).2.2.2
  rw [Geometry.tag, Nat.div_lt_iff_lt_mul (by positivity), ← pow_add]
  rwa [show 30 - g.indexBits - g.offsetBits + (g.offsetBits + g.indexBits) = 30 by omega]

/-- The words of a line of a legal tag are words of the address space. -/
theorem line_bound {g : Geometry} (hg : g.cacheOk = true) {t i : Nat} (hi : i < 2 ^ g.indexBits)
    (ht : t < 2 ^ (30 - g.indexBits - g.offsetBits)) :
    g.encode t i 0 + g.wordsPerLine ≤ 2 ^ 30 ∧ g.encode t i 0 % g.wordsPerLine = 0 := by
  obtain ⟨h1, -, -, hb⟩ := cacheGeometry_facts hg
  have h0 : 0 < 2 ^ g.offsetBits := by positivity
  rw [encode_eq hi h0, ← h1, Nat.add_zero, Nat.mul_mod_left]
  refine ⟨?_, rfl⟩
  have e : (2 : Nat) ^ 30 = 2 ^ (30 - g.indexBits - g.offsetBits) * 2 ^ g.indexBits * 2 ^ g.offsetBits := by
    rw [← pow_add, ← pow_add]
    congr 1
    omega
  rw [e, ← Nat.succ_mul]
  apply Nat.mul_le_mul_right
  calc t * 2 ^ g.indexBits + i + 1 ≤ t * 2 ^ g.indexBits + 2 ^ g.indexBits := by omega
    _ = (t + 1) * 2 ^ g.indexBits := by ring
    _ ≤ _ := Nat.mul_le_mul_right _ ht

theorem encode_bound {g : Geometry} (hg : g.cacheOk = true) {t i o : Nat} (hi : i < g.setCount)
    (ht : t < 2 ^ (30 - g.indexBits - g.offsetBits)) (ho : o < g.wordsPerLine) :
    g.encode t i o < 2 ^ 30 ∧ g.encode t i o = g.encode t i 0 + o := by
  obtain ⟨h1, h2, -, -⟩ := cacheGeometry_facts hg
  have h0 : 0 < 2 ^ g.offsetBits := by positivity
  have := line_bound hg (h2 ▸ hi) ht
  have e : g.encode t i o = g.encode t i 0 + o := by
    rw [encode_eq (h2 ▸ hi) (h1 ▸ ho), encode_eq (h2 ▸ hi) h0, Nat.add_zero]
  omega

theorem lineOk_iff {g : Geometry} {l : Line} : lineOk g l = true ↔ l.words.length = g.wordsPerLine ∧
    (l.occupied = true → l.tag < 2 ^ (30 - g.indexBits - g.offsetBits)) ∧ (l.occupied = false → l.dirty = false) := by
  cases ho : l.occupied <;> cases hd : l.dirty <;> simp [lineOk, ho, hd]

/-- The lines after way `v` of set `i` is replaced. -/
theorem lineAt_putSet {g : Geometry} {c : CacheState} {i0 u i v j k : Nat} {l : Line} (h : CacheInv g c i0 u)
    (hi : i < g.setCount) (hv : v < g.ways) :
    lineAt ((c.putSet i ((c.set i).set v l)).set j) k = if j = i ∧ k = v then l else lineAt (c.set j) k := by
  rw [set_putSet (by rw [h.len]; exact hi)]
  by_cases e : j = i
  · subst e
    rw [if_pos rfl, lineAt_set (by rw [(h.sets j hi).len]; exact hv)]
    simp
  · simp [e]

theorem length_putSet {g : Geometry} {c : CacheState} {i0 u i v j : Nat} {l : Line} (h : CacheInv g c i0 u)
    (hi : i < g.setCount) (hj : j < g.setCount) :
    ((c.putSet i ((c.set i).set v l)).set j).length = g.ways := by
  rw [set_putSet (by rw [h.len]; exact hi)]
  split
  · rw [List.length_set, (h.sets i hi).len]
  · exact (h.sets j hj).len

/-- Replacing a line by a legal one of a tag that no other occupied line of the set has keeps the level legal, but for the
age of the new line. -/
theorem putSet_inv {g : Geometry} {c : CacheState} {i v : Nat} {l : Line} (h : CacheInv g c i g.ways)
    (hi : i < g.setCount) (hv : v < g.ways) (hl : lineOk g l = true)
    (ht : l.occupied = true → ∀ k < g.ways, k ≠ v → (lineAt (c.set i) k).occupied = true → (lineAt (c.set i) k).tag ≠ l.tag) :
    CacheInv g (c.putSet i ((c.set i).set v l)) i v := by
  refine ⟨by rw [putSet_length]; exact h.len, fun j hj => ⟨length_putSet h hi hj, fun k hk => ?_, fun k hk k' hk' hne => ?_⟩⟩
  · rw [lineAt_putSet h hi hv]
    split
    · exact hl
    · exact (h.sets j hj).line k hk
  · rw [lineAt_putSet h hi hv, lineAt_putSet h hi hv]
    have hd := (h.sets j hj).differ k hk k' hk' hne
    rw [ite_self] at hd
    by_cases e : j = i
    · subst e
      by_cases e1 : k = v
      · simp only [e1, and_self, if_true, true_and, if_neg (e1 ▸ hne.symm)]
        exact fun h1 h2 => ⟨(ht h1 k' hk' (e1 ▸ hne.symm) h2).symm, fun h => absurd rfl h⟩
      · by_cases e2 : k' = v
        · simp only [e2, and_self, if_true, true_and, if_neg e1]
          exact fun h1 h2 => ⟨ht h2 k hk e1 h1, fun _ h => absurd rfl h⟩
        · simp only [e1, e2, and_false, if_false, if_true]
          exact fun h1 h2 => ⟨(hd h1 h2).1, fun _ _ => (hd h1 h2).2 (by omega) (by omega)⟩
    · simp only [e, false_and, if_false]
      exact hd

/-- A level agrees with two things below it that are equal at the addresses there are. -/
theorem Agrees.congr {g : Geometry} {c : CacheState} {i0 v : Nat} {below below' : Nat → Word} (hg : g.cacheOk = true)
    (hinv : CacheInv g c i0 v) (h : Agrees g c below) (e : ∀ x < 2 ^ 30, below' x = below x) : Agrees g c below' := by
  intro i hi w hw ho hd o hoo
  rw [h i hi w hw ho hd o hoo, e]
  exact (encode_bound hg hi ((lineOk_iff.1 ((hinv.sets i hi).line w hw)).2.1 ho) hoo).1

theorem levelView_congr {g : Geometry} {c : CacheState} {below below' : Nat → Word} {x : Nat} (e : below' x = below x) :
    levelView g c below' x = levelView g c below x := by
  unfold levelView
  split
  · rfl
  · exact e

/-- Two lines that hold one address are one line. -/
theorem Holds.unique {g : Geometry} {c : CacheState} {i0 v x k k' : Nat} (hg : g.cacheOk = true) (hinv : CacheInv g c i0 v)
    (h : Holds g c x k) (h' : Holds g c x k') : k = k' := by
  by_contra hne
  exact ((hinv.sets _ (index_lt_setCount hg x)).differ k h.1 k' h'.1 hne h.2.1 h'.2.1).1 (h.2.2.trans h'.2.2.symm)

theorem holds_putSet {g : Geometry} {c : CacheState} {i0 u i v x k : Nat} {l : Line} (h : CacheInv g c i0 u)
    (hi : i < g.setCount) (hv : v < g.ways) :
    Holds g (c.putSet i ((c.set i).set v l)) x k ↔
      if g.index x = i ∧ k = v then l.occupied = true ∧ l.tag = g.tag x else Holds g c x k := by
  unfold Holds
  rw [lineAt_putSet h hi hv]
  by_cases e : g.index x = i ∧ k = v
  · rw [if_pos e, if_pos e, e.2]
    simp [hv]
  · rw [if_neg e, if_neg e]

/-- The fill of R114 installs the words that lie below, in a way whose old line is not dirty: what the level shows is
unchanged, and the line is resident. -/
theorem fill_spec {g : Geometry} {c : CacheState} {v a : Nat} {below : Nat → Word} {block : List Word} (hg : g.cacheOk = true)
    (ha : a < 2 ^ 30) (hinv : CacheInv g c (g.index a) g.ways) (hagr : Agrees g c below) (hv : v < g.ways)
    (hclean : (lineAt (c.set (g.index a)) v).occupied = true → (lineAt (c.set (g.index a)) v).dirty = false)
    (hmiss : ∀ w, ¬Holds g c a w) (hblock : block = (List.range g.wordsPerLine).map fun k => below (g.base a + k)) :
    let c1 := c.putSet (g.index a) ((c.set (g.index a)).set v ((lineAt (c.set (g.index a)) v).fill (g.tag a) block))
    CacheInv g c1 (g.index a) v ∧ Agrees g c1 below ∧ Holds g c1 a v ∧
      ∀ x < 2 ^ 30, levelView g c1 below x = levelView g c below x := by
  intro c1
  have hi := index_lt_setCount hg a
  have hlen : block.length = g.wordsPerLine := by simp [hblock]
  have hword : ∀ o < g.wordsPerLine, block.getD o 0 = below (g.encode (g.tag a) (g.index a) o) := by
    intro o ho
    rw [(encode_bound hg hi (tag_lt hg ha) ho).2, hblock]
    simp [List.getD_eq_getElem?_getD, ho, Geometry.base]
  have hinv1 : CacheInv g c1 (g.index a) v := by
    refine putSet_inv hinv hi hv ?_ ?_
    · rw [lineOk_iff]
      exact ⟨hlen, fun _ => tag_lt hg ha, fun h => by simp [Line.fill] at h⟩
    · intro _ k hk _ ho ht
      exact hmiss k ⟨hk, ho, ht⟩
  have hholds := fun x k => holds_putSet (x := x) (k := k)
    (l := (lineAt (c.set (g.index a)) v).fill (g.tag a) block) hinv hi hv
  refine ⟨hinv1, ?_, ?_, ?_⟩
  · intro j hj k hk
    rw [lineAt_putSet hinv hi hv]
    by_cases e : j = g.index a ∧ k = v
    · rw [if_pos e, e.1]
      exact fun _ _ o ho => hword o ho
    · rw [if_neg e]
      exact hagr j hj k hk
  · rw [hholds, if_pos ⟨rfl, rfl⟩]
    exact ⟨rfl, rfl⟩
  · intro x hx
    have hxw := encode_decode g x
    by_cases hnew : g.index x = g.index a ∧ g.tag x = g.tag a
    · have h1 : Holds g c1 x v := by
        rw [hholds, if_pos ⟨hnew.1, rfl⟩]
        exact ⟨rfl, hnew.2.symm⟩
      rw [levelView_hit hg hinv1 h1, lineAt_putSet hinv hi hv, if_pos ⟨hnew.1, rfl⟩, levelView_miss hg hinv]
      · show block.getD _ _ = _
        rw [hword _ (offset_lt_words hg x), ← hnew.1, ← hnew.2, hxw]
      · intro k hk
        refine hmiss k ⟨hk.1, ?_, ?_⟩
        · rw [← hnew.1]; exact hk.2.1
        · rw [← hnew.1, ← hnew.2]; exact hk.2.2
    · have hv1 : ∀ k, Holds g c1 x k ↔ Holds g c x k ∧ ¬(g.index x = g.index a ∧ k = v) := by
        intro k
        rw [hholds]
        by_cases e : g.index x = g.index a ∧ k = v
        · rw [if_pos e]
          simp only [e, and_self, not_true_eq_false, and_false, iff_false]
          exact fun h => hnew ⟨e.1, h.2.symm⟩
        · rw [if_neg e]
          simp [e]
      by_cases hold : ∃ k, Holds g c x k
      · obtain ⟨k, hk⟩ := hold
        rw [levelView_hit hg hinv hk]
        by_cases e : g.index x = g.index a ∧ k = v
        · rw [levelView_miss hg hinv1]
          · have hk' := hk
            obtain ⟨-, ho, ht⟩ := hk
            have hd := hclean (by rw [← e.1, ← e.2]; exact ho)
            rw [← e.1, ← e.2] at hd
            rw [hagr _ (index_lt_setCount hg x) k hk'.1 ho hd _ (offset_lt_words hg x), ht, hxw]
          · intro k' hk'
            have hu := (hv1 k').1 hk'
            exact hu.2 ⟨e.1, (Holds.unique hg hinv hu.1 hk).trans e.2⟩
        · rw [levelView_hit hg hinv1 ((hv1 k).2 ⟨hk, e⟩), lineAt_putSet hinv hi hv, if_neg e]
      · rw [levelView_miss hg hinv1 fun k hk => hold ⟨k, ((hv1 k).1 hk).1⟩, levelView_miss hg hinv fun k hk => hold ⟨k, hk⟩]

/-- Writing an occupied line back below and evicting it (R113, R100) changes nothing the level shows. -/
theorem evict_spec {g : Geometry} {c : CacheState} {i v : Nat} {below below1 : Nat → Word} (hg : g.cacheOk = true)
    (hinv : CacheInv g c i g.ways) (hagr : Agrees g c below) (hi : i < g.setCount) (hv : v < g.ways)
    (hocc : (lineAt (c.set i) v).occupied = true)
    (hb : ∀ x < 2 ^ 30, below1 x =
      if g.encode (lineAt (c.set i) v).tag i 0 ≤ x ∧ x < g.encode (lineAt (c.set i) v).tag i 0 + g.wordsPerLine
      then (lineAt (c.set i) v).words.getD (x - g.encode (lineAt (c.set i) v).tag i 0) 0 else below x) :
    let c1 := c.putSet i ((c.set i).set v (lineAt (c.set i) v).evict)
    CacheInv g c1 i g.ways ∧ Agrees g c1 below1 ∧ (lineAt (c1.set i) v).occupied = false ∧
      (∀ x k, Holds g c1 x k → Holds g c x k) ∧ ∀ x < 2 ^ 30, levelView g c1 below1 x = levelView g c below x := by
  intro c1
  obtain ⟨hp1, hp2, -, -⟩ := cacheGeometry_facts hg
  have hline := (hinv.sets i hi).line v hv
  have hl1 : ∀ j k, lineAt (c1.set j) k = if j = i ∧ k = v then (lineAt (c.set i) v).evict else lineAt (c.set j) k :=
    fun j k => lineAt_putSet hinv hi hv
  have hholds : ∀ x k, Holds g c1 x k ↔ Holds g c x k ∧ ¬(g.index x = i ∧ k = v) := by
    intro x k
    rw [holds_putSet hinv hi hv]
    by_cases e : g.index x = i ∧ k = v
    · rw [if_pos e]
      simp [e, Line.evict]
    · rw [if_neg e]
      simp [e]
  have hin : ∀ x, (g.encode (lineAt (c.set i) v).tag i 0 ≤ x ∧ x < g.encode (lineAt (c.set i) v).tag i 0 + g.wordsPerLine) ↔
      g.index x = i ∧ g.tag x = (lineAt (c.set i) v).tag := by
    intro x
    rw [← hp1]
    exact mem_line_iff (hp2 ▸ hi)
  have hinv1 : CacheInv g c1 i g.ways := by
    have h1 : CacheInv g c1 i v := by
      refine putSet_inv hinv hi hv ?_ fun h => by simp [Line.evict] at h
      rw [lineOk_iff] at hline ⊢
      exact ⟨hline.1, fun h => by simp [Line.evict] at h, fun _ => rfl⟩
    refine ⟨h1.len, fun j hj => ⟨(h1.sets j hj).len, (h1.sets j hj).line, fun k hk k' hk' hne ho ho' => ?_⟩⟩
    have hd := (h1.sets j hj).differ k hk k' hk' hne ho ho'
    refine ⟨hd.1, fun _ _ => ?_⟩
    have hnv : ∀ m, (lineAt (c1.set j) m).occupied = true → ¬(j = i ∧ m = v) := by
      intro m hm e
      rw [hl1, if_pos e] at hm
      simp [Line.evict] at hm
    by_cases e : j = i
    · rw [if_pos e] at hd
      exact hd.2 (fun h => hnv k ho ⟨e, h⟩) (fun h => hnv k' ho' ⟨e, h⟩)
    · rw [if_neg e] at hd
      exact hd.2 (by omega) (by omega)
  refine ⟨hinv1, ?_, ?_, fun x k h => ((hholds x k).1 h).1, ?_⟩
  · intro j hj k hk
    rw [hl1]
    by_cases e : j = i ∧ k = v
    · rw [if_pos e]
      intro h
      simp [Line.evict] at h
    · rw [if_neg e]
      intro ho hd o hoo
      have hb1 := encode_bound hg hj ((lineOk_iff.1 ((hinv.sets j hj).line k hk)).2.1 ho) hoo
      rw [hagr j hj k hk ho hd o hoo, hb _ hb1.1, if_neg]
      rw [hin, index_encode (hp2 ▸ hj) (hp1 ▸ hoo), tag_encode (hp2 ▸ hj) (hp1 ▸ hoo)]
      rintro ⟨rfl, h2⟩
      exact ((hinv.sets j hj).differ k hk v hv (fun h => e ⟨rfl, h⟩) ho hocc).1 h2
  · rw [hl1, if_pos ⟨rfl, rfl⟩]
    rfl
  · intro x hx
    by_cases hvx : g.index x = i ∧ g.tag x = (lineAt (c.set i) v).tag
    · have h1 : Holds g c x v := ⟨hv, by rw [hvx.1]; exact hocc, by rw [hvx.1]; exact hvx.2.symm⟩
      rw [levelView_hit hg hinv h1, levelView_miss hg hinv1, hb x hx, if_pos ((hin x).2 hvx), hvx.1]
      · congr 1
        have := encode_add_offset (g := g) x
        rw [hvx.1, hvx.2] at this
        omega
      · intro k hk
        have := (hholds x k).1 hk
        exact this.2 ⟨hvx.1, Holds.unique hg hinv this.1 h1⟩
    · have hne : ∀ k, Holds g c x k → ¬(g.index x = i ∧ k = v) := by
        rintro k ⟨-, -, h3⟩ ⟨rfl, rfl⟩
        exact hvx ⟨rfl, h3.symm⟩
      by_cases hold : ∃ k, Holds g c x k
      · obtain ⟨k, hk⟩ := hold
        rw [levelView_hit hg hinv hk, levelView_hit hg hinv1 ((hholds x k).2 ⟨hk, hne k hk⟩), hl1, if_neg (hne k hk)]
      · rw [levelView_miss hg hinv fun k hk => hold ⟨k, hk⟩,
          levelView_miss hg hinv1 fun k hk => hold ⟨k, ((hholds x k).1 hk).1⟩, hb x hx, if_neg fun h => hvx ((hin x).1 h)]

/-! ### One cache level: a whole poll -/

/-- What one poll of a level `g` over the levels `gs` leaves, and what it answers. -/
structure LevelOk (g : Geometry) (gs : List Geometry) (r : Request) (before : Nat → Word)
    (res : Poll (List Word) × CacheState × Hierarchy) : Prop where
  inv : CacheInv g res.2.1 (g.index r.addr) g.ways
  agrees : Agrees g res.2.1 (res.2.2.view gs)
  below : res.2.2.coherent gs
  poll : PollOk r res.1 before (levelView g res.2.1 (res.2.2.view gs))

theorem seenAfter_congr {r : Request} {f f' : Nat → Word} (h : ∀ x < 2 ^ 30, f' x = f x) {x : Nat} (hx : x < 2 ^ 30) :
    seenAfter r f' x = seenAfter r f x := by
  unfold seenAfter
  split
  · rfl
  · exact h x hx

theorem PollOk.congr {r : Request} {out : Poll (List Word)} {before before' after : Nat → Word}
    (hr : r.addr + r.n ≤ 2 ^ 30) (h : ∀ x < 2 ^ 30, before' x = before x) (hp : PollOk r out before' after) :
    PollOk r out before after := by
  cases out with
  | waiting => exact fun x hx => (hp x hx).trans (h x hx)
  | done ws =>
    refine ⟨fun hk => ?_, fun x hx => ?_⟩
    · rw [hp.1 hk]
      apply List.map_congr_left
      intro k hk
      rw [List.mem_range] at hk
      exact h _ (by omega)
    · rw [hp.2 x hx]
      exact seenAfter_congr h hx

theorem serve_pollOk {g : Geometry} {gs : List Geometry} {r : Request} {w : Nat} {c : CacheState} {h : Hierarchy}
    (hg : g.cacheOk = true) (hr : RequestOk (g :: gs) r) (hinv : CacheInv g c (g.index r.addr) w)
    (hagr : Agrees g c (h.view gs)) (hw : Holds g c r.addr w) (hh : h.coherent gs) :
    LevelOk g gs r (levelView g c (h.view gs)) ((serve g r w c).1, (serve g r w c).2, h) := by
  obtain ⟨h1, h2, ws, h3, h4, h5⟩ := serve_spec hg hr.pos hr.aligned (hr.fits g rfl) hr.data hinv hagr hw
  exact ⟨h1, h2, hh, by rw [h3]; exact ⟨h4, fun x _ => h5 x⟩⟩

/-- The request that fills or writes back a line of `g` is one the next level accepts. -/
theorem lineRequest_ok {g : Geometry} {gs : List Geometry} {i t : Nat} {kind : AccessKind} {data : List Word}
    (hg : g.cacheOk = true) (hnest : ∀ g' ∈ gs.head?, g'.wordsPerLine % g.wordsPerLine = 0) (hi : i < g.setCount)
    (ht : t < 2 ^ (30 - g.indexBits - g.offsetBits)) (hd : kind = .write → data.length = g.wordsPerLine) :
    RequestOk gs { kind := kind, addr := g.encode t i 0, n := g.wordsPerLine, data := data } := by
  obtain ⟨hp1, hp2, -, -⟩ := cacheGeometry_facts hg
  have hb := line_bound hg (hp2 ▸ hi) ht
  refine ⟨?_, hb.1, hb.2, hnest, hd⟩
  have : 0 < 2 ^ g.offsetBits := by positivity
  show 1 ≤ g.wordsPerLine
  omega

theorem fillAndServe_spec {g : Geometry} {gs : List Geometry} {next : Request → Hierarchy → Poll (List Word) × Hierarchy}
    {r : Request} {v : Nat} {c : CacheState} {h : Hierarchy} (hg : g.cacheOk = true) (hnext : AccessOk gs next)
    (hnest : ∀ g' ∈ gs.head?, g'.wordsPerLine % g.wordsPerLine = 0) (hr : RequestOk (g :: gs) r)
    (hinv : CacheInv g c (g.index r.addr) g.ways) (hagr : Agrees g c (h.view gs)) (hh : h.coherent gs) (hv : v < g.ways)
    (hclean : (lineAt (c.set (g.index r.addr)) v).occupied = true → (lineAt (c.set (g.index r.addr)) v).dirty = false)
    (hmiss : ∀ w, ¬Holds g c r.addr w) :
    LevelOk g gs r (levelView g c (h.view gs)) (fillAndServe g next r v c h) := by
  have hi := index_lt_setCount hg r.addr
  have ha : r.addr < 2 ^ 30 := by have := hr.range; have := hr.pos; omega
  have hreq : RequestOk gs { kind := .read, addr := g.base r.addr, n := g.wordsPerLine, data := [] } :=
    lineRequest_ok hg hnest hi (tag_lt hg ha) (by simp)
  have hn := hnext _ h hreq hh
  unfold fillAndServe
  split
  · rename_i h1 he
    rw [he] at hn
    have hsame : ∀ x < 2 ^ 30, h1.view gs x = h.view gs x := hn.2
    exact ⟨hinv, hagr.congr hg hinv hsame, hn.1, fun x hx => levelView_congr (hsame x hx)⟩
  · rename_i block h1 he
    rw [he] at hn
    obtain ⟨hc1, hp1, hp2⟩ := hn
    have hsame : ∀ x < 2 ^ 30, h1.view gs x = h.view gs x := fun x hx => by
      rw [hp2 x hx]
      simp [seenAfter]
    have hagr1 := hagr.congr hg hinv hsame
    have hblock : block = (List.range g.wordsPerLine).map fun k => h1.view gs (g.base r.addr + k) := by
      rw [hp1 rfl]
      apply List.map_congr_left
      intro k hk
      have hk : k < g.wordsPerLine := List.mem_range.1 hk
      have hb : g.base r.addr + g.wordsPerLine ≤ 2 ^ 30 := hreq.range
      exact (hsame (g.base r.addr + k) (by omega)).symm
    obtain ⟨hi1, ha1, hh1, hv1⟩ := fill_spec hg ha hinv hagr1 hv hclean hmiss hblock
    have hs := serve_pollOk hg hr hi1 ha1 hh1 hc1
    exact ⟨hs.inv, hs.agrees, hs.below,
      hs.poll.congr hr.range fun x hx => (hv1 x hx).trans (levelView_congr (hsame x hx))⟩

theorem missAccess_spec {g : Geometry} {gs : List Geometry} {next : Request → Hierarchy → Poll (List Word) × Hierarchy}
    {r : Request} {c : CacheState} {h : Hierarchy} (hg : g.cacheOk = true) (hnext : AccessOk gs next)
    (hnest : ∀ g' ∈ gs.head?, g'.wordsPerLine % g.wordsPerLine = 0) (hr : RequestOk (g :: gs) r)
    (hinv : CacheInv g c (g.index r.addr) g.ways) (hagr : Agrees g c (h.view gs)) (hh : h.coherent gs)
    (hmiss : ∀ w, ¬Holds g c r.addr w) :
    LevelOk g gs r (levelView g c (h.view gs)) (missAccess g next r c h) := by
  have hi := index_lt_setCount hg r.addr
  have hset := hinv.sets _ hi
  have hv : findLRU (c.set (g.index r.addr)) < g.ways := by
    have := (cacheGeometry_facts hg).2.2.1
    rw [← hset.len] at this ⊢
    exact findLRU_lt this
  have hline := lineOk_iff.1 (hset.line _ hv)
  simp only [missAccess]
  split
  · rename_i hvict
    simp only [Bool.and_eq_true] at hvict
    have hreq : RequestOk gs { kind := .write, addr := g.encode (lineAt (c.set (g.index r.addr)) (findLRU (c.set (g.index r.addr)))).tag (g.index r.addr) 0, n := g.wordsPerLine, data := (lineAt (c.set (g.index r.addr)) (findLRU (c.set (g.index r.addr)))).words } :=
      lineRequest_ok hg hnest hi (hline.2.1 hvict.1) fun _ => hline.1
    have hn := hnext _ h hreq hh
    split
    · rename_i h1 he
      rw [he] at hn
      have hsame : ∀ x < 2 ^ 30, h1.view gs x = h.view gs x := hn.2
      exact ⟨hinv, hagr.congr hg hinv hsame, hn.1, fun x hx => levelView_congr (hsame x hx)⟩
    · rename_i ws h1 he
      rw [he] at hn
      obtain ⟨hc1, -, hp2⟩ := hn
      obtain ⟨hi1, ha1, ho1, hh1, hv1⟩ := evict_spec (below := h.view gs) (below1 := h1.view gs) hg hinv hagr hi hv hvict.1
        fun x hx => by
          rw [hp2 x hx]
          simp [seenAfter]
      have hf := fillAndServe_spec hg hnext hnest hr hi1 ha1 hc1 hv (fun h => by rw [ho1] at h; simp at h)
        fun w hw => hmiss w (hh1 _ w hw)
      exact ⟨hf.inv, hf.agrees, hf.below, hf.poll.congr hr.range hv1⟩
  · rename_i hvict
    exact fillAndServe_spec hg hnext hnest hr hinv hagr hh hv (fun ho => by simpa [ho] using hvict) hmiss

theorem cacheAccess_spec {g : Geometry} {gs : List Geometry} {next : Request → Hierarchy → Poll (List Word) × Hierarchy}
    {r : Request} {c : CacheState} {h : Hierarchy} (hg : g.cacheOk = true) (hnext : AccessOk gs next)
    (hnest : ∀ g' ∈ gs.head?, g'.wordsPerLine % g.wordsPerLine = 0) (hr : RequestOk (g :: gs) r)
    (hinv : CacheInv g c (g.index r.addr) g.ways) (hagr : Agrees g c (h.view gs)) (hh : h.coherent gs) :
    LevelOk g gs r (levelView g c (h.view gs)) (cacheAccess g next r c h) := by
  have hset := hinv.sets _ (index_lt_setCount hg r.addr)
  unfold cacheAccess
  split
  · exact ⟨⟨hinv.len, hinv.sets⟩, hagr, hh, fun x _ => rfl⟩
  · split
    · rename_i w hf
      obtain ⟨hw, hhit⟩ := findHit_some hf
      simp only [Line.isHit, Bool.and_eq_true, beq_iff_eq] at hhit
      exact serve_pollOk hg hr hinv.weaken hagr ⟨by rw [← hset.len]; exact hw, hhit.1, hhit.2⟩ hh
    · rename_i hf
      refine missAccess_spec hg hnext hnest hr hinv hagr hh fun w hw => ?_
      have := findHit_none hf w (by rw [hset.len]; exact hw.1)
      simp [Line.isHit, hw.2.1, hw.2.2] at this

/-! ### The whole chain -/

/-- One poll of the chain of caches `gs`, with or without caches (R71, R121): the caches stay legal and coherent, and the
poll answers and changes what is seen as `PollOk` says (R72). -/
theorem access_spec (latency : Nat) (gs : List Geometry) (hgs : ∀ g ∈ gs, g.cacheOk = true) (hnest : linesNest gs = true) :
    AccessOk gs (access latency gs) := by
  induction gs with
  | nil =>
    intro r h hr _
    have ht := terminal_pollOk latency [] r h.backing hr
    refine ⟨by simp [Hierarchy.coherent, coherent], ?_⟩
    have hv : ∀ h : Hierarchy, h.view [] = readWord h.backing.cells := fun h => by
      funext x
      simp [Hierarchy.view, viewWord]
    rw [hv, hv]
    exact ht
  | cons g gs ih =>
    have hnest' : linesNest gs = true ∧ ∀ g' ∈ gs.head?, g'.wordsPerLine % g.wordsPerLine = 0 := by
      cases gs with
      | nil => simp [linesNest]
      | cons g' rest =>
        simp only [linesNest, Bool.and_eq_true, beq_iff_eq] at hnest
        simpa using hnest.symm
    have ih := ih (fun g hg => hgs g (by simp [hg])) hnest'.1
    have hg := hgs g (by simp)
    rintro r ⟨cs, b⟩ hr hh
    cases cs with
    | nil => simp [Hierarchy.coherent, coherent] at hh
    | cons c cs =>
      simp only [Hierarchy.coherent, coherent, Bool.and_eq_true] at hh
      obtain ⟨⟨hc, ha⟩, hb⟩ := hh
      have hinv := (cacheOk_iff g c (g.index r.addr)).1 hc
      have hl := cacheAccess_spec (h := { caches := cs, backing := b }) hg ih hnest'.2 hr hinv
        ((cacheAgrees_iff hinv _).1 ha) hb
      obtain ⟨h1, h2, h3, h4⟩ := hl
      refine ⟨?_, h4⟩
      simp only [Hierarchy.coherent, access, coherent, Bool.and_eq_true]
      exact ⟨⟨(cacheOk_iff g _ _).2 h1, (cacheAgrees_iff h1 _).2 h2⟩, h3⟩

end Sys2Proof.Machine
end

