-- ==== Sys2Proof/Laws/Coherent.lean ====
section
/-!
SUPPORT. All that the two processor-level memory operations can do, in terms of the words a read returns (R64, R65, R72):
`memRead_spec` and `memWrite_spec`, each for every chain and for both settings of `use_cache`.
-/

namespace Sys2Proof.Machine

theorem flatAddr_lt (a : Word) : flatAddr a < 2 ^ 30 := by
  have := a.isLt
  unfold flatAddr
  omega

theorem chain_caches_ok (c : Chain) : (∀ g ∈ c.caches, g.cacheOk = true) ∧ linesNest c.caches = true := by
  have := c.valid
  simp only [chainOk, Bool.and_eq_true, List.all_eq_true] at this
  exact this.1

/-- One poll of a chain that a CORE can have, with or without its caches. -/
theorem State.path_accessOk (s : State) (u : Bool) : AccessOk (s.path u) (access s.chain.backing.latency (s.path u)) := by
  obtain ⟨h1, h2⟩ := chain_caches_ok s.chain
  unfold State.path
  cases u
  · exact access_spec _ [] (by simp) rfl
  · exact access_spec _ _ h1 h2

theorem State.path_coherent {s : State} {u : Bool} (h : u = true → s.memoryCoherent = true) : s.mem.coherent (s.path u) := by
  unfold State.path
  cases u
  · simp [Hierarchy.coherent, coherent]
  · exact h rfl

theorem State.coherent_of_path {s : State} {u : Bool} (h : s.mem.coherent (s.path u)) : u = true → s.memoryCoherent = true := by
  rintro rfl
  exact h

/-- One word is a request that any chain takes. -/
theorem wordRequest_ok (gs : List Geometry) (kind : AccessKind) (a : Word) (data : List Word) (h : data.length = 1 ∨ kind = .read) :
    RequestOk gs { kind := kind, addr := flatAddr a, n := 1, data := data } := by
  have := flatAddr_lt a
  refine ⟨Nat.le_refl 1, by show flatAddr a + 1 ≤ _; omega, Nat.mod_one _, fun g _ => Nat.mod_one _, fun hk => ?_⟩
  rcases h with h | h
  · exact h
  · rw [h] at hk
    cases hk

@[simp] theorem State.poll_wordAt (s : State) (u : Bool) (r : Request) (x : Nat) : (s.poll u r).2.wordAt u x =
    (access s.chain.backing.latency (s.path u) r s.mem).2.view (s.path u) x := rfl

theorem State.wordAt_eq_view (s : State) (u : Bool) (x : Nat) : s.wordAt u x = s.mem.view (s.path u) x := rfl

/-- All that an aligned read can do (R64, R72): it keeps the caches coherent, it changes no word that a read returns, and it
waits or answers the word. -/
theorem State.memRead_spec {s : State} {u : Bool} {a : Word} (ha : aligned a = true)
    (hc : u = true → s.memoryCoherent = true) :
    (u = true → (s.memRead u a).2.memoryCoherent = true) ∧ (∀ x < 2 ^ 30, (s.memRead u a).2.wordAt u x = s.wordAt u x) ∧
      ((s.memRead u a).1 = .waiting ∨ (s.memRead u a).1 = .done (s.wordAt u (flatAddr a))) := by
  have h := s.path_accessOk u { kind := .read, addr := flatAddr a, n := 1, data := [] } s.mem
    (wordRequest_ok _ _ a _ (.inr rfl)) (State.path_coherent hc)
  obtain ⟨h1, h2⟩ := h
  rw [State.memRead_aligned ha]
  refine ⟨State.coherent_of_path h1, ?_, ?_⟩
  · intro x hx
    rw [State.poll_wordAt, State.wordAt_eq_view]
    unfold PollOk at h2
    split at h2
    · exact h2 x hx
    · rw [h2.2 x hx]
      simp [seenAfter]
  · rw [State.poll_answer]
    unfold PollOk at h2
    split at h2
    · rename_i he
      simp [he]
    · rename_i ws he
      right
      have h3 := h2.1 rfl
      first | rw [he, h3] | rw [h3]
      simp [State.wordAt_eq_view]

/-- All that an aligned write can do (R65, R72): it keeps the caches coherent, and it waits without changing a word that a
read returns, or completes and replaces one word. -/
theorem State.memWrite_spec {s : State} {u : Bool} {a v : Word} (ha : aligned a = true)
    (hc : u = true → s.memoryCoherent = true) :
    (u = true → (s.memWrite u a v).2.memoryCoherent = true) ∧
      (((s.memWrite u a v).1 = .waiting ∧ ∀ x < 2 ^ 30, (s.memWrite u a v).2.wordAt u x = s.wordAt u x) ∨
        ((s.memWrite u a v).1 = .done () ∧
          ∀ x < 2 ^ 30, (s.memWrite u a v).2.wordAt u x = if x = flatAddr a then v else s.wordAt u x)) := by
  have h := s.path_accessOk u { kind := .write, addr := flatAddr a, n := 1, data := [v] } s.mem
    (wordRequest_ok _ _ a _ (.inl rfl)) (State.path_coherent hc)
  obtain ⟨h1, h2⟩ := h
  rw [State.memWrite_aligned ha]
  refine ⟨State.coherent_of_path h1, ?_⟩
  rw [State.poll_answer]
  unfold PollOk at h2
  split at h2
  · rename_i he
    left
    refine ⟨by first | rw [he] | rfl, fun x hx => h2 x hx⟩
  · rename_i ws he
    right
    refine ⟨by first | rw [he] | rfl, fun x hx => ?_⟩
    rw [State.poll_wordAt, State.wordAt_eq_view, h2.2 x hx]
    by_cases e : x = flatAddr a
    · subst e
      simp [seenAfter]
    · simp only [seenAfter, true_and, e, if_false]
      rw [if_neg (by omega)]

/-- A misaligned access touches no level (R66). -/
theorem State.memRead_misaligned_mem {s : State} {u : Bool} {a : Word} (ha : aligned a = false) :
    (s.memRead u a).2.mem = s.mem := by
  rw [State.memRead_misaligned ha]
  rfl

theorem State.memWrite_misaligned_mem {s : State} {u : Bool} {a v : Word} (ha : aligned a = false) :
    (s.memWrite u a v).2.mem = s.mem := by
  rw [State.memWrite_misaligned ha]
  rfl

/-- What reads return depends on the chain and the memory only. -/
theorem State.wordAt_congr {s t : State} (hc : t.chain = s.chain) (hm : t.mem = s.mem) (u : Bool) (x : Nat) :
    t.wordAt u x = s.wordAt u x := by
  simp only [State.wordAt, State.path, hc, hm]

theorem State.memoryCoherent_congr {s t : State} (hc : t.chain = s.chain) (hm : t.mem = s.mem) :
    t.memoryCoherent = s.memoryCoherent := by
  simp only [State.memoryCoherent, hc, hm]

/-- An access that bypasses the caches leaves them alone (R71). -/
theorem State.poll_bypass (s : State) (r : Request) : (s.poll false r).2.mem.caches = s.mem.caches := rfl

/-! ### Caches as constructed (R43) -/

theorem lineAt_replicate_empty (n k w : Nat) : (lineAt (List.replicate n (Line.empty k)) w).occupied = false := by
  unfold lineAt
  rw [List.getD_eq_getElem?_getD, List.getElem?_replicate]
  split <;> rfl

theorem initial_set (g : Geometry) (i : Nat) : (CacheState.initial g).set i = List.replicate g.ways (Line.empty g.wordsPerLine) ∨
    (CacheState.initial g).set i = [] := by
  unfold CacheState.set CacheState.initial
  rw [List.getD_eq_getElem?_getD, List.getElem?_replicate]
  split
  · exact .inl rfl
  · exact .inr rfl

/-- What reads return through never-filled caches is what the store holds. -/
theorem viewWord_initial (gs : List Geometry) (cells : List Host.Cell) (a : Nat) :
    viewWord gs (gs.map CacheState.initial) cells a = readWord cells a := by
  induction gs with
  | nil => rfl
  | cons g gs ih =>
    have hmiss : findHit ((CacheState.initial g).set (g.index a)) (g.tag a) = none := by
      cases hf : findHit ((CacheState.initial g).set (g.index a)) (g.tag a) with
      | none => rfl
      | some w =>
        have h1 := (findHit_some hf).2
        have h2 : (lineAt ((CacheState.initial g).set (g.index a)) w).occupied = false := by
          rcases initial_set g (g.index a) with h | h <;> rw [h]
          · exact lineAt_replicate_empty _ _ _
          · rfl
        rw [Line.isHit, h2] at h1
        cases h1
    simp only [List.map_cons, viewWord, hmiss]
    exact ih

/-- Never-filled caches are legal and agree with any store. -/
theorem coherent_initial (gs : List Geometry) (cells : List Host.Cell) :
    coherent gs (gs.map CacheState.initial) cells = true := by
  induction gs with
  | nil => rfl
  | cons g gs ih =>
    simp only [List.map_cons, coherent, Bool.and_eq_true]
    refine ⟨⟨?_, ?_⟩, ih⟩
    · simp only [cacheOk, CacheState.initial, List.length_replicate, beq_self_eq_true, Bool.true_and, List.all_eq_true]
      intro lines hl
      obtain rfl := List.eq_of_mem_replicate hl
      simp only [setOk, List.length_replicate, beq_self_eq_true, Bool.true_and, Bool.and_eq_true, List.all_eq_true,
        decide_eq_true_eq]
      refine ⟨fun l hl' => ?_, List.pairwise_iff_getElem.mpr fun i j _ _ _ => ?_⟩
      · obtain rfl := List.eq_of_mem_replicate hl'
        simp [lineOk, Line.empty]
      · simp [linesDiffer, Line.empty]
    · simp only [cacheAgrees, List.all_eq_true]
      intro i _ l hl
      rcases initial_set g i with h | h <;> rw [h] at hl
      · obtain rfl := List.eq_of_mem_replicate hl
        rfl
      · cases hl

end Sys2Proof.Machine
end

