-- ==== Sys2Proof/Laws/Advance.lean ====
section
/-!
SUPPORT. All that fetch and the advance can do (R275, R276): their cases, and what they leave alone.
-/

namespace Sys2Proof.Machine

/-- The three outcomes of a fetch (R275). -/
theorem State.fetch_cases (s : State) :
    (∃ w, s.input.inject = some w ∧ s.fetch = s.fetched w) ∨
    (s.input.inject = none ∧ (s.memRead s.input.useCache s.pc).1 = .waiting ∧
      s.fetch = (s.memRead s.input.useCache s.pc).2) ∨
    (∃ w, s.input.inject = none ∧ (s.memRead s.input.useCache s.pc).1 = .done w ∧
      s.fetch = (s.memRead s.input.useCache s.pc).2.fetched w) := by
  unfold State.fetch
  split
  · rename_i w h
    exact .inl ⟨w, h, rfl⟩
  · rename_i h
    split
    · rename_i s1 he
      exact .inr (.inl ⟨h, by rw [he], by rw [he]⟩)
    · rename_i w s1 he
      exact .inr (.inr ⟨w, h, by rw [he], by rw [he]⟩)

@[simp] theorem State.fetch_chain (s : State) : s.fetch.chain = s.chain := by
  rcases s.fetch_cases with ⟨w, -, h⟩ | ⟨-, -, h⟩ | ⟨w, -, -, h⟩ <;> rw [h] <;> simp

@[simp] theorem State.fetch_flags (s : State) : s.fetch.flags = s.flags := by
  rcases s.fetch_cases with ⟨w, -, h⟩ | ⟨-, -, h⟩ | ⟨w, -, -, h⟩ <;> rw [h] <;> simp

@[simp] theorem State.fetch_cycle (s : State) : s.fetch.cycle = s.cycle := by
  rcases s.fetch_cases with ⟨w, -, h⟩ | ⟨-, -, h⟩ | ⟨w, -, -, h⟩ <;> rw [h] <;> simp

@[simp] theorem State.fetch_halted (s : State) : s.fetch.halted = s.halted := by
  rcases s.fetch_cases with ⟨w, -, h⟩ | ⟨-, -, h⟩ | ⟨w, -, -, h⟩ <;> rw [h] <;> simp

@[simp] theorem State.fetch_slotD (s : State) : s.fetch.slotD = s.slotD := by
  rcases s.fetch_cases with ⟨w, -, h⟩ | ⟨-, -, h⟩ | ⟨w, -, -, h⟩ <;> rw [h] <;> simp

@[simp] theorem State.fetch_slotE (s : State) : s.fetch.slotE = s.slotE := by
  rcases s.fetch_cases with ⟨w, -, h⟩ | ⟨-, -, h⟩ | ⟨w, -, -, h⟩ <;> rw [h] <;> simp

@[simp] theorem State.fetch_slotM (s : State) : s.fetch.slotM = s.slotM := by
  rcases s.fetch_cases with ⟨w, -, h⟩ | ⟨-, -, h⟩ | ⟨w, -, -, h⟩ <;> rw [h] <;> simp

@[simp] theorem State.fetch_slotW (s : State) : s.fetch.slotW = s.slotW := by
  rcases s.fetch_cases with ⟨w, -, h⟩ | ⟨-, -, h⟩ | ⟨w, -, -, h⟩ <;> rw [h] <;> simp

@[simp] theorem State.fetch_inputs (s : State) : s.fetch.inputs = s.inputs := by
  rcases s.fetch_cases with ⟨w, -, h⟩ | ⟨-, -, h⟩ | ⟨w, -, -, h⟩ <;> rw [h] <;> simp

@[simp] theorem State.fetch_lines (s : State) : s.fetch.lines = s.lines := by
  rcases s.fetch_cases with ⟨w, -, h⟩ | ⟨-, -, h⟩ | ⟨w, -, -, h⟩ <;> rw [h] <;> simp

@[simp] theorem State.fetch_phase (s : State) : s.fetch.phase = s.phase := by
  rcases s.fetch_cases with ⟨w, -, h⟩ | ⟨-, -, h⟩ | ⟨w, -, -, h⟩ <;> rw [h] <;> simp

@[simp] theorem State.fetch_mwait (s : State) : s.fetch.mwait = s.mwait := by
  rcases s.fetch_cases with ⟨w, -, h⟩ | ⟨-, -, h⟩ | ⟨w, -, -, h⟩ <;> rw [h] <;> simp

/-- A fetch leaves F and the program counter as they are, or fills F and advances the program counter by 4 (R24, R275). -/
theorem State.fetch_result (s : State) :
    (s.fetch.slotF = s.slotF ∧ s.fetch.regs = s.regs) ∨
    ∃ w, s.fetch.slotF = some (newRecord w s.pc) ∧ s.fetch.regs = s.regs.set 15 (s.pc + 4) := by
  rcases s.fetch_cases with ⟨w, -, h⟩ | ⟨-, -, h⟩ | ⟨w, -, -, h⟩ <;> rw [h]
  · exact .inr ⟨w, rfl, rfl⟩
  · exact .inl (by simp)
  · refine .inr ⟨w, ?_, ?_⟩
    · simp only [State.fetched_slotF, State.pc, State.reg, State.memRead_regs]
    · simp only [State.fetched_regs, State.pc, State.reg, State.memRead_regs]

/-- A fetch leaves at most one diagnostic (R306): of a misaligned address, which completes with the word 0 (R26). -/
theorem State.fetch_diags (s : State) : s.fetch.diags = s.diags ∨
    (aligned s.pc = false ∧ s.fetch.slotF = some (newRecord 0 s.pc) ∧ s.fetch.regs = s.regs.set 15 (s.pc + 4) ∧
      s.fetch.diags = s.diags ++ [{ kind := .misalignedRead, addr := s.pc }]) := by
  cases ha : aligned s.pc
  · unfold State.fetch
    split
    · exact .inl rfl
    · rw [State.memRead_misaligned ha]
      exact .inr ⟨rfl, rfl, rfl, rfl⟩
  · left
    rcases s.fetch_cases with ⟨w, -, h⟩ | ⟨-, -, h⟩ | ⟨w, -, -, h⟩ <;> rw [h]
    · rfl
    · rw [State.memRead_diags, ha]
      simp
    · rw [State.fetched_diags, State.memRead_diags, ha]
      simp

/-- The memory a fetch leaves is the memory it found, or the one its read leaves. -/
theorem State.fetch_mem (s : State) : s.fetch.mem = s.mem ∨ s.fetch.mem = (s.memRead s.input.useCache s.pc).2.mem := by
  rcases s.fetch_cases with ⟨w, -, h⟩ | ⟨-, -, h⟩ | ⟨w, -, -, h⟩ <;> rw [h]
  · exact .inl rfl
  · exact .inr rfl
  · exact .inr rfl

/-- The cases of the advance (R276): memory wait; decode hold; shift without a fetch; shift and fetch. -/
theorem State.advance_cases (s : State) :
    (s.mwait = true ∧ s.advance = { s with slotW := none }) ∨
    (s.mwait = false ∧ s.held = true ∧ s.advance = { s with slotW := s.slotM, slotM := s.slotE, slotE := none }) ∨
    (s.mwait = false ∧ s.held = false ∧ s.advance = s.shift) ∨
    (s.mwait = false ∧ s.held = false ∧ s.halted = false ∧ (s.input.usePipeline = true ∨ s.shift.drained = true) ∧
      s.advance = s.shift.fetch) := by
  unfold State.advance
  cases hm : s.mwait
  · cases hh : s.held
    · by_cases hc : (!s.halted && (s.input.usePipeline || s.shift.drained)) = true
      · have hc' := hc
        simp only [Bool.and_eq_true, Bool.not_eq_true', Bool.or_eq_true] at hc'
        refine .inr (.inr (.inr ⟨rfl, rfl, hc'.1, hc'.2, ?_⟩))
        simp only [Bool.false_eq_true, if_false]
        rw [if_pos hc]
      · refine .inr (.inr (.inl ⟨rfl, rfl, ?_⟩))
        simp only [Bool.false_eq_true, if_false]
        rw [if_neg hc]
    · exact .inr (.inl ⟨rfl, rfl, by simp⟩)
  · exact .inl ⟨rfl, by simp⟩

/-- The advance when memory does not wait and D is not held: the shift, with a fetch exactly if the core is not halted and the
step is pipelined or D to W are EMPTY (R276, R279). -/
theorem State.advance_otherwise {s : State} (hm : s.mwait = false) (hh : s.held = false) : s.advance =
    if !s.halted && (s.input.usePipeline || s.shift.drained) then s.shift.fetch else s.shift := by
  unfold State.advance
  rw [hm, hh]
  rfl

@[simp] theorem State.advance_chain (s : State) : s.advance.chain = s.chain := by
  rcases s.advance_cases with ⟨-, h⟩ | ⟨-, -, h⟩ | ⟨-, -, h⟩ | ⟨-, -, -, -, h⟩ <;> rw [h] <;> simp

@[simp] theorem State.advance_flags (s : State) : s.advance.flags = s.flags := by
  rcases s.advance_cases with ⟨-, h⟩ | ⟨-, -, h⟩ | ⟨-, -, h⟩ | ⟨-, -, -, -, h⟩ <;> rw [h] <;> simp

@[simp] theorem State.advance_cycle (s : State) : s.advance.cycle = s.cycle := by
  rcases s.advance_cases with ⟨-, h⟩ | ⟨-, -, h⟩ | ⟨-, -, h⟩ | ⟨-, -, -, -, h⟩ <;> rw [h] <;> simp

@[simp] theorem State.advance_halted (s : State) : s.advance.halted = s.halted := by
  rcases s.advance_cases with ⟨-, h⟩ | ⟨-, -, h⟩ | ⟨-, -, h⟩ | ⟨-, -, -, -, h⟩ <;> rw [h] <;> simp

@[simp] theorem State.advance_inputs (s : State) : s.advance.inputs = s.inputs := by
  rcases s.advance_cases with ⟨-, h⟩ | ⟨-, -, h⟩ | ⟨-, -, h⟩ | ⟨-, -, -, -, h⟩ <;> rw [h] <;> simp

@[simp] theorem State.advance_lines (s : State) : s.advance.lines = s.lines := by
  rcases s.advance_cases with ⟨-, h⟩ | ⟨-, -, h⟩ | ⟨-, -, h⟩ | ⟨-, -, -, -, h⟩ <;> rw [h] <;> simp

@[simp] theorem State.advance_phase (s : State) : s.advance.phase = s.phase := by
  rcases s.advance_cases with ⟨-, h⟩ | ⟨-, -, h⟩ | ⟨-, -, h⟩ | ⟨-, -, -, -, h⟩ <;> rw [h] <;> simp

@[simp] theorem State.advance_mwait (s : State) : s.advance.mwait = s.mwait := by
  rcases s.advance_cases with ⟨-, h⟩ | ⟨-, -, h⟩ | ⟨-, -, h⟩ | ⟨-, -, -, -, h⟩ <;> rw [h] <;> simp

/-- The advance holds a record in D exactly when D holds one that is not marked decoded (R276). -/
theorem State.held_iff (s : State) : s.held = true ↔ ∃ r, s.slotD = some r ∧ r.decoded = false := by
  unfold State.held
  split <;> simp_all

end Sys2Proof.Machine
end

