-- ==== Sys2Proof/Laws/Work.lean ====
section
/-!
SUPPORT. What the phases 0 to 3 of one step do together (R262): the memory wait as a function of the state, the record each
phase leaves in its slot, and the fields the whole of them leaves alone.
-/

namespace Sys2Proof.Machine

/-! ### Phase 0 -/

/-- A load in the memory stage (R231), by the answer of its poll. -/
theorem loadMemory_eq (r : Record) (s : State) : loadMemory r s =
    match (s.memRead s.input.useCache r.addr).1 with
    | .waiting => { (s.memRead s.input.useCache r.addr).2 with mwait := true }
    | .done w => { (s.memRead s.input.useCache r.addr).2 with slotM := some { r with loaded := w } } := by
  unfold loadMemory
  split <;> simp_all

/-- A store in the memory stage (R232), by the answer of its poll. -/
theorem storeMemory_eq (r : Record) (s : State) : storeMemory r s =
    match (s.memWrite s.input.useCache r.addr r.vRd).1 with
    | .waiting => { (s.memWrite s.input.useCache r.addr r.vRd).2 with mwait := true }
    | .done _ => (s.memWrite s.input.useCache r.addr r.vRd).2 := by
  unfold storeMemory
  split <;> simp_all

/-- The mark `mwait` after phase 0 is what `memoryWaits` says before it (R264, R265). -/
theorem memoryPhase_mwait (s : State) : (phaseState .memory { s with mwait := false }).mwait = s.memoryWaits := by
  rw [memoryPhase_eq]
  unfold State.memoryWaits
  cases hM : s.slotM with
  | none => rfl
  | some r =>
    dsimp only
    cases hp : r.pass
    · simp
    · simp only [if_true, Bool.and_true]
      rcases memoryLines_cases r.instr.fields with h | ⟨h1, h2, h⟩ | ⟨h1, h2, h⟩
      · rw [h]
        have : (r.instr.fields.cls == Cls.memory) = false := by
          unfold memoryLines at h
          cases hc : r.instr.fields.cls <;> simp
          rw [hc] at h
          have := congrFun (congrFun h { raw := 0, pc := 0, addr := 1 }) { s with diags := [] }
          cases hl : r.instr.fields.l
          · simp only [hl, Bool.false_eq_true, if_false, noLines] at this
            rw [storeMemory_eq, State.memWrite_misaligned (by decide)] at this
            simpa [State.diagnose] using congrArg State.diags this
          · simp only [hl, if_true, noLines] at this
            rw [loadMemory_eq, State.memRead_misaligned (by decide)] at this
            simpa [State.diagnose] using congrArg State.diags this
        simp [this, noLines]
      · rw [h, loadMemory_eq, h1, h2]
        cases ha : aligned r.addr
        · rw [State.memRead_misaligned ha]
          rfl
        · rw [State.memRead_aligned ha]
          simp only [State.poll_answer, State.path, State.input, if_true, beq_self_eq_true, Bool.true_and, Bool.and_true]
          split <;> rename_i he <;> split at he <;> simp_all
      · rw [h, storeMemory_eq, h1, h2]
        cases ha : aligned r.addr
        · rw [State.memWrite_misaligned ha]
          rfl
        · rw [State.memWrite_aligned ha]
          simp only [State.poll_answer, State.path, State.input, beq_self_eq_true, Bool.true_and, Bool.false_eq_true, if_false]
          split <;> rename_i he <;> split at he <;> simp_all

/-- Phase 0 changes of the record in M only the loaded word (R264). -/
theorem memoryPhase_slotM (s : State) : (phaseState .memory s).slotM = s.slotM ∨
    ∃ r w, s.slotM = some r ∧ r.pass = true ∧ r.instr.fields.cls = .memory ∧ r.instr.fields.l = true ∧
      (phaseState .memory s).slotM = some { r with loaded := w } := by
  rw [memoryPhase_eq]
  cases hM : s.slotM with
  | none => exact .inl rfl
  | some r =>
    dsimp only
    cases hp : r.pass
    · exact .inl rfl
    · simp only [if_true]
      rcases memoryLines_cases r.instr.fields with h | ⟨h1, h2, h⟩ | ⟨h1, h2, h⟩ <;> rw [h]
      · exact .inl rfl
      · rw [loadMemory_eq]
        split
        · exact .inl (by simp)
        · exact .inr ⟨r, _, rfl, hp, h1, h2, rfl⟩
      · rw [storeMemory_eq]
        split <;> exact .inl (by simp)

/-- When the memory stage waits the record in M is as it was (R265). -/
theorem memoryPhase_slotM_of_wait {s : State} (hw : s.memoryWaits = true) :
    (phaseState .memory { s with mwait := false }).slotM = s.slotM := by
  rw [← memoryPhase_mwait, memoryPhase_eq] at hw
  rw [memoryPhase_eq]
  cases hM : s.slotM with
  | none => rfl
  | some r =>
    simp only [hM] at hw
    dsimp only
    cases hp : r.pass
    · rfl
    · simp only [hp, if_true] at hw ⊢
      rcases memoryLines_cases r.instr.fields with h | ⟨h1, h2, h⟩ | ⟨h1, h2, h⟩ <;> rw [h] at hw ⊢
      · rfl
      · rw [loadMemory_eq] at hw ⊢
        split at hw
        · simp_all
        · simp at hw
      · rw [storeMemory_eq]
        split <;> simp

/-- Phase 0 leaves at most one diagnostic, of a misaligned access (R306). -/
theorem memoryPhase_diags (s : State) : (phaseState .memory s).diags = s.diags ∨
    ∃ r kind, s.slotM = some r ∧ aligned r.addr = false ∧ (kind = .misalignedRead ∨ kind = .misalignedWrite) ∧
      (phaseState .memory s).mwait = s.mwait ∧
      (phaseState .memory s).diags = s.diags ++ [{ kind := kind, addr := r.addr }] := by
  rw [memoryPhase_eq]
  cases hM : s.slotM with
  | none => exact .inl rfl
  | some r =>
    dsimp only
    cases hp : r.pass
    · exact .inl rfl
    · simp only [if_true]
      rcases memoryLines_cases r.instr.fields with h | ⟨h1, h2, h⟩ | ⟨h1, h2, h⟩ <;> rw [h]
      · exact .inl rfl
      · cases ha : aligned r.addr
        · refine .inr ⟨r, .misalignedRead, rfl, ha, .inl rfl, ?_⟩
          rw [loadMemory_eq, State.memRead_misaligned ha]
          exact ⟨rfl, rfl⟩
        · left
          rw [loadMemory_eq]
          split <;> simp [State.memRead_diags, ha]
      · cases ha : aligned r.addr
        · refine .inr ⟨r, .misalignedWrite, rfl, ha, .inr rfl, ?_⟩
          rw [storeMemory_eq, State.memWrite_misaligned ha]
          exact ⟨rfl, rfl⟩
        · left
          rw [storeMemory_eq]
          split <;> simp [State.memWrite_diags, ha]

/-! ### Phase 2 -/

/-- A record is a taken branch or leaves F, D and the program counter alone (R240, R269). -/
theorem executePhase_flow (s : State) :
    (s.branchTaken = false ∧ (phaseState .execute s).slotF = s.slotF ∧ (phaseState .execute s).slotD = s.slotD ∧
      (phaseState .execute s).regs = s.regs) ∨
    ∃ r, s.branchTaken = true ∧ s.slotE = some r ∧ r.instr.fields.cls = .branch ∧
      condPass r.instr.fields.cond s.flags = true ∧ (phaseState .execute s).slotF = none ∧
      (phaseState .execute s).slotD = none ∧ (phaseState .execute s).regs = s.regs.set 15 (branchTarget r.instr.fields r) := by
  rw [executePhase_eq]
  unfold State.branchTaken
  cases hE : s.slotE with
  | none => exact .inl ⟨rfl, rfl, rfl, rfl⟩
  | some r =>
    dsimp only
    cases hc : condPass r.instr.fields.cond s.flags
    · exact .inl ⟨by simp, rfl, rfl, rfl⟩
    · cases hcls : r.instr.fields.cls
      · left
        simp [executeLines, hcls, aluExecute]
      · left
        simp [executeLines, hcls, memExecute]
      · right
        refine ⟨r, by simp, rfl, hcls, hc, ?_⟩
        simp only [if_true, executeLines, hcls, branchExecute]
        exact ⟨rfl, rfl, rfl⟩
      · left
        simp [executeLines, hcls, noLines]

/-- Phase 2 changes of the record in E neither its word nor its address nor its mark (R268). -/
theorem executePhase_slotE (s : State) : (s.slotE = none ∧ (phaseState .execute s).slotE = none) ∨
    ∃ r r', s.slotE = some r ∧ (phaseState .execute s).slotE = some r' ∧ r'.raw = r.raw ∧ r'.pc = r.pc ∧
      r'.decoded = r.decoded ∧ r'.pass = condPass r.instr.fields.cond s.flags := by
  rw [executePhase_eq]
  cases hE : s.slotE with
  | none => exact .inl ⟨rfl, rfl⟩
  | some r =>
    dsimp only
    cases hc : condPass r.instr.fields.cond s.flags
    · exact .inr ⟨r, _, rfl, rfl, rfl, rfl, rfl, hc.symm⟩
    · simp only [if_true]
      unfold executeLines
      cases r.instr.fields.cls <;> exact .inr ⟨r, _, rfl, rfl, rfl, rfl, rfl, hc.symm⟩

/-- Phase 2 writes the flags only for an ALU instruction with `S` = 1 whose condition passes (R28). -/
theorem executePhase_flags (s : State) : (phaseState .execute s).flags = s.flags ∨
    ∃ r, s.slotE = some r ∧ r.instr.fields.cls = .alu ∧ r.instr.fields.s = true ∧
      condPass r.instr.fields.cond s.flags = true := by
  rw [executePhase_eq]
  cases hE : s.slotE with
  | none => exact .inl rfl
  | some r =>
    dsimp only
    cases hc : condPass r.instr.fields.cond s.flags
    · exact .inl rfl
    · simp only [if_true]
      unfold executeLines
      cases hcls : r.instr.fields.cls
      · cases hs : r.instr.fields.s
        · left
          simp [aluExecute, hs]
        · exact .inr ⟨r, rfl, hcls, hs, hc⟩
      all_goals exact .inl rfl

/-! ### Phase 3 -/

theorem baseWriteback_reg (f : Fields) (r : Record) (s : State) (x : Reg) :
    (baseWriteback f r s).reg x = if f.wb = true ∧ f.rn = x then r.wbval else s.reg x := by
  unfold baseWriteback
  cases f.wb <;> simp [State.reg_setReg]

theorem loadWriteback_reg (f : Fields) (r : Record) (s : State) (x : Reg) :
    (loadWriteback f r s).reg x =
      if f.rd = x then r.loaded else if f.wb = true ∧ f.rn = x then r.wbval else s.reg x := by
  rw [loadWriteback, State.reg_setReg, baseWriteback_reg]

theorem aluWriteback_reg (f : Fields) (r : Record) (s : State) (x : Reg) :
    (aluWriteback f r s).reg x = if f.rdUsed = true ∧ f.rd = x then r.result else s.reg x := by
  unfold aluWriteback
  cases f.rdUsed <;> simp [State.reg_setReg]

theorem branchWriteback_reg (f : Fields) (r : Record) (s : State) (x : Reg) :
    (branchWriteback f r s).reg x = if f.link = true ∧ 14 = x then r.result else s.reg x := by
  unfold branchWriteback
  cases f.link <;> simp [State.reg_setReg]

/-- Phase 3 leaves a register as it was, or gives it what the record in W carries for it (R272). -/
theorem writebackPhase_reg (s : State) (x : Reg) : (phaseState .writeback s).reg x = s.reg x ∨
    ∃ r, s.slotW = some r ∧ r.pass = true ∧
      ((r.instr.fields.cls = .alu ∧ r.instr.fields.rdUsed = true ∧ x = r.instr.fields.rd ∧
          (phaseState .writeback s).reg x = r.result) ∨
        (r.instr.fields.cls = .memory ∧ r.instr.fields.l = true ∧ x = r.instr.fields.rd ∧
          (phaseState .writeback s).reg x = r.loaded) ∨
        (r.instr.fields.cls = .memory ∧ r.instr.fields.wb = true ∧ x = r.instr.fields.rn ∧
          (phaseState .writeback s).reg x = r.wbval) ∨
        (r.instr.fields.cls = .branch ∧ r.instr.fields.link = true ∧ x = 14 ∧
          (phaseState .writeback s).reg x = r.result)) := by
  have hphase : ({ s with phase := .writeback } : State).reg x = s.reg x := rfl
  rw [writebackPhase_eq]
  cases hW : s.slotW with
  | none => exact .inl rfl
  | some r =>
    dsimp only
    rw [hW] at hphase
    cases hp : r.pass
    · exact .inl rfl
    · simp only [if_true]
      unfold writebackLines
      cases hcls : r.instr.fields.cls
      · simp only [aluWriteback_reg, hphase]
        split
        · rename_i e
          exact .inr ⟨r, rfl, hp, .inl ⟨hcls, e.1, e.2.symm, rfl⟩⟩
        · exact .inl rfl
      · cases hl : r.instr.fields.l
        · simp only [Bool.false_eq_true, if_false, baseWriteback_reg, hphase]
          split
          · rename_i e
            exact .inr ⟨r, rfl, hp, .inr (.inr (.inl ⟨hcls, e.1, e.2.symm, rfl⟩))⟩
          · exact .inl rfl
        · simp only [if_true, loadWriteback_reg, hphase]
          split
          · rename_i e
            exact .inr ⟨r, rfl, hp, .inr (.inl ⟨hcls, hl, e.symm, rfl⟩)⟩
          · split
            · rename_i e
              exact .inr ⟨r, rfl, hp, .inr (.inr (.inl ⟨hcls, e.1, e.2.symm, rfl⟩))⟩
            · exact .inl rfl
      · simp only [branchWriteback_reg, hphase]
        split
        · rename_i e
          exact .inr ⟨r, rfl, hp, .inr (.inr (.inr ⟨hcls, e.1, e.2.symm, rfl⟩))⟩
        · exact .inl rfl
      · exact .inl rfl

/-- The registers after phase 3 depend on the registers and the record in W only. -/
theorem writebackPhase_regs_congr {s t : State} (hr : s.regs = t.regs) (hW : s.slotW = t.slotW) :
    (phaseState .writeback s).regs = (phaseState .writeback t).regs := by
  have hphase : ∀ u v : State, u.regs = v.regs → ∀ (f : Fields) (r : Record),
      (writebackLines f r u).regs = (writebackLines f r v).regs := by
    intro u v huv f r
    have hb : (baseWriteback f r u).regs = (baseWriteback f r v).regs := by
      unfold baseWriteback
      split <;> simp [huv]
    unfold writebackLines
    cases f.cls
    · simp only [aluWriteback]
      split <;> simp [huv]
    · cases f.l
      · exact hb
      · simp [loadWriteback, hb]
    · simp only [branchWriteback]
      split <;> simp [huv]
    · exact huv
  rw [writebackPhase_eq, writebackPhase_eq, hW]
  cases t.slotW with
  | none => exact hr
  | some r =>
    dsimp only
    split
    · exact hphase { s with phase := .writeback, slotW := some r } { t with phase := .writeback, slotW := some r } hr _ _
    · exact hr

/-! ### The phases together -/

/-- Phases 0 to 3 of a step whose memory stage waits (R265). -/
theorem workState_of_wait {s : State} (h : s.memoryWaits = true) :
    workState s = phaseState .writeback (phaseState .memory { s with mwait := false }) := by
  unfold workState middleState
  rw [memoryPhase_mwait, h]
  rfl

/-- Phases 0 to 3 of a step whose memory stage does not wait (R262). -/
theorem workState_of_ready {s : State} (h : s.memoryWaits = false) :
    workState s = phaseState .writeback (phaseState .sentinel (phaseState .execute (phaseState .decode
      (phaseState .memory { s with mwait := false })))) := by
  unfold workState middleState
  rw [memoryPhase_mwait, h]
  rfl

@[simp] theorem workState_mwait (s : State) : (workState s).mwait = s.memoryWaits := by
  cases h : s.memoryWaits
  · rw [workState_of_ready h]
    simp [memoryPhase_mwait, h]
  · rw [workState_of_wait h]
    simp [memoryPhase_mwait, h]

@[simp] theorem workState_chain (s : State) : (workState s).chain = s.chain := by
  unfold workState middleState
  split <;> simp

@[simp] theorem workState_cycle (s : State) : (workState s).cycle = s.cycle := by
  unfold workState middleState
  split <;> simp

@[simp] theorem workState_inputs (s : State) : (workState s).inputs = s.inputs := by
  unfold workState middleState
  split <;> simp

@[simp] theorem workState_lines (s : State) : (workState s).lines = s.lines := by
  unfold workState middleState
  split <;> simp

@[simp] theorem workState_input (s : State) : (workState s).input = s.input := by
  simp [State.input]

@[simp] theorem workState_slotW (s : State) : (workState s).slotW = s.slotW := by
  unfold workState middleState
  split <;> simp

/-- Memory changes in phase 0 only, before the fetch (R74). -/
@[simp] theorem workState_mem (s : State) : (workState s).mem = (phaseState .memory { s with mwait := false }).mem := by
  unfold workState middleState
  split <;> simp

@[simp] theorem workState_diags (s : State) : (workState s).diags = (phaseState .memory { s with mwait := false }).diags := by
  unfold workState middleState
  split <;> simp

@[simp] theorem workState_slotM (s : State) : (workState s).slotM = (phaseState .memory { s with mwait := false }).slotM := by
  unfold workState middleState
  split <;> simp

end Sys2Proof.Machine
end

