-- ==== Sys2Proof/Laws/Flow.lean ====
section
/-!
SUPPORT. The flow of records through one step: what the phases 0 to 3 leave in F, D, E and M, in a step whose memory stage
waits and in one whose memory stage does not (R262, R265, R266, R252, R245).
-/

namespace Sys2Proof.Machine

/-- The step as an equation: what its next state is. -/
theorem step_next {s t : State} (h : step s = .next t) : t = (workState s).advance.endCycle := by
  rw [step_eq] at h
  injection h with h
  exact h.symm

/-- The record phase 1 leaves in D (R266). -/
def State.decodedRecord (s : State) (r : Record) : Record :=
  if s.hazardFree r.instr.uses then s.snapshot r.instr.fields r else { r with decoded := false }

/-- The memory phase 0 leaves is the memory it found, or the one its load or store leaves (R264). -/
theorem memoryPhase_mem (s : State) : (phaseState .memory s).mem = s.mem ∨
    (∃ r, s.slotM = some r ∧ r.pass = true ∧ r.instr.fields.cls = .memory ∧ r.instr.fields.l = true ∧
      (phaseState .memory s).mem = (State.memRead { s with phase := .memory } s.input.useCache r.addr).2.mem) ∨
    ∃ r, s.slotM = some r ∧ r.pass = true ∧ r.instr.fields.cls = .memory ∧ r.instr.fields.l = false ∧
      (phaseState .memory s).mem = (State.memWrite { s with phase := .memory } s.input.useCache r.addr r.vRd).2.mem := by
  rw [memoryPhase_eq]
  cases hM : s.slotM with
  | none => exact .inl rfl
  | some r =>
    dsimp only
    cases hp : r.pass
    · exact .inl rfl
    · simp only [if_true]
      rcases memoryLines_cases r.instr.fields with h | ⟨h1, h2, h⟩ | ⟨h1, h2, h⟩ <;> rw [h]
      · exact .inl rfl
      · refine .inr (.inl ⟨r, rfl, hp, h1, h2, ?_⟩)
        rw [loadMemory_eq]
        split <;> rfl
      · refine .inr (.inr ⟨r, rfl, hp, h1, h2, ?_⟩)
        rw [storeMemory_eq]
        split <;> rfl

/-- Phase 0 leaves the use sets of the slots as they are (R264). -/
theorem memoryPhase_usesM (s : State) : slotUses (phaseState .memory s).slotM = slotUses s.slotM := by
  rcases memoryPhase_slotM s with h | ⟨r, w, h, -, -, -, h'⟩
  · rw [h]
  · rw [h, h']
    rfl

theorem memoryPhase_busy (s : State) : (phaseState .memory s).busy = s.busy := by
  simp [State.busy, memoryPhase_usesM]

theorem memoryPhase_reg (s : State) (x : Reg) : (phaseState .memory s).reg x = s.reg x := State.reg_congr (by simp) x

theorem decodedRecord_congr {s t : State} (hb : t.busy = s.busy) (hr : t.regs = s.regs) (r : Record) :
    t.decodedRecord r = s.decodedRecord r := by
  unfold State.decodedRecord State.hazardFree State.snapshot
  rw [hb]
  simp only [State.reg_congr hr]

/-- Phase 1 on the record in D (R266). -/
theorem decodePhase_slotD_map (s : State) : (phaseState .decode s).slotD = s.slotD.map s.decodedRecord := by
  rw [decodePhase_eq]
  split
  · rename_i h
    simp [h]
  · rename_i r h
    simp [h, State.decodedRecord]

/-- Phase 1 in a whole step: the record in D is held or takes its snapshot, with E, M, W and the registers as they stood before
the step (R266, R270). -/
theorem decodePhase_slotD (s : State) :
    (phaseState .decode (phaseState .memory { s with mwait := false })).slotD = s.slotD.map s.decodedRecord := by
  rw [decodePhase_slotD_map]
  have hd : (phaseState .memory { s with mwait := false }).slotD = s.slotD := by simp
  rw [hd]
  congr 1
  funext r
  exact decodedRecord_congr (s := s) (t := phaseState .memory { s with mwait := false }) ((memoryPhase_busy _).trans rfl)
    (by simp) r

@[simp] theorem decodedRecord_raw (s : State) (r : Record) : (s.decodedRecord r).raw = r.raw := by
  unfold State.decodedRecord
  split <;> rfl

@[simp] theorem decodedRecord_pc (s : State) (r : Record) : (s.decodedRecord r).pc = r.pc := by
  unfold State.decodedRecord
  split <;> rfl

@[simp] theorem decodedRecord_decoded (s : State) (r : Record) : (s.decodedRecord r).decoded = s.hazardFree r.instr.uses := by
  unfold State.decodedRecord
  split <;> simp_all [State.snapshot]

/-- What phases 0 to 3 leave in F and D and in the halted latch when the memory stage does not wait: a taken branch flushes;
else the sentinel in D halts and flushes; else F stays and the record in D is decoded or held (R245, R252, R266). -/
theorem workState_flow {s : State} (hw : s.memoryWaits = false) :
    (s.branchTaken = true ∧ (workState s).slotF = none ∧ (workState s).slotD = none ∧ (workState s).halted = s.halted) ∨
    (s.branchTaken = false ∧ s.sentinelInD = true ∧ (workState s).slotF = none ∧ (workState s).slotD = none ∧
      (workState s).halted = true) ∨
    (s.branchTaken = false ∧ s.sentinelInD = false ∧ (workState s).slotF = s.slotF ∧
      (workState s).slotD = s.slotD.map s.decodedRecord ∧ (workState s).halted = s.halted) := by
  rw [workState_of_ready hw]
  simp only [writebackPhase_halted, writebackPhase_slotF, writebackPhase_slotD]
  set u := phaseState .decode (phaseState .memory { s with mwait := false }) with hu
  have hb : u.branchTaken = s.branchTaken := by simp [State.branchTaken, hu]
  have hD : u.slotD = s.slotD.map s.decodedRecord := decodePhase_slotD s
  have hs : u.sentinelInD = s.sentinelInD := by
    unfold State.sentinelInD
    rw [hD]
    cases s.slotD <;> simp
  have hh : (phaseState .execute u).halted = s.halted := by simp [hu]
  have hF : u.slotF = s.slotF := by simp [hu]
  rw [sentinelPhase_eq]
  rcases executePhase_flow u with ⟨h0, h1, h2, -⟩ | ⟨r, h0, -, -, -, h1, h2, -⟩
  · have : (phaseState .execute u).sentinelInD = s.sentinelInD := by
      unfold State.sentinelInD
      rw [h2]
      exact hs
    rw [this]
    cases h : s.sentinelInD
    · exact .inr (.inr ⟨hb ▸ h0, rfl, h1.trans hF, h2.trans hD, hh⟩)
    · exact .inr (.inl ⟨hb ▸ h0, rfl, rfl, rfl, rfl⟩)
  · have : (phaseState .execute u).sentinelInD = false := by
      unfold State.sentinelInD
      rw [h2]
      rfl
    rw [this]
    exact .inl ⟨hb ▸ h0, h1, h2, hh⟩

/-- What phases 0 to 3 leave of the record in E when the memory stage does not wait: its word, its address and its mark (R268). -/
theorem workState_slotE {s : State} (hw : s.memoryWaits = false) :
    (s.slotE = none ∧ (workState s).slotE = none) ∨
    ∃ r r', s.slotE = some r ∧ (workState s).slotE = some r' ∧ r'.raw = r.raw ∧ r'.pc = r.pc ∧ r'.decoded = r.decoded ∧
      r'.pass = condPass r.instr.fields.cond s.flags := by
  rw [workState_of_ready hw]
  simp only [writebackPhase_slotE, sentinelPhase_slotE]
  simpa using executePhase_slotE (phaseState .decode (phaseState .memory { s with mwait := false }))

/-- What phases 0 to 3 leave when the memory stage waits: everything but the registers, the timers below and the marks (R265). -/
theorem workState_wait {s : State} (hw : s.memoryWaits = true) :
    (workState s).slotF = s.slotF ∧ (workState s).slotD = s.slotD ∧ (workState s).slotE = s.slotE ∧
      (workState s).slotM = s.slotM ∧ (workState s).flags = s.flags ∧ (workState s).halted = s.halted := by
  have hM : (workState s).slotM = s.slotM := by
    rw [workState_slotM]
    exact memoryPhase_slotM_of_wait hw
  refine ⟨?_, ?_, ?_, hM, ?_, ?_⟩ <;> rw [workState_of_wait hw] <;> simp

/-! ### Registers other than the program counter -/

/-- The advance changes no register but the program counter (R24). -/
theorem State.advance_reg_ne (s : State) (x : Reg) (hx : x ≠ 15) : s.advance.reg x = s.reg x := by
  rcases s.advance_cases with ⟨-, h⟩ | ⟨-, -, h⟩ | ⟨-, -, h⟩ | ⟨-, -, -, -, h⟩ <;> rw [h]
  · rfl
  · rfl
  · rfl
  · rcases s.shift.fetch_result with ⟨-, h⟩ | ⟨w, -, h⟩
    · exact State.reg_congr h x
    · have : s.shift.fetch.reg x = (s.shift.setReg 15 (s.shift.pc + 4)).reg x := State.reg_congr h x
      rw [this, State.reg_setReg_of_ne _ _ (Ne.symm hx)]
      rfl

/-- The phases 1 to 2b change no register but the program counter (R272). -/
theorem middleState_reg_ne (s : State) (x : Reg) (hx : x ≠ 15) : (middleState s).reg x = s.reg x := by
  unfold middleState
  split
  · rfl
  · have h1 : ∀ u, (phaseState .sentinel u).reg x = u.reg x := fun u => State.reg_congr (by simp) x
    have h2 : ∀ u, (phaseState .decode u).reg x = u.reg x := fun u => State.reg_congr (by simp) x
    rw [h1]
    rcases executePhase_flow (phaseState .decode s) with ⟨-, -, -, h⟩ | ⟨r, -, -, -, -, -, -, h⟩
    · rw [State.reg_congr h, h2]
    · have : (phaseState .execute (phaseState .decode s)).reg x =
          ((phaseState .decode s).setReg 15 (branchTarget r.instr.fields r)).reg x := State.reg_congr h x
      rw [this, State.reg_setReg_of_ne _ _ (Ne.symm hx), h2]

/-! ### Use sets and marks -/

theorem State.hazardFree_iff (s : State) (us : List Reg) : s.hazardFree us = true ↔
    ∀ x ∈ us, x ∉ slotUses s.slotE ∧ x ∉ slotUses s.slotM ∧ x ∉ slotUses s.slotW := by
  simp [State.hazardFree, State.busy]

theorem slotUses_of_raw {r r' : Record} (h : r'.raw = r.raw) : slotUses (some r') = slotUses (some r) := by
  simp [slotUses, Record.instr, h]

theorem workState_usesE (s : State) : slotUses (workState s).slotE = slotUses s.slotE ∧
    (slotDecoded s.slotE = true → slotDecoded (workState s).slotE = true) := by
  cases hw : s.memoryWaits
  · rcases workState_slotE hw with ⟨h1, h2⟩ | ⟨r, r', h1, h2, h3, -, h4, -⟩
    · rw [h1, h2]
      exact ⟨rfl, id⟩
    · rw [h1, h2]
      exact ⟨slotUses_of_raw h3, fun h => by simpa [slotDecoded, h4] using h⟩
  · rw [(workState_wait hw).2.2.1]
    exact ⟨rfl, id⟩

theorem workState_usesM (s : State) : slotUses (workState s).slotM = slotUses s.slotM ∧
    (slotDecoded s.slotM = true → slotDecoded (workState s).slotM = true) := by
  rw [workState_slotM]
  rcases memoryPhase_slotM { s with mwait := false } with h | ⟨r, w, h, -, -, -, h'⟩
  · rw [h]
    exact ⟨rfl, id⟩
  · simp only at h
    rw [h', h]
    exact ⟨rfl, id⟩

/-! ### Memory through one step -/

/-- The memory the advance leaves is the memory it found, or the one the read of its fetch leaves (R74). -/
theorem State.advance_mem (s : State) :
    s.advance.mem = s.mem ∨ s.advance.mem = (s.shift.memRead s.input.useCache s.pc).2.mem := by
  rcases s.advance_cases with ⟨-, h⟩ | ⟨-, -, h⟩ | ⟨-, -, h⟩ | ⟨-, -, -, -, h⟩ <;> rw [h]
  · exact .inl rfl
  · exact .inl rfl
  · exact .inl rfl
  · exact s.shift.fetch_mem

/-- A read, aligned or not, keeps the caches coherent and changes no word that a read returns (R66, R72). -/
theorem State.memRead_keeps {s : State} {u : Bool} {a : Word} (hc : u = true → s.memoryCoherent = true) :
    (u = true → (s.memRead u a).2.memoryCoherent = true) ∧ ∀ x < 2 ^ 30, (s.memRead u a).2.wordAt u x = s.wordAt u x := by
  cases ha : aligned a
  · have := State.memRead_misaligned_mem (s := s) (u := u) ha
    refine ⟨fun h => ?_, fun x _ => State.wordAt_congr (by simp) this u x⟩
    rw [State.memoryCoherent_congr (by simp) this]
    exact hc h
  · exact ⟨(State.memRead_spec ha hc).1, (State.memRead_spec ha hc).2.1⟩

end Sys2Proof.Machine
end

