-- ==== Sys2Proof/Certificates/Slice0/Obligations.lean ====
section
/-!
DEFINITION. The statements for the provers. Each docstring names the rules of spec/ the statement comes from; D<n> beside a rule
is the decision of 92_eei_decisions by which the spec fixed that rule itself, its source being silent. (The Laws are imported
so that the proofs see them; no statement uses one.)
-/

open Sys2Proof Sys2Proof.Machine

/-! ### Encoding -/

/-- R143 to R146, R149: the word of an instruction decodes to that instruction, with every operand at every value its field
admits. -/
def Obligations.DecodeInvertsEncode : Prop := ∀ i : Instr, decode (encode i) = i

/-- R148 (D12): words that differ only in ignored bits decode to one instruction, and the encoder writes ignored bits 0; the
`rd` of a compare is not used; the `rn` of MOV and MVN is decoded and used, and its value does not enter the result. (The sentinel
is the one word apart, R149.) -/
def Obligations.IgnoredBitsTakeNoPart : Prop :=
  (∀ w w' : Word, w ≠ sentinelWord → w' ≠ sentinelWord → (w ^^^ w') &&& ~~~ignoredBits w = 0 → decode w' = decode w) ∧
  (∀ w : Word, w ≠ sentinelWord → encode (decode w) = w &&& ~~~ignoredBits w) ∧
  ∀ (op : AluOp) (cond : Cond) (sf : Bool) (rd rn : Reg) (o2 : Operand2),
    (op.isCompare = true → (Instr.alu op cond sf rd rn o2).fields.rdUsed = false) ∧
    (op = .mov ∨ op = .mvn →
      (Instr.alu op cond sf rd rn o2).fields.rn = rn ∧ (Instr.alu op cond sf rd rn o2).fields.rnUsed = true ∧
      ∀ (a a' b : Word) (c : Bool), aluOperation op a b c = aluOperation op a' b c)

/-- R158: every word of a row's match and mask decodes to that row's instruction (END, which lies inside NOP, first), and
every word lies in the row of the instruction it decodes to. -/
def Obligations.TableRowsDecode : Prop :=
  (∀ (w : Word) (i : Instr), w &&& i.tableRow.1 = i.tableRow.2 → (w = sentinelWord → i = .endStream) →
    (decode w).tableRow = i.tableRow) ∧
  ∀ w : Word, w &&& (decode w).tableRow.1 = (decode w).tableRow.2

/-- R141, R142, R150 to R153, R154: the decoded fields, bit by bit, at the bit positions, with the polarities, the extension and
the `rn` tag that are the spec's decisions D7, D10, D11 and D22 (log 8); a field its class does not name is 0 and its tag is
false. -/
def Obligations.DecodedFieldsOfWord : Prop :=
  ∀ w : Word,
    let f := (decode w).fields
    let regField (lo : Nat) : Nat := (w.extractLsb' lo 4).toNat
    f.cond.code = (w.extractLsb' 28 4).toNat ∧
    f.cls = Cls.ofCode (w.extractLsb' 26 2).toNat ∧
    (f.cls = .alu →
      f.opcode = w.extractLsb' 21 4 ∧ f.s = w.getLsbD 20 ∧ f.regOperand = w.getLsbD 25 ∧
      f.rd.val = regField 16 ∧ f.rdUsed = !(decide (8 ≤ (w.extractLsb' 21 4).toNat ∧ (w.extractLsb' 21 4).toNat ≤ 11)) ∧
      f.rn.val = regField 12 ∧ f.rnUsed = true ∧
      (w.getLsbD 25 = false →
        f.imm = (w.extractLsb' 0 8).setWidth 32 ∧ f.rm = 0 ∧ f.rmUsed = false ∧ f.rs = 0 ∧ f.rsUsed = false ∧
        f.shtype = .lsl ∧ f.shamt = 0 ∧ f.regshift = false) ∧
      (w.getLsbD 25 = true →
        f.imm = 0 ∧ f.rm.val = regField 0 ∧ f.rmUsed = true ∧ f.shtype.code = (w.extractLsb' 5 2).toNat ∧
        f.regshift = w.getLsbD 4 ∧
        (w.getLsbD 4 = true → f.rs.val = regField 8 ∧ f.rsUsed = true ∧ f.shamt = 0) ∧
        (w.getLsbD 4 = false → f.rs = 0 ∧ f.rsUsed = false ∧ f.shamt = w.extractLsb' 7 5)) ∧
      f.p = false ∧ f.u = false ∧ f.wb = false ∧ f.l = false ∧ f.link = false) ∧
    (f.cls = .memory →
      f.regOperand = w.getLsbD 25 ∧ f.p = w.getLsbD 24 ∧ f.u = w.getLsbD 23 ∧ f.wb = w.getLsbD 22 ∧ f.l = w.getLsbD 21 ∧
      f.rd.val = regField 16 ∧ f.rdUsed = true ∧ f.rn.val = regField 12 ∧ f.rnUsed = true ∧
      f.rs = 0 ∧ f.rsUsed = false ∧ f.regshift = false ∧
      (w.getLsbD 25 = false →
        f.imm = (w.extractLsb' 0 12).signExtend 32 ∧ f.rm = 0 ∧ f.rmUsed = false ∧ f.shtype = .lsl ∧ f.shamt = 0) ∧
      (w.getLsbD 25 = true →
        f.imm = 0 ∧ f.rm.val = regField 0 ∧ f.rmUsed = true ∧ f.shtype.code = (w.extractLsb' 5 2).toNat ∧
        f.shamt = w.extractLsb' 7 5) ∧
      f.opcode = 0 ∧ f.s = false ∧ f.link = false) ∧
    (f.cls = .branch →
      f.regOperand = w.getLsbD 25 ∧ f.link = w.getLsbD 24 ∧ f.rd = 15 ∧ f.rdUsed = true ∧
      f.rn = 0 ∧ f.rnUsed = false ∧ f.rs = 0 ∧ f.rsUsed = false ∧
      (w.getLsbD 25 = false → f.imm = (w.extractLsb' 0 24).signExtend 32 ∧ f.rm = 0 ∧ f.rmUsed = false) ∧
      (w.getLsbD 25 = true → f.imm = 0 ∧ f.rm.val = regField 0 ∧ f.rmUsed = true) ∧
      f.opcode = 0 ∧ f.s = false ∧ f.shtype = .lsl ∧ f.shamt = 0 ∧ f.regshift = false ∧
      f.p = false ∧ f.u = false ∧ f.wb = false ∧ f.l = false) ∧
    (f.cls = .noop → f = { cond := f.cond, cls := .noop })

/-- Words the spec writes out (R202 to R252) decode to the instructions they stand for. -/
def Obligations.SpecWordsDecode : Prop :=
  decode 0xE2020001 = .andShImm .al false 2 0 0 .lsl 1 ∧
  decode 0xE0511001 = .subImm .al true 1 1 1 ∧
  decode 0xE3A70230 = .movShReg .al false 7 0 2 .lsr 0 ∧
  decode 0xE11000F0 = .tstImm .al true 0 0 0xF0 ∧
  decode 0xE4642004 = .ldrImm .al false false true 4 2 4 ∧
  decode 0xE7842185 = .strReg .al true true false 4 2 3 .lsl 5 ∧
  decode 0x18FFFFF8 = .b .ne 0xFFFFF8 ∧
  decode 0xE9000010 = .bl .al 0x10 ∧
  decode 0xEA00000E = .bx .al 14 ∧
  decode 0xEB000003 = .blx .al 3 ∧
  decode 0xEC000000 = .nop .al ∧
  decode 0xFFFFFFFF = .endStream

/-- R140, R147, and the byte view of R67: the four bytes of any word decode to that word's instruction and leave the rest.
The model's own choice (log 16): fewer than four bytes are refused as truncated, with their count, and `decodeTableWord` reads
the bits of a 32-bit row as the bits of the word. -/
def Obligations.BytesDecodeAsTheirWord : Prop :=
  (∀ (w : Word) (rest : List Byte),
    decodeBytes (byteOfWord w 0 :: byteOfWord w 1 :: byteOfWord w 2 :: byteOfWord w 3 :: rest) = .ok (decode w, rest)) ∧
  (∀ bs : List Byte, bs.length < 4 → decodeBytes bs = .error (.truncated bs.length)) ∧
  ∀ w : Word, decodeTableWord 32 w.toNat = some (decode w)

/-- R155 (D19, D22): the register-use set, exactly; it does not depend on the condition; an EMPTY slot uses nothing. -/
def Obligations.RegisterUseSet : Prop :=
  (∀ (i : Instr) (x : Reg), x ∈ i.uses ↔
    (i.fields.rdUsed = true ∧ x = i.fields.rd) ∨ (i.fields.rnUsed = true ∧ x = i.fields.rn) ∨
    (i.fields.rmUsed = true ∧ x = i.fields.rm) ∨ (i.fields.rsUsed = true ∧ x = i.fields.rs) ∨
    (i.fields.cls = .branch ∧ i.fields.link = true ∧ x = 14)) ∧
  slotUses none = [] ∧
  ∀ (r : Record) (b : Bool), slotUses (some { r with pass := b }) = slotUses (some r)

/-! ### Conditions, shifter, adder -/

/-- R180 (D9): the sixteen conditions by number. -/
def Obligations.ConditionTable : Prop :=
  ∀ f : Flags,
    condPass (Cond.ofCode 0) f = f.z ∧ condPass (Cond.ofCode 1) f = !f.z ∧
    condPass (Cond.ofCode 2) f = f.c ∧ condPass (Cond.ofCode 3) f = !f.c ∧
    condPass (Cond.ofCode 4) f = f.n ∧ condPass (Cond.ofCode 5) f = !f.n ∧
    condPass (Cond.ofCode 6) f = f.v ∧ condPass (Cond.ofCode 7) f = !f.v ∧
    condPass (Cond.ofCode 8) f = (f.c && !f.z) ∧ condPass (Cond.ofCode 9) f = (!f.c || f.z) ∧
    condPass (Cond.ofCode 10) f = decide (f.n = f.v) ∧ condPass (Cond.ofCode 11) f = decide (f.n ≠ f.v) ∧
    condPass (Cond.ofCode 12) f = (!f.z && decide (f.n = f.v)) ∧ condPass (Cond.ofCode 13) f = (f.z || decide (f.n ≠ f.v)) ∧
    condPass (Cond.ofCode 14) f = true ∧ condPass (Cond.ofCode 15) f = false

/-- R212, R201 (D14): what each condition says after `CMP a, b`, as unsigned and as signed numbers. -/
def Obligations.CompareConditions : Prop :=
  ∀ (a b : Word) (c : Bool) (before : Flags),
    let f := (aluCmp a b c).flags before
    (condPass .eq f = true ↔ a = b) ∧ (condPass .ne f = true ↔ a ≠ b) ∧
    (condPass .cs f = true ↔ b.toNat ≤ a.toNat) ∧ (condPass .cc f = true ↔ a.toNat < b.toNat) ∧
    (condPass .hi f = true ↔ b.toNat < a.toNat) ∧ (condPass .ls f = true ↔ a.toNat ≤ b.toNat) ∧
    (condPass .ge f = true ↔ b.toInt ≤ a.toInt) ∧ (condPass .lt f = true ↔ a.toInt < b.toInt) ∧
    (condPass .gt f = true ↔ b.toInt < a.toInt) ∧ (condPass .le f = true ↔ a.toInt ≤ b.toInt)

/-- R184 (D15): the shifter in exact arithmetic, for any amount. -/
def Obligations.ShiftArithmetic : Prop :=
  ∀ (v : Word) (n : Nat),
    shift v .lsl n = (if 32 ≤ n then 0 else BitVec.ofNat 32 (v.toNat * 2 ^ n)) ∧
    shift v .lsr n = (if 32 ≤ n then 0 else BitVec.ofNat 32 (v.toNat / 2 ^ n)) ∧
    shift v .asr n = (if 32 ≤ n then (if v.getLsbD 31 then 0xFFFFFFFF else 0) else BitVec.ofInt 32 (v.toInt.fdiv (2 ^ n))) ∧
    shift v .ror n = (if n % 32 = 0 then v
      else BitVec.ofNat 32 ((v.toNat / 2 ^ (n % 32)) ||| (v.toNat * 2 ^ (32 - n % 32)))) ∧
    ∀ t : ShiftType, shift v t 0 = v

/-- R200: the adder: the result is the sum modulo 2^32, carry and overflow are the truncation mismatches, which are: the
unsigned sum needs a 33rd bit; the signed sum is outside 32 bits; zero and negative are those of the truncated result. -/
def Obligations.AdderExact : Prop :=
  ∀ (p q : Word) (cin : Bool),
    let usum : Nat := p.toNat + q.toNat + cin.toNat
    let ssum : Int := p.toInt + q.toInt + cin.toNat
    let result := (addWithCarry p q cin).value
    result.toNat = usum % 2 ^ 32 ∧
    (addWithCarry p q cin).adder = some (decide (result.toNat ≠ usum), decide (result.toInt ≠ ssum)) ∧
    (result.toNat ≠ usum ↔ 2 ^ 32 ≤ usum) ∧
    (result.toInt ≠ ssum ↔ ssum < -2 ^ 31 ∨ 2 ^ 31 ≤ ssum) ∧
    ∀ f : Flags, (addWithCarry p q cin).flags f =
      { n := result.getLsbD 31, z := decide (result = 0), c := decide (result.toNat ≠ usum), v := decide (result.toInt ≠ ssum) }

/-! ### ALU instructions -/

/-- R201, R204 to R209, R212, R213, with the operand of R187: the 24 arithmetic rows in the execute stage, in exact
arithmetic; nothing else changes. -/
def Obligations.ArithmeticExecutes : Prop :=
  ∀ (op : AluOp) (cond : Cond) (sf : Bool) (rd rn : Reg) (o2 : Operand2) (s : State) (r : Record),
    op.isLogical = false → s.phase = .execute → s.slotE = some r → condPass cond s.flags = true →
    exec (Instr.alu op cond sf rd rn o2) s = .next { s with
      slotE := some { r with
        pass := true
        result := BitVec.ofInt 32 (op.exact r.vRn.toNat (o2.value r).toNat s.flags.c.toNat) }
      flags := if sf then op.exactFlags r.vRn (o2.value r) s.flags.c else s.flags }

/-- R201, R202, R203, R210, R211, R214 to R217, with the operand of R187: the 24 rows of the logical and move group in the
execute stage; C and V stay; nothing else changes. -/
def Obligations.LogicalExecutes : Prop :=
  ∀ (op : AluOp) (cond : Cond) (sf : Bool) (rd rn : Reg) (o2 : Operand2) (s : State) (r : Record),
    op.isLogical = true → s.phase = .execute → s.slotE = some r → condPass cond s.flags = true →
    exec (Instr.alu op cond sf rd rn o2) s = .next { s with
      slotE := some { r with pass := true, result := op.logicalResult r.vRn (o2.value r) }
      flags :=
        if sf then
          { n := (op.logicalResult r.vRn (o2.value r)).getLsbD 31
            z := decide (op.logicalResult r.vRn (o2.value r) = 0)
            c := s.flags.c
            v := s.flags.v }
        else s.flags }

/-- R201 and R272, every ALU row in the writeback stage: the result goes to `rd` (15 like any other, R218), unless the
opcode is 8 to 11, which write nothing. -/
def Obligations.AluWritesBack : Prop :=
  ∀ (op : AluOp) (cond : Cond) (sf : Bool) (rd rn : Reg) (o2 : Operand2) (s : State) (r : Record),
    s.phase = .writeback → s.slotW = some r → r.pass = true →
    exec (Instr.alu op cond sf rd rn o2) s =
      .next (if op.isCompare then s else { s with regs := s.regs.set rd r.result })

/-- R219 (D13): a compare with `S` = 0 computes its result and writes no flag and no register; its sources still count in the
hazard check. -/
def Obligations.CompareWithoutStatusIsInert : Prop :=
  ∀ (op : AluOp) (cond : Cond) (rd rn : Reg) (o2 : Operand2),
    op.isCompare = true →
    (∀ (s : State) (r : Record), s.phase = .execute → s.slotE = some r → condPass cond s.flags = true →
      ∃ v, exec (Instr.alu op cond false rd rn o2) s = .next { s with slotE := some { r with pass := true, result := v } }) ∧
    (∀ s : State, s.phase = .writeback → exec (Instr.alu op cond false rd rn o2) s = .next s) ∧
    (Instr.alu op cond false rd rn o2).uses =
      (match o2 with
        | .imm _ => [rn]
        | .shImm _ _ rm => [rn, rm]
        | .shReg rs _ rm => [rn, rm, rs])

/-! ### Loads and stores -/

/-- R230 and R188: address and write-back value of the four Memory rows in the execute stage: the offset is added or
subtracted; the access is at the new value (`P` = 1) or at the base (`P` = 0); nothing else changes. -/
def Obligations.MemoryAddressing : Prop :=
  ∀ (cond : Cond) (p u wb : Bool) (rd rn : Reg) (imm12 : BitVec 12) (shamt : BitVec 5) (t : ShiftType) (rm : Reg)
    (s : State) (r : Record),
    s.phase = .execute → s.slotE = some r → condPass cond s.flags = true →
    let after (off : Word) : State :=
      let moved := if u then r.vRn + off else r.vRn - off
      { s with slotE := some { r with pass := true, wbval := moved, addr := if p then moved else r.vRn } }
    exec (.ldrImm cond p u wb rd rn imm12) s = .next (after (imm12.signExtend 32)) ∧
    exec (.strImm cond p u wb rd rn imm12) s = .next (after (imm12.signExtend 32)) ∧
    exec (.ldrReg cond p u wb rd rn shamt t rm) s = .next (after (shift r.vRm t shamt.toNat)) ∧
    exec (.strReg cond p u wb rd rn shamt t rm) s = .next (after (shift r.vRm t shamt.toNat))

/-- R66 (D31, D41): a misaligned read gives 0 and a misaligned write writes nothing, at once, with one diagnostic, and no level is
touched; so do a load, a store and a fetch. -/
def Obligations.MisalignedAccess : Prop :=
  (∀ (s : State) (useCache : Bool) (a v : Word), a.toNat % 4 ≠ 0 →
    s.memRead useCache a = (.done 0, { s with diags := s.diags ++ [{ kind := .misalignedRead, addr := a }] }) ∧
    s.memWrite useCache a v = (.done (), { s with diags := s.diags ++ [{ kind := .misalignedWrite, addr := a }] })) ∧
  (∀ (i : Instr) (s : State) (r : Record), i.fields.cls = .memory → s.phase = .memory → s.slotM = some r →
    r.pass = true → r.addr.toNat % 4 ≠ 0 →
    (i.fields.l = true → exec i s = .next { s with
      slotM := some { r with loaded := 0 }, diags := s.diags ++ [{ kind := .misalignedRead, addr := r.addr }] }) ∧
    (i.fields.l = false → exec i s = .next { s with
      diags := s.diags ++ [{ kind := .misalignedWrite, addr := r.addr }] })) ∧
  ∀ s : State, s.input.inject = none → s.pc.toNat % 4 ≠ 0 →
    s.fetch = { s with
      slotF := some { raw := 0, pc := s.pc }
      regs := s.regs.set 15 (s.pc + 4)
      diags := s.diags ++ [{ kind := .misalignedRead, addr := s.pc }] }

/-- R64, R71, R120, R231: a load that reaches the terminal level directly (caches bypassed, or none): one more wait while
the timer of its word is below the latency, else the word of the store. -/
def Obligations.LoadFromTerminalLevel : Prop :=
  ∀ (i : Instr) (s : State) (r : Record),
    i.fields.cls = .memory → i.fields.l = true → s.phase = .memory → s.slotM = some r → r.pass = true →
    r.addr.toNat % 4 = 0 → (s.input.useCache = false ∨ s.chain.caches = []) →
    let wa := r.addr.toNat / 4
    let timer (t : Nat) : Hierarchy :=
      { s.mem with backing := { s.mem.backing with timer := setTimer s.mem.backing.timer wa t } }
    (timerAt s.mem.backing.timer wa < s.chain.backing.latency →
      exec i s = .next { s with mem := timer (timerAt s.mem.backing.timer wa + 1), mwait := true }) ∧
    (s.chain.backing.latency ≤ timerAt s.mem.backing.timer wa →
      exec i s = .next { s with mem := timer 0, slotM := some { r with loaded := readWord s.mem.backing.cells wa } })

/-- R65, R71, R120, R232: a store that reaches the terminal level directly: one more wait while the timer of its word is
below the latency, else the word of the store is the snapshot of `rd`. -/
def Obligations.StoreToTerminalLevel : Prop :=
  ∀ (i : Instr) (s : State) (r : Record),
    i.fields.cls = .memory → i.fields.l = false → s.phase = .memory → s.slotM = some r → r.pass = true →
    r.addr.toNat % 4 = 0 → (s.input.useCache = false ∨ s.chain.caches = []) →
    let wa := r.addr.toNat / 4
    let timer (t : Nat) : List (Nat × Nat) := setTimer s.mem.backing.timer wa t
    (timerAt s.mem.backing.timer wa < s.chain.backing.latency →
      exec i s = .next { s with
        mem := { s.mem with backing := { s.mem.backing with timer := timer (timerAt s.mem.backing.timer wa + 1) } }
        mwait := true }) ∧
    (s.chain.backing.latency ≤ timerAt s.mem.backing.timer wa →
      exec i s = .next { s with
        mem := { s.mem with backing := { timer := timer 0, cells := writeWord s.mem.backing.cells wa r.vRd } } })

/-- R69, R72, R231: an aligned load through any chain: it waits, or its record gets the word that a read returns; either way
no byte of memory as reads return it changes, the caches stay coherent, and the rest of the state is as before. -/
def Obligations.LoadThroughHierarchy : Prop :=
  ∀ (i : Instr) (s t : State) (r : Record),
    i.fields.cls = .memory → i.fields.l = true → s.phase = .memory → s.slotM = some r → r.pass = true →
    r.addr.toNat % 4 = 0 → (s.input.useCache = true → s.memoryCoherent = true) → exec i s = .next t →
    ((t.mwait = true ∧ t.slotM = s.slotM) ∨
      (t.mwait = s.mwait ∧ t.slotM = some { r with loaded := s.wordAt s.input.useCache (flatAddr r.addr) })) ∧
    (∀ a : Word, t.byteAt a = s.byteAt a) ∧ (s.input.useCache = true → t.memoryCoherent = true) ∧
    t = { s with mem := t.mem, slotM := t.slotM, mwait := t.mwait }

/-- R68, R72, R232: an aligned store through any chain: it waits and no byte of memory as reads return it changes, or it
completes, the word at its address is the snapshot of `rd`, and every byte outside that word is as before; the caches stay
coherent, and the rest of the state is as before. -/
def Obligations.StoreThroughHierarchy : Prop :=
  ∀ (i : Instr) (s t : State) (r : Record),
    i.fields.cls = .memory → i.fields.l = false → s.phase = .memory → s.slotM = some r → r.pass = true →
    r.addr.toNat % 4 = 0 → (s.input.useCache = true → s.memoryCoherent = true) → exec i s = .next t →
    ((t.mwait = true ∧ ∀ a : Word, t.byteAt a = s.byteAt a) ∨
      (t.mwait = s.mwait ∧ t.wordAt s.input.useCache (flatAddr r.addr) = r.vRd ∧
        ∀ a : Word, (a.toNat < r.addr.toNat ∨ r.addr.toNat + 4 ≤ a.toNat) → t.byteAt a = s.byteAt a)) ∧
    (s.input.useCache = true → t.memoryCoherent = true) ∧
    t = { s with mem := t.mem, mwait := t.mwait }

/-- R231, R232, R272: the Memory rows in the writeback stage: the base first, if `Wb` = 1; then a load's destination, which
wins when both are one register; nothing else changes. -/
def Obligations.MemoryWritesBack : Prop :=
  ∀ (cond : Cond) (p u wb : Bool) (rd rn : Reg) (imm12 : BitVec 12) (shamt : BitVec 5) (t : ShiftType) (rm : Reg)
    (s : State) (r : Record),
    s.phase = .writeback → s.slotW = some r → r.pass = true →
    let base := if wb then s.regs.set rn r.wbval else s.regs
    exec (.ldrImm cond p u wb rd rn imm12) s = .next { s with regs := base.set rd r.loaded } ∧
    exec (.ldrReg cond p u wb rd rn shamt t rm) s = .next { s with regs := base.set rd r.loaded } ∧
    exec (.strImm cond p u wb rd rn imm12) s = .next { s with regs := base } ∧
    exec (.strReg cond p u wb rd rn shamt t rm) s = .next { s with regs := base }

/-! ### Branches, No-op, sentinel -/

/-- R240 to R244: a taken branch in the execute stage: the program counter becomes the target, the link value is taken, F and
D become EMPTY; nothing else changes. -/
def Obligations.BranchTakenExecutes : Prop :=
  ∀ (cond : Cond) (imm24 : BitVec 24) (rm : Reg) (s : State) (r : Record),
    s.phase = .execute → s.slotE = some r → condPass cond s.flags = true →
    let after (target : Word) : State :=
      { s with
        slotE := some { r with pass := true, result := r.pc + 4 }
        regs := s.regs.set 15 target
        slotF := none
        slotD := none }
    exec (.b cond imm24) s = .next (after (r.pc + imm24.signExtend 32)) ∧
    exec (.bl cond imm24) s = .next (after (r.pc + imm24.signExtend 32)) ∧
    exec (.bx cond rm) s = .next (after r.vRm) ∧
    exec (.blx cond rm) s = .next (after r.vRm)

/-- R242, R244, R247: in the writeback stage BL and BLX write the link register and nothing else, B and BX nothing; none
writes register 15, whose number counts in the hazard set only. -/
def Obligations.BranchWritesBack : Prop :=
  (∀ (cond : Cond) (imm24 : BitVec 24) (rm : Reg) (s : State) (r : Record),
    s.phase = .writeback → s.slotW = some r → r.pass = true →
    exec (.b cond imm24) s = .next s ∧ exec (.bx cond rm) s = .next s ∧
    exec (.bl cond imm24) s = .next { s with regs := s.regs.set 14 r.result } ∧
    exec (.blx cond rm) s = .next { s with regs := s.regs.set 14 r.result }) ∧
  (∀ (i : Instr) (s t : State), i.fields.cls = .branch → s.phase = .writeback → exec i s = .next t → t.reg 15 = s.reg 15) ∧
  ∀ i : Instr, i.fields.cls = .branch → (15 : Reg) ∈ i.uses

/-- R250: NOP is any word of class 3 but the sentinel; it uses no register and has no effect in any stage but to be marked:
its condition is evaluated, and it is never held. -/
def Obligations.NopHasNoEffect : Prop :=
  (∀ w : Word, w.extractLsb' 26 2 = 3 → w ≠ 0xFFFFFFFF → ∃ cond, decode w = .nop cond) ∧
  ∀ (cond : Cond) (s : State),
    (Instr.nop cond).uses = [] ∧
    (s.phase = .memory ∨ s.phase = .sentinel ∨ s.phase = .writeback → exec (.nop cond) s = .next s) ∧
    (∀ r, s.phase = .execute → s.slotE = some r →
      exec (.nop cond) s = .next { s with slotE := some { r with pass := condPass cond s.flags } }) ∧
    (∀ r, s.phase = .decode → s.slotD = some r →
      ∃ r', exec (.nop cond) s = .next { s with slotD := some r' } ∧ r'.decoded = true ∧ r'.raw = r.raw ∧ r'.pc = r.pc)

/-- R252: END in the sentinel check halts the core and empties F and D; in the memory and writeback stages it does nothing,
and its condition never passes. -/
def Obligations.EndHaltsInSentinelCheck : Prop :=
  ∀ (s : State) (r : Record),
    (s.phase = .sentinel → s.slotD = some r →
      exec .endStream s = .next { s with halted := true, slotF := none, slotD := none }) ∧
    (s.phase = .memory ∨ s.phase = .writeback → exec .endStream s = .next s) ∧
    (s.phase = .execute → s.slotE = some r → exec .endStream s = .next { s with slotE := some { r with pass := false } })

/-! ### Every instruction -/

/-- R266: the decode stage: held exactly when it shares a register with a record in E, M or W; otherwise marked decoded with
the four snapshots taken. -/
def Obligations.DecodeStageHoldsOrSnapshots : Prop :=
  ∀ (i : Instr) (s : State) (r : Record), s.phase = .decode → s.slotD = some r →
    ((∃ x ∈ i.uses, x ∈ slotUses s.slotE ∨ x ∈ slotUses s.slotM ∨ x ∈ slotUses s.slotW) →
      exec i s = .next { s with slotD := some { r with decoded := false } }) ∧
    ((∀ x ∈ i.uses, x ∉ slotUses s.slotE ∧ x ∉ slotUses s.slotM ∧ x ∉ slotUses s.slotW) →
      exec i s = .next { s with slotD := some { r with
        decoded := true
        vRd := s.reg i.fields.rd
        vRn := s.reg i.fields.rn
        vRm := s.reg i.fields.rm
        vRs := s.reg i.fields.rs } })

/-- R181, R182: an instruction whose condition fails changes nothing but its own mark in E, and nothing at all in M and W;
condition 15 always fails. -/
def Obligations.FailedConditionDoesNothing : Prop :=
  ∀ (i : Instr) (s : State) (r : Record),
    (s.phase = .execute → s.slotE = some r → condPass i.fields.cond s.flags = false →
      exec i s = .next { s with slotE := some { r with pass := false } }) ∧
    (s.phase = .memory → s.slotM = some r → r.pass = false → exec i s = .next s) ∧
    (s.phase = .writeback → s.slotW = some r → r.pass = false → exec i s = .next s) ∧
    condPass .nv s.flags = false

/-- R63, R264: only a load or store acts in the memory stage; only there does memory change or a diagnostic arise. -/
def Obligations.OnlyMemoryClassTouchesMemory : Prop :=
  ∀ (i : Instr) (s t : State), exec i s = .next t →
    (s.phase = .memory → i.fields.cls ≠ .memory → t = s) ∧
    (s.phase ≠ .memory → (∀ a : Word, t.byteAt a = s.byteAt a) ∧ t.mem = s.mem ∧ t.diags = s.diags)

/-- R23, R240, R272: the registers an instruction can change: in the writeback stage its destination, its base if `Wb` = 1,
register 14 if it links; in the execute stage register 15, by a branch; no other register in any stage. -/
def Obligations.RegisterFrame : Prop :=
  ∀ (i : Instr) (s t : State), exec i s = .next t → ∀ x : Reg, t.reg x ≠ s.reg x →
    (s.phase = .writeback ∧
      ((i.fields.cls = .alu ∧ i.fields.rdUsed = true ∧ x = i.fields.rd) ∨
        (i.fields.cls = .memory ∧ i.fields.l = true ∧ x = i.fields.rd) ∨
        (i.fields.cls = .memory ∧ i.fields.wb = true ∧ x = i.fields.rn) ∨
        (i.fields.cls = .branch ∧ i.fields.link = true ∧ x = 14))) ∨
    (s.phase = .execute ∧ i.fields.cls = .branch ∧ x = 15)

/-- R28, R201: an instruction changes a flag only in the execute stage, only if it is of the ALU class with `S` = 1 and its
condition passes; C and V only if it is of the arithmetic group. No instruction changes the cycle counter, and only END
changes the halted latch. -/
def Obligations.FlagFrame : Prop :=
  ∀ (i : Instr) (s t : State), exec i s = .next t →
    (t.flags ≠ s.flags →
      s.phase = .execute ∧ i.fields.cls = .alu ∧ i.fields.s = true ∧ condPass i.fields.cond s.flags = true) ∧
    (t.flags.c ≠ s.flags.c ∨ t.flags.v ≠ s.flags.v → (AluOp.ofCode i.fields.opcode.toNat).isLogical = false) ∧
    t.cycle = s.cycle ∧ (t.halted ≠ s.halted → i = .endStream ∧ s.phase = .sentinel)

/-! ### One step -/

/-- R300, R301, R303: nothing stops the core: every step of every state answers a next state. R277 (D30): the cycle counter is
then one more than before, whatever happened in the step. -/
def Obligations.StepAlwaysAnswersNext : Prop := ∀ s : State, ∃ t, step s = .next t ∧ t.cycle = s.cycle + 1

/-- R262: a step is `exec` of the instructions that the words in the slots decode to, phase by phase, then the advance and
the end of the cycle; an EMPTY slot is passed over; phases 1 to 2b are passed over when the memory stage waits. -/
def Obligations.StepRunsDecodedInstructions : Prop :=
  (∀ s : State, step s =
    andThen (runPhase .memory { s with mwait := false }) fun s0 =>
    andThen (if s0.mwait then .next s0
      else andThen (runPhase .decode s0) fun s1 => andThen (runPhase .execute s1) (runPhase .sentinel)) fun s1 =>
    andThen (runPhase .writeback s1) fun s2 => .next s2.advance.endCycle) ∧
  (∀ (s : State) (r : Record), s.slotM = some r → runPhase .memory s = exec (decode r.raw) { s with phase := .memory }) ∧
  (∀ (s : State) (r : Record), s.slotD = some r → runPhase .decode s = exec (decode r.raw) { s with phase := .decode }) ∧
  (∀ (s : State) (r : Record), s.slotE = some r → runPhase .execute s = exec (decode r.raw) { s with phase := .execute }) ∧
  (∀ (s : State) (r : Record), s.slotD = some r → runPhase .sentinel s = exec (decode r.raw) { s with phase := .sentinel }) ∧
  (∀ (s : State) (r : Record), s.slotW = some r → runPhase .writeback s = exec (decode r.raw) { s with phase := .writeback }) ∧
  ∀ (s : State) (p : Phase), s.slot p = none → runPhase p s = .next { s with phase := p }

/-- R275, R280, R25: fetch: an injected word, or the word a read at `x[15]` answers, becomes a record with the address it
was fetched from, and `x[15]` advances by 4 modulo 2^32; a read that waits leaves F and `x[15]` as they are. -/
def Obligations.FetchCreatesRecord : Prop :=
  ∀ s : State,
    (∀ w, s.input.inject = some w →
      s.fetch = { s with slotF := some { raw := w, pc := s.reg 15 }, regs := s.regs.set 15 (s.reg 15 + 4) }) ∧
    (s.input.inject = none →
      (∀ u, s.memRead s.input.useCache (s.reg 15) = (.waiting, u) → s.fetch = u ∧ u.slotF = s.slotF ∧ u.regs = s.regs) ∧
      (∀ u w, s.memRead s.input.useCache (s.reg 15) = (.done w, u) →
        s.fetch = { u with slotF := some { raw := w, pc := s.reg 15 }, regs := s.regs.set 15 (s.reg 15 + 4) }))

/-- R72, R77: the word an aligned, uninjected fetch puts in F is the word a read returns at that moment. -/
def Obligations.FetchReadsMemory : Prop :=
  ∀ (s : State) (r : Record), s.slotF = none → s.input.inject = none → s.pc.toNat % 4 = 0 →
    (s.input.useCache = true → s.memoryCoherent = true) → s.fetch.slotF = some r →
    r.raw = s.wordAt s.input.useCache (flatAddr s.pc) ∧ r.pc = s.pc ∧ s.fetch.pc = s.pc + 4

/-- R276 (D25): the three cases of the advance; R279 (D27): in the third a fetch is made exactly if the core is not halted
and the step is pipelined or D, E, M and W are EMPTY after the shift, that is F, D, E and M before it. -/
def Obligations.AdvanceCases : Prop :=
  ∀ s : State,
    (s.mwait = true → s.advance = { s with slotW := none }) ∧
    (∀ r, s.mwait = false → s.slotD = some r → r.decoded = false →
      s.advance = { s with slotW := s.slotM, slotM := s.slotE, slotE := none }) ∧
    (s.mwait = false → (∀ r, s.slotD = some r → r.decoded = true) →
      let shifted : State := { s with slotW := s.slotM, slotM := s.slotE, slotE := s.slotD, slotD := s.slotF, slotF := none }
      let fetches : Prop := s.halted = false ∧
        (s.input.usePipeline = true ∨ (s.slotF = none ∧ s.slotD = none ∧ s.slotE = none ∧ s.slotM = none))
      (fetches → s.advance = shifted.fetch) ∧ (¬ fetches → s.advance = shifted))

/-- R28: a step changes the flags only through the record in E: an ALU instruction with `S` = 1 whose condition passes, in a
step whose memory stage does not wait. -/
def Obligations.StepWritesFlagsOnlyInExecute : Prop :=
  ∀ s t : State, step s = .next t → t.flags ≠ s.flags →
    s.memoryWaits = false ∧ ∃ r, s.slotE = some r ∧ r.instr.fields.cls = .alu ∧ r.instr.fields.s = true ∧
      condPass r.instr.fields.cond s.flags = true

/-- R23, R272: a step changes `x[0]` to `x[14]` only through the record in W, if its condition passed: the destination of an
ALU instruction or a load, a base with write-back, the link register; and to the value that record carries. -/
def Obligations.StepWritesRegistersOnlyInWriteback : Prop :=
  ∀ s t : State, step s = .next t → ∀ x : Reg, x ≠ 15 → t.reg x ≠ s.reg x →
    ∃ r, s.slotW = some r ∧ r.pass = true ∧
      ((r.instr.fields.cls = .alu ∧ r.instr.fields.rdUsed = true ∧ x = r.instr.fields.rd ∧ t.reg x = r.result) ∨
        (r.instr.fields.cls = .memory ∧ r.instr.fields.l = true ∧ x = r.instr.fields.rd ∧ t.reg x = r.loaded) ∨
        (r.instr.fields.cls = .memory ∧ r.instr.fields.wb = true ∧ x = r.instr.fields.rn ∧ t.reg x = r.wbval) ∨
        (r.instr.fields.cls = .branch ∧ r.instr.fields.link = true ∧ x = 14 ∧ t.reg x = r.result))

/-- R24: the program counter after a step is what it was, or a taken branch's target, or the value the record in W writes to
register 15; plus 4 exactly if a fetch completed, which then left its record in F, where else nothing new is. -/
def Obligations.ProgramCounterWriters : Prop :=
  ∀ s t : State, step s = .next t →
    ∃ q : Word,
      (q = s.pc ∨
        (∃ r, s.slotE = some r ∧ r.instr.fields.cls = .branch ∧ condPass r.instr.fields.cond s.flags = true ∧
          q = if r.instr.fields.regOperand then r.vRm else r.pc + r.instr.fields.imm) ∨
        (∃ r, s.slotW = some r ∧ r.pass = true ∧
          ((r.instr.fields.cls = .alu ∧ r.instr.fields.rdUsed = true ∧ r.instr.fields.rd = 15 ∧ q = r.result) ∨
            (r.instr.fields.cls = .memory ∧ r.instr.fields.l = true ∧ r.instr.fields.rd = 15 ∧ q = r.loaded) ∨
            (r.instr.fields.cls = .memory ∧ r.instr.fields.wb = true ∧ r.instr.fields.rn = 15 ∧ q = r.wbval)))) ∧
      ((t.pc = q ∧ (t.slotF = none ∨ t.slotF = s.slotF)) ∨ (t.pc = q + 4 ∧ ∃ w, t.slotF = some { raw := w, pc := q }))

/-- R31, R252 (D26): after a step the halted latch is set exactly if it was set, or the sentinel was in slot D in a step whose
memory stage did not wait and in which no branch was taken; no step clears it; while it is set nothing is fetched. -/
def Obligations.HaltedLatch : Prop :=
  ∀ s t : State, step s = .next t →
    (t.halted = true ↔ s.halted = true ∨ (s.sentinelInD = true ∧ s.memoryWaits = false ∧ s.branchTaken = false)) ∧
    (s.halted = true → t.slotF = none ∨ t.slotF = s.slotF)

/-- R252 (D26): the sentinel in D, when the memory stage does not wait and no branch is taken, halts the core and leaves F, D and
E EMPTY, nothing being fetched; the older records in E and M go on to M and W. -/
def Obligations.SentinelHaltsCore : Prop :=
  ∀ s t : State, s.sentinelInD = true → s.memoryWaits = false → s.branchTaken = false → step s = .next t →
    t.halted = true ∧ t.slotF = none ∧ t.slotD = none ∧ t.slotE = none ∧
    t.slotM.map Record.raw = s.slotE.map Record.raw ∧ t.slotW.map Record.raw = s.slotM.map Record.raw

/-- R245, R253, R269: a taken branch discards the records in F and D, a sentinel among them: neither reaches E, the halted
latch stays, and F is left EMPTY or with a word fetched in this step. -/
def Obligations.TakenBranchFlushes : Prop :=
  ∀ s t : State, s.branchTaken = true → s.memoryWaits = false → step s = .next t →
    t.halted = s.halted ∧ t.slotD = none ∧ t.slotE = none ∧
    (t.slotF = none ∨ ∃ w, t.slotF = some { raw := w, pc := t.pc - 4 })

/-- R38, R301, R306: the diagnostic stream only grows; in one step by at most one event of the data access in M, at its
address, and then at most one of the fetch, at the address it fetched from (R26): a misaligned fetch completes with the word 0,
which is then in F. Both are of the misaligned kinds. -/
def Obligations.DiagnosticsOnlyGrow : Prop :=
  ∀ s t : State, step s = .next t →
    ∃ data fetched : List Diagnostic, t.diags = s.diags ++ data ++ fetched ∧
      (data = [] ∨ ∃ r kind, s.slotM = some r ∧ r.addr.toNat % 4 ≠ 0 ∧ (kind = .misalignedRead ∨ kind = .misalignedWrite) ∧
        data = [{ kind := kind, addr := r.addr }]) ∧
      (fetched = [] ∨ ((t.pc - 4).toNat % 4 ≠ 0 ∧ t.slotF = some { raw := 0, pc := t.pc - 4 } ∧
        fetched = [{ kind := .misalignedRead, addr := t.pc - 4 }]))

/-- R265 (D24): in a step whose memory poll waits, F, D, E and M stay, nothing is executed, fetched or halted, and the record in W
commits and leaves. -/
def Obligations.MemoryWaitHoldsPipeline : Prop :=
  ∀ s t : State, s.memoryWaits = true → step s = .next t →
    t.slotF = s.slotF ∧ t.slotD = s.slotD ∧ t.slotE = s.slotE ∧ t.slotM = s.slotM ∧ t.slotW = none ∧
    t.flags = s.flags ∧ t.halted = s.halted ∧ t.diags = s.diags ∧
    (s.slotW = none → t.regs = s.regs) ∧
    ∀ r u, s.slotW = some r → exec r.instr { s with phase := .writeback } = .next u → t.regs = u.regs

/-- R266, R276: in a step whose memory stage does not wait and in which no branch is taken, the record in D (not the
sentinel) either shares a register with E, M or W and is held, F with it and E made EMPTY, or moves to E with the registers
as they stood before the step. -/
def Obligations.InterlockHoldsOrAdvances : Prop :=
  ∀ (s t : State) (r : Record), s.slotD = some r → s.memoryWaits = false → s.branchTaken = false → s.sentinelInD = false →
    step s = .next t →
    ((∃ x ∈ r.instr.uses, x ∈ slotUses s.slotE ∨ x ∈ slotUses s.slotM ∨ x ∈ slotUses s.slotW) →
      t.slotF = s.slotF ∧ t.slotD = some { r with decoded := false } ∧ t.slotE = none) ∧
    ((∀ x ∈ r.instr.uses, x ∉ slotUses s.slotE ∧ x ∉ slotUses s.slotM ∧ x ∉ slotUses s.slotW) →
      t.slotD = s.slotF ∧ t.slotE = some { r with
        decoded := true
        vRd := s.reg r.instr.fields.rd
        vRn := s.reg r.instr.fields.rn
        vRm := s.reg r.instr.fields.rm
        vRs := s.reg r.instr.fields.rs })

/-- R254 (D26): once the core has drained, a step changes the cycle counter (and uses up the host's input) and nothing else. -/
def Obligations.DrainedCoreIdles : Prop :=
  ∀ s : State, s.stillRunning = false → s.betweenSteps = true →
    step s = .next { s with cycle := s.cycle + 1, inputs := s.inputs.tail }

/-- R278 (D26): the result of a step is false exactly when the core is halted and all five slots are EMPTY. -/
def Obligations.StillRunningResult : Prop :=
  ∀ s : State, s.stillRunning = false ↔ s.halted = true ∧ s.slotF = none ∧ s.slotD = none ∧ s.slotE = none ∧
    s.slotM = none ∧ s.slotW = none

/-- The model's own way to place an instruction (log 6) is true to R275, R261 and R262. A word placed for the next fetch is
fetched by the very next step, into F, with the program counter, its low two bits cleared, as its address, and nothing is
executed in that step. Three steps later (two for the sentinel) the core is in the state that `withFetchWord` gives, but for the
cycle counter. And the very next step after `withFetchWord` runs the placed word: `exec` of its instruction in the execute
stage, its record then in M; the sentinel halts the core, which has then drained. -/
def Obligations.PlacedWordIsFetchedAndRuns : Prop :=
  ∀ (s : State) (w : Word),
    let placed := s.withFetchWord 32 w.toNat
    (∃ t, step (s.placeFetchWord w) = .next t ∧
      t.slotF = some { raw := w, pc := BitVec.ofNat 32 (s.pc.toNat / 4 * 4) } ∧ t.slotD = none ∧ t.slotE = none ∧
      t.slotM = none ∧ t.slotW = none ∧ t.flags = s.flags ∧ t.pc = BitVec.ofNat 32 (s.pc.toNat / 4 * 4) + 4 ∧
      ∀ x : Reg, x ≠ 15 → t.reg x = s.reg x) ∧
    (s.betweenSteps = true →
      Host.Core.run Sys2Proof.core (if w = sentinelWord then 2 else 3) (s.placeFetchWord w) =
        .next { placed with cycle := s.cycle + if w = sentinelWord then 2 else 3 }) ∧
    (w ≠ sentinelWord → ∃ t u, step placed = .next t ∧
      exec (decode w) { placed with phase := .execute, mwait := false } = .next u ∧
      t.slotM = u.slotE ∧ t.flags = u.flags ∧ (∀ x : Reg, x ≠ 15 → t.reg x = u.reg x) ∧
      (t.pc = u.pc ∨ (t.pc = u.pc + 4 ∧ t.slotF ≠ none))) ∧
    (w = sentinelWord → ∃ t, step placed = .next t ∧ t.halted = true ∧ t.stillRunning = false)

/-! ### Invariants -/

/-- R31, R252, R266, R267, R281: a legal pipeline stays legal: no two of the records in E, M and W use a common register,
each of them has been marked decoded, a halted core has nothing in F and D, and the model's own marks are put back. -/
def Obligations.StepKeepsPipelineLegal : Prop :=
  ∀ s t : State, s.pipelineOk = true → step s = .next t → t.pipelineOk = true

/-- R42, R43 (D5): at reset the pipeline is legal, the memory is in canonical form and the caches are coherent. -/
def Obligations.ResetStateLegal : Prop :=
  State.reset.pipelineOk = true ∧ State.reset.memoryCanonical = true ∧ State.reset.memoryCoherent = true

/-- The canonical form of the store and of the timers (log 1) is kept by every step, whatever the state of the caches. -/
def Obligations.StepKeepsMemoryCanonical : Prop :=
  ∀ s t : State, s.memoryCanonical = true → step s = .next t → t.memoryCanonical = true

/-- R101, R104, R113, R114: the caches stay legal and coherent in every step that goes through them (or when there are none):
no tag and no age twice among the occupied lines of a set, and a clean line holds what lies below it. -/
def Obligations.StepKeepsMemoryCoherent : Prop :=
  ∀ s t : State, (s.input.useCache = true ∨ s.chain.caches = []) → s.memoryCoherent = true → step s = .next t →
    t.memoryCoherent = true

/-- R44, R93: every launch state, with any chain, registers, flags and store that the host chooses, is legal. -/
def Obligations.LaunchStatesLegal : Prop :=
  ∀ (c : Config) (regs : Vector Word 16) (flags : Flags) (cells : List Host.Cell), Memory.wf cells = true →
    (State.launchWith c regs flags cells).pipelineOk = true ∧ (State.launchWith c regs flags cells).memoryCanonical = true ∧
    (State.launchWith c regs flags cells).memoryCoherent = true

/-- R69, R72, R73: in one step the word that a read returns changes at no address, except that an aligned store in M whose
condition passed may replace the word at its own address by its snapshot. -/
def Obligations.StepChangesOnlyStoredWord : Prop :=
  ∀ s t : State, (s.input.useCache = true → s.memoryCoherent = true) → step s = .next t →
    ∀ a < 2 ^ 30, t.wordAt s.input.useCache a = s.wordAt s.input.useCache a ∨
      ∃ r, s.slotM = some r ∧ r.pass = true ∧ r.instr.fields.cls = .memory ∧ r.instr.fields.l = false ∧
        r.addr.toNat % 4 = 0 ∧ a = r.addr.toNat / 4 ∧ t.wordAt s.input.useCache a = r.vRd

/-! ### The memory chain -/

/-- R92, R95: on a valid cache geometry the widths add up to 32, and the codec is a bijection between the 32-bit addresses
and the fields within their widths; the base of an address is the address of word 0 of its line. -/
def Obligations.AddressCodecRoundTrip : Prop :=
  ∀ g : Geometry, g.cacheOk = true →
    g.indexBits + g.offsetBits + g.tagBits = 32 ∧
    (∀ t i o, t < 2 ^ g.tagBits → i < 2 ^ g.indexBits → o < 2 ^ g.offsetBits →
      g.encode t i o < 2 ^ 32 ∧ g.tag (g.encode t i o) = t ∧ g.index (g.encode t i o) = i ∧ g.offset (g.encode t i o) = o) ∧
    (∀ a < 2 ^ 32, g.tag a < 2 ^ g.tagBits ∧ g.index a < 2 ^ g.indexBits ∧ g.offset a < 2 ^ g.offsetBits ∧
      g.encode (g.tag a) (g.index a) (g.offset a) = a ∧
      g.base a = g.encode (g.tag a) (g.index a) 0 ∧ g.offset (g.base a) = 0)

/-- R103 (D33), R104: the victim: the lowest empty way if there is one, else the lowest way among those of the greatest age. -/
def Obligations.VictimChoice : Prop :=
  ∀ lines : List Line, lines ≠ [] →
    findLRU lines < lines.length ∧
    ((∃ l ∈ lines, l.occupied = false) →
      (lineAt lines (findLRU lines)).occupied = false ∧ ∀ w < findLRU lines, (lineAt lines w).occupied = true) ∧
    ((∀ l ∈ lines, l.occupied = true) →
      (∀ w < lines.length, (lineAt lines w).age ≤ (lineAt lines (findLRU lines)).age) ∧
      ∀ w < findLRU lines, (lineAt lines w).age < (lineAt lines (findLRU lines)).age)

/-- R120, R122: polled alone from a timer of 0, a terminal level of latency `T`, and a cache of latency `T` that holds the
line, wait `T` times and answer at the next poll, which puts the timer back to 0. -/
def Obligations.PollCounts : Prop :=
  (∀ (T : Nat) (r : Request) (b : Backing), timerAt b.timer r.addr = 0 →
    let after (k : Nat) : Backing := (fun b => (terminalAccess T r b).2)^[k] b
    (∀ k < T, (terminalAccess T r (after k)).1 = .waiting ∧ (after k).cells = b.cells) ∧
    (∃ ws, (terminalAccess T r (after T)).1 = .done ws) ∧ timerAt (after (T + 1)).timer r.addr = 0) ∧
  ∀ (g : Geometry) (next : Request → Hierarchy → Poll (List Word) × Hierarchy) (r : Request) (w : Nat) (c : CacheState)
    (h : Hierarchy),
    timerAt c.timer r.addr = 0 → findHit (c.set (g.index r.addr)) (g.tag r.addr) = some w →
    let after (k : Nat) : CacheState := (fun c => (cacheAccess g next r c h).2.1)^[k] c
    (∀ k < g.latency, (cacheAccess g next r (after k) h).1 = .waiting ∧ (after k).sets = c.sets) ∧
    (∃ ws, (cacheAccess g next r (after g.latency) h).1 = .done ws) ∧
    timerAt (after (g.latency + 1)).timer r.addr = 0

/-! ### Serial mode -/

/-- R279, R283: in serial mode over a store of latency 0 reached directly, each instruction takes five steps, and after
`5k` steps the core is where `k` instructions executed one at a time, each completely before the next, lead: registers, flags,
store and diagnostics agree. If the sentinel comes next, two more steps halt the drained core and change none of these. -/
def Obligations.SerialModeRunsOneAtATime : Prop :=
  ∀ (k : Nat) (x y : Fetched) (s : State), s.serialAt x → Fetched.run k x = some y →
    (∃ t, Host.Core.run Sys2Proof.core (5 * k) s = .next t ∧ t.serialAt y) ∧
    (y.word = sentinelWord → ∃ u, Host.Core.run Sys2Proof.core (5 * k + 2) s = .next u ∧ u.stillRunning = false ∧
      u.arch = y.arch)

/-! ### Any mode, any chain -/

/-- R283: from every launch state, over every valid chain, with any latencies, pipelined or serial from step to step as the host
likes: if `use_cache` is constant, nothing is injected, and every instruction that is executed one at a time meets (a) to (c)
(it names `r15` nowhere, and stores to no word fetched within the next three fetches), then whenever a step has returned false,
`x[0]` to `x[14]`, the flags and every word of memory as `MemRead` sees it are those of the instructions executed one at a time,
each completely before the next, up to the sentinel; and if these come to the sentinel, some step does return false. -/
def Obligations.PipelineRunsOneAtATime : Prop :=
  ∀ (c : Config) (regs : Vector Word 16) (flags : Flags) (cells : List Host.Cell) (inputs : List StepInput) (lines : StepInput)
    (u : Bool), (∀ i ∈ lines :: inputs, i.useCache = u ∧ i.inject = none) →
    let s : State := { State.launchWith c regs flags cells with inputs := inputs, lines := lines }
    let x : Fetched := Arch.start { regs := regs, flags := flags, cells := cells, diags := [] }
    x.orderlyRun →
    (∀ n t, Host.Core.run Sys2Proof.core n s = .next t → t.stillRunning = false →
      ∃ k y, Fetched.run k x = some y ∧ y.word = sentinelWord ∧ (∀ r : Reg, r ≠ 15 → t.reg r = y.arch.reg r) ∧
        t.flags = y.arch.flags ∧ ∀ a < 2 ^ 30, t.wordAt u a = readWord y.arch.cells a) ∧
    (∀ k y, Fetched.run k x = some y → y.word = sentinelWord →
      ∃ n t, Host.Core.run Sys2Proof.core n s = .next t ∧ t.stillRunning = false)

/-! ### Reset -/

/-- R40 to R43, R321 (D5, D6): every piece of state at reset, for every configuration, every cache line and timer included; and
what the configuration of `State.reset` (log 2, log 3, the model's choice) makes of it: registers and program counter 0. -/
def Obligations.ResetValues : Prop :=
  (∀ c : Config,
    (∀ x : Reg, x ≠ 15 → (State.launch c).reg x = 0) ∧ (State.launch c).pc = c.resetPc ∧
    (State.launch c).flags = { n := false, z := false, c := false, v := false } ∧
    (State.launch c).cycle = 0 ∧ (State.launch c).halted = false ∧
    (State.launch c).slotF = none ∧ (State.launch c).slotD = none ∧ (State.launch c).slotE = none ∧
    (State.launch c).slotM = none ∧ (State.launch c).slotW = none ∧ (State.launch c).diags = [] ∧
    (State.launch c).mem.backing.cells = c.mem0 ∧ (∀ a, timerAt (State.launch c).mem.backing.timer a = 0) ∧
    (State.launch c).mem.caches.length = c.chain.caches.length ∧
    ∀ level ∈ (State.launch c).mem.caches, (∀ a, timerAt level.timer a = 0) ∧
      ∀ set ∈ level.sets, ∀ l ∈ set, l.occupied = false ∧ l.dirty = false ∧ l.age = 0 ∧ l.tag = 0 ∧ ∀ v ∈ l.words, v = 0) ∧
  State.reset = State.launch Config.plain ∧ (∀ x : Reg, State.reset.reg x = 0) ∧ ∀ a, readWord State.reset.mem.backing.cells a = 0
end

