-- ==== Sys2Proof/Laws/Serial.lean ====
section
/-!
SUPPORT. The machine that executes one instruction at a time (R283): what one of its instructions does to registers, flags,
store and program counter, part by part, in the terms in which the stages of the pipeline do it.
-/

namespace Sys2Proof.Machine

/-! ### The tags of the fields (R150 to R152) -/

theorem memory_tags {i : Instr} (h : i.fields.cls = .memory) : i.fields.rdUsed = true ∧ i.fields.rnUsed = true ∧
    i.fields.regshift = false := by
  cases i <;> first | exact ⟨rfl, rfl, rfl⟩ | cases h

theorem alu_tags {i : Instr} (h : i.fields.cls = .alu) : i.fields.rnUsed = true := by
  cases i <;> first | rfl | cases h

theorem rm_tag (i : Instr) : i.fields.regOperand = true → i.fields.rmUsed = true := by
  cases i <;> exact fun h => h

theorem rs_tag (i : Instr) : i.fields.regshift = true → i.fields.rsUsed = true := by
  cases i <;> exact fun h => h

theorem branch_tags {i : Instr} (h : i.fields.cls = .branch) : i.fields.rnUsed = false ∧ i.fields.rsUsed = false ∧
    i.fields.rmUsed = i.fields.regOperand := by
  cases i <;> first | exact ⟨rfl, rfl, rfl⟩ | cases h

theorem mem_uses_rd {f : Fields} (h : f.rdUsed = true) : f.rd ∈ f.uses := by simp [Fields.uses, h]

theorem mem_uses_rn {f : Fields} (h : f.rnUsed = true) : f.rn ∈ f.uses := by simp [Fields.uses, h]

theorem mem_uses_rm {f : Fields} (h : f.rmUsed = true) : f.rm ∈ f.uses := by simp [Fields.uses, h]

theorem mem_uses_rs {f : Fields} (h : f.rsUsed = true) : f.rs ∈ f.uses := by simp [Fields.uses, h]

theorem mem_uses_link {f : Fields} (hc : f.cls = .branch) (h : f.link = true) : (14 : Reg) ∈ f.uses := by
  simp [Fields.uses, hc, h, regLR]

/-- An instruction that does not name `r15` and is no branch uses registers other than 15 only. -/
theorem ne_pc_of_uses {i : Instr} (h : i.namesPC = false) (hc : i.fields.cls ≠ .branch) {x : Reg} (hx : x ∈ i.fields.uses) :
    x ≠ 15 := by
  unfold Instr.namesPC at h
  rw [if_neg (by simpa using hc)] at h
  rintro rfl
  simp [Instr.uses, regPC] at h
  exact h hx

theorem ne_pc_of_branch {i : Instr} (h : i.namesPC = false) (hc : i.fields.cls = .branch) (hr : i.fields.regOperand = true) :
    i.fields.rm ≠ 15 := by
  unfold Instr.namesPC at h
  rw [if_pos (by simpa using hc)] at h
  simpa [hr, regPC] using h

/-- The source registers of an instruction that does not name `r15` are other registers. -/
theorem sources_ne_pc {i : Instr} (h : i.namesPC = false) : (i.fields.rnUsed = true → i.fields.rn ≠ 15) ∧
    (i.fields.rmUsed = true → i.fields.rm ≠ 15) ∧ (i.fields.rsUsed = true → i.fields.rs ≠ 15) := by
  by_cases hc : i.fields.cls = .branch
  · obtain ⟨h1, h2, h3⟩ := branch_tags hc
    rw [h1, h2, h3]
    exact ⟨by simp, fun hr => ne_pc_of_branch h hc hr, by simp⟩
  · exact ⟨fun hu => ne_pc_of_uses h hc (mem_uses_rn hu), fun hu => ne_pc_of_uses h hc (mem_uses_rm hu),
      fun hu => ne_pc_of_uses h hc (mem_uses_rs hu)⟩

/-! ### One instruction, part by part -/

@[simp] theorem Arch.setReg_flags (a : Arch) (i : Reg) (v : Word) : (a.setReg i v).flags = a.flags := rfl
@[simp] theorem Arch.setReg_cells (a : Arch) (i : Reg) (v : Word) : (a.setReg i v).cells = a.cells := rfl

theorem Arch.reg_setReg (a : Arch) (i x : Reg) (v : Word) : (a.setReg i v).reg x = if i = x then v else a.reg x := by
  simp only [Arch.reg, Arch.setReg, Fin.getElem_fin, Vector.getElem_set, Fin.ext_iff]

@[simp] theorem Arch.read_flags (a : Arch) (w : Word) : (a.read w).2.flags = a.flags := by unfold Arch.read; split <;> rfl
@[simp] theorem Arch.read_cells (a : Arch) (w : Word) : (a.read w).2.cells = a.cells := by unfold Arch.read; split <;> rfl
@[simp] theorem Arch.read_reg (a : Arch) (w : Word) (x : Reg) : (a.read w).2.reg x = a.reg x := by
  unfold Arch.read; split <;> rfl
@[simp] theorem Arch.write_flags (a : Arch) (w v : Word) : (a.write w v).flags = a.flags := by unfold Arch.write; split <;> rfl
@[simp] theorem Arch.write_reg (a : Arch) (w v : Word) (x : Reg) : (a.write w v).reg x = a.reg x := by
  unfold Arch.write; split <;> rfl

/-- The word a read answers: of the store, or 0 if it is misaligned (R66). -/
theorem Arch.read_word (a : Arch) (w : Word) : (a.read w).1 = if aligned w then readWord a.cells (flatAddr w) else 0 := by
  unfold Arch.read; split <;> rfl

/-- The registers after a whole ALU instruction (R201). -/
theorem Arch.alu_reg (a : Arch) (f : Fields) (x : Reg) : (a.alu f).reg x =
    if f.rdUsed = true ∧ f.rd = x then
      (aluOperation (AluOp.ofCode f.opcode.toNat) (a.reg f.rn) (a.operand f) a.flags.c).value
    else a.reg x := by
  cases hs : f.s <;> cases hd : f.rdUsed <;> simp [Arch.alu, hs, hd, Arch.reg_setReg] <;> rfl

/-- The ALU's output for the fetched instruction. -/
def Fetched.aluOut (y : Fetched) : AluOut :=
  aluOperation (AluOp.ofCode (decode y.word).fields.opcode.toNat) (y.arch.reg (decode y.word).fields.rn)
    (y.arch.operand (decode y.word).fields) y.arch.flags.c

/-- The condition of the fetched instruction passes. -/
def Fetched.passes (y : Fetched) : Bool := condPass (decode y.word).fields.cond y.arch.flags

/-- The fetched instruction is a taken branch. -/
def Fetched.taken (y : Fetched) : Bool := (decode y.word).fields.cls == .branch && y.passes

/-- The target of the fetched branch. -/
def Fetched.target (y : Fetched) : Word :=
  if (decode y.word).fields.regOperand then y.arch.reg (decode y.word).fields.rm else y.pc + (decode y.word).fields.imm

theorem Fetched.turns_eq (y : Fetched) : y.turns = (y.word == sentinelWord || y.taken) := rfl

@[simp] theorem Arch.start_pc (a : Arch) : a.start.pc = a.reg 15 := rfl
@[simp] theorem Arch.start_flags (a : Arch) : a.start.arch.flags = a.flags := by simp [Arch.start, Arch.fetch]
@[simp] theorem Arch.start_cells (a : Arch) : a.start.arch.cells = a.cells := by simp [Arch.start, Arch.fetch]
@[simp] theorem Arch.start_arch_pc (a : Arch) : a.start.arch.reg 15 = a.reg 15 + 4 := by
  simp [Arch.start, Arch.fetch, Arch.reg_setReg, regPC]
theorem Arch.start_reg (a : Arch) {x : Reg} (h : x ≠ 15) : a.start.arch.reg x = a.reg x := by
  simp [Arch.start, Arch.fetch, Arch.reg_setReg, regPC, Ne.symm h]
theorem Arch.start_word (a : Arch) : a.start.word =
    if aligned a.start.pc then readWord a.start.arch.cells (flatAddr a.start.pc) else 0 := by
  rw [Arch.start_cells]
  exact Arch.read_word a _

/-- The state a whole instruction leaves, before the next fetch. -/
def Fetched.done (y : Fetched) : Arch := y.arch.perform y.pc (decode y.word)

theorem Fetched.next_eq (y : Fetched) : y.next = y.done.start := rfl

/-- The flags after a whole instruction (R28, R201). -/
theorem Fetched.done_flags (y : Fetched) : y.done.flags =
    if y.passes && (decode y.word).fields.cls == .alu && (decode y.word).fields.s then y.aluOut.flags y.arch.flags
    else y.arch.flags := by
  unfold Fetched.done Arch.perform Fetched.passes Fetched.aluOut
  split
  · rename_i h
    rw [h]
    generalize (decode y.word).fields = f
    cases hc : f.cls
    · cases hs : f.s <;> simp [Arch.alu, hs] <;> split <;> simp
    · simp only [Arch.loadStore]
      cases f.l <;> cases f.wb <;> simp
    · cases hl : f.link <;> simp [Arch.branch, hl]
    · simp
  · rename_i h
    simp [h]

/-- The store after a whole instruction (R232). -/
theorem Fetched.done_cells (y : Fetched) : y.done.cells =
    match y.stored with
    | some a => writeWord y.arch.cells a (y.arch.reg (decode y.word).fields.rd)
    | none => y.arch.cells := by
  unfold Fetched.done Arch.perform Fetched.stored
  generalize (decode y.word).fields = f
  dsimp only
  cases hp : condPass f.cond y.arch.flags
  · simp
  · cases hc : f.cls
    · cases hs : f.s <;> cases hd : f.rdUsed <;> simp [Arch.alu, hs, hd]
    · cases hl : f.l
      · cases hw : f.wb <;> cases ha : aligned (y.arch.accessAddr f) <;> simp [Arch.loadStore, hl, hw, Arch.write, ha]
      · cases hw : f.wb <;> simp [Arch.loadStore, hl, hw]
    · cases hl : f.link <;> simp [Arch.branch, hl]
    · simp

/-- The program counter after a whole instruction that does not name `r15` (R24, R240). -/
theorem Fetched.done_pc {y : Fetched} (h : (decode y.word).namesPC = false) :
    y.done.reg 15 = if y.taken then y.target else y.arch.reg 15 := by
  unfold Fetched.done Arch.perform Fetched.taken Fetched.passes Fetched.target
  cases hp : condPass (decode y.word).fields.cond y.arch.flags
  · simp
  · cases hc : (decode y.word).fields.cls
    · have := fun hd => ne_pc_of_uses h (by simp [hc]) (mem_uses_rd (f := (decode y.word).fields) hd)
      revert this
      generalize (decode y.word).fields = f
      intro this
      simp only [if_true, Arch.alu_reg]
      rw [if_neg fun e => this e.1 e.2]
      simp
    · have h1 := ne_pc_of_uses h (by simp [hc]) (mem_uses_rd (memory_tags hc).1)
      have h2 := ne_pc_of_uses h (by simp [hc]) (mem_uses_rn (memory_tags hc).2.1)
      revert h1 h2
      generalize (decode y.word).fields = f
      intro h1 h2
      cases hl : f.l <;> cases hw : f.wb <;> simp [Arch.loadStore, hl, hw, Arch.reg_setReg, h1, h2]
    · generalize (decode y.word).fields = f
      cases hl : f.link <;> simp [Arch.branch, hl, Arch.reg_setReg, regPC, regLR]
    · simp

/-- A whole instruction changes only registers it uses, and the program counter (R155). -/
theorem Fetched.done_reg_of_not_uses {y : Fetched} {x : Reg} (hx : x ≠ 15) (hu : x ∉ (decode y.word).uses) :
    y.done.reg x = y.arch.reg x := by
  have hu' : x ∉ (decode y.word).fields.uses := hu
  unfold Fetched.done Arch.perform
  cases hp : condPass (decode y.word).fields.cond y.arch.flags
  · simp
  · cases hc : (decode y.word).fields.cls
    · have : (decode y.word).fields.rdUsed = true → (decode y.word).fields.rd ≠ x := fun hd e => hu' (e ▸ mem_uses_rd hd)
      revert this
      generalize (decode y.word).fields = f
      intro this
      simp only [if_true, Arch.alu_reg]
      rw [if_neg fun e => this e.1 e.2]
    · have h1 : (decode y.word).fields.rd ≠ x := fun e => hu' (e ▸ mem_uses_rd (memory_tags hc).1)
      have h2 : (decode y.word).fields.rn ≠ x := fun e => hu' (e ▸ mem_uses_rn (memory_tags hc).2.1)
      revert h1 h2
      generalize (decode y.word).fields = f
      intro h1 h2
      cases hl : f.l <;> cases hw : f.wb <;> simp [Arch.loadStore, hl, hw, Arch.reg_setReg, h1, h2]
    · have : (decode y.word).fields.link = true → (14 : Reg) ≠ x := fun hl e => hu' (e ▸ mem_uses_link hc hl)
      revert this
      generalize (decode y.word).fields = f
      intro this
      cases hl : f.link <;> simp [Arch.branch, hl, Arch.reg_setReg, regPC, regLR, Ne.symm hx]
      intro e
      exact (this hl e).elim
    · simp

end Sys2Proof.Machine
end

