-- ==== Sys2Proof/Laws/Stages.lean ====
section
/-!
SUPPORT. What the record of an instruction carries on its way through the pipeline, measured against the same instruction
executed by itself (R283): after decode, after execute and after memory; and how each stage takes one to the next.
-/

namespace Sys2Proof.Machine

/-- A record that holds the fetched word of `y` (R33). -/
structure Carries (y : Fetched) (r : Record) : Prop where
  raw : r.raw = y.word
  pc : r.pc = y.pc

/-- A record of `y` ready to be executed: its snapshots are the registers that `y` reads (R266, R267). -/
structure Decoded (y : Fetched) (r : Record) : Prop extends Carries y r where
  rd : (decode y.word).fields.cls = .memory → r.vRd = y.arch.reg (decode y.word).fields.rd
  rn : (decode y.word).fields.rnUsed = true → r.vRn = y.arch.reg (decode y.word).fields.rn
  rm : (decode y.word).fields.rmUsed = true → r.vRm = y.arch.reg (decode y.word).fields.rm
  rs : (decode y.word).fields.rsUsed = true → r.vRs = y.arch.reg (decode y.word).fields.rs

/-- A record of `y` that has been executed (R268). -/
structure Executed (y : Fetched) (r : Record) : Prop where
  raw : r.raw = y.word
  pass : r.pass = y.passes
  alu : y.passes = true → (decode y.word).fields.cls = .alu → r.result = y.aluOut.value
  link : y.passes = true → (decode y.word).fields.cls = .branch → r.result = y.pc + 4
  addr : y.passes = true → (decode y.word).fields.cls = .memory → r.addr = y.arch.accessAddr (decode y.word).fields
  wbval : y.passes = true → (decode y.word).fields.cls = .memory → r.wbval = y.arch.moved (decode y.word).fields
  rd : (decode y.word).fields.cls = .memory → r.vRd = y.arch.reg (decode y.word).fields.rd

/-- A record of `y` whose memory access is complete (R264). -/
structure Accessed (y : Fetched) (r : Record) : Prop extends Executed y r where
  loaded : y.passes = true → (decode y.word).fields.cls = .memory → (decode y.word).fields.l = true →
    r.loaded = (y.arch.read (y.arch.accessAddr (decode y.word).fields)).1

theorem Carries.instr {y : Fetched} {r : Record} (h : r.raw = y.word) : r.instr = decode y.word := by
  rw [Record.instr, h]

/-! ### Operands (R187, R188, R240) -/

theorem Decoded.shifted {y : Fetched} {r : Record} (h : Decoded y r) (hr : (decode y.word).fields.regOperand = true) :
    (if (decode y.word).fields.regshift then shift r.vRm (decode y.word).fields.shtype r.vRs.toNat
      else shift r.vRm (decode y.word).fields.shtype (decode y.word).fields.shamt.toNat) =
      y.arch.shifted (decode y.word).fields := by
  unfold Arch.shifted
  rw [h.rm (rm_tag _ hr)]
  split
  · rename_i hs
    rw [h.rs (rs_tag _ hs)]
  · rfl

theorem Decoded.operand2 {y : Fetched} {r : Record} (h : Decoded y r) :
    operand2 (decode y.word).fields r = y.arch.operand (decode y.word).fields := by
  unfold Machine.operand2 Arch.operand
  split
  · rename_i hr
    exact h.shifted hr
  · rfl

theorem Decoded.rawOffset {y : Fetched} {r : Record} (h : Decoded y r) (hc : (decode y.word).fields.cls = .memory) :
    rawOffset (decode y.word).fields r = y.arch.operand (decode y.word).fields := by
  unfold Machine.rawOffset Arch.operand
  split
  · rename_i hr
    have := h.shifted hr
    rw [(memory_tags hc).2.2] at this
    exact this
  · rfl

theorem Decoded.moved {y : Fetched} {r : Record} (h : Decoded y r) (hc : (decode y.word).fields.cls = .memory) :
    r.vRn + effectiveOffset (decode y.word).fields r = y.arch.moved (decode y.word).fields := by
  unfold effectiveOffset Arch.moved
  rw [h.rawOffset hc, h.rn (memory_tags hc).2.1]
  split
  · rfl
  · bv_omega

theorem Decoded.target {y : Fetched} {r : Record} (h : Decoded y r) : branchTarget (decode y.word).fields r = y.target := by
  unfold branchTarget Fetched.target
  split
  · rename_i hr
    exact h.rm (rm_tag _ hr)
  · rw [h.pc]

/-! ### The execute stage (R268) -/

/-- Phase 2 on a decoded record: the record is executed, the flags are those of the instruction by itself, and register 15
is the branch target if the branch is taken. -/
theorem executePhase_decoded {s : State} {y : Fetched} {r : Record} (hs : s.slotE = some r) (h : Decoded y r)
    (hf : s.flags = y.arch.flags) :
    (∃ r', (phaseState .execute s).slotE = some r' ∧ Executed y r') ∧
    (phaseState .execute s).flags = y.done.flags ∧
    (phaseState .execute s).regs = if y.taken then s.regs.set 15 y.target else s.regs := by
  have hi : r.instr = decode y.word := Carries.instr h.raw
  have hp : condPass (decode y.word).fields.cond s.flags = y.passes := by rw [hf]; rfl
  rw [executePhase_eq, hs, Fetched.done_flags]
  dsimp only
  rw [hi, hp]
  unfold Fetched.taken
  cases hb : y.passes
  · refine ⟨⟨_, rfl, ⟨h.raw, hb.symm, ?_, ?_, ?_, ?_, h.rd⟩⟩, hf, by simp⟩ <;> simp [hb]
  · simp only [if_true]
    unfold executeLines
    cases hc : (decode y.word).fields.cls
    · have ho := h.operand2
      refine ⟨⟨_, rfl, ⟨h.raw, hb.symm, fun _ _ => ?_, ?_, ?_, ?_, h.rd⟩⟩, ?_, ?_⟩
      · show (aluOperation _ r.vRn _ s.flags.c).value = _
        have hE : Machine.operand2 (decode y.word).fields { r with pass := true } = Machine.operand2 (decode y.word).fields r := rfl
        rw [hE, ho, h.rn (alu_tags hc), hf]
        rfl
      · simp [hc]
      · simp [hc]
      · simp [hc]
      · show (if _ then (aluOperation _ r.vRn _ s.flags.c).flags s.flags else s.flags) = _
        have hE : Machine.operand2 (decode y.word).fields { r with pass := true } = Machine.operand2 (decode y.word).fields r := rfl
        rw [hE, ho, h.rn (alu_tags hc), hf]
        cases (decode y.word).fields.s <;> rfl
      · rfl
    · have hm := h.moved hc
      refine ⟨⟨_, rfl, ⟨h.raw, hb.symm, ?_, ?_, fun _ _ => ?_, fun _ _ => hm, h.rd⟩⟩, ?_, ?_⟩
      · simp [hc]
      · simp [hc]
      · show (if _ then r.vRn + effectiveOffset (decode y.word).fields r else r.vRn) = _
        rw [hm, h.rn (memory_tags hc).2.1]
        rfl
      · exact hf
      · rfl
    · refine ⟨⟨_, rfl, ⟨h.raw, hb.symm, ?_, fun _ _ => ?_, ?_, ?_, h.rd⟩⟩, hf, ?_⟩
      · simp [hc]
      · show r.pc + 4 = _
        rw [h.pc]
      · simp [hc]
      · simp [hc]
      · show s.regs.set 15 (branchTarget (decode y.word).fields r) = _
        rw [h.target]
        rfl
    · refine ⟨⟨_, rfl, ⟨h.raw, hb.symm, ?_, ?_, ?_, ?_, h.rd⟩⟩, hf, rfl⟩ <;> simp [hc]

/-! ### The memory stage (R264) -/

/-- Phase 0 keeps the caches coherent (R72). -/
theorem memoryPhase_coherent {s : State} (hc : s.input.useCache = true → s.memoryCoherent = true) :
    s.input.useCache = true → (phaseState .memory s).memoryCoherent = true := by
  intro hu
  have h0 : ({ s with phase := Phase.memory } : State).memoryCoherent = true := hc hu
  rcases memoryPhase_mem s with h | ⟨r, -, -, -, -, h⟩ | ⟨r, -, -, -, -, h⟩
  · rw [State.memoryCoherent_congr (by simp) h]
    exact hc hu
  · have := (State.memRead_keeps (s := { s with phase := .memory }) (u := s.input.useCache) (a := r.addr) fun _ => h0).1 hu
    rwa [← State.memoryCoherent_congr (s := (State.memRead { s with phase := .memory } s.input.useCache r.addr).2)
      (t := phaseState .memory s) (by simp) h] at this
  · rw [State.memoryCoherent_congr (s := (State.memWrite { s with phase := .memory } s.input.useCache r.addr r.vRd).2)
      (t := phaseState .memory s) (by simp) h]
    cases ha : aligned r.addr
    · rw [State.memWrite_misaligned ha]
      exact h0
    · exact (State.memWrite_spec (s := { s with phase := .memory }) ha fun _ => h0).1 hu

theorem memoryLines_of_memory {f : Fields} (h : f.cls = .memory) : memoryLines f = if f.l then loadMemory else storeMemory := by
  rw [memoryLines, h]

theorem memoryLines_of_ne {f : Fields} (h : f.cls ≠ .memory) : memoryLines f = noLines := by
  unfold memoryLines
  cases hc : f.cls <;> first | rfl | exact absurd hc h

theorem Fetched.stored_eq (y : Fetched) : y.stored =
    if (decode y.word).fields.cls == .memory && !(decode y.word).fields.l && y.passes &&
      aligned (y.arch.accessAddr (decode y.word).fields) then
      some (flatAddr (y.arch.accessAddr (decode y.word).fields)) else none := rfl

/-- The `[M]` lines of an executed record whose condition passed: when the access does not wait it is complete, and what reads
return is what the instruction by itself leaves; when it waits reads return what they did (R72, R264). -/
theorem memoryLines_executed {s : State} {y : Fetched} {r : Record} (hs : s.slotM = some r) (h : Executed y r)
    (hb : y.passes = true) (hc : s.input.useCache = true → s.memoryCoherent = true) (hw : s.mwait = false)
    (hm : ∀ a < 2 ^ 30, s.wordAt s.input.useCache a = readWord y.arch.cells a) :
    ((memoryLines (decode y.word).fields r s).mwait = true ∧
      ∀ a < 2 ^ 30, (memoryLines (decode y.word).fields r s).wordAt s.input.useCache a = readWord y.arch.cells a) ∨
    ((memoryLines (decode y.word).fields r s).mwait = false ∧
      (∃ r', (memoryLines (decode y.word).fields r s).slotM = some r' ∧ Accessed y r') ∧
      ∀ a < 2 ^ 30, (memoryLines (decode y.word).fields r s).wordAt s.input.useCache a = readWord y.done.cells a) := by
  rw [Fetched.done_cells, Fetched.stored_eq, hb]
  by_cases h1 : (decode y.word).fields.cls = .memory
  · have haddr := h.addr hb h1
    have hrd := h.rd h1
    rw [memoryLines_of_memory h1, h1, ← haddr]
    cases h2 : (decode y.word).fields.l
    · simp only [Bool.false_eq_true, if_false, beq_self_eq_true, Bool.not_false, Bool.true_and]
      rw [storeMemory_eq]
      cases ha : aligned r.addr
      · right
        rw [State.memWrite_misaligned ha]
        exact ⟨hw, ⟨r, hs, ⟨h, fun _ _ e => by rw [h2] at e; cases e⟩⟩, hm⟩
      · rcases (State.memWrite_spec (v := r.vRd) ha hc).2 with ⟨hz, hk⟩ | ⟨hz, hk⟩ <;> rw [hz]
        · exact .inl ⟨rfl, fun a hx => (hk a hx).trans (hm a hx)⟩
        · right
          refine ⟨by simpa using hw, ⟨r, by simpa using hs, ⟨h, fun _ _ e => by rw [h2] at e; cases e⟩⟩, fun a hx => ?_⟩
          rw [hk a hx]
          simp only [if_true]
          rw [readWord_writeWord, ← hrd, Nat.mod_eq_of_lt (flatAddr_lt _), Nat.mod_eq_of_lt hx]
          by_cases e : a = flatAddr r.addr
          · rw [if_pos e, if_pos e.symm]
          · rw [if_neg e, if_neg (Ne.symm e)]
            exact hm a hx
    · simp only [if_true, Bool.not_true, Bool.and_false, Bool.false_and, Bool.false_eq_true, if_false]
      rw [loadMemory_eq]
      have hmem : ∀ x < 2 ^ 30, (s.memRead s.input.useCache r.addr).2.wordAt s.input.useCache x =
          readWord y.arch.cells x := fun x hx => ((State.memRead_keeps hc).2 x hx).trans (hm x hx)
      have hacc : ∀ w, w = (y.arch.read r.addr).1 → Accessed y { r with loaded := w } := fun w e =>
        ⟨⟨h.raw, h.pass, h.alu, h.link, h.addr, h.wbval, h.rd⟩, fun _ _ _ => by rw [← haddr]; exact e⟩
      cases ha : aligned r.addr
      · right
        have hz : (s.memRead s.input.useCache r.addr).1 = .done 0 := by rw [State.memRead_misaligned ha]
        rw [hz]
        exact ⟨by simpa using hw, ⟨_, rfl, hacc _ (by rw [Arch.read_word, ha]; rfl)⟩, hmem⟩
      · rcases (State.memRead_spec ha hc).2.2 with hz | hz <;> rw [hz]
        · exact .inl ⟨rfl, hmem⟩
        · right
          exact ⟨by simpa using hw, ⟨_, rfl, hacc _ (by rw [Arch.read_word, ha, hm _ (flatAddr_lt _)]; rfl)⟩, hmem⟩
  · right
    rw [memoryLines_of_ne h1]
    have : ((decode y.word).fields.cls == Cls.memory) = false := by simpa using h1
    rw [this]
    exact ⟨hw, ⟨r, hs, ⟨h, fun _ e => absurd e h1⟩⟩, hm⟩

/-- Phase 0 on an executed record: when its access does not wait it is complete, and what reads return is what the
instruction by itself leaves; when it waits reads return what they did (R72, R264). -/
theorem memoryPhase_executed {s : State} {y : Fetched} {r : Record} (hs : s.slotM = some r) (h : Executed y r)
    (hc : s.input.useCache = true → s.memoryCoherent = true) (hw : s.mwait = false)
    (hm : ∀ a < 2 ^ 30, s.wordAt s.input.useCache a = readWord y.arch.cells a) :
    ((phaseState .memory s).mwait = true ∧
      ∀ a < 2 ^ 30, (phaseState .memory s).wordAt s.input.useCache a = readWord y.arch.cells a) ∨
    ((phaseState .memory s).mwait = false ∧ (∃ r', (phaseState .memory s).slotM = some r' ∧ Accessed y r') ∧
      ∀ a < 2 ^ 30, (phaseState .memory s).wordAt s.input.useCache a = readWord y.done.cells a) := by
  have hi : r.instr = decode y.word := Carries.instr h.raw
  have he : phaseState .memory s =
      if r.pass then memoryLines (decode y.word).fields r { s with phase := .memory } else { s with phase := .memory } := by
    rw [memoryPhase_eq]
    split
    · rename_i h0
      rw [hs] at h0
      cases h0
    · rename_i r' h0
      obtain rfl : r = r' := Option.some.inj (hs.symm.trans h0)
      rw [hi]
  rw [he, h.pass]
  cases hb : y.passes
  · right
    have : y.stored = none := by rw [Fetched.stored_eq, hb]; simp
    rw [Fetched.done_cells, this]
    exact ⟨hw, ⟨r, hs, ⟨h, by simp [hb]⟩⟩, hm⟩
  · exact memoryLines_executed (s := { s with phase := .memory }) hs h hb hc hw hm

/-! ### The writeback stage (R272) -/

/-- Phase 3 on an accessed record: every register but 15 is what the instruction by itself leaves. -/
theorem writebackPhase_accessed {s : State} {y : Fetched} {r : Record} (hs : s.slotW = some r) (h : Accessed y r)
    (hr : ∀ x : Reg, x ≠ 15 → s.reg x = y.arch.reg x) :
    ∀ x : Reg, x ≠ 15 → (phaseState .writeback s).reg x = y.done.reg x := by
  intro x hx
  have hi : r.instr = decode y.word := Carries.instr h.raw
  have hx' := hr x hx
  rw [writebackPhase_eq, hs]
  dsimp only
  rw [hi, h.pass]
  unfold Fetched.done Arch.perform
  change _ = Arch.reg (if y.passes = true then _ else _) x
  cases hb : y.passes
  · exact hx'
  · simp only [if_true]
    have hreg : ({ s with phase := Phase.writeback, slotW := some r } : State).reg x = y.arch.reg x := hx'
    have hreg' : ({ s with phase := Phase.writeback } : State).reg x = y.arch.reg x := hx'
    have e1 := h.alu hb
    have e2 := h.link hb
    have e3 := h.wbval hb
    have e4 := h.loaded hb
    unfold Fetched.aluOut at e1
    revert e1 e2 e3 e4
    generalize (decode y.word).fields = f
    intro e1 e2 e3 e4
    unfold writebackLines
    cases hc : f.cls
    · have e1 := e1 hc
      simp only [aluWriteback_reg, Arch.alu_reg, e1, hreg]
    · have e3 := e3 hc
      cases hl : f.l <;> cases hw : f.wb <;>
        simp [loadWriteback_reg, baseWriteback_reg, Arch.loadStore, hl, hw, Arch.reg_setReg, e3] <;> simp_all
    · have e2 := e2 hc
      cases hl : f.link <;> simp [branchWriteback_reg, Arch.branch, hl, Arch.reg_setReg, regPC, regLR, Ne.symm hx, e2] <;>
        simp_all
    · exact hx'

end Sys2Proof.Machine
end

