-- ==== Sys2Proof/Laws/Follows.lean ====
section
/-!
SUPPORT. The pipeline follows the machine that executes one instruction at a time (R283): which of its instructions stand in
the slots, and how far registers, flags and memory have come; every step keeps this, whatever the mode, the latencies and
the caches.
-/

namespace Sys2Proof.Machine

/-! ### The instructions of the one-at-a-time machine, numbered -/

/-- The `k`-th instruction from `x` on. -/
def Fetched.after (x : Fetched) (k : Nat) : Fetched := Fetched.next^[k] x

theorem Fetched.after_succ (x : Fetched) (k : Nat) : x.after (k + 1) = (x.after k).done.start :=
  Function.iterate_succ_apply' _ _ _

theorem Fetched.next_after (x : Fetched) (k : Nat) : (x.after k).next = x.after (k + 1) := (x.after_succ k).symm

/-- The first `k` instructions are not the sentinel. -/
def Fetched.live (x : Fetched) (k : Nat) : Prop := ∀ j < k, (x.after j).word ≠ sentinelWord

theorem Fetched.live.mono {x : Fetched} {k l : Nat} (h : x.live k) (hl : l ≤ k) : x.live l := fun j hj => h j (by omega)

theorem Fetched.live.succ {x : Fetched} {k : Nat} (h : x.live k) (hk : (x.after k).word ≠ sentinelWord) : x.live (k + 1) := by
  intro j hj
  rcases Nat.lt_succ_iff_lt_or_eq.mp hj with h' | rfl
  · exact h j h'
  · exact hk

/-- Running `k` instructions without meeting the sentinel. -/
theorem Fetched.run_of_live {x : Fetched} {k : Nat} (h : x.live k) : Fetched.run k x = some (x.after k) := by
  induction k generalizing x with
  | zero => rfl
  | succ k ih =>
    have h0 : x.word ≠ sentinelWord := h 0 (by omega)
    have hn : x.next.live k := fun j hj => h (j + 1) (by omega)
    rw [Fetched.run, if_neg h0, ih hn]
    rfl

theorem Fetched.orderlyRun.at {x : Fetched} (ho : x.orderlyRun) {k : Nat} (h : x.live (k + 1)) : (x.after k).orderly :=
  ho k _ (Fetched.run_of_live (h.mono (by omega))) (h k (by omega))

/-- What every instruction of a started machine has in common: its word is what its address reads, and the program counter
is past it. -/
theorem Fetched.after_word (a : Arch) (k : Nat) : (a.start.after k).word =
    if aligned (a.start.after k).pc then readWord (a.start.after k).arch.cells (flatAddr (a.start.after k).pc) else 0 := by
  cases k with
  | zero => exact a.start_word
  | succ k =>
    rw [Fetched.after_succ]
    exact Arch.start_word _

theorem Fetched.after_arch_pc (a : Arch) (k : Nat) : (a.start.after k).arch.reg 15 = (a.start.after k).pc + 4 := by
  cases k with
  | zero => exact a.start_arch_pc
  | succ k =>
    rw [Fetched.after_succ]
    exact Arch.start_arch_pc _

theorem Fetched.after_reg {x : Fetched} {k : Nat} {r : Reg} (hr : r ≠ 15) :
    (x.after (k + 1)).arch.reg r = (x.after k).done.reg r := by
  rw [Fetched.after_succ, Arch.start_reg _ hr]

theorem Fetched.after_flags (x : Fetched) (k : Nat) : (x.after (k + 1)).arch.flags = (x.after k).done.flags := by
  rw [Fetched.after_succ, Arch.start_flags]

theorem Fetched.after_cells (x : Fetched) (k : Nat) : (x.after (k + 1)).arch.cells = (x.after k).done.cells := by
  rw [Fetched.after_succ, Arch.start_cells]

/-- Where the next instruction is: at the target of a taken branch, else right behind (R24, R240). -/
theorem Fetched.after_pc {a : Arch} {k : Nat} (h : (decode (a.start.after k).word).namesPC = false) :
    (a.start.after (k + 1)).pc =
      if (a.start.after k).taken then (a.start.after k).target else (a.start.after k).pc + 4 := by
  rw [Fetched.after_succ, Arch.start_pc, Fetched.done_pc h, Fetched.after_arch_pc]

theorem Fetched.not_taken {y : Fetched} (h : y.turns = false) : y.taken = false ∧ y.word ≠ sentinelWord := by
  rw [Fetched.turns_eq] at h
  simpa [and_comm] using h

theorem Fetched.turns_false {y : Fetched} (h1 : y.taken = false) (h2 : y.word ≠ sentinelWord) : y.turns = false := by
  rw [Fetched.turns_eq]
  simp [h1, h2]

/-- A register that none of the instructions `c` to `d - 1` uses is the same before and after them. -/
theorem Fetched.reg_of_not_uses {x : Fetched} {c d : Nat} {r : Reg} (hcd : c ≤ d) (hr : r ≠ 15)
    (h : ∀ j, c ≤ j → j < d → r ∉ (decode (x.after j).word).uses) : (x.after d).arch.reg r = (x.after c).arch.reg r := by
  induction d, hcd using Nat.le_induction with
  | base => rfl
  | succ d hd ih =>
    rw [Fetched.after_reg hr, Fetched.done_reg_of_not_uses hr (h d hd (by omega))]
    exact ih fun j h1 h2 => h j h1 (by omega)

/-- The word at an address that none of the instructions `e` to `n - 1` stores to is the same before and after them. -/
theorem Fetched.word_of_not_stored {x : Fetched} {e n : Nat} {a : Nat} (hen : e ≤ n) (ha : a < 2 ^ 30)
    (h : ∀ j, e ≤ j → j < n → (x.after j).stored ≠ some a) :
    readWord (x.after n).arch.cells a = readWord (x.after e).arch.cells a := by
  induction n, hen using Nat.le_induction with
  | base => rfl
  | succ n hn ih =>
    rw [Fetched.after_cells, Fetched.done_cells]
    have hs := h n hn (by omega)
    rw [← ih fun j h1 h2 => h j h1 (by omega)]
    split
    · rename_i b hb
      have hb' : b < 2 ^ 30 := by
        rw [Fetched.stored_eq] at hb
        split at hb
        · injection hb with hb
          rw [← hb]
          exact flatAddr_lt _
        · cases hb
      rw [readWord_writeWord, Nat.mod_eq_of_lt hb', Nat.mod_eq_of_lt ha, if_neg]
      rintro rfl
      exact hs hb
    · rfl

/-- The address of instruction `j + i + 1` is among the next fetches of instruction `j` if nothing turns before it. -/
theorem Fetched.mem_fetchesAfter {y : Fetched} {i k : Nat} (hk : i < k) (h : ∀ l ≤ i, (y.after l).turns = false) :
    (y.after (i + 1)).pc ∈ Fetched.fetchesAfter k y := by
  induction i generalizing y k with
  | zero =>
    obtain ⟨k, rfl⟩ : ∃ m, k = m + 1 := ⟨k - 1, by omega⟩
    have h0 : y.turns = false := h 0 (by omega)
    rw [Fetched.fetchesAfter, if_neg (by simp [h0])]
    exact List.mem_cons_self
  | succ i ih =>
    obtain ⟨k, rfl⟩ : ∃ m, k = m + 1 := ⟨k - 1, by omega⟩
    have h0 : y.turns = false := h 0 (by omega)
    rw [Fetched.fetchesAfter, if_neg (by simp [h0])]
    exact List.mem_cons_of_mem _ (ih (y := y.next) (by omega) fun l hl => h (l + 1) (by omega))

theorem Fetched.after_add (x : Fetched) (j l : Nat) : (x.after j).after l = x.after (j + l) := by
  unfold Fetched.after
  rw [Nat.add_comm, Function.iterate_add_apply]

/-! ### The pipeline against it -/

/-- How many instructions a slot holds. -/
def count (slot : Option Record) : Nat := if slot.isSome then 1 else 0

@[simp] theorem count_none : count none = 0 := rfl
@[simp] theorem count_some (r : Record) : count (some r) = 1 := rfl

theorem count_cases (slot : Option Record) : count slot = 0 ∨ ∃ r, slot = some r ∧ count slot = 1 := by
  cases slot with
  | none => exact .inl rfl
  | some r => exact .inr ⟨r, rfl, rfl⟩

/-- The slots, oldest first, hold the instructions from `k` on, up to the first that turns; if none does, the program counter
is at the next one, or the core is halted before the sentinel. -/
def Straight (x : Fetched) (pc : Word) (halted : Bool) : Nat → List (Option Record) → Prop
  | k, [] => if halted then (x.after k).word = sentinelWord else pc = (x.after k).pc
  | k, none :: rest => Straight x pc halted k rest
  | k, some r :: rest => Carries (x.after k) r ∧ ((x.after k).turns = false → Straight x pc halted (k + 1) rest)

/-- Between two steps: instruction `c` is the oldest not committed, `m` the oldest whose memory access is not made, `e` the
oldest not executed, `d` the oldest not past decode. -/
structure Follows (x : Fetched) (u : Bool) (s : State) (c m e d : Nat) : Prop where
  cm : m = c + count s.slotW
  me : e = m + count s.slotM
  ed : d = e + count s.slotE
  live : x.live d
  regs : ∀ r : Reg, r ≠ 15 → s.reg r = (x.after c).arch.reg r
  flags : s.flags = (x.after e).arch.flags
  mem : ∀ a < 2 ^ 30, s.wordAt u a = readWord (x.after m).arch.cells a
  slotW : ∀ r, s.slotW = some r → Accessed (x.after c) r
  slotM : ∀ r, s.slotM = some r → Executed (x.after m) r
  slotE : ∀ r, s.slotE = some r → Decoded (x.after e) r
  front : (s.slotE = none ∨ (x.after e).taken = false) → Straight x s.pc s.halted d [s.slotD, s.slotF]
  halted : s.halted = true → s.slotE = none ∧ s.slotD = none ∧ s.slotF = none
  coherent : u = true → s.memoryCoherent = true
  inputs : ∀ i ∈ s.lines :: s.inputs, i.useCache = u ∧ i.inject = none

/-- After the phases 0 to 3 of a step whose memory stage does not wait, before the advance. -/
structure Worked (x : Fetched) (u : Bool) (w : State) (m e d : Nat) : Prop where
  me : e = m + count w.slotM
  ed : d = e + count w.slotE
  live : x.live d
  regs : ∀ r : Reg, r ≠ 15 → w.reg r = (x.after m).arch.reg r
  flags : w.flags = (x.after d).arch.flags
  mem : ∀ a < 2 ^ 30, w.wordAt u a = readWord (x.after e).arch.cells a
  slotM : ∀ r, w.slotM = some r → Accessed (x.after m) r
  slotE : ∀ r, w.slotE = some r → Executed (x.after e) r
  slotD : ∀ r, w.slotD = some r → (x.after d).word ≠ sentinelWord ∧ (r.decoded = true → Decoded (x.after d) r)
  front : Straight x w.pc w.halted d [w.slotD, w.slotF]
  halted : w.halted = true → w.slotD = none ∧ w.slotF = none
  coherent : u = true → w.memoryCoherent = true
  inputs : ∀ i ∈ w.lines :: w.inputs, i.useCache = u ∧ i.inject = none

theorem Follows.useCache {x : Fetched} {u : Bool} {s : State} {c m e d : Nat} (h : Follows x u s c m e d) :
    s.input.useCache = u ∧ s.input.inject = none := by
  refine h.inputs _ ?_
  unfold State.input
  cases s.inputs <;> simp

/-- The inputs of the following steps are among those of the step before. -/
theorem inputs_tail {s : State} {u : Bool} (h : ∀ i ∈ s.lines :: s.inputs, i.useCache = u ∧ i.inject = none) :
    ∀ i ∈ s.lines :: s.inputs.tail, i.useCache = u ∧ i.inject = none := by
  intro i hi
  refine h i ?_
  rcases List.mem_cons.mp hi with h | h
  · exact h ▸ List.mem_cons_self
  · exact List.mem_cons_of_mem _ (List.mem_of_mem_tail h)

/-! ### Phase 0 and the memory wait -/

/-- What reads return after phase 0, and what the record in M has become (R264, R265). -/
theorem Follows.memory {x : Fetched} {u : Bool} {s : State} {c m e d : Nat} (h : Follows x u s c m e d) :
    (u = true → (phaseState .memory { s with mwait := false }).memoryCoherent = true) ∧
    ((s.memoryWaits = true ∧
        ∀ a < 2 ^ 30, (phaseState .memory { s with mwait := false }).wordAt u a = readWord (x.after m).arch.cells a) ∨
      (s.memoryWaits = false ∧
        (∀ r, (phaseState .memory { s with mwait := false }).slotM = some r → Accessed (x.after m) r) ∧
        ∀ a < 2 ^ 30, (phaseState .memory { s with mwait := false }).wordAt u a = readWord (x.after e).arch.cells a)) := by
  obtain rfl := h.useCache.1
  rw [← memoryPhase_mwait]
  generalize ht : ({ s with mwait := false } : State) = t
  have hi : t.input = s.input := by rw [← ht]; rfl
  have hsM : t.slotM = s.slotM := by rw [← ht]
  have hw : t.mwait = false := by rw [← ht]
  have hc : t.input.useCache = true → t.memoryCoherent = true := by
    rw [hi, State.memoryCoherent_congr (s := s) (by rw [← ht]) (by rw [← ht])]
    exact h.coherent
  have hm : ∀ a < 2 ^ 30, t.wordAt t.input.useCache a = readWord (x.after m).arch.cells a := by
    intro a ha
    rw [hi, State.wordAt_congr (s := s) (by rw [← ht]) (by rw [← ht])]
    exact h.mem a ha
  rw [← hi]
  refine ⟨memoryPhase_coherent hc, ?_⟩
  cases hM : s.slotM with
  | none =>
    have he : phaseState .memory t = { t with phase := .memory } := by rw [memoryPhase_eq, hsM, hM]
    rw [he]
    refine .inr ⟨hw, fun r hr => ?_, fun a ha => ?_⟩
    · rw [show ({ t with phase := Phase.memory } : State).slotM = t.slotM from rfl, hsM, hM] at hr
      cases hr
    · rw [h.me, hM]
      exact hm a ha
  | some r =>
    rcases memoryPhase_executed (hsM.trans hM) (h.slotM r hM) hc hw hm with ⟨h1, h2⟩ | ⟨h1, ⟨r', h2, h3⟩, h4⟩
    · exact .inl ⟨h1, h2⟩
    · refine .inr ⟨h1, fun r'' hr => ?_, fun a ha => ?_⟩
      · rw [h2] at hr
        cases hr
        exact h3
      · rw [h4 a ha, h.me, hM, count_some, Fetched.after_cells]

/-! ### Phase 3 -/

/-- Phase 3 on a record that does not name `r15` leaves the program counter (R272). -/
theorem writebackPhase_pc {s : State} (h : ∀ r, s.slotW = some r → r.instr.namesPC = false) :
    (phaseState .writeback s).pc = s.pc := by
  rcases writebackPhase_reg s 15 with h0 | ⟨r, hs, -, h0⟩
  · exact h0
  · exfalso
    have hn := h r hs
    rcases h0 with ⟨hc, hd, hx, -⟩ | ⟨hc, -, hx, -⟩ | ⟨hc, -, hx, -⟩ | ⟨-, -, hx, -⟩
    · exact ne_pc_of_uses hn (by simp [hc]) (mem_uses_rd hd) hx.symm
    · exact ne_pc_of_uses hn (by simp [hc]) (mem_uses_rd (memory_tags hc).1) hx.symm
    · exact ne_pc_of_uses hn (by simp [hc]) (mem_uses_rn (memory_tags hc).2.1) hx.symm
    · exact absurd hx (by decide)

/-- The registers after phase 3 of a step (R272). -/
theorem Follows.writeback {x : Fetched} {u : Bool} {s v : State} {c m e d : Nat} (h : Follows x u s c m e d)
    (ho : x.orderlyRun) (hW : v.slotW = s.slotW) (hr : ∀ r : Reg, r ≠ 15 → v.reg r = s.reg r) :
    (∀ r : Reg, r ≠ 15 → (phaseState .writeback v).reg r = (x.after m).arch.reg r) ∧
      (phaseState .writeback v).pc = v.pc := by
  cases hs : s.slotW with
  | none =>
    have he : phaseState .writeback v = { v with phase := .writeback } := by rw [writebackPhase_eq, hW, hs]
    rw [he, h.cm, hs]
    exact ⟨fun r hr' => (hr r hr').trans (h.regs r hr'), rfl⟩
  | some r =>
    have hA := h.slotW r hs
    have hl : x.live (c + 1) := h.live.mono (by have := h.cm; have := h.me; have := h.ed; simp [hs] at *; omega)
    refine ⟨fun i hi => ?_, writebackPhase_pc fun r' hr' => ?_⟩
    · rw [writebackPhase_accessed (hW.trans hs) hA (fun j hj => (hr j hj).trans (h.regs j hj)) i hi, h.cm, hs, count_some,
        Fetched.after_reg hi]
    · rw [hW, hs] at hr'
      cases hr'
      rw [Carries.instr hA.raw]
      exact (ho.at hl).1

/-! ### A step whose memory stage waits -/

theorem count_map (slot : Option Record) (f : Record → Record) : count (slot.map f) = count slot := by
  cases slot <;> rfl

theorem endCycle_inputs {s : State} {u : Bool} (h : ∀ i ∈ s.lines :: s.inputs, i.useCache = u ∧ i.inject = none) :
    ∀ i ∈ s.endCycle.lines :: s.endCycle.inputs, i.useCache = u ∧ i.inject = none := inputs_tail h

/-- A step whose memory stage waits commits the record in W and nothing else (R265). -/
theorem Follows.wait {x : Fetched} {u : Bool} {s : State} {c m e d : Nat} (h : Follows x u s c m e d) (ho : x.orderlyRun)
    (hw : s.memoryWaits = true) : Follows x u (workState s).advance.endCycle m m e d := by
  obtain ⟨hF, hD, hE, hM, hf, hh⟩ := workState_wait hw
  have he : (workState s).advance = { workState s with slotW := none } := by
    unfold State.advance
    exact if_pos ((workState_mwait s).trans hw)
  have hreg := h.writeback (v := phaseState .memory { s with mwait := false }) ho (by simp) (fun r _ => by
    rw [memoryPhase_reg]
    rfl)
  rw [← workState_of_wait hw] at hreg
  obtain ⟨hcoh, hmem⟩ := h.memory
  have hmem : ∀ a < 2 ^ 30, (phaseState .memory { s with mwait := false }).wordAt u a = readWord (x.after m).arch.cells a := by
    rcases hmem with ⟨-, h'⟩ | ⟨h', -⟩
    · exact h'
    · rw [hw] at h'
      cases h'
  have hpc : (workState s).pc = s.pc := hreg.2.trans (memoryPhase_reg _ _)
  rw [he]
  refine ⟨rfl, ?_, ?_, h.live, hreg.1, hf.trans h.flags, fun a ha => ?_, ?_, fun r hr => h.slotM r (hM ▸ hr),
    fun r hr => h.slotE r (hE ▸ hr), fun hb => ?_, fun hb => ?_, fun hu => ?_, endCycle_inputs ?_⟩
  · exact h.me.trans (by rw [← hM]; rfl)
  · exact h.ed.trans (by rw [← hE]; rfl)
  · refine (State.wordAt_congr ?_ ?_ u a).trans (hmem a ha)
    · simp [State.endCycle]
    · simp [State.endCycle]
  · intro r hr
    cases hr
  · have := h.front (by rwa [← hE])
    rw [← hpc, ← hh, ← hD, ← hF] at this
    exact this
  · obtain ⟨h1, h2, h3⟩ := h.halted (hh ▸ hb)
    exact ⟨hE.trans h1, hD.trans h2, hF.trans h3⟩
  · exact (State.memoryCoherent_congr (by simp [State.endCycle]) (by simp [State.endCycle])).trans (hcoh hu)
  · simpa using h.inputs

/-! ### A step whose memory stage does not wait, up to the advance -/

/-- The step takes a branch exactly if the instruction in E is a taken branch (R240). -/
theorem Follows.branchTaken {x : Fetched} {u : Bool} {s : State} {c m e d : Nat} (h : Follows x u s c m e d) :
    s.branchTaken = (s.slotE.isSome && (x.after e).taken) := by
  unfold State.branchTaken
  cases hE : s.slotE with
  | none => rfl
  | some r =>
    dsimp only
    rw [Carries.instr (h.slotE r hE).raw, h.flags]
    rfl

/-- Phase 2: the flags, the record in E and the program counter (R268). -/
theorem Follows.execute {x : Fetched} {u : Bool} {s v : State} {a : Arch} {c m e d : Nat} (hx : x = a.start)
    (h : Follows x u s c m e d) (ho : x.orderlyRun) (hE : v.slotE = s.slotE) (hf : v.flags = s.flags)
    (hr : v.regs = s.regs) :
    (∀ r, (phaseState .execute v).slotE = some r → Executed (x.after e) r) ∧
    count (phaseState .execute v).slotE = count s.slotE ∧
    (phaseState .execute v).flags = (x.after d).arch.flags ∧
    (∀ r : Reg, r ≠ 15 → (phaseState .execute v).reg r = s.reg r) ∧
    (phaseState .execute v).pc = if s.branchTaken then (x.after d).pc else s.pc := by
  have hpc : v.pc = s.pc := State.reg_congr hr _
  rw [h.branchTaken]
  cases hs : s.slotE with
  | none =>
    have he : phaseState .execute v = { v with phase := .execute } := by rw [executePhase_eq, hE, hs]
    rw [he, h.ed, hs]
    refine ⟨fun r hr' => ?_, ?_, hf.trans h.flags, fun r _ => State.reg_congr hr r, hpc⟩
    · rw [show ({ v with phase := Phase.execute } : State).slotE = v.slotE from rfl, hE, hs] at hr'
      cases hr'
    · rw [show ({ v with phase := Phase.execute } : State).slotE = v.slotE from rfl, hE, hs]
  | some r =>
    have hd : d = e + 1 := by rw [h.ed, hs, count_some]
    obtain ⟨⟨r', h1, h2⟩, h3, h4⟩ := executePhase_decoded (hE.trans hs) (h.slotE r hs) (hf.trans h.flags)
    have hl : x.live (e + 1) := hd ▸ h.live
    refine ⟨fun r'' hr' => ?_, by rw [h1]; rfl, ?_, fun i hi => ?_, ?_⟩
    · rw [h1] at hr'
      cases hr'
      exact h2
    · rw [h3, hd, Fetched.after_flags]
    · unfold State.reg
      rw [h4, hr]
      split
      · simp only [Fin.getElem_fin, Vector.getElem_set]
        rw [if_neg (by simpa [Fin.ext_iff] using Ne.symm hi)]
      · rfl
    · subst hx
      rw [hd, Fetched.after_pc (ho.at hl).1]
      unfold State.pc State.reg
      rw [h4, hr]
      cases (a.start.after e).taken
      · simp
      · simp [regPC]

/-- The registers that the instruction in D uses, when none of the older ones uses them, are already what it will find (R267). -/
theorem Follows.snapshot {x : Fetched} {u : Bool} {s : State} {c m e d : Nat} (h : Follows x u s c m e d) {i : Reg}
    (hi : i ≠ 15) (hE : i ∉ slotUses s.slotE) (hM : i ∉ slotUses s.slotM) (hW : i ∉ slotUses s.slotW) :
    s.reg i = (x.after d).arch.reg i := by
  have hcm := h.cm
  have hme := h.me
  have hed := h.ed
  rw [h.regs i hi, Fetched.reg_of_not_uses (x := x) (c := c) (d := d) (by omega) hi]
  intro j h1 h2
  have hslot : ∀ {slot : Option Record} {r : Record}, slot = some r → r.raw = (x.after j).word → i ∉ slotUses slot →
      i ∉ (decode (x.after j).word).uses := by
    rintro slot r rfl hraw hi'
    rw [← Carries.instr hraw]
    exact hi'
  have hj : (j = c ∧ count s.slotW = 1) ∨ (j = m ∧ count s.slotM = 1) ∨ (j = e ∧ count s.slotE = 1) := by
    rcases count_cases s.slotW with h3 | ⟨-, -, h3⟩ <;> rcases count_cases s.slotM with h4 | ⟨-, -, h4⟩ <;>
      rcases count_cases s.slotE with h5 | ⟨-, -, h5⟩ <;> omega
  have hsome : ∀ {slot : Option Record}, count slot = 1 → ∃ r, slot = some r := by
    intro slot h3
    rcases count_cases slot with h4 | ⟨r, h4, -⟩
    · omega
    · exact ⟨r, h4⟩
  rcases hj with ⟨rfl, h3⟩ | ⟨rfl, h3⟩ | ⟨rfl, h3⟩ <;> obtain ⟨r, hs⟩ := hsome h3
  · exact hslot hs (h.slotW r hs).raw hW
  · exact hslot hs (h.slotM r hs).raw hM
  · exact hslot hs (h.slotE r hs).raw hE

/-- Phase 1 on the record in D: if it is marked decoded it is ready to be executed (R266, R267). -/
theorem Follows.decoded {x : Fetched} {u : Bool} {s : State} {c m e d : Nat} (h : Follows x u s c m e d) {r : Record}
    (hc : Carries (x.after d) r) (ho : (decode (x.after d).word).namesPC = false)
    (hd : (s.decodedRecord r).decoded = true) : Decoded (x.after d) (s.decodedRecord r) := by
  have hi : r.instr = decode (x.after d).word := Carries.instr hc.raw
  rw [decodedRecord_decoded] at hd
  have he : s.decodedRecord r = s.snapshot r.instr.fields r := if_pos hd
  rw [State.hazardFree_iff] at hd
  rw [he]
  rw [hi] at hd ⊢
  have hreg : ∀ i : Reg, i ≠ 15 → i ∈ (decode (x.after d).word).fields.uses → s.reg i = (x.after d).arch.reg i :=
    fun i h1 h2 => h.snapshot h1 (hd i h2).1 (hd i h2).2.1 (hd i h2).2.2
  obtain ⟨h1, h2, h3⟩ := sources_ne_pc ho
  refine ⟨⟨hc.raw, hc.pc⟩, fun hm => ?_, fun hu => hreg _ (h1 hu) (mem_uses_rn hu), fun hu => hreg _ (h2 hu) (mem_uses_rm hu),
    fun hu => hreg _ (h3 hu) (mem_uses_rs hu)⟩
  exact hreg _ (ne_pc_of_uses ho (by simp [hm]) (mem_uses_rd (memory_tags hm).1)) (mem_uses_rd (memory_tags hm).1)

/-- Phases 0 to 3 of a step whose memory stage does not wait (R262). -/
theorem Follows.work {x : Fetched} {u : Bool} {s : State} {a : Arch} {c m e d : Nat} (hx : x = a.start)
    (h : Follows x u s c m e d) (ho : x.orderlyRun) (hw : s.memoryWaits = false) : Worked x u (workState s) m e d := by
  obtain ⟨hcoh, hmem⟩ := h.memory
  obtain ⟨hM, hmem⟩ : (∀ r, (phaseState .memory { s with mwait := false }).slotM = some r → Accessed (x.after m) r) ∧
      ∀ a < 2 ^ 30, (phaseState .memory { s with mwait := false }).wordAt u a = readWord (x.after e).arch.cells a := by
    rcases hmem with ⟨h', -⟩ | ⟨-, h'⟩
    · rw [hw] at h'
      cases h'
    · exact h'
  have hX := h.execute (v := phaseState .decode (phaseState .memory { s with mwait := false })) hx ho (by simp) (by simp)
    (by simp)
  have hflow := workState_flow hw
  have hW := h.writeback (v := phaseState .sentinel (phaseState .execute (phaseState .decode
    (phaseState .memory { s with mwait := false })))) ho (by simp) fun i hi => by
      rw [State.reg_congr (sentinelPhase_regs _) i]
      exact hX.2.2.2.1 i hi
  rw [← workState_of_ready hw] at hW
  have hpc : (workState s).pc = if s.branchTaken then (x.after d).pc else s.pc :=
    hW.2.trans ((State.reg_congr (sentinelPhase_regs _) _).trans hX.2.2.2.2)
  have hE : (workState s).slotE =
      (phaseState .execute (phaseState .decode (phaseState .memory { s with mwait := false }))).slotE := by
    rw [workState_of_ready hw]
    simp
  have hcM : count (workState s).slotM = count s.slotM := by
    rw [workState_slotM]
    rcases memoryPhase_slotM { s with mwait := false } with h1 | ⟨r, w, h1, -, -, -, h2⟩
    · rw [h1]
    · rw [h2]
      exact (congrArg count h1).symm
  have hbr := h.branchTaken
  have hfront : s.branchTaken = false → Straight x s.pc s.halted d [s.slotD, s.slotF] := by
    intro hb
    apply h.front
    rw [hbr] at hb
    cases hs : s.slotE
    · exact .inl rfl
    · rw [hs] at hb
      exact .inr (by simpa using hb)
  have hhalt : s.branchTaken = true → s.halted = false := by
    intro hb
    cases hh : s.halted
    · rfl
    · rw [hbr, (h.halted hh).1] at hb
      cases hb
  refine ⟨h.me.trans (by rw [hcM]), h.ed.trans (by rw [hE, hX.2.1]), h.live, hW.1, ?_, fun b hb => ?_,
    fun r hr => hM r (by rwa [workState_slotM] at hr), fun r hr => hX.1 r (hE ▸ hr), fun r hr => ?_, ?_, fun hb => ?_, fun hu => ?_, ?_⟩
  · rw [workState_of_ready hw, writebackPhase_flags, sentinelPhase_flags]
    exact hX.2.2.1
  · exact (State.wordAt_congr (by simp) (by simp) u b).trans (hmem b hb)
  · rcases hflow with ⟨-, -, h2, -⟩ | ⟨-, -, -, h2, -⟩ | ⟨hb, hs, -, h2, -⟩
    · rw [h2] at hr
      cases hr
    · rw [h2] at hr
      cases hr
    · rw [h2] at hr
      obtain ⟨r0, hD, rfl⟩ := Option.map_eq_some_iff.mp hr
      have hf := hfront hb
      rw [hD] at hf
      have hne : (x.after d).word ≠ sentinelWord := by
        rw [← hf.1.raw]
        simpa [State.sentinelInD, hD] using hs
      exact ⟨hne, h.decoded hf.1 (ho.at (h.live.succ hne)).1⟩
  · rcases hflow with ⟨hb, h1, h2, h3⟩ | ⟨hb, hs, h1, h2, h3⟩ | ⟨hb, hs, h1, h2, h3⟩
    · rw [h1, h2, h3, hhalt hb, hpc, hb]
      rfl
    · rw [h1, h2, h3]
      have hf := hfront hb
      cases hD : s.slotD with
      | none => simp [State.sentinelInD, hD] at hs
      | some r =>
        rw [hD] at hf
        show (x.after d).word = sentinelWord
        rw [← hf.1.raw]
        simpa [State.sentinelInD, hD] using hs
    · rw [h1, h2, h3, hpc, hb]
      have hf := hfront hb
      cases hD : s.slotD with
      | none =>
        rw [hD] at hf
        exact hf
      | some r =>
        rw [hD] at hf
        exact ⟨⟨(decodedRecord_raw _ _).trans hf.1.raw, (decodedRecord_pc _ _).trans hf.1.pc⟩, hf.2⟩
  · rcases hflow with ⟨-, h1, h2, -⟩ | ⟨-, -, h1, h2, -⟩ | ⟨-, -, h1, h2, h3⟩
    · exact ⟨h2, h1⟩
    · exact ⟨h2, h1⟩
    · obtain ⟨-, h4, h5⟩ := h.halted (h3 ▸ hb)
      rw [h1, h2, h4, h5]
      exact ⟨rfl, rfl⟩
  · exact (State.memoryCoherent_congr (by simp) (by simp)).trans (hcoh hu)
  · simpa using h.inputs

/-! ### The advance -/

/-- The word that the next fetch finds is the word the next instruction has, since no store to it is still pending (R77). -/
theorem Fetched.word_at_fetch {a : Arch} (ho : a.start.orderlyRun) {e n : Nat} (hen : e ≤ n) (hn : n ≤ e + 3)
    (hl : a.start.live n) (hs : ∀ j, e ≤ j → j + 1 < n → (a.start.after (j + 1)).turns = false)
    (ha : aligned (a.start.after n).pc = true) :
    (a.start.after n).word = readWord (a.start.after e).arch.cells (flatAddr (a.start.after n).pc) := by
  rw [Fetched.after_word, if_pos ha, Fetched.word_of_not_stored hen (flatAddr_lt _)]
  intro j h1 h2 hst
  have hj := ho.at (hl.mono (by omega : j + 1 ≤ n))
  have hturn : (a.start.after j).turns = false := by
    refine Fetched.turns_false ?_ (hl j h2)
    rw [Fetched.stored_eq] at hst
    unfold Fetched.taken
    cases hc : (decode (a.start.after j).word).fields.cls <;> simp_all
  obtain ⟨i, rfl⟩ : ∃ i, n = j + (i + 1) := ⟨n - j - 1, by omega⟩
  refine hj.2 (a.start.after (j + (i + 1))).pc ?_ ha hst
  rw [← Fetched.after_add]
  refine Fetched.mem_fetchesAfter (by omega) fun l hl' => ?_
  rw [Fetched.after_add]
  cases l with
  | zero => exact hturn
  | succ l => exact hs (j + l) (by omega) (by omega)

/-- A fetch that leaves a record at the address of instruction `n` leaves that instruction, and the program counter is past it. -/
theorem Worked.fetch {x : Fetched} {u : Bool} {w : State} {a : Arch} {m e d n : Nat} (hx : x = a.start)
    (h : Worked x u w m e d) (ho : x.orderlyRun) (hlow : e ≤ n) (hhigh : n ≤ e + 3) (hl : x.live n)
    (hs : ∀ j, e ≤ j → j + 1 < n → (x.after (j + 1)).turns = false) (hpc : w.pc = (x.after n).pc) {r : Record} {v : Word}
    (hu : w.shift.input.useCache = u)
    (hd : (w.shift.memRead w.shift.input.useCache w.shift.pc).1 = .done v)
    (hr : r = newRecord v w.pc) : Carries (x.after n) r := by
  subst hx hr
  refine ⟨?_, hpc⟩
  show v = _
  have hpc' : w.shift.pc = (a.start.after n).pc := hpc
  cases ha : aligned (a.start.after n).pc
  · rw [State.memRead_misaligned (by rw [hpc']; exact ha)] at hd
    injection hd with hd
    rw [← hd, Fetched.after_word, ha]
    rfl
  · have hc : w.shift.input.useCache = true → w.shift.memoryCoherent = true := fun h' =>
      (State.memoryCoherent_congr (s := w) rfl rfl).trans (h.coherent (hu ▸ h'))
    rcases (State.memRead_spec (s := w.shift) (a := w.shift.pc) (by rw [hpc']; exact ha) hc).2.2 with h' | h' <;> rw [h'] at hd
    · cases hd
    · injection hd with hd
      rw [← hd, hpc', hu, Fetched.word_at_fetch ho hlow hhigh hl hs ha]
      exact (State.wordAt_congr (s := w) rfl rfl u _).trans (h.mem _ (flatAddr_lt _))

theorem Fetched.live.straight {x : Fetched} {d n : Nat} (h : x.live d) (hs : ∀ k, d ≤ k → k < n → (x.after k).turns = false) :
    x.live n := by
  intro j hj
  by_cases hd : j < d
  · exact h j hd
  · exact (Fetched.not_taken (hs j (by omega) hj)).2

/-- What a shift leaves in F: nothing, or the next instruction, if the slots before it hold no turn. -/
def Fetches (x : Fetched) (e d : Nat) (w t : State) : Prop :=
  (t.slotF = none ∧ t.pc = w.pc) ∨
    (w.halted = false ∧ t.pc = w.pc + 4 ∧ ∃ r, t.slotF = some r ∧
      ∀ n, d ≤ n → n ≤ e + 3 → (∀ k, d ≤ k → k < n → (x.after k).turns = false) → w.pc = (x.after n).pc →
        Carries (x.after n) r)

/-- The slots after a shift. -/
theorem Worked.front_shift {x : Fetched} {u : Bool} {w t : State} {a : Arch} {m e d : Nat} (hx : x = a.start)
    (h : Worked x u w m e d) (ho : x.orderlyRun) (hD : t.slotD = w.slotF) (hh : t.halted = w.halted)
    (hF : Fetches x e d w t) (ht : w.slotD = none ∨ (x.after d).taken = false) :
    Straight x t.pc t.halted (d + count w.slotD) [t.slotD, t.slotF] := by
  have hde : d ≤ e + 1 := by
    have := h.ed
    rcases count_cases w.slotE with h3 | ⟨-, -, h3⟩ <;> omega
  have hde' : e ≤ d := by have := h.ed; omega
  have hfront := h.front
  rw [hD, hh]
  rcases hF with ⟨h1, h2⟩ | ⟨h0, h1, r, h2, h3⟩
  · rw [h1, h2]
    cases hsD : w.slotD with
    | none =>
      rw [hsD] at hfront
      cases hsF : w.slotF <;> (rw [hsF] at hfront; exact hfront)
    | some rd =>
      rw [hsD] at hfront ht
      have hturn := Fetched.turns_false (ht.resolve_left (by simp)) (h.slotD rd hsD).1
      have hf := hfront.2 hturn
      cases hsF : w.slotF <;> (rw [hsF] at hf; exact hf)
  · rw [h1, h2]
    have hlast : ∀ n, d ≤ n → n ≤ e + 3 → (∀ k, d ≤ k → k < n → (x.after k).turns = false) → w.pc = (x.after n).pc →
        Straight x (w.pc + 4) w.halted n [some r] := by
      intro n hn1 hn2 hn3 hn4
      refine ⟨h3 n hn1 hn2 hn3 hn4, fun hturn => ?_⟩
      obtain ⟨hk, hne⟩ := Fetched.not_taken hturn
      have hl := ((h.live.straight hn3).succ hne)
      show if w.halted = true then _ else _
      rw [h0, if_neg (by simp)]
      subst hx
      rw [Fetched.after_pc (ho.at hl).1, hk, hn4]
      rfl
    have hpc : ∀ n, Straight x w.pc w.halted n [] → w.pc = (x.after n).pc := by
      intro n hn
      have : if w.halted = true then _ else _ := hn
      rwa [h0, if_neg (by simp)] at this
    cases hsD : w.slotD with
    | none =>
      rw [hsD] at hfront
      cases hsF : w.slotF with
      | none =>
        rw [hsF] at hfront
        exact hlast d (Nat.le_refl _) (by omega) (fun k _ _ => by omega) (hpc _ hfront)
      | some rf =>
        rw [hsF] at hfront
        refine ⟨hfront.1, fun hturn => ?_⟩
        exact hlast (d + 1) (by omega) (by omega) (fun k h4 h5 => by obtain rfl : k = d := by omega
                                                                     exact hturn) (hpc _ (hfront.2 hturn))
    | some rd =>
      rw [hsD] at hfront ht
      have hturn := Fetched.turns_false (ht.resolve_left (by simp)) (h.slotD rd hsD).1
      have hf := hfront.2 hturn
      cases hsF : w.slotF with
      | none =>
        rw [hsF] at hf
        exact hlast (d + 1) (by omega) (by omega) (fun k h4 h5 => by obtain rfl : k = d := by omega
                                                                     exact hturn) (hpc _ hf)
      | some rf =>
        rw [hsF] at hf
        refine ⟨hf.1, fun hturn' => ?_⟩
        refine hlast (d + 1 + 1) (by omega) (by omega) (fun k h4 h5 => ?_) (hpc _ (hf.2 hturn'))
        rcases (by omega : k = d ∨ k = d + 1) with rfl | rfl
        · exact hturn
        · exact hturn'

/-- A shift, with or without a fetch, keeps the pipeline following (R276). -/
theorem Worked.shift {x : Fetched} {u : Bool} {w t : State} {a : Arch} {m e d : Nat} (hx : x = a.start)
    (h : Worked x u w m e d) (ho : x.orderlyRun) (hheld : w.held = false) (hW : t.slotW = w.slotM) (hM : t.slotM = w.slotE)
    (hE : t.slotE = w.slotD) (hD : t.slotD = w.slotF) (hr : ∀ r : Reg, r ≠ 15 → t.reg r = w.reg r)
    (hf : t.flags = w.flags) (hh : t.halted = w.halted) (hm : ∀ a < 2 ^ 30, t.wordAt u a = w.wordAt u a)
    (hc : u = true → t.memoryCoherent = true) (hi : ∀ i ∈ t.lines :: t.inputs, i.useCache = u ∧ i.inject = none)
    (hF : Fetches x e d w t) : Follows x u t m e d (d + count w.slotD) := by
  refine ⟨by rw [hW]; exact h.me, by rw [hM]; exact h.ed, by rw [hE], ?_, fun r hr' => (hr r hr').trans (h.regs r hr'),
    hf.trans h.flags, fun b hb => (hm b hb).trans (h.mem b hb), fun r hr' => h.slotM r (hW ▸ hr'),
    fun r hr' => h.slotE r (hM ▸ hr'), fun r hr' => ?_, fun ht => ?_, fun hb => ?_, hc, hi⟩
  · cases hsD : w.slotD with
    | none => exact h.live
    | some r => exact h.live.succ (h.slotD r hsD).1
  · rw [hE] at hr'
    refine (h.slotD r hr').2 ?_
    simpa [State.held, hr'] using hheld
  · rw [hE] at ht
    exact h.front_shift hx ho hD hh hF ht
  · obtain ⟨h1, h2⟩ := h.halted (hh ▸ hb)
    refine ⟨hE.trans h1, hD.trans h2, ?_⟩
    rcases hF with ⟨h3, -⟩ | ⟨h3, -⟩
    · exact h3
    · rw [hh, h3] at hb
      cases hb

/-- The advance of a step whose memory stage does not wait keeps the pipeline following (R276). -/
theorem Worked.advance {x : Fetched} {u : Bool} {w : State} {a : Arch} {m e d : Nat} (hx : x = a.start)
    (h : Worked x u w m e d) (ho : x.orderlyRun) (hw : w.mwait = false) :
    ∃ d', d ≤ d' ∧ (w.held = false → d' = d + count w.slotD) ∧ Follows x u w.advance.endCycle m e d d' := by
  have hin := endCycle_inputs h.inputs
  rcases w.advance_cases with ⟨h0, -⟩ | ⟨-, hheld, he⟩ | ⟨-, hheld, he⟩ | ⟨-, hheld, hhalt, -, he⟩
  · rw [hw] at h0
    cases h0
  · rw [he]
    refine ⟨d, Nat.le_refl d, fun hn => by (rw [hheld] at hn; cases hn), h.me, h.ed, rfl, h.live, h.regs, h.flags, h.mem, h.slotM, h.slotE, fun r hr => ?_, fun _ => h.front,
      fun hb => ?_, h.coherent, hin⟩
    · cases hr
    · obtain ⟨h1, h2⟩ := h.halted hb
      exact ⟨rfl, h1, h2⟩
  · rw [he]
    refine ⟨_, Nat.le_add_right _ _, fun _ => rfl, h.shift (t := w.shift.endCycle) hx ho hheld rfl rfl rfl rfl (fun _ _ => rfl) rfl rfl (fun _ _ => rfl) ?_ hin
      (.inl ⟨rfl, rfl⟩)⟩
    exact h.coherent
  · have hinput : w.shift.input.useCache = u ∧ w.shift.input.inject = none := by
      refine h.inputs _ ?_
      show w.inputs.headD w.lines ∈ _
      cases w.inputs <;> simp
    have hcoh : w.shift.input.useCache = true → w.shift.memoryCoherent = true := fun h' => h.coherent (hinput.1 ▸ h')
    have hkeep := State.memRead_keeps (s := w.shift) (u := w.shift.input.useCache) (a := w.shift.pc) hcoh
    have hmem : w.shift.fetch.mem = (w.shift.memRead w.shift.input.useCache w.shift.pc).2.mem := by
      rcases w.shift.fetch_cases with ⟨v, hj, -⟩ | ⟨-, -, h'⟩ | ⟨v, -, -, h'⟩
      · rw [hinput.2] at hj
        cases hj
      · rw [h']
      · rw [h']
        rfl
    have hreg : ∀ r : Reg, r ≠ 15 → w.shift.fetch.reg r = w.reg r := fun r hr => by
      rcases w.shift.fetch_result with ⟨-, h'⟩ | ⟨v, -, h'⟩
      · exact State.reg_congr h' r
      · exact (State.reg_congr (t := w.shift.setReg 15 (w.shift.pc + 4)) h' r).trans
          (State.reg_setReg_of_ne _ _ (Ne.symm hr))
    rw [he]
    refine ⟨_, Nat.le_add_right _ _, fun _ => rfl, h.shift (t := w.shift.fetch.endCycle) hx ho hheld (w.shift.fetch_slotW) (w.shift.fetch_slotM)
      (w.shift.fetch_slotE) (w.shift.fetch_slotD) hreg (w.shift.fetch_flags) (w.shift.fetch_halted) (fun b hb => ?_)
      (fun hu => ?_) (endCycle_inputs ?_) ?_⟩
    · refine (State.wordAt_congr (s := (w.shift.memRead w.shift.input.useCache w.shift.pc).2) ?_ hmem u b).trans ?_
      · exact w.shift.fetch_chain.trans (State.memRead_chain _ _ _).symm
      · rw [← hinput.1]
        exact hkeep.2 b hb
    · refine (State.memoryCoherent_congr (s := (w.shift.memRead w.shift.input.useCache w.shift.pc).2) ?_ hmem).trans ?_
      · exact w.shift.fetch_chain.trans (State.memRead_chain _ _ _).symm
      · exact hkeep.1 (hinput.1.trans hu)
    · simpa using h.inputs
    · rcases w.shift.fetch_cases with ⟨v, hj, -⟩ | ⟨-, -, h'⟩ | ⟨v, -, hv, h'⟩
      · rw [hinput.2] at hj
        cases hj
      · left
        rw [h']
        exact ⟨State.memRead_slotF _ _ _, State.reg_congr (State.memRead_regs _ _ _) _⟩
      · refine .inr ⟨hhalt, ?_, newRecord v w.pc, ?_, fun n h1 h2 h3 h4 => ?_⟩
        · rw [h']
          show State.reg (State.fetched _ v) 15 = _
          rw [State.fetched, State.reg_setReg]
          simp only [regPC, if_true, State.pc, State.reg]
          simp
        · rw [h']
          show some (newRecord v _) = _
          rw [State.pc, State.reg_congr (State.memRead_regs _ _ _)]
          rfl
        · have hed := h.ed
          refine h.fetch hx ho (by omega) h2 (h.live.straight h3) (fun j h5 h6 => h3 (j + 1) ?_ h6) h4 hinput.1 hv rfl
          rcases count_cases w.slotE with h7 | ⟨-, -, h7⟩ <;> omega

/-- A step whose memory stage does not wait takes every instruction one stage on, but for a hold in D (R261, R276). -/
theorem Follows.ready {x : Fetched} {u : Bool} {s t : State} {a : Arch} {c m e d : Nat} (hx : x = a.start)
    (h : Follows x u s c m e d) (ho : x.orderlyRun) (hw : s.memoryWaits = false) (ht : Machine.step s = .next t) :
    ∃ d', d ≤ d' ∧ ((workState s).held = false → d' = d + count (workState s).slotD) ∧ Follows x u t m e d d' := by
  rw [step_next ht]
  exact (h.work hx ho hw).advance hx ho ((workState_mwait s).trans hw)

/-- Every step keeps the pipeline following the one-at-a-time machine (R283). -/
theorem Follows.step {x : Fetched} {u : Bool} {s t : State} {a : Arch} {c m e d : Nat} (hx : x = a.start)
    (h : Follows x u s c m e d) (ho : x.orderlyRun) (ht : Machine.step s = .next t) :
    ∃ c' m' e' d', Follows x u t c' m' e' d' := by
  cases hw : s.memoryWaits
  · obtain ⟨d', -, -, h'⟩ := h.ready hx ho hw ht
    exact ⟨_, _, _, _, h'⟩
  · rw [step_next ht]
    exact ⟨_, _, _, _, h.wait ho hw⟩

/-- The pipeline starts at the first instruction: nothing in the slots, the program counter at it (R42). -/
theorem follows_initial {s : State} {u : Bool} {a : Arch} (hF : s.slotF = none) (hD : s.slotD = none) (hE : s.slotE = none)
    (hM : s.slotM = none) (hW : s.slotW = none) (hh : s.halted = false) (hr : ∀ r : Reg, s.reg r = a.reg r)
    (hf : s.flags = a.flags) (hm : ∀ b < 2 ^ 30, s.wordAt u b = readWord a.cells b)
    (hc : u = true → s.memoryCoherent = true) (hi : ∀ i ∈ s.lines :: s.inputs, i.useCache = u ∧ i.inject = none) :
    Follows a.start u s 0 0 0 0 := by
  have hnone : ∀ {P : Record → Prop} {slot : Option Record}, slot = none → ∀ r, slot = some r → P r := by
    rintro P slot rfl r hr
    cases hr
  refine ⟨by rw [hW]; rfl, by rw [hM]; rfl, by rw [hE]; rfl, fun j hj => by omega, fun r hr' => ?_, ?_, fun b hb => ?_,
    hnone hW, hnone hM, hnone hE, fun _ => ?_, fun _ => ⟨hE, hD, hF⟩, hc, hi⟩
  · exact (hr r).trans (a.start_reg hr').symm
  · exact hf.trans a.start_flags.symm
  · refine (hm b hb).trans ?_
    show _ = readWord a.start.arch.cells b
    rw [a.start_cells]
  · rw [hD, hF, hh]
    exact hr 15

/-- When the core has drained, it has followed the one-at-a-time machine to the sentinel (R278, R283). -/
theorem Follows.drained {x : Fetched} {u : Bool} {s : State} {c m e d : Nat} (h : Follows x u s c m e d)
    (hs : s.stillRunning = false) : Fetched.run d x = some (x.after d) ∧ (x.after d).word = sentinelWord ∧
      (∀ r : Reg, r ≠ 15 → s.reg r = (x.after d).arch.reg r) ∧ s.flags = (x.after d).arch.flags ∧
      ∀ b < 2 ^ 30, s.wordAt u b = readWord (x.after d).arch.cells b := by
  simp only [State.stillRunning, State.drained, Bool.not_eq_false', Bool.and_eq_true, Option.isNone_iff_eq_none] at hs
  obtain ⟨⟨hh, hF⟩, ⟨⟨hD, hE⟩, hM⟩, hW⟩ := hs
  have hcm := h.cm
  have hme := h.me
  have hed := h.ed
  rw [hW] at hcm
  rw [hM] at hme
  rw [hE] at hed
  obtain rfl : m = c := hcm
  obtain rfl : e = m := hme
  obtain rfl : d = e := hed
  refine ⟨Fetched.run_of_live h.live, ?_, h.regs, h.flags, h.mem⟩
  have := h.front (.inl hE)
  rw [hD, hF, hh] at this
  exact this

end Sys2Proof.Machine
end

