-- ==== Sys2Proof/Laws/Completes.lean ====
section
/-!
SUPPORT. Every access completes (R120 to R122): polled again and again, with nothing else in between, any chain of caches in
any state answers after finitely many polls.
-/

namespace Sys2Proof.Machine

/-- Polling `f` again and again from state `x` comes to an answer. -/
inductive Completes {σ α : Type} (f : σ → Poll α × σ) : σ → Prop where
  | done {x : σ} : (f x).1 ≠ .waiting → Completes f x
  | wait {x : σ} : (f x).1 = .waiting → Completes f (f x).2 → Completes f x

theorem poll_cases {α : Type} (p : Poll α) : p = .waiting ∨ ∃ a, p = .done a := by
  cases p with
  | waiting => exact .inl rfl
  | done a => exact .inr ⟨a, rfl⟩

/-- An access whose poll is, step by step, a poll of `f` until that answers completes, if `f` completes. -/
theorem Completes.of_steps {σ τ α β : Type} {f : σ → Poll α × σ} {k : τ → Poll β × τ} (emb : σ → τ)
    (hw : ∀ x, (f x).1 = .waiting → k (emb x) = (.waiting, emb (f x).2))
    (hd : ∀ x, (f x).1 ≠ .waiting → Completes k (emb x)) {x : σ} (h : Completes f x) : Completes k (emb x) := by
  induction h with
  | done h => exact hd _ h
  | wait h _ ih => exact .wait (by rw [hw _ h]) (by rw [hw _ h]; exact ih)

/-- A latency gate in front of an access that completes past it (R120). -/
theorem Completes.of_gate {τ β : Type} {k : τ → Poll β × τ} (timer : τ → Nat) (latency : Nat)
    (hw : ∀ y, timer y < latency → (k y).1 = .waiting ∧ timer (k y).2 = timer y + 1)
    (hd : ∀ y, ¬ timer y < latency → Completes k y) (y : τ) : Completes k y := by
  induction hn : latency - timer y generalizing y with
  | zero => exact hd y (by omega)
  | succ n ih =>
    obtain ⟨h1, h2⟩ := hw y (by omega)
    exact .wait h1 (ih _ (by omega))

/-- The terminal level (R120). -/
theorem terminalAccess_completes (latency : Nat) (r : Request) (b : Backing) : Completes (terminalAccess latency r) b := by
  refine Completes.of_gate (fun b => timerAt b.timer r.addr) latency (fun b hb => ?_) (fun b hb => .done ?_) b
  · simp only [terminalAccess, if_pos hb, true_and, timerAt_setTimer, if_true]
  · simp only [terminalAccess, if_neg hb]
    cases r.kind <;> simp

/-! ### A cache level -/

/-- One poll of a level as a function of its own state and the state below. -/
def levelPoll (g : Geometry) (next : Request → Hierarchy → Poll (List Word) × Hierarchy) (r : Request)
    (x : CacheState × Hierarchy) : Poll (List Word) × CacheState × Hierarchy := cacheAccess g next r x.1 x.2

theorem serve_done (g : Geometry) (r : Request) (w : Nat) (c : CacheState) : (serve g r w c).1 ≠ .waiting := by
  simp [serve]

/-- The fill: it waits with the level below, which alone changes, and answers when that does (R114). -/
theorem fillAndServe_cases (g : Geometry) (next : Request → Hierarchy → Poll (List Word) × Hierarchy) (r : Request) (v : Nat)
    (c : CacheState) (h : Hierarchy) :
    let below := next { kind := .read, addr := g.base r.addr, n := g.wordsPerLine, data := [] }
    ((below h).1 = .waiting → fillAndServe g next r v c h = (.waiting, c, (below h).2)) ∧
      ((below h).1 ≠ .waiting → (fillAndServe g next r v c h).1 ≠ .waiting) := by
  dsimp only
  unfold fillAndServe
  split
  · rename_i h1 e
    rw [e]
    exact ⟨fun _ => rfl, fun h => absurd rfl h⟩
  · rename_i block h1 e
    rw [e]
    exact ⟨fun h => (by cases h), fun _ => serve_done _ _ _ _⟩

/-- A level past its latency gate whose victim need not be written back: it fills (R114). -/
theorem levelPoll_completes_fill {g : Geometry} {next : Request → Hierarchy → Poll (List Word) × Hierarchy}
    (hnext : ∀ r h, Completes (next r) h) {r : Request} {c : CacheState} (ht : ¬ timerAt c.timer r.addr < g.latency)
    (hh : findHit (c.set (g.index r.addr)) (g.tag r.addr) = none)
    (hv : ((lineAt (c.set (g.index r.addr)) (findLRU (c.set (g.index r.addr)))).occupied &&
      (lineAt (c.set (g.index r.addr)) (findLRU (c.set (g.index r.addr)))).dirty) = false) (h : Hierarchy) :
    Completes (levelPoll g next r) (c, h) := by
  have he : ∀ h, levelPoll g next r (c, h) = fillAndServe g next r (findLRU (c.set (g.index r.addr))) c h := by
    intro h
    simp only [levelPoll, cacheAccess, if_neg ht, hh, missAccess]
    rw [if_neg (by rw [hv]; simp)]
  refine Completes.of_steps (f := next { kind := .read, addr := g.base r.addr, n := g.wordsPerLine, data := [] })
    (fun h => (c, h)) (fun h hw => ?_) (fun h hd => .done ?_) (hnext _ h)
  · rw [he]
    exact (fillAndServe_cases g next r _ c h).1 hw
  · rw [he]
    exact (fillAndServe_cases g next r _ c h).2 hd

/-- A set with an empty way: its next victim is empty (R103). -/
theorem findLRU_empty {lines : List Line} {v : Nat} (hv : v < lines.length) (h : (lineAt lines v).occupied = false) :
    (lineAt lines (findLRU lines)).occupied = false := by
  have hex : ∃ w, findEmpty lines = some w := by
    induction lines generalizing v with
    | nil => simp at hv
    | cons l rest ih =>
      unfold findEmpty
      split
      · exact ⟨0, rfl⟩
      · rename_i hl
        cases v with
        | zero => simp [lineAt] at h hl; simp [h] at hl
        | succ v =>
          obtain ⟨w, hw⟩ := ih (v := v) (by simpa using hv) h
          exact ⟨w + 1, by rw [hw]; rfl⟩
  obtain ⟨w, hw⟩ := hex
  have : findLRU lines = w := by
    unfold findLRU
    rw [hw]
  rw [this]
  exact (findEmpty_lt hw).2

/-- An eviction makes no hit (R113). -/
theorem findHit_evict {lines : List Line} {t v : Nat} (h : findHit lines t = none) :
    findHit (lines.set v (lineAt lines v).evict) t = none := by
  induction lines generalizing v with
  | nil => rfl
  | cons l rest ih =>
    simp only [findHit] at h
    split at h
    · cases h
    · rename_i hl
      cases v with
      | zero =>
        simp only [List.set_cons_zero, findHit, Line.isHit, lineAt, List.getD_cons_zero, Line.evict]
        simpa using h
      | succ v =>
        simp only [List.set_cons_succ, findHit, hl]
        simpa [lineAt] using ih (v := v) (by simpa using h)

theorem lineAt_occupied_lt {lines : List Line} {v : Nat} (h : (lineAt lines v).occupied = true) : v < lines.length := by
  by_contra hv
  unfold lineAt at h
  rw [List.getD_eq_default _ _ (by omega)] at h
  cases h

/-- A level past its latency gate, whatever its state. -/
theorem levelPoll_completes_ready {g : Geometry} {next : Request → Hierarchy → Poll (List Word) × Hierarchy}
    (hnext : ∀ r h, Completes (next r) h) {r : Request} {c : CacheState} (ht : ¬ timerAt c.timer r.addr < g.latency)
    (h : Hierarchy) : Completes (levelPoll g next r) (c, h) := by
  cases hh : findHit (c.set (g.index r.addr)) (g.tag r.addr) with
  | some w =>
    refine .done ?_
    simp only [levelPoll, cacheAccess, if_neg ht, hh]
    exact serve_done _ _ _ _
  | none =>
    cases hv : ((lineAt (c.set (g.index r.addr)) (findLRU (c.set (g.index r.addr)))).occupied &&
      (lineAt (c.set (g.index r.addr)) (findLRU (c.set (g.index r.addr)))).dirty)
    · exact levelPoll_completes_fill hnext ht hh hv h
    · generalize hl : c.set (g.index r.addr) = lines at hh hv
      generalize hw : findLRU lines = v at hv
      have hlt : v < lines.length := lineAt_occupied_lt (by simp at hv; exact hv.1)
      have hi : g.index r.addr < c.sets.length := by
        by_contra hi
        rw [CacheState.set, List.getD_eq_default _ _ (by omega)] at hl
        rw [← hl] at hlt
        simp at hlt
      have hset : (c.putSet (g.index r.addr) (lines.set v (lineAt lines v).evict)).set (g.index r.addr) =
          lines.set v (lineAt lines v).evict := by rw [set_putSet hi, if_pos rfl]
      obtain ⟨q, hq⟩ : ∃ q : Request, q = { kind := .write, addr := g.encode (lineAt lines v).tag (g.index r.addr) 0,
                                             n := g.wordsPerLine, data := (lineAt lines v).words } := ⟨_, rfl⟩
      have hc : ∀ h, Completes (levelPoll g next r) (c.putSet (g.index r.addr) (lines.set v (lineAt lines v).evict), h) := by
        intro h
        refine levelPoll_completes_fill (c := c.putSet (g.index r.addr) (lines.set v (lineAt lines v).evict)) hnext ht (by rw [hset]; exact findHit_evict hh) ?_ h
        rw [hset, findLRU_empty (v := v) (by simpa using hlt)]
        · rfl
        · rw [lineAt_set hlt, if_pos rfl]
          rfl
      have he : ∀ h, levelPoll g next r (c, h) =
          match next q h with
          | (.waiting, h1) => (.waiting, c, h1)
          | (.done _, h1) =>
            fillAndServe g next r v (c.putSet (g.index r.addr) (lines.set v (lineAt lines v).evict)) h1 := by
        intro h
        simp only [levelPoll, cacheAccess, if_neg ht, hl, hh, missAccess, hw, hv, if_true, hq]
        all_goals rfl
      refine Completes.of_steps (f := next q) (fun h => (c, h)) (fun h hwait => ?_) (fun h hdone => ?_)
        (hnext _ h)
      · rw [he]
        split
        · rename_i h1 e
          rw [e]
        · rename_i h1 e
          rw [e] at hwait
          cases hwait
      · have hp := he h
        split at hp
        · rename_i h1 e
          rw [e] at hdone
          exact absurd rfl hdone
        · rename_i h1 e
          have hf := fillAndServe_cases g next r v (c.putSet (g.index r.addr) (lines.set v (lineAt lines v).evict)) h1
          rcases poll_cases (next { kind := .read, addr := g.base r.addr, n := g.wordsPerLine, data := [] } h1).1 with h2 | ⟨b, h2⟩
          · have := hf.1 h2
            rw [this] at hp
            exact .wait (by rw [hp]) (by rw [hp]; exact hc _)
          · refine .done ?_
            rw [hp]
            exact hf.2 (by rw [h2]; simp)

/-- A cache level over a level that completes (R120, R121). -/
theorem levelPoll_completes {g : Geometry} {next : Request → Hierarchy → Poll (List Word) × Hierarchy}
    (hnext : ∀ r h, Completes (next r) h) (r : Request) (x : CacheState × Hierarchy) : Completes (levelPoll g next r) x := by
  refine Completes.of_gate (fun x => timerAt x.1.timer r.addr) g.latency (fun x hx => ?_)
    (fun x hx => levelPoll_completes_ready hnext hx x.2) x
  simp only [levelPoll, cacheAccess, if_pos hx, true_and, timerAt_setTimer, if_true]

/-! ### The chain -/

/-- Every access of every chain completes. -/
theorem access_completes (latency : Nat) (gs : List Geometry) (r : Request) (h : Hierarchy) :
    Completes (access latency gs r) h := by
  have hterm : ∀ (gs : List Geometry) (r : Request) (h : Hierarchy), (gs = [] ∨ h.caches = []) →
      Completes (access latency gs r) h := by
    intro gs r h hg
    have he : ∀ b, access latency gs r { h with backing := b } =
        ((terminalAccess latency r b).1, { h with backing := (terminalAccess latency r b).2 }) := by
      intro b
      cases gs with
      | nil => rfl
      | cons g gs =>
        have : h.caches = [] := hg.resolve_left (by simp)
        simp only [access, this]
    exact Completes.of_steps (f := terminalAccess latency r) (k := access latency gs r) (fun b => { h with backing := b })
      (fun b hb => by rw [he, hb]) (fun b hb => .done (by rw [he]; exact hb)) (terminalAccess_completes latency r h.backing)
  induction gs generalizing r h with
  | nil => exact hterm [] r h (.inl rfl)
  | cons g gs ih =>
    obtain ⟨caches, b⟩ := h
    cases caches with
    | nil => exact hterm _ r _ (.inr rfl)
    | cons c cs =>
      have hlevel := levelPoll_completes (g := g) (next := access latency gs) ih r (c, { caches := cs, backing := b })
      exact Completes.of_steps (f := levelPoll g (access latency gs) r)
        (k := access latency (g :: gs) r) (fun x => { caches := x.1 :: x.2.caches, backing := x.2.backing })
        (fun x hx => by
          show ((levelPoll g (access latency gs) r x).1, Hierarchy.mk ((levelPoll g (access latency gs) r x).2.1 :: _) _) = _
          rw [hx]
          rfl)
        (fun x hx => .done hx) hlevel

end Sys2Proof.Machine
end

