-- ==== Sys2Proof/Laws/Drains.lean ====
section
/-!
SUPPORT. The pipeline gets there (R283): as long as the one-at-a-time machine comes to the sentinel, so does the pipeline, in
any mode, over any chain, and the core drains (R254, R278).
-/

namespace Sys2Proof.Machine

/-- After some steps `step` returns false. -/
def State.Drains (s : State) : Prop := ∃ n t, Host.Core.run Sys2Proof.core n s = .next t ∧ t.stillRunning = false

theorem State.Drains.of_drained {s : State} (h : s.stillRunning = false) : s.Drains := ⟨0, s, rfl, h⟩

theorem State.Drains.of_step {s t : State} (hs : Machine.step s = .next t) (ht : t.Drains) : s.Drains := by
  obtain ⟨n, t', h1, h2⟩ := ht
  refine ⟨n + 1, t', ?_, h2⟩
  have hs' : Sys2Proof.core.step s = .next t := hs
  simp only [Host.Core.run, hs']
  exact h1

/-- The next state of every step. -/
def State.stepped (s : State) : State := (workState s).advance.endCycle

theorem State.step_stepped (s : State) : Machine.step s = .next s.stepped := step_eq s

/-- The instruction that ends the run bounds the one in decode. -/
theorem Follows.le {x : Fetched} {u : Bool} {s : State} {c m e d k : Nat} (h : Follows x u s c m e d)
    (hk : (x.after k).word = sentinelWord) : c ≤ m ∧ m ≤ e ∧ e ≤ d ∧ d ≤ k := by
  have h1 := h.cm
  have h2 := h.me
  have h3 := h.ed
  refine ⟨by omega, by omega, by omega, ?_⟩
  by_contra hd
  exact h.live k (by omega) hk

theorem count_eq_zero {slot : Option Record} (h : count slot = 0) : slot = none := by
  cases slot with
  | none => rfl
  | some r => cases h

/-- The request of the load or store in a record (R264). -/
def Record.request (r : Record) : Request :=
  if r.instr.fields.l then { kind := .read, addr := flatAddr r.addr, n := 1, data := [] }
  else { kind := .write, addr := flatAddr r.addr, n := 1, data := [r.vRd] }

/-- A step whose memory stage waits makes one poll of the record in M, which waits, and no other. -/
theorem memoryWaits_poll {s : State} (hw : s.memoryWaits = true) : ∃ r, s.slotM = some r ∧
    (access s.chain.backing.latency (s.path s.input.useCache) r.request s.mem).1 = .waiting ∧
    s.stepped.mem = (access s.chain.backing.latency (s.path s.input.useCache) r.request s.mem).2 := by
  have hmem : s.stepped.mem = (phaseState .memory { s with mwait := false }).mem := by
    have he : (workState s).advance = { workState s with slotW := none } := if_pos ((workState_mwait s).trans hw)
    unfold State.stepped
    rw [he]
    exact workState_mem s
  rw [hmem]
  unfold State.memoryWaits at hw
  obtain ⟨r, hM⟩ : ∃ r, s.slotM = some r := by
    cases hM : s.slotM with
    | none =>
      rw [hM] at hw
      cases hw
    | some r => exact ⟨r, rfl⟩
  simp only [hM, Bool.and_eq_true, beq_iff_eq] at hw
  obtain ⟨⟨⟨hc, hp⟩, ha⟩, hpoll⟩ := hw
  refine ⟨r, hM, ?_, ?_⟩
  · rw [← State.poll_answer]
    exact hpoll
  · have hph : phaseState .memory { s with mwait := false } =
        memoryLines r.instr.fields r { s with phase := .memory, mwait := false } := by
      rw [memoryPhase_eq]
      simp only [hM, hp, if_true]
    rw [hph, memoryLines_of_memory hc]
    unfold Record.request
    cases hl : r.instr.fields.l
    · simp only [Bool.false_eq_true, if_false]
      rw [storeMemory_eq, State.memWrite_aligned ha]
      split <;> rfl
    · simp only [if_true]
      rw [loadMemory_eq, State.memRead_aligned ha]
      split <;> rfl

/-! ### The empty pipeline -/

/-- Nothing in E, M and W. -/
structure Quiet (s : State) : Prop where
  e : s.slotE = none
  m : s.slotM = none
  w : s.slotW = none

theorem Quiet.ready {s : State} (h : Quiet s) : s.memoryWaits = false ∧ s.branchTaken = false := by
  unfold State.memoryWaits State.branchTaken
  rw [h.m, h.e]
  exact ⟨rfl, rfl⟩

theorem Follows.quiet {x : Fetched} {u : Bool} {s : State} {c d : Nat} (h : Follows x u s c c c d) (hd : d = c) : Quiet s :=
  ⟨count_eq_zero (by have := h.ed; omega), count_eq_zero (by have := h.me; omega), count_eq_zero (by have := h.cm; omega)⟩

/-- A halted core that follows with nothing older in flight has drained. -/
theorem Follows.stopped {x : Fetched} {u : Bool} {s : State} {c d : Nat} (h : Follows x u s c c c d) (hd : d = c)
    (hh : s.halted = true) : s.stillRunning = false := by
  obtain ⟨-, hm, hw⟩ := h.quiet hd
  obtain ⟨h1, h2, h3⟩ := h.halted hh
  simp [State.stillRunning, State.drained, hh, h1, h2, h3, hm, hw]

@[simp] theorem stepped_halted (s : State) : s.stepped.halted = (workState s).halted := State.advance_halted _

/-- In a quiet pipeline the record in D is the sentinel, and the core drains, or moves to E. -/
theorem Follows.quiet_decode {x : Fetched} {u : Bool} {s : State} {a : Arch} {c : Nat} (hx : x = a.start)
    (h : Follows x u s c c c c) (ho : x.orderlyRun) {r : Record} (hD : s.slotD = some r) :
    s.stepped.stillRunning = false ∨ Follows x u s.stepped c c c (c + 1) := by
  have hq := h.quiet rfl
  obtain ⟨hw, hb⟩ := hq.ready
  obtain ⟨d', hd', hcount, hf⟩ := h.ready hx ho hw s.step_stepped
  rcases workState_flow hw with ⟨h0, -⟩ | ⟨-, -, -, h2, h3⟩ | ⟨-, -, -, h2, h3⟩
  · rw [hb] at h0
    cases h0
  · left
    have : d' = c := by
      have := hcount (by simp [State.held, h2])
      rw [h2] at this
      simpa using this
    exact hf.stopped this (by simpa using h3)
  · right
    have : d' = c + 1 := by
      have := hcount (by
        simp only [State.held, h2, hD, Option.map_some, decodedRecord_decoded, Bool.not_eq_false']
        rw [State.hazardFree_iff, hq.e, hq.m, hq.w]
        simp [slotUses])
      rw [h2, hD] at this
      exact this
    rwa [this] at hf

/-- In a quiet pipeline with nothing in D the record in F moves to D. -/
theorem Follows.quiet_shift {x : Fetched} {u : Bool} {s : State} {a : Arch} {c : Nat} (hx : x = a.start)
    (h : Follows x u s c c c c) (ho : x.orderlyRun) (hD : s.slotD = none) :
    Follows x u s.stepped c c c c ∧ s.stepped.slotD = s.slotF := by
  have hq := h.quiet rfl
  obtain ⟨hw, hb⟩ := hq.ready
  obtain ⟨d', hd', hcount, hf⟩ := h.ready hx ho hw s.step_stepped
  have hs : s.sentinelInD = false := by simp [State.sentinelInD, hD]
  rcases workState_flow hw with ⟨h0, -⟩ | ⟨-, h0, -⟩ | ⟨-, -, h1, h2, -⟩
  · rw [hb] at h0
    cases h0
  · rw [hs] at h0
    cases h0
  · rw [hD, Option.map_none] at h2
    have hheld : (workState s).held = false := by simp [State.held, h2]
    have : d' = c := by
      have := hcount hheld
      rwa [h2] at this
    refine ⟨by rwa [this] at hf, ?_⟩
    rw [← h1]
    rcases (workState s).advance_cases with ⟨h3, -⟩ | ⟨-, h3, -⟩ | ⟨-, -, h3⟩ | ⟨-, -, -, -, h3⟩
    · rw [workState_mwait, hw] at h3
      cases h3
    · rw [hheld] at h3
      cases h3
    · rw [State.stepped, h3]
      rfl
    · rw [State.stepped, h3]
      exact State.fetch_slotD _

/-- An empty pipeline that is not halted fetches: the next instruction comes into F, or the poll waits. -/
theorem Follows.quiet_fetch {x : Fetched} {u : Bool} {s : State} {a : Arch} {c : Nat} (hx : x = a.start)
    (h : Follows x u s c c c c) (ho : x.orderlyRun) (hD : s.slotD = none) (hF : s.slotF = none) (hh : s.halted = false) :
    s.stepped.halted = false ∧ (s.stepped.slotF ≠ none ∨
      let poll := access s.chain.backing.latency (s.path u)
        { kind := .read, addr := flatAddr (x.after c).pc, n := 1, data := [] } s.mem
      s.stepped.slotF = none ∧ poll.1 = .waiting ∧ s.stepped.mem = poll.2) := by
  have hq := h.quiet rfl
  obtain ⟨hw, hb⟩ := hq.ready
  have hs : s.sentinelInD = false := by simp [State.sentinelInD, hD]
  have hwork := h.work hx ho hw
  have hmem : (workState s).mem = s.mem := by
    rw [workState_mem, memoryPhase_eq]
    simp [hq.m]
  rcases workState_flow hw with ⟨h0, -⟩ | ⟨-, h0, -⟩ | ⟨-, -, h1, h2, h3⟩
  · rw [hb] at h0
    cases h0
  · rw [hs] at h0
    cases h0
  · rw [hD, Option.map_none] at h2
    rw [hF] at h1
    rw [hh] at h3
    refine ⟨by simpa using h3, ?_⟩
    have hpc : (workState s).pc = (x.after c).pc := by
      have := hwork.front
      rw [h1, h2, h3] at this
      exact this
    have hE : (workState s).slotE = none := count_eq_zero (by have := hwork.ed; omega)
    have hM : (workState s).slotM = none := count_eq_zero (by have := hwork.me; omega)
    have hadv : (workState s).advance = (workState s).shift.fetch := by
      have hd : (workState s).shift.drained = true := by
        simp only [State.drained, State.shift, h1, h2, hE, hM]
        rfl
      rcases (workState s).advance_cases with ⟨h4, -⟩ | ⟨-, h4, -⟩ | ⟨-, -, -⟩ | ⟨-, -, -, -, h4⟩
      · rw [workState_mwait, hw] at h4
        cases h4
      · simp [State.held, h2] at h4
      · unfold State.advance
        rw [if_neg (by rw [workState_mwait, hw]; simp), if_neg (by simp [State.held, h2]), if_pos (by rw [h3, hd]; simp)]
      · exact h4
    have hinput : (workState s).shift.input = s.input := workState_input s
    have hpath : (workState s).shift.path u = s.path u := by simp [State.path, State.shift]
    have hu := h.useCache
    unfold State.stepped
    rw [hadv]
    rcases (workState s).shift.fetch_cases with ⟨v, h4, -⟩ | ⟨-, h4, h5⟩ | ⟨v, -, h4, h5⟩
    · rw [hinput, hu.2] at h4
      cases h4
    · right
      rw [h5]
      rw [hinput, hu.1] at h4 ⊢
      have hp : (workState s).shift.pc = (x.after c).pc := hpc
      rw [hp] at h4 ⊢
      cases ha : aligned (x.after c).pc
      · rw [State.memRead_misaligned ha] at h4
        cases h4
      · have hacc : (workState s).shift.poll u { kind := .read, addr := flatAddr (x.after c).pc, n := 1, data := [] } =
            ((access s.chain.backing.latency (s.path u)
              { kind := .read, addr := flatAddr (x.after c).pc, n := 1, data := [] } s.mem).1,
             { (workState s).shift with mem := (access s.chain.backing.latency (s.path u)
              { kind := .read, addr := flatAddr (x.after c).pc, n := 1, data := [] } s.mem).2 }) := by
          rw [← hmem, ← hpath, ← workState_chain s]
          rfl
        rw [State.memRead_aligned ha, hacc] at h4 ⊢
        refine ⟨rfl, ?_, rfl⟩
        dsimp only at h4 ⊢
        split at h4
        · assumption
        · cases h4
    · left
      rw [h5]
      simp [State.endCycle]

/-! ### Progress -/

theorem stepped_chain (s : State) : s.stepped.chain = s.chain := by
  unfold State.stepped
  show (workState s).advance.chain = _
  simp

theorem stepped_path (s : State) (u : Bool) : s.stepped.path u = s.path u := by
  simp only [State.path, stepped_chain]

/-- The part of the state that fixes what a poll answers, memory apart: the same before and after a step. -/
def SamePath (u : Bool) (s t : State) : Prop := t.chain.backing.latency = s.chain.backing.latency ∧ t.path u = s.path u

theorem samePath_stepped {u : Bool} {s t : State} (h : SamePath u s t) : SamePath u s t.stepped :=
  ⟨by rw [stepped_chain]; exact h.1, by rw [stepped_path]; exact h.2⟩

/-- As long as every state further on drains, an empty pipeline does: its fetch completes. -/
theorem Follows.drains_fetching {x : Fetched} {u : Bool} {a : Arch} {c : Nat} (hx : x = a.start) (ho : x.orderlyRun) {s0 : State}
    (grow : ∀ t, Follows x u t c c c c → t.slotF ≠ none → t.slotD = none → t.Drains) {mem : Hierarchy}
    (hm : Completes (access s0.chain.backing.latency (s0.path u)
      { kind := .read, addr := flatAddr (x.after c).pc, n := 1, data := [] }) mem) :
    ∀ s, SamePath u s0 s → s.mem = mem → Follows x u s c c c c → s.slotD = none → s.slotF = none → s.halted = false →
      s.Drains := by
  induction hm with
  | @done mem hd =>
    rintro s ⟨hl, hp⟩ rfl h hD hF hh
    obtain ⟨h', hsD⟩ := h.quiet_shift hx ho hD
    obtain ⟨-, hf⟩ := h.quiet_fetch hx ho hD hF hh
    rcases hf with hf | ⟨-, hwait, -⟩
    · exact .of_step s.step_stepped (grow _ h' hf (hsD.trans hF))
    · rw [hl, hp] at hwait
      exact absurd hwait hd
  | @wait mem hw _ ih =>
    rintro s ⟨hl, hp⟩ rfl h hD hF hh
    obtain ⟨h', hsD⟩ := h.quiet_shift hx ho hD
    obtain ⟨hh', hf⟩ := h.quiet_fetch hx ho hD hF hh
    refine .of_step s.step_stepped ?_
    rcases hf with hf | ⟨hF', -, hmem⟩
    · exact grow _ h' hf (hsD.trans hF)
    · rw [hl, hp] at hmem
      exact ih _ (samePath_stepped ⟨hl, hp⟩) hmem h' (hsD.trans hF) hF' hh'

/-- As long as every state further on drains, a pipeline whose memory stage waits does: the access completes. -/
theorem Follows.drains_waiting {x : Fetched} {u : Bool} {m e d : Nat} (ho : x.orderlyRun) {s0 : State} {r : Record}
    (grow : ∀ t, Follows x u t m m e d → t.memoryWaits = false → t.slotM = some r → t.Drains) {mem : Hierarchy}
    (hm : Completes (access s0.chain.backing.latency (s0.path u) r.request) mem) :
    ∀ s, SamePath u s0 s → s.mem = mem → Follows x u s m m e d → s.slotM = some r → s.Drains := by
  have step : ∀ s, Follows x u s m m e d → s.slotM = some r → s.memoryWaits = true →
      Follows x u s.stepped m m e d ∧ s.stepped.slotM = some r := by
    intro s h hM hw
    refine ⟨h.wait ho hw, ?_⟩
    have he : (workState s).advance = { workState s with slotW := none } := if_pos ((workState_mwait s).trans hw)
    rw [State.stepped, he]
    exact (workState_wait hw).2.2.2.1.trans hM
  induction hm with
  | @done mem hd =>
    rintro s ⟨hl, hp⟩ rfl h hM
    cases hw : s.memoryWaits
    · exact grow s h hw hM
    · obtain ⟨r', hM', hwait, -⟩ := memoryWaits_poll hw
      obtain rfl : r = r' := Option.some.inj (hM.symm.trans hM')
      rw [h.useCache.1, hl, hp] at hwait
      exact absurd hwait hd
  | @wait mem hw' _ ih =>
    rintro s ⟨hl, hp⟩ rfl h hM
    cases hw : s.memoryWaits
    · exact grow s h hw hM
    · obtain ⟨r', hM', -, hmem⟩ := memoryWaits_poll hw
      obtain rfl : r = r' := Option.some.inj (hM.symm.trans hM')
      rw [h.useCache.1, hl, hp] at hmem
      obtain ⟨h', hM''⟩ := step s h hM hw
      exact .of_step s.step_stepped (ih _ (samePath_stepped ⟨hl, hp⟩) hmem h' hM'')

/-- If the one-at-a-time machine comes to the sentinel, the core drains: the sum of the four positions grows until then. -/
theorem Follows.drains {x : Fetched} {u : Bool} {a : Arch} {k : Nat} (hx : x = a.start) (ho : x.orderlyRun)
    (hk : (x.after k).word = sentinelWord) {s : State} {c m e d : Nat} (h : Follows x u s c m e d) : s.Drains := by
  induction hn : 4 * k - (c + m + e + d) using Nat.strong_induction_on generalizing s c m e d with
  | _ n ih =>
    subst hn
    have grow : ∀ {t : State} {c' m' e' d' : Nat}, Follows x u t c' m' e' d' → c + m + e + d < c' + m' + e' + d' → t.Drains := by
      intro t c' m' e' d' h' hlt
      have := h'.le hk
      exact ih _ (by omega) h' rfl
    have hle := h.le hk
    by_cases hq : c = d
    · obtain ⟨rfl, rfl, rfl⟩ : m = c ∧ e = c ∧ d = c := by omega
      have inD : ∀ t, Follows x u t d d d d → t.slotD ≠ none → t.Drains := by
        intro t ht hD
        obtain ⟨r, hD⟩ := Option.ne_none_iff_exists'.mp hD
        rcases ht.quiet_decode hx ho hD with h' | h'
        · exact .of_step t.step_stepped (.of_drained h')
        · exact .of_step t.step_stepped (grow h' (by omega))
      have inF : ∀ t, Follows x u t d d d d → t.slotF ≠ none → t.slotD = none → t.Drains := by
        intro t ht hF hD
        obtain ⟨h', hsD⟩ := ht.quiet_shift hx ho hD
        exact .of_step t.step_stepped (inD _ h' (by rw [hsD]; exact hF))
      by_cases hD : s.slotD = none
      · by_cases hF : s.slotF = none
        · cases hh : s.halted
          · exact Follows.drains_fetching hx ho (s0 := s) inF (access_completes _ _ _ s.mem) s ⟨rfl, rfl⟩ rfl h hD hF hh
          · exact .of_drained (h.stopped rfl hh)
        · exact inF s h hF hD
      · exact inD s h hD
    · have ready : ∀ t c', Follows x u t c' m e d → t.memoryWaits = false → t.Drains := by
        intro t c' ht hw
        obtain ⟨d', hd', -, h'⟩ := ht.ready hx ho hw t.step_stepped
        exact .of_step t.step_stepped (grow h' (by omega))
      cases hw : s.memoryWaits
      · exact ready s c h hw
      · have h' : Follows x u s.stepped m m e d := h.wait ho hw
        by_cases hcm : c = m
        · subst hcm
          obtain ⟨r, hM, -⟩ := memoryWaits_poll hw
          exact Follows.drains_waiting ho (s0 := s) (fun t ht hw' _ => ready t _ ht hw') (access_completes _ _ _ s.mem) s
            ⟨rfl, rfl⟩ rfl h hM
        · exact .of_step s.step_stepped (grow h' (by omega))

end Sys2Proof.Machine
end

