-- ==== Sys2Proof/Laws/PerInstr.lean ====
section
/-!
SUPPORT. Families of statements about every instruction as syntax, one lemma per constructor.

`EncodeCond`: bits 31:28 of an instruction's word are the number of its condition (R141).
-/

namespace Sys2Proof.Laws

open Sys2Proof

theorem code_lt (c : Cond) : c.code < 16 := by cases c <;> decide

theorem opcode_lt (o : AluOp) : o.code < 16 := by cases o <;> decide

theorem shtype_lt (t : ShiftType) : t.code < 4 := by cases t <;> decide

theorem toNat_le (b : Bool) : b.toNat ≤ 1 := by cases b <;> decide

/-- A word made of a condition and 28 bits below it. -/
theorem slice_cond {c n : Nat} (hc : c < 16) (hn : n < 2 ^ 28) : slice (BitVec.ofNat 32 (c * 2 ^ 28 + n)) 28 4 = c := by
  simp only [slice, BitVec.toNat_ofNat]
  omega

theorem cond_packAluImm (op : AluOp) (cond : Cond) (sf : Bool) (rd rn : Reg) (imm8 : BitVec 8) :
    slice (packAluImm op cond sf rd rn imm8) 28 4 = cond.code := by
  have := opcode_lt op
  have := toNat_le sf
  have := imm8.isLt
  have := rd.isLt
  have := rn.isLt
  simp only [packAluImm, Nat.add_assoc]
  exact slice_cond (code_lt cond) (by omega)

theorem cond_packAluShImm (op : AluOp) (cond : Cond) (sf : Bool) (rd rn : Reg) (shamt : BitVec 5) (t : ShiftType) (rm : Reg) :
    slice (packAluShImm op cond sf rd rn shamt t rm) 28 4 = cond.code := by
  have := opcode_lt op
  have := toNat_le sf
  have := shamt.isLt
  have := shtype_lt t
  have := rd.isLt
  have := rn.isLt
  have := rm.isLt
  simp only [packAluShImm, Nat.add_assoc]
  exact slice_cond (code_lt cond) (by omega)

theorem cond_packAluShReg (op : AluOp) (cond : Cond) (sf : Bool) (rd rn rs : Reg) (t : ShiftType) (rm : Reg) :
    slice (packAluShReg op cond sf rd rn rs t rm) 28 4 = cond.code := by
  have := opcode_lt op
  have := toNat_le sf
  have := shtype_lt t
  have := rd.isLt
  have := rn.isLt
  have := rs.isLt
  have := rm.isLt
  simp only [packAluShReg, Nat.add_assoc]
  exact slice_cond (code_lt cond) (by omega)

theorem cond_packMemImm (cond : Cond) (p u wb l : Bool) (rd rn : Reg) (imm12 : BitVec 12) :
    slice (packMemImm cond p u wb l rd rn imm12) 28 4 = cond.code := by
  have := toNat_le p
  have := toNat_le u
  have := toNat_le wb
  have := toNat_le l
  have := imm12.isLt
  have := rd.isLt
  have := rn.isLt
  simp only [packMemImm, Nat.add_assoc]
  exact slice_cond (code_lt cond) (by omega)

theorem cond_packMemReg (cond : Cond) (p u wb l : Bool) (rd rn : Reg) (shamt : BitVec 5) (t : ShiftType) (rm : Reg) :
    slice (packMemReg cond p u wb l rd rn shamt t rm) 28 4 = cond.code := by
  have := toNat_le p
  have := toNat_le u
  have := toNat_le wb
  have := toNat_le l
  have := shamt.isLt
  have := shtype_lt t
  have := rd.isLt
  have := rn.isLt
  have := rm.isLt
  simp only [packMemReg, Nat.add_assoc]
  exact slice_cond (code_lt cond) (by omega)

theorem cond_packBranchImm (cond : Cond) (link : Bool) (imm24 : BitVec 24) :
    slice (packBranchImm cond link imm24) 28 4 = cond.code := by
  have := toNat_le link
  have := imm24.isLt
  simp only [packBranchImm, Nat.add_assoc]
  exact slice_cond (code_lt cond) (by omega)

theorem cond_packBranchReg (cond : Cond) (link : Bool) (rm : Reg) :
    slice (packBranchReg cond link rm) 28 4 = cond.code := by
  have := toNat_le link
  have := rm.isLt
  simp only [packBranchReg, Nat.add_assoc]
  exact slice_cond (code_lt cond) (by omega)

theorem cond_packNoop (cond : Cond) : slice (packNoop cond) 28 4 = cond.code := by
  simp only [packNoop, Nat.add_assoc]
  exact slice_cond (code_lt cond) (by omega)

namespace EncodeCond

/-- Bits 31:28 of the instruction's word are the number of its condition. -/
def Statement (i : Instr) : Prop := slice (encode i) 28 4 = i.fields.cond.code

theorem andImm (cond : Cond) (sf : Bool) (rd rn : Reg) (imm8 : BitVec 8) : Statement (.andImm cond sf rd rn imm8) :=
  cond_packAluImm _ _ _ _ _ _

theorem andShImm (cond : Cond) (sf : Bool) (rd rn : Reg) (shamt : BitVec 5) (t : ShiftType) (rm : Reg) : Statement (.andShImm cond sf rd rn shamt t rm) :=
  cond_packAluShImm _ _ _ _ _ _ _ _

theorem andShReg (cond : Cond) (sf : Bool) (rd rn rs : Reg) (t : ShiftType) (rm : Reg) : Statement (.andShReg cond sf rd rn rs t rm) :=
  cond_packAluShReg _ _ _ _ _ _ _ _

theorem eorImm (cond : Cond) (sf : Bool) (rd rn : Reg) (imm8 : BitVec 8) : Statement (.eorImm cond sf rd rn imm8) :=
  cond_packAluImm _ _ _ _ _ _

theorem eorShImm (cond : Cond) (sf : Bool) (rd rn : Reg) (shamt : BitVec 5) (t : ShiftType) (rm : Reg) : Statement (.eorShImm cond sf rd rn shamt t rm) :=
  cond_packAluShImm _ _ _ _ _ _ _ _

theorem eorShReg (cond : Cond) (sf : Bool) (rd rn rs : Reg) (t : ShiftType) (rm : Reg) : Statement (.eorShReg cond sf rd rn rs t rm) :=
  cond_packAluShReg _ _ _ _ _ _ _ _

theorem subImm (cond : Cond) (sf : Bool) (rd rn : Reg) (imm8 : BitVec 8) : Statement (.subImm cond sf rd rn imm8) :=
  cond_packAluImm _ _ _ _ _ _

theorem subShImm (cond : Cond) (sf : Bool) (rd rn : Reg) (shamt : BitVec 5) (t : ShiftType) (rm : Reg) : Statement (.subShImm cond sf rd rn shamt t rm) :=
  cond_packAluShImm _ _ _ _ _ _ _ _

theorem subShReg (cond : Cond) (sf : Bool) (rd rn rs : Reg) (t : ShiftType) (rm : Reg) : Statement (.subShReg cond sf rd rn rs t rm) :=
  cond_packAluShReg _ _ _ _ _ _ _ _

theorem rsbImm (cond : Cond) (sf : Bool) (rd rn : Reg) (imm8 : BitVec 8) : Statement (.rsbImm cond sf rd rn imm8) :=
  cond_packAluImm _ _ _ _ _ _

theorem rsbShImm (cond : Cond) (sf : Bool) (rd rn : Reg) (shamt : BitVec 5) (t : ShiftType) (rm : Reg) : Statement (.rsbShImm cond sf rd rn shamt t rm) :=
  cond_packAluShImm _ _ _ _ _ _ _ _

theorem rsbShReg (cond : Cond) (sf : Bool) (rd rn rs : Reg) (t : ShiftType) (rm : Reg) : Statement (.rsbShReg cond sf rd rn rs t rm) :=
  cond_packAluShReg _ _ _ _ _ _ _ _

theorem addImm (cond : Cond) (sf : Bool) (rd rn : Reg) (imm8 : BitVec 8) : Statement (.addImm cond sf rd rn imm8) :=
  cond_packAluImm _ _ _ _ _ _

theorem addShImm (cond : Cond) (sf : Bool) (rd rn : Reg) (shamt : BitVec 5) (t : ShiftType) (rm : Reg) : Statement (.addShImm cond sf rd rn shamt t rm) :=
  cond_packAluShImm _ _ _ _ _ _ _ _

theorem addShReg (cond : Cond) (sf : Bool) (rd rn rs : Reg) (t : ShiftType) (rm : Reg) : Statement (.addShReg cond sf rd rn rs t rm) :=
  cond_packAluShReg _ _ _ _ _ _ _ _

theorem adcImm (cond : Cond) (sf : Bool) (rd rn : Reg) (imm8 : BitVec 8) : Statement (.adcImm cond sf rd rn imm8) :=
  cond_packAluImm _ _ _ _ _ _

theorem adcShImm (cond : Cond) (sf : Bool) (rd rn : Reg) (shamt : BitVec 5) (t : ShiftType) (rm : Reg) : Statement (.adcShImm cond sf rd rn shamt t rm) :=
  cond_packAluShImm _ _ _ _ _ _ _ _

theorem adcShReg (cond : Cond) (sf : Bool) (rd rn rs : Reg) (t : ShiftType) (rm : Reg) : Statement (.adcShReg cond sf rd rn rs t rm) :=
  cond_packAluShReg _ _ _ _ _ _ _ _

theorem sbcImm (cond : Cond) (sf : Bool) (rd rn : Reg) (imm8 : BitVec 8) : Statement (.sbcImm cond sf rd rn imm8) :=
  cond_packAluImm _ _ _ _ _ _

theorem sbcShImm (cond : Cond) (sf : Bool) (rd rn : Reg) (shamt : BitVec 5) (t : ShiftType) (rm : Reg) : Statement (.sbcShImm cond sf rd rn shamt t rm) :=
  cond_packAluShImm _ _ _ _ _ _ _ _

theorem sbcShReg (cond : Cond) (sf : Bool) (rd rn rs : Reg) (t : ShiftType) (rm : Reg) : Statement (.sbcShReg cond sf rd rn rs t rm) :=
  cond_packAluShReg _ _ _ _ _ _ _ _

theorem rscImm (cond : Cond) (sf : Bool) (rd rn : Reg) (imm8 : BitVec 8) : Statement (.rscImm cond sf rd rn imm8) :=
  cond_packAluImm _ _ _ _ _ _

theorem rscShImm (cond : Cond) (sf : Bool) (rd rn : Reg) (shamt : BitVec 5) (t : ShiftType) (rm : Reg) : Statement (.rscShImm cond sf rd rn shamt t rm) :=
  cond_packAluShImm _ _ _ _ _ _ _ _

theorem rscShReg (cond : Cond) (sf : Bool) (rd rn rs : Reg) (t : ShiftType) (rm : Reg) : Statement (.rscShReg cond sf rd rn rs t rm) :=
  cond_packAluShReg _ _ _ _ _ _ _ _

theorem tstImm (cond : Cond) (sf : Bool) (rd rn : Reg) (imm8 : BitVec 8) : Statement (.tstImm cond sf rd rn imm8) :=
  cond_packAluImm _ _ _ _ _ _

theorem tstShImm (cond : Cond) (sf : Bool) (rd rn : Reg) (shamt : BitVec 5) (t : ShiftType) (rm : Reg) : Statement (.tstShImm cond sf rd rn shamt t rm) :=
  cond_packAluShImm _ _ _ _ _ _ _ _

theorem tstShReg (cond : Cond) (sf : Bool) (rd rn rs : Reg) (t : ShiftType) (rm : Reg) : Statement (.tstShReg cond sf rd rn rs t rm) :=
  cond_packAluShReg _ _ _ _ _ _ _ _

theorem teqImm (cond : Cond) (sf : Bool) (rd rn : Reg) (imm8 : BitVec 8) : Statement (.teqImm cond sf rd rn imm8) :=
  cond_packAluImm _ _ _ _ _ _

theorem teqShImm (cond : Cond) (sf : Bool) (rd rn : Reg) (shamt : BitVec 5) (t : ShiftType) (rm : Reg) : Statement (.teqShImm cond sf rd rn shamt t rm) :=
  cond_packAluShImm _ _ _ _ _ _ _ _

theorem teqShReg (cond : Cond) (sf : Bool) (rd rn rs : Reg) (t : ShiftType) (rm : Reg) : Statement (.teqShReg cond sf rd rn rs t rm) :=
  cond_packAluShReg _ _ _ _ _ _ _ _

theorem cmpImm (cond : Cond) (sf : Bool) (rd rn : Reg) (imm8 : BitVec 8) : Statement (.cmpImm cond sf rd rn imm8) :=
  cond_packAluImm _ _ _ _ _ _

theorem cmpShImm (cond : Cond) (sf : Bool) (rd rn : Reg) (shamt : BitVec 5) (t : ShiftType) (rm : Reg) : Statement (.cmpShImm cond sf rd rn shamt t rm) :=
  cond_packAluShImm _ _ _ _ _ _ _ _

theorem cmpShReg (cond : Cond) (sf : Bool) (rd rn rs : Reg) (t : ShiftType) (rm : Reg) : Statement (.cmpShReg cond sf rd rn rs t rm) :=
  cond_packAluShReg _ _ _ _ _ _ _ _

theorem cmnImm (cond : Cond) (sf : Bool) (rd rn : Reg) (imm8 : BitVec 8) : Statement (.cmnImm cond sf rd rn imm8) :=
  cond_packAluImm _ _ _ _ _ _

theorem cmnShImm (cond : Cond) (sf : Bool) (rd rn : Reg) (shamt : BitVec 5) (t : ShiftType) (rm : Reg) : Statement (.cmnShImm cond sf rd rn shamt t rm) :=
  cond_packAluShImm _ _ _ _ _ _ _ _

theorem cmnShReg (cond : Cond) (sf : Bool) (rd rn rs : Reg) (t : ShiftType) (rm : Reg) : Statement (.cmnShReg cond sf rd rn rs t rm) :=
  cond_packAluShReg _ _ _ _ _ _ _ _

theorem orrImm (cond : Cond) (sf : Bool) (rd rn : Reg) (imm8 : BitVec 8) : Statement (.orrImm cond sf rd rn imm8) :=
  cond_packAluImm _ _ _ _ _ _

theorem orrShImm (cond : Cond) (sf : Bool) (rd rn : Reg) (shamt : BitVec 5) (t : ShiftType) (rm : Reg) : Statement (.orrShImm cond sf rd rn shamt t rm) :=
  cond_packAluShImm _ _ _ _ _ _ _ _

theorem orrShReg (cond : Cond) (sf : Bool) (rd rn rs : Reg) (t : ShiftType) (rm : Reg) : Statement (.orrShReg cond sf rd rn rs t rm) :=
  cond_packAluShReg _ _ _ _ _ _ _ _

theorem movImm (cond : Cond) (sf : Bool) (rd rn : Reg) (imm8 : BitVec 8) : Statement (.movImm cond sf rd rn imm8) :=
  cond_packAluImm _ _ _ _ _ _

theorem movShImm (cond : Cond) (sf : Bool) (rd rn : Reg) (shamt : BitVec 5) (t : ShiftType) (rm : Reg) : Statement (.movShImm cond sf rd rn shamt t rm) :=
  cond_packAluShImm _ _ _ _ _ _ _ _

theorem movShReg (cond : Cond) (sf : Bool) (rd rn rs : Reg) (t : ShiftType) (rm : Reg) : Statement (.movShReg cond sf rd rn rs t rm) :=
  cond_packAluShReg _ _ _ _ _ _ _ _

theorem bicImm (cond : Cond) (sf : Bool) (rd rn : Reg) (imm8 : BitVec 8) : Statement (.bicImm cond sf rd rn imm8) :=
  cond_packAluImm _ _ _ _ _ _

theorem bicShImm (cond : Cond) (sf : Bool) (rd rn : Reg) (shamt : BitVec 5) (t : ShiftType) (rm : Reg) : Statement (.bicShImm cond sf rd rn shamt t rm) :=
  cond_packAluShImm _ _ _ _ _ _ _ _

theorem bicShReg (cond : Cond) (sf : Bool) (rd rn rs : Reg) (t : ShiftType) (rm : Reg) : Statement (.bicShReg cond sf rd rn rs t rm) :=
  cond_packAluShReg _ _ _ _ _ _ _ _

theorem mvnImm (cond : Cond) (sf : Bool) (rd rn : Reg) (imm8 : BitVec 8) : Statement (.mvnImm cond sf rd rn imm8) :=
  cond_packAluImm _ _ _ _ _ _

theorem mvnShImm (cond : Cond) (sf : Bool) (rd rn : Reg) (shamt : BitVec 5) (t : ShiftType) (rm : Reg) : Statement (.mvnShImm cond sf rd rn shamt t rm) :=
  cond_packAluShImm _ _ _ _ _ _ _ _

theorem mvnShReg (cond : Cond) (sf : Bool) (rd rn rs : Reg) (t : ShiftType) (rm : Reg) : Statement (.mvnShReg cond sf rd rn rs t rm) :=
  cond_packAluShReg _ _ _ _ _ _ _ _

theorem ldrImm (cond : Cond) (p u wb : Bool) (rd rn : Reg) (imm12 : BitVec 12) : Statement (.ldrImm cond p u wb rd rn imm12) :=
  cond_packMemImm _ _ _ _ _ _ _ _

theorem ldrReg (cond : Cond) (p u wb : Bool) (rd rn : Reg) (shamt : BitVec 5) (t : ShiftType) (rm : Reg) : Statement (.ldrReg cond p u wb rd rn shamt t rm) :=
  cond_packMemReg _ _ _ _ _ _ _ _ _ _

theorem strImm (cond : Cond) (p u wb : Bool) (rd rn : Reg) (imm12 : BitVec 12) : Statement (.strImm cond p u wb rd rn imm12) :=
  cond_packMemImm _ _ _ _ _ _ _ _

theorem strReg (cond : Cond) (p u wb : Bool) (rd rn : Reg) (shamt : BitVec 5) (t : ShiftType) (rm : Reg) : Statement (.strReg cond p u wb rd rn shamt t rm) :=
  cond_packMemReg _ _ _ _ _ _ _ _ _ _

theorem b (cond : Cond) (imm24 : BitVec 24) : Statement (.b cond imm24) :=
  cond_packBranchImm _ _ _

theorem bl (cond : Cond) (imm24 : BitVec 24) : Statement (.bl cond imm24) :=
  cond_packBranchImm _ _ _

theorem bx (cond : Cond) (rm : Reg) : Statement (.bx cond rm) :=
  cond_packBranchReg _ _ _

theorem blx (cond : Cond) (rm : Reg) : Statement (.blx cond rm) :=
  cond_packBranchReg _ _ _

theorem nop (cond : Cond) : Statement (.nop cond) :=
  cond_packNoop _

theorem endStream : Statement .endStream := by
  unfold Statement
  decide

end EncodeCond

end Sys2Proof.Laws
end

