-- ==== Sys2Proof/Tests/Slice0.lean ====
section
/-!
SUPPORT. Tests: words written out from the spec's encodings and what they decode to, ill-formed terms and geometries that
the checks refuse, single steps with the results of the spec's own worked examples (41_alu, 42_load_store, 43_branch,
95_test_vectors), and for every statement with hypotheses a concrete state that meets them.
-/

namespace Sys2Proof.Tests

open Sys2Proof Sys2Proof.Machine

/-! ### Decoding: one word per row of the opcode table, each field at a value of its own, ignored bits at 1 -/

theorem test_decode_and :
    decode 0xE0039F81 = .andImm .al false 3 9 0x81 ∧
    decode 0x12180D01 = .andShImm .ne true 8 0 26 .lsl 1 ∧
    decode 0x420D769C = .andShReg .mi false 13 7 6 .lsl 12 := by decide

theorem test_decode_eor :
    decode 0x7032EFF0 = .eorImm .vc true 2 14 0xF0 ∧
    decode 0xA2275AA2 = .eorShImm .ge false 7 5 21 .lsr 2 ∧
    decode 0xD23CCDBD = .eorShReg .le true 12 12 13 .lsr 13 := by decide

theorem test_decode_sub :
    decode 0x00413F5F = .subImm .eq false 1 3 0x5F ∧
    decode 0x3256A843 = .subShImm .cc true 6 10 16 .asr 3 ∧
    decode 0x624B14DE = .subShReg .vs false 11 1 4 .asr 14 := by decide

theorem test_decode_rsb :
    decode 0x90708FCE = .rsbImm .ls true 0 8 0xCE ∧
    decode 0xC265F5E4 = .rsbShImm .gt false 5 15 11 .ror 4 ∧
    decode 0xF27A6BFF = .rsbShReg .nv true 10 6 11 .ror 15 := by decide

theorem test_decode_add :
    decode 0x208FDF3D = .addImm .cs false 15 13 0x3D ∧
    decode 0x52944305 = .addShImm .pl true 4 4 6 .lsl 5 ∧
    decode 0x8289B290 = .addShReg .hi false 9 11 2 .lsl 0 := by decide

theorem test_decode_adc :
    decode 0xB0BE2FAC = .adcImm .lt true 14 2 0xAC ∧
    decode 0xE2A390A6 = .adcShImm .al false 3 9 1 .lsr 6 ∧
    decode 0x12B809B1 = .adcShReg .ne true 8 0 9 .lsr 1 := by decide

theorem test_decode_sbc :
    decode 0x40CD7F1B = .sbcImm .mi false 13 7 0x1B ∧
    decode 0x72D2EE47 = .sbcShImm .vc true 2 14 28 .asr 7 ∧
    decode 0xA2C750D2 = .sbcShReg .ge false 7 5 0 .asr 2 := by decide

theorem test_decode_rsc :
    decode 0xD0FCCF8A = .rscImm .le true 12 12 0x8A ∧
    decode 0x02E13BE8 = .rscShImm .eq false 1 3 23 .ror 8 ∧
    decode 0x32F6A7F3 = .rscShReg .cc true 6 10 7 .ror 3 := by decide

theorem test_decode_tst :
    decode 0x610B1FF9 = .tstImm .vs false 11 1 0xF9 ∧
    decode 0x93108909 = .tstShImm .ls true 0 8 18 .lsl 9 ∧
    decode 0xC305FE94 = .tstShReg .gt false 5 15 14 .lsl 4 := by decide

theorem test_decode_teq :
    decode 0xF13A6F68 = .teqImm .nv true 10 6 0x68 ∧
    decode 0x232FD6AA = .teqShImm .cs false 15 13 13 .lsr 10 ∧
    decode 0x533445B5 = .teqShReg .pl true 4 4 5 .lsr 5 := by decide

theorem test_decode_cmp :
    decode 0x8149BFD7 = .cmpImm .hi false 9 11 0xD7 ∧
    decode 0xB35E244B = .cmpShImm .lt true 14 2 8 .asr 11 ∧
    decode 0xE3439CD6 = .cmpShReg .al false 3 9 12 .asr 6 := by decide

theorem test_decode_cmn :
    decode 0x11780F46 = .cmnImm .ne true 8 0 0x46 ∧
    decode 0x436D71EC = .cmnShImm .mi false 13 7 3 .ror 12 ∧
    decode 0x7372E3F7 = .cmnShReg .vc true 2 14 3 .ror 7 := by decide

theorem test_decode_orr :
    decode 0xA1875FB5 = .orrImm .ge false 7 5 0xB5 ∧
    decode 0xD39CCF0D = .orrShImm .le true 12 12 30 .lsl 13 ∧
    decode 0x03813A98 = .orrShReg .eq false 1 3 10 .lsl 8 := by decide

theorem test_decode_mov :
    decode 0x31B6AF24 = .movImm .cc true 6 10 0x24 ∧
    decode 0x63AB1CAE = .movShImm .vs false 11 1 25 .lsr 14 ∧
    decode 0x93B081B9 = .movShReg .ls true 0 8 1 .lsr 9 := by decide

theorem test_decode_bic :
    decode 0xC1C5FF93 = .bicImm .gt false 5 15 0x93 ∧
    decode 0xF3DA6A4F = .bicShImm .nv true 10 6 20 .asr 15 ∧
    decode 0x23CFD8DA = .bicShReg .cs false 15 13 8 .asr 10 := by decide

theorem test_decode_mvn :
    decode 0x51F44F02 = .mvnImm .pl true 4 4 0x02 ∧
    decode 0x83E9B7E0 = .mvnShImm .hi false 9 11 15 .ror 0 ∧
    decode 0xB3FE2FFB = .mvnShReg .lt true 14 2 15 .ror 11 := by decide

theorem test_decode_ldr :
    decode 0xE4339771 = .ldrImm .al false false false 3 9 0x771 ∧
    decode 0x17380511 = .ldrReg .ne true false false 8 0 10 .lsl 1 := by decide

theorem test_decode_str :
    decode 0x449D776B = .strImm .mi false true false 13 7 0x76B ∧
    decode 0x77D2EE37 = .strReg .vc true true true 2 14 28 .lsr 7 := by decide

theorem test_decode_b :
    decode 0xA87FFF65 = .b .ge 0x7FFF65 := by decide

theorem test_decode_bl :
    decode 0xD9FFFF62 = .bl .le 0xFFFF62 := by decide

theorem test_decode_bx :
    decode 0x0AFFFFF8 = .bx .eq 8 := by decide

theorem test_decode_blx :
    decode 0x3BFFFFF3 = .blx .cc 3 := by decide

theorem test_decode_nop :
    decode 0x6FFFFFFF = .nop .vs := by decide

theorem test_decode_end :
    decode 0xFFFFFFFF = .endStream := by decide

/-! ### Well-formedness: for each check a term it refuses, and one it accepts -/

/-- R159, R160: a compare has `S` = 1 and a zero `rd` field; MOV and MVN a zero `rn` field. -/
theorem test_wf_alu :
    (Instr.cmpImm .al true 0 1 2).wf = true ∧ (Instr.cmpImm .al false 0 1 2).wf = false ∧
    (Instr.tstShReg .al true 5 1 2 .lsl 3).wf = false ∧ (Instr.movImm .al false 1 0 5).wf = true ∧
    (Instr.movImm .al false 1 6 5).wf = false ∧ (Instr.mvnShImm .al false 1 6 0 .lsl 2).wf = false := by decide

/-- R160: no post-index without write-back, no negative `imm12`, `U` = 0 only for a negative offset. -/
theorem test_wf_memory :
    (Instr.ldrImm .al true true false 0 1 4).wf = true ∧ (Instr.ldrImm .al false true false 0 1 4).wf = false ∧
    (Instr.strReg .al false true false 0 1 0 .lsl 2).wf = false ∧ (Instr.strImm .al true true false 0 1 0xFFC).wf = false ∧
    (Instr.ldrImm .al true false false 0 1 0).wf = false := by decide

/-- A cache geometry. -/
def geometry (latency ways sizeBytes lineBytes : Nat) : Geometry :=
  { latency := latency, ways := ways, sizeBytes := sizeBytes, lineBytes := lineBytes, terminal := false }

/-- R93, line by line: a line of 12 bytes, one of 6 bytes, a size that is no multiple of the line, lines that are no
multiple of the ways, no ways, three sets, 2^31 words of address, a terminal flag in the middle, a shrinking line, no terminal
level. -/
theorem test_geometry_checks :
    (geometry 0 2 64 16).cacheOk = true ∧ (geometry 0 2 96 12).lineOk = false ∧ (geometry 0 2 96 6).lineOk = false ∧
    (geometry 0 2 40 16).waysOk = false ∧ (geometry 0 4 96 16).waysOk = false ∧ (geometry 0 0 64 16).waysOk = false ∧
    (geometry 0 2 96 16).setsOk = false ∧ (geometry 0 1 (2 ^ 33) 4).widthOk = false ∧
    Geometry.cacheOk { geometry 0 2 64 16 with terminal := true } = false ∧
    linesNest [geometry 0 2 64 32, geometry 0 2 64 16] = false ∧
    chainOk [] (geometry 0 1 4 4) = false := by decide

/-! ### ALU instructions: one step each, from the worked examples of R202 to R217 and P4 -/

/-- The reset state with one record in E, marked decoded, with the given snapshots, and the given flags. -/
def inE (raw vRn vRm vRs : Word) (flags : Flags) : State :=
  { State.reset with
    flags := flags
    slotE := some { raw := raw, pc := 0x10, decoded := true, vRn := vRn, vRm := vRm, vRs := vRs } }

/-- The result and the flags N, Z, C, V after the step in which that record is executed. -/
def executed (raw vRn vRm vRs : Word) (flags : Flags) : Option (Word × Flags) :=
  match step (inE raw vRn vRm vRs flags) with
  | .next t => t.slotM.map fun r => (r.result, t.flags)
  | _ => none

/-- NZCV as four bits, as the test vectors write them. -/
def nzcv (b : BitVec 4) : Flags := { n := b.getLsbD 3, z := b.getLsbD 2, c := b.getLsbD 1, v := b.getLsbD 0 }

theorem test_and : executed 0xE2020001 0xF0F0F0F0 0xFF00FF00 0 (nzcv 0b0011) = some (0xF000F000, nzcv 0b0011) := by decide
theorem test_eors : executed 0xE2320001 0xFFFFFFFF 0xFFFFFFFF 0 (nzcv 0b1011) = some (0, nzcv 0b0111) := by decide
theorem test_subs : executed 0xE0511001 1 0 0 (nzcv 0) = some (0, nzcv 0b0110) := by decide
theorem test_subs_overflow : executed 0xE0511001 0x80000000 0 0 (nzcv 0) = some (0x7FFFFFFF, nzcv 0b0011) := by decide
theorem test_rsb : executed 0xE0600000 1 0 0 (nzcv 0b0100) = some (0xFFFFFFFF, nzcv 0b0100) := by decide
theorem test_adds_overflow : executed 0xE0910001 0x7FFFFFFF 0 0 (nzcv 0) = some (0x80000000, nzcv 0b1001) := by decide
theorem test_adds_carry : executed 0xE0910001 0xFFFFFFFF 0 0 (nzcv 0) = some (0, nzcv 0b0110) := by decide
theorem test_adc : executed 0xE0A21000 0 0 0 (nzcv 0b0010) = some (1, nzcv 0b0010) := by decide
theorem test_sbcs_borrow : executed 0xE2D31002 5 5 0 (nzcv 0) = some (0xFFFFFFFF, nzcv 0b1000) := by decide
theorem test_sbcs_no_borrow : executed 0xE2D31002 5 5 0 (nzcv 0b0010) = some (0, nzcv 0b0110) := by decide
theorem test_rsc : executed 0xE0E31000 5 0 0 (nzcv 0b0010) = some (0xFFFFFFFB, nzcv 0b0010) := by decide
theorem test_tst : executed 0xE11000F0 0x0F 0 0 (nzcv 0b1011) = some (0, nzcv 0b0111) := by decide
theorem test_teq : executed 0xE3300001 0x80000000 0 0 (nzcv 0b0100) = some (0x80000000, nzcv 0b1000) := by decide
theorem test_cmp : executed 0xE1502002 1 0 0 (nzcv 0) = some (0xFFFFFFFF, nzcv 0b1000) := by decide
theorem test_cmn : executed 0xE1700001 0xFFFFFFFF 0 0 (nzcv 0) = some (0, nzcv 0b0110) := by decide
theorem test_orr : executed 0xE3820201 0x80000000 1 0 (nzcv 0) = some (0x80000010, nzcv 0) := by decide
theorem test_mov_shift_by_immediate : executed 0xE3A10180 0 3 0 (nzcv 0) = some (0x18, nzcv 0) := by decide
theorem test_mov_shift_by_register : executed 0xE3A70230 0 0xFFFFFFFF 1 (nzcv 0) = some (0x7FFFFFFF, nzcv 0) := by decide
theorem test_bic : executed 0xE1C000FF 0x12345678 0 0 (nzcv 0) = some (0x12345600, nzcv 0) := by decide
theorem test_mvn : executed 0xE1E00000 0 0 0 (nzcv 0) = some (0xFFFFFFFF, nzcv 0) := by decide
/-- P4: `MOVNE` does not execute when Z = 1. -/
theorem test_failed_condition : executed 0x11A40022 0 0 0 (nzcv 0b0110) = some (0, nzcv 0b0110) := by decide

/-- Shifts by 32 and more, from R184. -/
theorem test_shift_far :
    shift 0x80000001 .lsl 32 = 0 ∧ shift 0x80000001 .lsr 32 = 0 ∧ shift 0x80000001 .asr 33 = 0xFFFFFFFF ∧
    shift 0x80000001 .ror 33 = 0xC0000000 ∧ shift 0x80000001 .ror 32 = 0x80000001 ∧ shift 0x80000000 .asr 31 = 0xFFFFFFFF := by
  decide

/-! ### Loads, stores, branches, No-op, sentinel: one step each -/

/-- Address and write-back value after the execute stage. -/
def addressed (raw vRn vRm : Word) : Option (Word × Word) :=
  match step (inE raw vRn vRm 0 (nzcv 0)) with
  | .next t => t.slotM.map fun r => (r.addr, r.wbval)
  | _ => none

/-- R231, R232, R233: `LDR r4, [r2], #-4`; `STR r3, [r2, #4]!`; `STR r4, [r2, r5, LSL #3]`; and `U` = 0 with `imm12` = -4
adds 4 (R230). -/
theorem test_addressing :
    addressed 0xE4642004 0x44 0 = some (0x44, 0x40) ∧ addressed 0xE5C32004 0x40 0 = some (0x44, 0x44) ∧
    addressed 0xE7842185 0x40 1 = some (0x48, 0x48) ∧ addressed 0xE5232FFC 0x40 0 = some (0x44, 0x44) := by decide

/-- The reset state with one record in M whose condition passed, and one word in the store. -/
def inM (raw addr vRd : Word) (at4 word : Word) : State :=
  { State.reset with
    slotM := some { raw := raw, pc := 0x10, decoded := true, pass := true, addr := addr, vRd := vRd }
    mem := { caches := [], backing := { timer := [], cells := writeWord [] (flatAddr at4) word } } }

/-- R231, P2: a load reads the word; a misaligned load reads 0 and leaves a diagnostic. -/
def loadedWord (s : State) : Option (Word × List Diagnostic) :=
  match step s with
  | .next t => t.slotW.map fun r => (r.loaded, t.diags)
  | _ => none

theorem test_load : loadedWord (inM 0xE4642004 0x44 0 0x44 0xAB) = some (0xAB, []) := by decide
theorem test_load_misaligned :
    loadedWord (inM 0xE5A72002 0x42 0 0x44 0xAB) = some (0, [{ kind := .misalignedRead, addr := 0x42 }]) := by decide

/-- R232: a store writes the word in the memory stage; the byte view is little-endian (R67). -/
theorem test_store :
    (match step (inM 0xE5C32004 0x44 0x12345678 0x40 0xAB) with
      | .next t => (t.wordAt true 0x11, t.wordAt true 0x10, t.byteAt 0x44, t.byteAt 0x47)
      | _ => (0, 0, 0, 0)) = (0x12345678, 0xAB, 0x78, 0x12) := by decide

/-- The reset state with one record in W. -/
def inW (r : Record) : State := { State.reset with slotW := some { r with decoded := true, pass := true } }

/-- Register `x` after the step. -/
def regAfter (s : State) (x : Reg) : Option Word :=
  match step s with
  | .next t => some (t.reg x)
  | _ => none

/-- R231: base and destination written back; when they are one register (`LDR r2, [r2], #-4`) the loaded word wins. -/
theorem test_load_writeback :
    regAfter (inW { raw := 0xE4642004, pc := 0, loaded := 0xAB, wbval := 0x40 }) 2 = some 0x40 ∧
    regAfter (inW { raw := 0xE4642004, pc := 0, loaded := 0xAB, wbval := 0x40 }) 4 = some 0xAB ∧
    regAfter (inW { raw := 0xE4622004, pc := 0, loaded := 0xAB, wbval := 0x40 }) 2 = some 0xAB := by decide

/-- R201: a compare writes no register. -/
theorem test_compare_writeback : regAfter (inW { raw := 0xE1555001, pc := 0, result := 7 }) 5 = some 0 := by decide

/-- R241 to R244: where the next word was fetched from, and the link value. `BNE -8` at 0x10; `BL 0x10` at 0x10;
`BX lr`, `BLX r3` with the register holding 0x100. -/
def branched (raw vRm : Word) (flags : Flags) : Option (Option Word × Word) :=
  match step (inE raw 0 vRm 0 flags) with
  | .next t => t.slotM.map fun r => (t.slotF.map Record.pc, r.result)
  | _ => none

theorem test_branch :
    branched 0x18FFFFF8 0 (nzcv 0) = some (some 0x08, 0x14) ∧ branched 0x18FFFFF8 0 (nzcv 0b0100) = some (some 0, 0) ∧
    branched 0xE9000010 0 (nzcv 0) = some (some 0x20, 0x14) ∧ branched 0xEA00000E 0x100 (nzcv 0) = some (some 0x100, 0x14) ∧
    branched 0xEB000003 0x100 (nzcv 0) = some (some 0x100, 0x14) := by decide

/-- R242, R244: only a linking branch writes r14. -/
theorem test_link :
    regAfter (inW { raw := 0xE9000010, pc := 4, result := 8 }) 14 = some 8 ∧
    regAfter (inW { raw := 0xEB000003, pc := 0x20, result := 0x24 }) 14 = some 0x24 ∧
    regAfter (inW { raw := 0xE8000010, pc := 4, result := 8 }) 14 = some 0 := by decide

/-- R252, R253, R256: END in D halts and flushes, unless a branch is taken in the same step; NOP in D moves on. -/
def withD (raw : Word) (e : Option Record) : State :=
  { State.reset with slotF := some { raw := 0, pc := 0x18 }, slotD := some { raw := raw, pc := 0x14 }, slotE := e }

/-- The halted latch and the slots F, D, E after the step. -/
def flow (s : State) : Option (Bool × Bool × Bool × Bool) :=
  match step s with
  | .next t => some (t.halted, t.slotF.isSome, t.slotD.isSome, t.slotE.isSome)
  | _ => none

theorem test_sentinel :
    flow (withD 0xFFFFFFFF none) = some (true, false, false, false) ∧
    flow (withD 0xFFFFFFFF (some { raw := 0xEA00000E, pc := 0x10, decoded := true })) = some (false, true, false, false) ∧
    flow (withD 0xEC000000 none) = some (false, true, true, true) := by decide

/-- R266: a record that shares a register with the one in E is held. -/
theorem test_hazard :
    flow (withD 0xE0820001 (some { raw := 0xE1A00003, pc := 0x10, decoded := true })) = some (false, true, true, false) ∧
    flow (withD 0xE0821001 (some { raw := 0xE1A33003, pc := 0x10, decoded := true })) = some (false, true, true, true) := by
  decide

/-! ### The memory chain -/

/-- V33 and V36: the codec. -/
theorem test_codec :
    (geometry 0 4 4096 64).tag 0x02ABCDEF = 0x2ABCD ∧ (geometry 0 4 4096 64).index 0x02ABCDEF = 0xE ∧
    (geometry 0 4 4096 64).offset 0x02ABCDEF = 0xF ∧ (geometry 0 4 4096 64).encode 0x2ABCD 0xE 0xF = 0x02ABCDEF ∧
    (geometry 0 2 1024 16).tag 0x12345 = 0x246 ∧ (geometry 0 2 1024 16).index 0x12345 = 17 ∧
    (geometry 0 2 1024 16).base 0x12345 = 0x12344 ∧ (geometry 0 2 1024 16).tagBits = 25 := by decide

/-- A set of one-word lines with these tags and ages, all occupied and clean. -/
def fullSet (tagAges : List (Nat × Nat)) : List Line :=
  tagAges.map fun p => { words := [0], tag := p.1, dirty := false, occupied := true, age := p.2 }

/-- V43: the victims of reads 4 and 5, and the ages after read 4 touches way 1. -/
theorem test_victim :
    findLRU (fullSet [(0, 0), (1, 3), (2, 2), (3, 1)]) = 1 ∧ findLRU (fullSet [(0, 1), (4, 0), (2, 3), (3, 2)]) = 2 ∧
    (touch (fullSet [(0, 0), (4, 3), (2, 2), (3, 1)]) 1).map Line.age = [1, 0, 3, 2] := by decide

/-- V44: a terminal level of latency 2 answers at the third poll. -/
def pollThrice : List Bool :=
  let r : Request := { kind := .read, addr := 5, n := 1, data := [] }
  let b0 : Backing := { timer := [], cells := [] }
  let p1 := terminalAccess 2 r b0
  let p2 := terminalAccess 2 r p1.2
  let p3 := terminalAccess 2 r p2.2
  [p1.1 == .waiting, p2.1 == .waiting, p3.1 == .waiting]

theorem test_latency : pollThrice = [true, true, false] := by decide

/-- The chain of configuration C: a cache of latency 1, 2 ways of 64 bytes, lines of 16, over a store of latency 3. -/
def chainC : Chain :=
  { caches := [geometry 1 2 64 16]
    backing := { latency := 3, ways := 1, sizeBytes := 4, lineBytes := 4, terminal := true }
    valid := by decide }

/-- Configuration C, with the word `MOV r0, #5` at address 0. -/
def configC : Config := { chain := chainC, mem0 := writeWord [] 0 0xE1A00005, mem0Ok := by decide, resetPc := 0 }

/-- V40, V45: the misses of a set of two lines; the third write writes the oldest line back before it fills. -/
theorem test_write_back :
    (let g := geometry 0 2 8 4
     let wr (a : Nat) (v : Word) (h : Hierarchy) : Hierarchy :=
       (access 0 [g] { kind := .write, addr := a, n := 1, data := [v] } h).2
     let h := wr 3 0x33 (wr 2 0x22 (wr 1 0x11 { caches := [CacheState.initial g], backing := { timer := [], cells := [] } }))
     (readWord h.backing.cells 1, readWord h.backing.cells 2, h.caches.map fun c => (c.set 0).map fun l => (l.tag, l.age))) =
      (0x11, 0, [[(3, 0), (2, 1)]]) := by decide

/-- R275, log 6: a word placed for the next fetch is fetched by the very next step. -/
theorem test_placed_word_is_fetched :
    (match step (State.reset.placeFetchWord 0xE1A00005) with
      | .next t => t.slotF.map fun r => (r.raw, r.pc, t.pc)
      | _ => none) = some (0xE1A00005, 0, 4) := by decide

/-- R268, log 6: after `withFetchWord` the very next step executes the placed word, `MOV r0, #5`. -/
theorem test_placed_word_runs :
    (match step (State.reset.withFetchWord 32 0xE1A00005) with
      | .next t => t.slotM.map fun r => (r.raw, r.pass, r.result)
      | _ => none) = some (0xE1A00005, true, 5) := by decide

/-- R252, log 6: after `withFetchWord` the very next step executes the placed sentinel: the core halts and has drained. -/
theorem test_placed_sentinel_halts :
    (match step (State.reset.withFetchWord 32 0xFFFFFFFF) with
      | .next t => (t.halted, t.stillRunning)
      | _ => (false, true)) = (true, false) := by decide

/-! ### Witnesses: for each statement with hypotheses, states and operands that meet all of them -/

/-- Words of each layout that differ in ignored bits only; a compare; a move. -/
theorem witness_IgnoredBitsTakeNoPart :
    ([((0xE1A00000 : Word), (0xE1A00F00 : Word)), (0xE3A10010, 0xE3A10090), (0xE4000000, 0xE4100000),
        (0xE6000000, 0xE6100010), (0xEA00000E, 0xEAFFFFFE), (0xEC000000, 0xEFFFFFFF), (0xFC000000, 0xFFFFFFFE)].all fun p =>
      p.1 != sentinelWord && p.2 != sentinelWord && (p.1 ^^^ p.2) &&& ~~~ignoredBits p.1 == 0) = true ∧
    AluOp.tst.isCompare = true ∧ (AluOp.mov = .mov ∨ AluOp.mov = .mvn) := by decide

theorem witness_TableRowsDecode :
    (0xE1A00005 : Word) &&& (Instr.movImm .al false 0 0 5).tableRow.1 = (Instr.movImm .al false 0 0 5).tableRow.2 ∧
    ((0xE1A00005 : Word) = sentinelWord → Instr.movImm .al false 0 0 5 = .endStream) ∧
    (0xFFFFFFFE : Word) &&& (Instr.nop .nv).tableRow.1 = (Instr.nop .nv).tableRow.2 ∧
    (0xFFFFFFFF : Word) &&& Instr.endStream.tableRow.1 = Instr.endStream.tableRow.2 := by decide

/-- A word for each class and each layout. -/
theorem witness_DecodedFieldsOfWord :
    (decode 0xE1A00005).fields.cls = .alu ∧ (0xE1A00005 : Word).getLsbD 25 = false ∧
    (decode 0xE3A10180).fields.cls = .alu ∧ (0xE3A10180 : Word).getLsbD 25 = true ∧ (0xE3A10180 : Word).getLsbD 4 = false ∧
    (decode 0xE3A70230).fields.cls = .alu ∧ (0xE3A70230 : Word).getLsbD 25 = true ∧ (0xE3A70230 : Word).getLsbD 4 = true ∧
    (decode 0xE4642004).fields.cls = .memory ∧ (0xE4642004 : Word).getLsbD 25 = false ∧
    (decode 0xE7842185).fields.cls = .memory ∧ (0xE7842185 : Word).getLsbD 25 = true ∧
    (decode 0x18FFFFF8).fields.cls = .branch ∧ (0x18FFFFF8 : Word).getLsbD 25 = false ∧
    (decode 0xEA00000E).fields.cls = .branch ∧ (0xEA00000E : Word).getLsbD 25 = true ∧
    (decode 0xEC000000).fields.cls = .noop := by decide

theorem witness_BytesDecodeAsTheirWord : ([] : List Byte).length < 4 ∧ ([1, 2, 3] : List Byte).length < 4 := by decide

/-- A state in the execute stage, its condition passing. -/
def executing (raw : Word) : State := { inE raw 1 2 3 (nzcv 0b0100) with phase := .execute }

/-- The record in E of that state. -/
def recordE (raw : Word) : Record := { raw := raw, pc := 0x10, decoded := true, vRn := 1, vRm := 2, vRs := 3 }

theorem witness_ArithmeticExecutes : AluOp.add.isLogical = false ∧ (executing 0xE0910001).phase = .execute ∧
    (executing 0xE0910001).slotE = some (recordE 0xE0910001) ∧ condPass .al (executing 0xE0910001).flags = true := by decide

theorem witness_LogicalExecutes : AluOp.mvn.isLogical = true ∧ (executing 0xE1E00000).phase = .execute ∧
    (executing 0xE1E00000).slotE = some (recordE 0xE1E00000) ∧ condPass .eq (executing 0xE1E00000).flags = true := by decide

/-- A state in the writeback stage. -/
def writing (raw : Word) : State := { inW { raw := raw, pc := 0x10, result := 7, wbval := 9 } with phase := .writeback }

/-- The record in W of that state. -/
def recordW (raw : Word) : Record := { raw := raw, pc := 0x10, decoded := true, pass := true, result := 7, wbval := 9 }

theorem witness_AluWritesBack : (writing 0xE0911001).phase = .writeback ∧
    (writing 0xE0911001).slotW = some (recordW 0xE0911001) ∧ (recordW 0xE0911001).pass = true := by decide

theorem witness_CompareWithoutStatusIsInert : AluOp.cmp.isCompare = true ∧ (executing 0xE1401001).phase = .execute ∧
    (executing 0xE1401001).slotE = some (recordE 0xE1401001) ∧ condPass .al (executing 0xE1401001).flags = true ∧
    (writing 0xE1401001).phase = .writeback := by decide

theorem witness_MemoryAddressing : (executing 0xE4642004).phase = .execute ∧
    (executing 0xE4642004).slotE = some (recordE 0xE4642004) ∧ condPass .al (executing 0xE4642004).flags = true := by decide

/-- A state in the memory stage, with the given chain, in which the word at 0x44 is 0xAB. -/
def accessing (chain : Chain) (raw addr : Word) : State :=
  { State.launch { chain := chain, mem0 := writeWord [] 0x11 0xAB, mem0Ok := by decide, resetPc := 0 } with
    slotM := some { raw := raw, pc := 0x10, decoded := true, pass := true, addr := addr, vRd := 0x55 } }

/-- The record in M of that state. -/
def recordM (raw addr : Word) : Record := { raw := raw, pc := 0x10, decoded := true, pass := true, addr := addr, vRd := 0x55 }

/-- The least and the greatest misaligned offset; a load, a store; a fetch. -/
theorem witness_MisalignedAccess :
    (0x41 : Word).toNat % 4 ≠ 0 ∧ (0xFFFFFFFF : Word).toNat % 4 ≠ 0 ∧
    (decode 0xE4642004).fields.cls = .memory ∧ (decode 0xE4642004).fields.l = true ∧
    (decode 0xE4442004).fields.cls = .memory ∧ (decode 0xE4442004).fields.l = false ∧
    (accessing Chain.plain 0xE4642004 0x41).phase = .memory ∧
    (accessing Chain.plain 0xE4642004 0x41).slotM = some (recordM 0xE4642004 0x41) ∧
    (recordM 0xE4642004 0x41).pass = true ∧ (recordM 0xE4642004 0x41).addr.toNat % 4 ≠ 0 ∧
    (State.reset.setReg 15 2).input.inject = none ∧ (State.reset.setReg 15 2).pc.toNat % 4 ≠ 0 := by decide

/-- The chain of test vector T9: one terminal level of latency 2. -/
def chainT9 : Chain := { Chain.plain with backing := { Chain.plain.backing with latency := 2 }, valid := by decide }

/-- One state that waits (timer 0, latency 2) and one that is served (timer 0, latency 0). -/
theorem witness_LoadFromTerminalLevel :
    (decode 0xE4642004).fields.cls = .memory ∧ (decode 0xE4642004).fields.l = true ∧
    ∀ s ∈ [accessing chainT9 0xE4642004 0x44, accessing Chain.plain 0xE4642004 0x44],
      s.phase = .memory ∧ s.slotM = some (recordM 0xE4642004 0x44) ∧ (recordM 0xE4642004 0x44).pass = true ∧
      (recordM 0xE4642004 0x44).addr.toNat % 4 = 0 ∧ (s.input.useCache = false ∨ s.chain.caches = []) := by decide

theorem witness_LoadFromTerminalLevel_clauses :
    timerAt (accessing chainT9 0xE4642004 0x44).mem.backing.timer 0x11 < chainT9.backing.latency ∧
    Chain.plain.backing.latency ≤ timerAt (accessing Chain.plain 0xE4642004 0x44).mem.backing.timer 0x11 := by decide

theorem witness_StoreToTerminalLevel :
    (decode 0xE4442004).fields.cls = .memory ∧ (decode 0xE4442004).fields.l = false ∧
    ∀ s ∈ [accessing chainT9 0xE4442004 0x44, accessing Chain.plain 0xE4442004 0x44],
      s.phase = .memory ∧ s.slotM = some (recordM 0xE4442004 0x44) ∧ (recordM 0xE4442004 0x44).pass = true ∧
      (recordM 0xE4442004 0x44).addr.toNat % 4 = 0 ∧ (s.input.useCache = false ∨ s.chain.caches = []) := by decide

theorem witness_StoreToTerminalLevel_clauses :
    timerAt (accessing chainT9 0xE4442004 0x44).mem.backing.timer 0x11 < chainT9.backing.latency ∧
    Chain.plain.backing.latency ≤ timerAt (accessing Chain.plain 0xE4442004 0x44).mem.backing.timer 0x11 := by decide

/-- A load through a cache and a store through a cache, the caches coherent. -/
theorem witness_LoadThroughHierarchy :
    (decode 0xE4642004).fields.cls = .memory ∧ (decode 0xE4642004).fields.l = true ∧
    (accessing chainC 0xE4642004 0x44).phase = .memory ∧
    (accessing chainC 0xE4642004 0x44).slotM = some (recordM 0xE4642004 0x44) ∧ (recordM 0xE4642004 0x44).pass = true ∧
    (recordM 0xE4642004 0x44).addr.toNat % 4 = 0 ∧ (accessing chainC 0xE4642004 0x44).memoryCoherent = true ∧
    ∃ t, exec (decode 0xE4642004) (accessing chainC 0xE4642004 0x44) = .next t :=
  ⟨by decide, by decide, by decide, by decide, by decide, by decide, by decide, _, exec_eq _ _⟩

theorem witness_StoreThroughHierarchy :
    (decode 0xE4442004).fields.cls = .memory ∧ (decode 0xE4442004).fields.l = false ∧
    (accessing chainC 0xE4442004 0x44).phase = .memory ∧
    (accessing chainC 0xE4442004 0x44).slotM = some (recordM 0xE4442004 0x44) ∧ (recordM 0xE4442004 0x44).pass = true ∧
    (recordM 0xE4442004 0x44).addr.toNat % 4 = 0 ∧ (accessing chainC 0xE4442004 0x44).memoryCoherent = true ∧
    ∃ t, exec (decode 0xE4442004) (accessing chainC 0xE4442004 0x44) = .next t :=
  ⟨by decide, by decide, by decide, by decide, by decide, by decide, by decide, _, exec_eq _ _⟩

theorem witness_MemoryWritesBack : (writing 0xE4642004).phase = .writeback ∧
    (writing 0xE4642004).slotW = some (recordW 0xE4642004) ∧ (recordW 0xE4642004).pass = true := by decide

theorem witness_BranchTakenExecutes : (executing 0xE9000010).phase = .execute ∧
    (executing 0xE9000010).slotE = some (recordE 0xE9000010) ∧ condPass .al (executing 0xE9000010).flags = true := by decide

theorem witness_BranchWritesBack : (decode 0xE9000010).fields.cls = .branch ∧ (writing 0xE9000010).phase = .writeback ∧
    (writing 0xE9000010).slotW = some (recordW 0xE9000010) ∧ (recordW 0xE9000010).pass = true ∧
    ∃ t, exec (decode 0xE9000010) (writing 0xE9000010) = .next t :=
  ⟨by decide, by decide, by decide, by decide, _, exec_eq _ _⟩

/-- A state in the decode stage (or the sentinel check), E holding `e`. -/
def decoding (p : Phase) (raw : Word) (e : Option Record) : State :=
  { State.reset with phase := p, slotD := some { raw := raw, pc := 0x14 }, slotE := e }

theorem witness_NopHasNoEffect :
    (0xFFFFFFFE : Word).extractLsb' 26 2 = 3 ∧ (0xFFFFFFFE : Word) ≠ 0xFFFFFFFF ∧
    (writing 0xEC000000).phase = .writeback ∧ (executing 0xEC000000).phase = .execute ∧
    (executing 0xEC000000).slotE = some (recordE 0xEC000000) ∧ (decoding .decode 0xEC000000 none).phase = .decode ∧
    (decoding .decode 0xEC000000 none).slotD = some { raw := 0xEC000000, pc := 0x14 } := by decide

theorem witness_EndHaltsInSentinelCheck :
    (decoding .sentinel 0xFFFFFFFF none).phase = .sentinel ∧
    (decoding .sentinel 0xFFFFFFFF none).slotD = some { raw := 0xFFFFFFFF, pc := 0x14 } ∧
    (writing 0xFFFFFFFF).phase = .writeback ∧ (executing 0xFFFFFFFF).phase = .execute ∧
    (executing 0xFFFFFFFF).slotE = some (recordE 0xFFFFFFFF) := by decide

/-- A record that is held (`ADD r2, r0, #1` behind `MOV r0, #3`) and one that is not. -/
theorem witness_DecodeStageHoldsOrSnapshots :
    (decoding .decode 0xE0820001 (some (recordE 0xE1A00003))).phase = .decode ∧
    (decoding .decode 0xE0820001 (some (recordE 0xE1A00003))).slotD = some { raw := 0xE0820001, pc := 0x14 } ∧
    (∃ x ∈ (decode 0xE0820001).uses, x ∈ slotUses (decoding .decode 0xE0820001 (some (recordE 0xE1A00003))).slotE) ∧
    (∀ x ∈ (decode 0xE0821001).uses,
      x ∉ slotUses (decoding .decode 0xE0821001 (some (recordE 0xE1A33003))).slotE ∧
      x ∉ slotUses (decoding .decode 0xE0821001 (some (recordE 0xE1A33003))).slotM ∧
      x ∉ slotUses (decoding .decode 0xE0821001 (some (recordE 0xE1A33003))).slotW) := by decide

theorem witness_FailedConditionDoesNothing :
    (executing 0x11A40022).phase = .execute ∧ (executing 0x11A40022).slotE = some (recordE 0x11A40022) ∧
    condPass (decode 0x11A40022).fields.cond (executing 0x11A40022).flags = false ∧
    ∃ s ∈ [{ accessing Chain.plain 0xE4642004 0x44 with slotM := some { recordM 0xE4642004 0x44 with pass := false } }],
      s.phase = Phase.memory ∧ s.slotM = some { recordM 0xE4642004 0x44 with pass := false } ∧
      State.slotW { writing 0xE0911001 with slotW := some { recordW 0xE0911001 with pass := false } } =
        some { recordW 0xE0911001 with pass := false } := by decide

theorem witness_OnlyMemoryClassTouchesMemory :
    (∃ t, exec (decode 0xE0911001) { writing 0xE0911001 with phase := .memory } = .next t) ∧
    (decode 0xE0911001).fields.cls ≠ .memory ∧ (∃ t, exec (decode 0xE0911001) (writing 0xE0911001) = .next t) ∧
    (writing 0xE0911001).phase ≠ .memory :=
  ⟨⟨_, exec_eq _ _⟩, by decide, ⟨_, exec_eq _ _⟩, by decide⟩

/-- An instruction that changes a register, and one that changes a flag. -/
theorem witness_RegisterFrame :
    (match exec (decode 0xE0911001) (writing 0xE0911001) with
      | .next t => t.reg 1
      | _ => 0) = 7 ∧ (writing 0xE0911001).reg 1 = 0 := by decide

theorem witness_FlagFrame :
    (match exec (decode 0xE0910001) (executing 0xE0910001) with
      | .next t => t.flags
      | _ => nzcv 0b0100) = nzcv 0 ∧ (executing 0xE0910001).flags = nzcv 0b0100 := by decide

/-- A record in every slot, and an EMPTY one. -/
theorem witness_StepRunsDecodedInstructions :
    (∀ p ∈ [Phase.memory, .decode, .execute, .sentinel, .writeback],
      State.slot { State.reset with
        slotD := some (recordE 0xE0911001)
        slotE := some (recordE 0xE0911001)
        slotM := some (recordE 0xE0911001)
        slotW := some (recordE 0xE0911001) } p = some (recordE 0xE0911001)) ∧
    State.reset.slot .memory = none := by decide

/-- A fetch that is injected, one that waits, one that completes. -/
theorem witness_FetchCreatesRecord :
    (State.input { State.reset with lines := { StepInput.usual with inject := some 0xEC000000 } }).inject = some 0xEC000000 ∧
    State.reset.input.inject = none ∧
    (∃ u, (State.launch configC).memRead true 0 = (.waiting, u)) ∧ ∃ u, State.reset.memRead true 0 = (.done 0, u) :=
  ⟨by decide, by decide, ⟨_, rfl⟩, ⟨_, rfl⟩⟩

theorem witness_FetchReadsMemory : State.reset.slotF = none ∧ State.reset.input.inject = none ∧
    State.reset.pc.toNat % 4 = 0 ∧ State.reset.memoryCoherent = true ∧
    State.reset.fetch.slotF = some { raw := 0, pc := 0 } := by decide

/-- The memory waits; D is held; the slots shift and a word is fetched; a halted core fetches none. -/
theorem witness_AdvanceCases :
    State.mwait { State.reset with mwait := true } = true ∧ State.reset.mwait = false ∧
    (decoding .writeback 0xE0820001 none).slotD = some { raw := 0xE0820001, pc := 0x14 } ∧
    (∀ r, State.reset.slotD = some r → r.decoded = true) ∧ State.reset.halted = false ∧
    State.reset.input.usePipeline = true ∧ State.reset.advance.slotF ≠ none ∧
    State.halted { State.reset with halted := true } = true := by
  refine ⟨rfl, rfl, rfl, ?_, rfl, rfl, by decide, rfl⟩
  intro r h
  cases h

theorem witness_StepWritesFlagsOnlyInExecute :
    (match step (inE 0xE0910001 1 0 0 (nzcv 0b0100)) with
      | .next t => t.flags
      | _ => nzcv 0b0100) = nzcv 0 ∧ (inE 0xE0910001 1 0 0 (nzcv 0b0100)).flags = nzcv 0b0100 := by decide

theorem witness_StepWritesRegistersOnlyInWriteback :
    regAfter (inW (recordW 0xE0911001)) 1 = some 7 ∧ (inW (recordW 0xE0911001)).reg 1 = 0 ∧ (1 : Reg) ≠ 15 := by decide

theorem witness_ProgramCounterWriters : ∃ t, step (inE 0xE9000010 0 0 0 (nzcv 0)) = .next t := ⟨_, step_eq _⟩

/-- A state that halts in this step. -/
theorem witness_HaltedLatch :
    flow (withD 0xFFFFFFFF none) = some (true, false, false, false) ∧ (withD 0xFFFFFFFF none).halted = false ∧
    flow { State.reset with halted := true } = some (true, false, false, false) := by decide

theorem witness_SentinelHaltsCore : (withD 0xFFFFFFFF none).sentinelInD = true ∧
    (withD 0xFFFFFFFF none).memoryWaits = false ∧ (withD 0xFFFFFFFF none).branchTaken = false ∧
    ∃ t, step (withD 0xFFFFFFFF none) = .next t := ⟨by decide, by decide, by decide, _, step_eq _⟩

/-- A taken branch in E with the sentinel in D. -/
theorem witness_TakenBranchFlushes : (withD 0xFFFFFFFF (some (recordE 0xEA00000E))).branchTaken = true ∧
    (withD 0xFFFFFFFF (some (recordE 0xEA00000E))).memoryWaits = false ∧
    ∃ t, step (withD 0xFFFFFFFF (some (recordE 0xEA00000E))) = .next t := ⟨by decide, by decide, _, step_eq _⟩

/-- A step that leaves two diagnostics. -/
theorem witness_DiagnosticsOnlyGrow :
    (match step ((accessing Chain.plain 0xE4642004 0x41).setReg 15 2) with
      | .next t => t.diags
      | _ => []) = [{ kind := .misalignedRead, addr := 0x41 }, { kind := .misalignedRead, addr := 2 }] := by decide

/-- A load that waits, with a record in W. -/
theorem witness_MemoryWaitHoldsPipeline :
    (State.memoryWaits { accessing chainT9 0xE4642004 0x44 with slotW := some (recordW 0xE0911001) }) = true ∧
    (∃ t, step { accessing chainT9 0xE4642004 0x44 with slotW := some (recordW 0xE0911001) } = .next t) ∧
    (∃ u, exec (recordW 0xE0911001).instr
      { accessing chainT9 0xE4642004 0x44 with slotW := some (recordW 0xE0911001), phase := .writeback } = .next u) ∧
    (accessing chainT9 0xE4642004 0x44).slotW = none ∧ (accessing chainT9 0xE4642004 0x44).memoryWaits = true :=
  ⟨by decide, ⟨_, step_eq _⟩, ⟨_, exec_eq _ _⟩, rfl, by decide⟩

/-- One record that is held and one that moves on. -/
theorem witness_InterlockHoldsOrAdvances :
    (∀ s ∈ [withD 0xE0820001 (some (recordE 0xE1A00003)), withD 0xE0821001 (some (recordE 0xE1A33003))],
      s.memoryWaits = false ∧ s.branchTaken = false ∧ s.sentinelInD = false) ∧
    (∃ t, step (withD 0xE0820001 (some (recordE 0xE1A00003))) = .next t) ∧
    (∃ t, step (withD 0xE0821001 (some (recordE 0xE1A33003))) = .next t) ∧
    (0 : Reg) ∈ (decode 0xE0820001).uses ∧ (0 : Reg) ∈ slotUses (some (recordE 0xE1A00003)) ∧
    ∀ x ∈ (decode 0xE0821001).uses, x ∉ slotUses (some (recordE 0xE1A33003)) ∧ x ∉ slotUses none :=
  ⟨by decide, ⟨_, step_eq _⟩, ⟨_, step_eq _⟩, by decide, by decide, by decide⟩

theorem witness_DrainedCoreIdles : State.stillRunning { State.reset with halted := true } = false ∧
    State.betweenSteps { State.reset with halted := true } = true := by decide

theorem witness_StepKeepsPipelineLegal : (withD 0xE0821001 (some (recordE 0xE1A33003))).pipelineOk = true ∧
    ∃ t, step (withD 0xE0821001 (some (recordE 0xE1A33003))) = .next t := ⟨by decide, _, step_eq _⟩

theorem witness_StepKeepsMemoryCanonical : (accessing chainC 0xE4442004 0x44).memoryCanonical = true ∧
    ∃ t, step (accessing chainC 0xE4442004 0x44) = .next t := ⟨by decide, _, step_eq _⟩

theorem witness_StepKeepsMemoryCoherent :
    ((accessing chainC 0xE4442004 0x44).input.useCache = true ∨ chainC.caches = []) ∧
    (accessing chainC 0xE4442004 0x44).memoryCoherent = true ∧ ∃ t, step (accessing chainC 0xE4442004 0x44) = .next t :=
  ⟨by decide, by decide, _, step_eq _⟩

/-- The greatest word address as the program counter; the sentinel and another word. -/
theorem witness_PlacedWordIsFetchedAndRuns : (State.setReg State.reset 15 0xFFFFFFFF).betweenSteps = true ∧
    (0xE1A00005 : Word) ≠ sentinelWord ∧ (0xFFFFFFFF : Word) = sentinelWord := by decide

theorem witness_LaunchStatesLegal : Memory.wf (writeWord [] 0x3FFFFFFF 0x12345678) = true := by decide

/-- The greatest word address; a store that changes its word. -/
theorem witness_StepChangesOnlyStoredWord :
    (accessing Chain.plain 0xE4442004 0xFFFFFFFC).memoryCoherent = true ∧ 0x3FFFFFFF < 2 ^ 30 ∧
    (match step (accessing Chain.plain 0xE4442004 0xFFFFFFFC) with
      | .next t => t.wordAt true 0x3FFFFFFF
      | _ => 0) = 0x55 ∧ (accessing Chain.plain 0xE4442004 0xFFFFFFFC).wordAt true 0x3FFFFFFF = 0 := by decide

/-- A valid geometry; the greatest fields and the greatest address. -/
theorem witness_AddressCodecRoundTrip :
    (geometry 0 4 4096 64).cacheOk = true ∧ 2 ^ 24 - 1 < 2 ^ (geometry 0 4 4096 64).tagBits ∧
    15 < 2 ^ (geometry 0 4 4096 64).indexBits ∧ 15 < 2 ^ (geometry 0 4 4096 64).offsetBits ∧ 2 ^ 32 - 1 < 2 ^ 32 := by decide

/-- A set with an empty line, and a full one. -/
theorem witness_VictimChoice :
    (∃ l ∈ [Line.empty 1], l.occupied = false) ∧ [Line.empty 1] ≠ [] ∧
    (∀ l ∈ fullSet [(0, 0), (1, 3), (2, 2), (3, 1)], l.occupied = true) ∧ fullSet [(0, 0), (1, 3), (2, 2), (3, 1)] ≠ [] := by
  decide

/-- A timer of 0 at the terminal level; a cache of two ways that holds the line, with latency 2. -/
theorem witness_PollCounts :
    timerAt (State.launch configC).mem.backing.timer 5 = 0 ∧ 0 < 1 ∧
    timerAt (CacheState.timer { timer := [], sets := [fullSet [(5, 0), (6, 1)]] }) 6 = 0 ∧
    findHit (CacheState.set { timer := [], sets := [fullSet [(5, 0), (6, 1)]] } ((geometry 2 2 8 4).index 6))
      ((geometry 2 2 8 4).tag 6) = some 1 ∧ 1 < (geometry 2 2 8 4).latency := by decide

/-- Serial mode, `MOV r0, #5` fetched, END behind it. -/
def serial : State :=
  { State.reset with
    regs := State.reset.regs.set 15 4
    slotF := some { raw := 0xE1A00005, pc := 0 }
    mem := { caches := [], backing := { timer := [], cells := writeWord [] 1 0xFFFFFFFF } }
    lines := { StepInput.usual with usePipeline := false } }

/-- The same between two instructions of the one-at-a-time machine. -/
def serialFetched : Fetched := { word := 0xE1A00005, pc := 0, arch := serial.arch }

/-- No instruction, then one instruction, after which the sentinel comes next. -/
theorem witness_SerialModeRunsOneAtATime :
    serial.serialAt serialFetched ∧ Fetched.run 0 serialFetched = some serialFetched ∧
    (∃ y, Fetched.run 1 serialFetched = some y ∧ y.word = sentinelWord) := by
  refine ⟨⟨rfl, rfl, rfl, rfl, rfl, rfl, rfl, rfl, rfl, rfl, rfl, rfl, rfl⟩, rfl, _, rfl, ?_⟩
  decide

/-- R283 (c): a store (at address 0, through `r2`) to each of the next three words it fetches, and to the fourth. -/
theorem test_next_three_fetches :
    ([4, 8, 12, 16].map fun a : Word =>
      let y := Arch.start { regs := (Vector.replicate 16 0).set 2 a, flags := nzcv 0, cells := writeWord [] 0 0xE4442004,
                            diags := [] }
      (Fetched.fetchesAfter 3 y).any fun p => y.stored == some (flatAddr p)) = [true, true, true, false] := by decide

/-- The store holding `MOV r0, #5` and END. -/
def shortProgram : List Host.Cell := writeWord (writeWord [] 0 0xE1A00005) 1 0xFFFFFFFF

/-- The one-at-a-time machine at the start of it. -/
def shortStart : Fetched :=
  Arch.start { regs := Vector.replicate 16 0, flags := nzcv 0, cells := shortProgram, diags := [] }

theorem shortStart_orderly : shortStart.orderlyRun := by
  intro k y hk hy
  match k with
  | 0 =>
    have e : shortStart = y := Option.some.inj hk
    have hs : shortStart.stored = none := by decide
    rw [← e]
    exact ⟨by decide, fun p _ _ => by rw [hs]; simp⟩
  | 1 =>
    have h1 : Fetched.run 1 shortStart = some shortStart.next := rfl
    have e : shortStart.next = y := Option.some.inj (h1.symm.trans hk)
    rw [← e] at hy
    exact absurd (by decide) hy
  | k + 2 =>
    have h2 : Fetched.run (k + 2) shortStart = none := by
      have e1 : shortStart.word ≠ sentinelWord := by decide
      have e2 : shortStart.next.word = sentinelWord := by decide
      rw [Fetched.run, if_neg e1, Fetched.run, if_pos e2]
    rw [h2] at hk
    cases hk

/-- It drains a pipelined core over a cache with latencies, and the one-at-a-time machine comes to its sentinel. -/
theorem witness_PipelineRunsOneAtATime :
    (∀ i ∈ [StepInput.usual], i.useCache = true ∧ i.inject = none) ∧ shortStart.orderlyRun ∧
    (match Host.Core.run Sys2Proof.core 10 (State.launchWith configC (Vector.replicate 16 0) (nzcv 0) shortProgram) with
      | .next t => t.stillRunning
      | _ => true) = false ∧
    (∃ y, Fetched.run 1 shortStart = some y ∧ y.word = sentinelWord) :=
  ⟨by decide, shortStart_orderly, by decide, _, rfl, by decide⟩

/-- The invariants hold in a state of a chain with a cache (for `ResetValues` over a configuration). -/
theorem witness_ResetValues : (15 : Reg) ≠ 0 ∧ (State.launch configC).mem.caches.length = 1 := by decide

end Sys2Proof.Tests
end

/-!
PROOF. The statements about the state itself (10_state): who may write a register, a flag, the program counter, the halted
latch and the diagnostic stream, and what the state is at launch and at reset. The two frame statements rest on `exec_effect`,
which says once what `exec` can do; the statements about a step rest on the laws of the phases and of the advance.
-/

namespace Sys2Proof.Machine

/-! ### What `exec` can do -/

/-- The ways an instruction can act on the state: not at all, or by its lines of the stage the state's phase names (R9, R262). -/
inductive ExecEffect (i : Instr) (s : State) : State → Prop
  /-- the slot is EMPTY, the condition of the record failed, or the instruction has no lines in this stage -/
  | idle : ExecEffect i s s
  /-- the `[M]` lines, on the record in M, whose condition passed -/
  | memory (r : Record) (hp : s.phase = .memory) (hs : s.slotM = some r) (hr : r.pass = true) :
      ExecEffect i s (memoryLines i.fields r s)
  /-- the record in D takes its snapshot -/
  | snapshot (r : Record) (hp : s.phase = .decode) (hs : s.slotD = some r) (hf : s.hazardFree i.uses = true) :
      ExecEffect i s { s with slotD := some (s.snapshot i.fields r) }
  /-- the record in D is held -/
  | hold (r : Record) (hp : s.phase = .decode) (hs : s.slotD = some r) (hf : ¬ s.hazardFree i.uses = true) :
      ExecEffect i s { s with slotD := some { r with decoded := false } }
  /-- the condition fails, which the record in E keeps -/
  | skip (r : Record) (hp : s.phase = .execute) (hs : s.slotE = some r) (hc : condPass i.fields.cond s.flags = false) :
      ExecEffect i s { s with slotE := some { r with pass := false } }
  /-- the condition passes: the `[E]` lines, on the record in E -/
  | execute (r : Record) (hp : s.phase = .execute) (hs : s.slotE = some r) (hc : condPass i.fields.cond s.flags = true) :
      ExecEffect i s (executeLines i.fields { r with pass := true } { s with slotE := some { r with pass := true } })
  /-- the sentinel in D halts the core and flushes -/
  | halt (r : Record) (hp : s.phase = .sentinel) (hs : s.slotD = some r) (hi : i = .endStream) :
      ExecEffect i s { s with halted := true }.flush
  /-- the `[W]` lines, on the record in W, whose condition passed -/
  | writeback (r : Record) (hp : s.phase = .writeback) (hs : s.slotW = some r) (hr : r.pass = true) :
      ExecEffect i s (writebackLines i.fields r s)

/-- An EMPTY slot: nothing (R35). -/
theorem exec_empty {i : Instr} {s : State} (hs : s.slot s.phase = none) : exec i s = .next s := by
  rw [exec_eq]
  cases hp : s.phase <;> rw [hp] at hs <;> simp only [State.slot] at hs
  case memory => simp [execState, hp, memoryStage, hs]
  case decode => simp [execState, hp, decodeStage, hs]
  case execute => simp [execState, hp, executeStage, hs]
  case sentinel => simp [execState, hp, sentinelStage, hs]
  case writeback => simp [execState, hp, writebackStage, hs]

/-- Phase 2b with END: halt and flush (R252). -/
theorem exec_sentinel_end {s : State} {r : Record} (hp : s.phase = .sentinel) (hs : s.slotD = some r) :
    exec .endStream s = .next { s with halted := true }.flush := by
  simp only [exec_eq, execState, hp, if_true, sentinelStage, hs]

/-- Phase 2b with any other instruction: nothing (R252). -/
theorem exec_sentinel_other {i : Instr} {s : State} (hp : s.phase = .sentinel) (hi : i ≠ .endStream) :
    exec i s = .next s := by
  simp only [exec_eq, execState, hp, hi, if_false]

theorem ExecEffect.of_exec {i : Instr} {s t u : State} (h : exec i s = .next t) (hu : exec i s = .next u)
    (e : ExecEffect i s u) : ExecEffect i s t := by
  rw [hu] at h
  injection h with h
  exact h ▸ e

/-- Whatever state `exec` answers, it is one of those of `ExecEffect`. -/
theorem exec_effect {i : Instr} {s t : State} (h : exec i s = .next t) : ExecEffect i s t := by
  cases hs : s.slot s.phase with
  | none => exact .of_exec h (exec_empty hs) .idle
  | some r =>
    cases hp : s.phase <;> rw [hp] at hs
    case memory =>
      cases hr : r.pass
      · exact .of_exec h (exec_memory_failed hp hs hr) .idle
      · exact .of_exec h (exec_memory hp hs hr) (.memory r hp hs hr)
    case decode =>
      by_cases hf : s.hazardFree i.uses = true
      · exact .of_exec h ((exec_decode hp hs).trans (congrArg _ (if_pos hf))) (.snapshot r hp hs hf)
      · exact .of_exec h ((exec_decode hp hs).trans (congrArg _ (if_neg hf))) (.hold r hp hs hf)
    case execute =>
      cases hc : condPass i.fields.cond s.flags
      · exact .of_exec h (exec_execute_failed hp hs hc) (.skip r hp hs hc)
      · exact .of_exec h (exec_execute hp hs hc) (.execute r hp hs hc)
    case sentinel =>
      by_cases hi : i = .endStream
      · subst hi
        exact .of_exec h (exec_sentinel_end hp hs) (.halt r hp hs rfl)
      · exact .of_exec h (exec_sentinel_other hp hi) .idle
    case writeback =>
      cases hr : r.pass
      · exact .of_exec h (exec_writeback_failed hp hs hr) .idle
      · exact .of_exec h (exec_writeback hp hs hr) (.writeback r hp hs hr)

/-! ### What the lines of each stage write -/

/-- The `[E]` lines write no register but the program counter, and that for a branch only (R240). -/
theorem executeLines_reg (f : Fields) (r : Record) (s : State) (x : Reg) :
    (executeLines f r s).reg x = s.reg x ∨ (f.cls = .branch ∧ x = 15) := by
  unfold executeLines
  cases hcls : f.cls
  case branch =>
    by_cases hx : x = 15
    · exact .inr ⟨rfl, hx⟩
    · exact .inl (State.reg_setReg_of_ne _ _ (Ne.symm hx))
  all_goals exact .inl rfl

/-- The `[E]` lines write the flags for an ALU instruction with `S` = 1 only, as its operation says (R201). -/
theorem executeLines_flags (f : Fields) (r : Record) (s : State) :
    (executeLines f r s).flags = s.flags ∨ (f.cls = .alu ∧ f.s = true ∧ ∃ a b c,
      (executeLines f r s).flags = (aluOperation (AluOp.ofCode f.opcode.toNat) a b c).flags s.flags) := by
  unfold executeLines
  cases hcls : f.cls
  case alu =>
    simp only [aluExecute]
    split
    · rename_i hs
      exact .inr ⟨trivial, hs, _, _, _, rfl⟩
    · exact .inl rfl
  all_goals exact .inl rfl

/-- The logical and move group leaves C and V as they are (R201, D13). -/
theorem logical_flags_keep_cv {op : AluOp} (h : op.isLogical = true) (a b : Word) (c : Bool) (f : Flags) :
    ((aluOperation op a b c).flags f).c = f.c ∧ ((aluOperation op a b c).flags f).v = f.v := by
  cases op
  case sub | rsb | add | adc | sbc | rsc | cmp | cmn => cases h
  all_goals exact ⟨rfl, rfl⟩

/-- The `[W]` lines write the destination of an ALU instruction or a load, a base with write-back, or the link register, and
no other register (R272). -/
theorem writebackLines_reg (f : Fields) (r : Record) (s : State) (x : Reg) :
    (writebackLines f r s).reg x = s.reg x ∨
      (f.cls = .alu ∧ f.rdUsed = true ∧ x = f.rd) ∨ (f.cls = .memory ∧ f.l = true ∧ x = f.rd) ∨
      (f.cls = .memory ∧ f.wb = true ∧ x = f.rn) ∨ (f.cls = .branch ∧ f.link = true ∧ x = 14) := by
  unfold writebackLines
  cases hcls : f.cls
  case alu =>
    dsimp only
    rw [aluWriteback_reg]
    split <;> simp_all
  case memory =>
    cases hl : f.l
    · simp only [Bool.false_eq_true, if_false, baseWriteback_reg]
      split <;> simp_all
    · simp only [if_true, loadWriteback_reg]
      split
      · simp_all
      · split <;> simp_all
  case branch =>
    dsimp only
    rw [branchWriteback_reg]
    split <;> simp_all
  case noop => exact .inl rfl

/-! ### The frame of an instruction -/

/-- Settles O30: of the effects of `exec` only the `[E]` lines of a branch and the `[W]` lines write a register. -/
theorem registerFrame : Obligations.RegisterFrame := by
  intro i s t h x hx
  cases exec_effect h with
  | memory r => exact absurd (State.reg_congr (by simp) x) hx
  | execute r hp => exact .inr ⟨hp, (executeLines_reg i.fields _ _ x).resolve_left hx⟩
  | writeback r hp => exact .inl ⟨hp, (writebackLines_reg i.fields r s x).resolve_left hx⟩
  | _ => exact absurd rfl hx

/-- Only the `[E]` lines of an ALU instruction with `S` = 1 and a passing condition change the flags (R28, R201). -/
theorem exec_flags {i : Instr} {s t : State} (h : exec i s = .next t) : t.flags = s.flags ∨
    (s.phase = .execute ∧ i.fields.cls = .alu ∧ i.fields.s = true ∧ condPass i.fields.cond s.flags = true ∧
      ∃ a b c, t.flags = (aluOperation (AluOp.ofCode i.fields.opcode.toNat) a b c).flags s.flags) := by
  cases exec_effect h with
  | execute r hp hs hc =>
    rcases executeLines_flags i.fields { r with pass := true } { s with slotE := some { r with pass := true } } with hf | ⟨hcls, hS, hf⟩
    · exact .inl hf
    · exact .inr ⟨hp, hcls, hS, hc, hf⟩
  | _ => exact .inl (by simp)

theorem exec_cycle {i : Instr} {s t : State} (h : exec i s = .next t) : t.cycle = s.cycle := by
  cases exec_effect h <;> simp

/-- Only END in the sentinel check changes the halted latch (R31, R252). -/
theorem exec_halted {i : Instr} {s t : State} (h : exec i s = .next t) :
    t.halted = s.halted ∨ (i = .endStream ∧ s.phase = .sentinel) := by
  cases exec_effect h with
  | halt r hp hs hi => exact .inr ⟨hi, hp⟩
  | _ => exact .inl (by simp)

/-- Settles O31: the flags by `exec_flags`, where the logical and move group keeps C and V. -/
theorem flagFrame : Obligations.FlagFrame := by
  intro i s t h
  refine ⟨fun hne => ?_, fun hne => ?_, exec_cycle h, (exec_halted h).resolve_left⟩
  · obtain ⟨hp, hcls, hs, hc, -⟩ := (exec_flags h).resolve_left hne
    exact ⟨hp, hcls, hs, hc⟩
  · rcases exec_flags h with hf | ⟨-, -, -, -, a, b, c, hf⟩
    · simp [hf] at hne
    · by_contra hl
      have hcv := logical_flags_keep_cv (Bool.eq_true_of_not_eq_false hl) a b c s.flags
      simp [hf, hcv] at hne

/-! ### The phases 0 to 3 of a step -/

@[simp] theorem middleState_slotW (s : State) : (middleState s).slotW = s.slotW := by
  unfold middleState
  split <;> simp

/-- Flags change in the execute stage only, of a step whose memory stage does not wait (R28, R268). -/
theorem workState_flags (s : State) : (workState s).flags = s.flags ∨
    (s.memoryWaits = false ∧ ∃ r, s.slotE = some r ∧ r.instr.fields.cls = .alu ∧ r.instr.fields.s = true ∧
      condPass r.instr.fields.cond s.flags = true) := by
  cases hw : s.memoryWaits
  · rw [workState_of_ready hw]
    rcases executePhase_flags (phaseState .decode (phaseState .memory { s with mwait := false })) with h | h
    · exact .inl (by simp [h])
    · exact .inr ⟨rfl, by simpa using h⟩
  · obtain ⟨-, -, -, -, hf, -⟩ := workState_wait hw
    exact .inl hf

/-- Phases 0 to 2b leave the program counter alone, or it takes the target of the branch in E (R240). -/
theorem middleState_pc (s : State) :
    (middleState (phaseState .memory { s with mwait := false })).pc = s.pc ∨
      ∃ r, s.slotE = some r ∧ r.instr.fields.cls = .branch ∧ condPass r.instr.fields.cond s.flags = true ∧
        (middleState (phaseState .memory { s with mwait := false })).pc = branchTarget r.instr.fields r := by
  unfold middleState
  split
  · exact .inl (State.reg_congr (by simp) 15)
  · set u := phaseState .decode (phaseState .memory { s with mwait := false }) with hu
    rcases executePhase_flow u with ⟨-, -, -, hr⟩ | ⟨r, -, hE, hcls, hc, -, -, hr⟩
    · exact .inl (State.reg_congr (by rw [sentinelPhase_regs, hr]; simp [hu]) 15)
    · refine .inr ⟨r, by simpa [hu] using hE, hcls, by simpa [hu] using hc, ?_⟩
      have : (phaseState .sentinel (phaseState .execute u)).pc = (u.setReg 15 (branchTarget r.instr.fields r)).reg 15 :=
        State.reg_congr (by simp [hr]) 15
      rw [this, State.reg_setReg_self]

/-- Phases 0 to 3 leave F as it was or make it EMPTY (R252, R269). -/
theorem workState_slotF (s : State) : (workState s).slotF = none ∨ (workState s).slotF = s.slotF := by
  cases hw : s.memoryWaits
  · rcases workState_flow hw with ⟨-, hF, -⟩ | ⟨-, -, hF, -⟩ | ⟨-, -, hF, -⟩
    · exact .inl hF
    · exact .inl hF
    · exact .inr hF
  · obtain ⟨hF, -⟩ := workState_wait hw
    exact .inr hF

/-- The latch after phases 0 to 3 (R31, R252): set before, or set by the sentinel in D. -/
theorem workState_halted (s : State) : (workState s).halted = true ↔
    s.halted = true ∨ (s.sentinelInD = true ∧ s.memoryWaits = false ∧ s.branchTaken = false) := by
  cases hw : s.memoryWaits
  · rcases workState_flow hw with ⟨hb, -, -, hh⟩ | ⟨hb, hd, -, -, hh⟩ | ⟨hb, hd, -, -, hh⟩
    · simp [hb, hh]
    · simp [hb, hd, hh]
    · simp [hd, hh]
  · obtain ⟨-, -, -, -, -, hh⟩ := workState_wait hw
    simp [hh]

/-! ### The advance -/

/-- The advance leaves the program counter, and F as it was or EMPTY; or it fetches, of a core that is not halted, which adds 4 to
the program counter and leaves a record with the address fetched from in F (R24, R25, R275, R276). -/
theorem State.advance_pc (s : State) :
    (s.advance.pc = s.pc ∧ (s.advance.slotF = none ∨ s.advance.slotF = s.slotF)) ∨
    (s.halted = false ∧ s.advance.pc = s.pc + 4 ∧ ∃ w, s.advance.slotF = some (newRecord w s.pc)) := by
  rcases s.advance_cases with ⟨-, h⟩ | ⟨-, -, h⟩ | ⟨-, -, h⟩ | ⟨-, -, hh, -, h⟩ <;> rw [h]
  · exact .inl ⟨rfl, .inr rfl⟩
  · exact .inl ⟨rfl, .inr rfl⟩
  · exact .inl ⟨rfl, .inl rfl⟩
  · rcases s.shift.fetch_result with ⟨hF, hr⟩ | ⟨w, hF, hr⟩
    · exact .inl ⟨State.reg_congr hr 15, .inl hF⟩
    · have : s.shift.fetch.pc = (s.setReg 15 (s.pc + 4)).reg 15 := State.reg_congr hr 15
      exact .inr ⟨hh, by rw [this, State.reg_setReg_self], w, hF⟩

/-- The advance leaves at most one diagnostic: of a fetch from a misaligned address, which completes with the word 0 (R26, R306). -/
theorem State.advance_diags (s : State) : s.advance.diags = s.diags ∨
    (aligned s.pc = false ∧ s.advance.slotF = some (newRecord 0 s.pc) ∧ s.advance.pc = s.pc + 4 ∧
      s.advance.diags = s.diags ++ [{ kind := .misalignedRead, addr := s.pc }]) := by
  rcases s.advance_cases with ⟨-, h⟩ | ⟨-, -, h⟩ | ⟨-, -, h⟩ | ⟨-, -, -, -, h⟩ <;> rw [h]
  · exact .inl rfl
  · exact .inl rfl
  · exact .inl rfl
  · rcases s.shift.fetch_diags with hd | ⟨ha, hF, hr, hd⟩
    · exact .inl hd
    · have : s.shift.fetch.pc = (s.setReg 15 (s.pc + 4)).reg 15 := State.reg_congr hr 15
      exact .inr ⟨ha, hF, by rw [this, State.reg_setReg_self], hd⟩

/-- A misaligned address is no multiple of 4 (R61). -/
theorem mod_four_of_misaligned {a : Word} (h : aligned a = false) : a.toNat % 4 ≠ 0 := by
  simpa [aligned, slice] using h

/-! ### One step -/

/-- The program counter and F after a step, from the program counter after phase 3: it stays and nothing new is in F, or a fetch
of a core that is not halted adds 4 and leaves its record in F (R24, R275). -/
theorem step_fetches_or_not (s : State) :
    ((workState s).advance.pc = (workState s).pc ∧
      ((workState s).advance.slotF = none ∨ (workState s).advance.slotF = s.slotF)) ∨
    ((workState s).halted = false ∧ (workState s).advance.pc = (workState s).pc + 4 ∧
      ∃ w, (workState s).advance.slotF = some (newRecord w (workState s).pc)) := by
  rcases (workState s).advance_pc with ⟨hpc, hF | hF⟩ | hfetch
  · exact .inl ⟨hpc, .inl hF⟩
  · rw [hF]
    exact .inl ⟨hpc, workState_slotF s⟩
  · exact .inr hfetch

/-- Settles O37: neither the advance nor the end of the cycle touches the flags. -/
theorem stepWritesFlagsOnlyInExecute : Obligations.StepWritesFlagsOnlyInExecute := by
  intro s t h hne
  obtain rfl := step_next h
  exact (workState_flags s).resolve_left (by simpa using hne)

/-- Settles O38: before phase 3 and after it a step writes no register but the program counter. -/
theorem stepWritesRegistersOnlyInWriteback : Obligations.StepWritesRegistersOnlyInWriteback := by
  intro s t h x hx hne
  obtain rfl := step_next h
  set u := middleState (phaseState .memory { s with mwait := false }) with hu
  have hbefore : u.reg x = s.reg x := (middleState_reg_ne _ x hx).trans (memoryPhase_reg _ x)
  have hafter : (workState s).advance.endCycle.reg x = (phaseState .writeback u).reg x :=
    (workState s).advance_reg_ne x hx
  have hW : u.slotW = s.slotW := by simp [hu]
  rw [hafter] at hne ⊢
  rw [← hbefore] at hne
  rw [← hW]
  exact (writebackPhase_reg u x).resolve_left hne

/-- Settles O39: `q` is the program counter after phase 3, which the advance keeps, or moves on by a fetch. -/
theorem programCounterWriters : Obligations.ProgramCounterWriters := by
  intro s t h
  obtain rfl := step_next h
  refine ⟨(workState s).pc, ?_, ?_⟩
  · set u := middleState (phaseState .memory { s with mwait := false }) with hu
    have hW : u.slotW = s.slotW := by simp [hu]
    have hpc : (workState s).pc = (phaseState .writeback u).reg 15 := rfl
    rw [hpc, ← hW]
    rcases writebackPhase_reg u 15 with hsame | ⟨r, hr, hp, halu | hload | hbase | ⟨-, -, h14, -⟩⟩
    · rw [hsame]
      rcases middleState_pc s with hq | ⟨r, hE, hcls, hc, hq⟩
      · exact .inl hq
      · exact .inr (.inl ⟨r, hE, hcls, hc, hq⟩)
    · obtain ⟨hcls, hused, hrd, hq⟩ := halu
      exact .inr (.inr ⟨r, hr, hp, .inl ⟨hcls, hused, hrd.symm, hq⟩⟩)
    · obtain ⟨hcls, hl, hrd, hq⟩ := hload
      exact .inr (.inr ⟨r, hr, hp, .inr (.inl ⟨hcls, hl, hrd.symm, hq⟩)⟩)
    · obtain ⟨hcls, hwb, hrn, hq⟩ := hbase
      exact .inr (.inr ⟨r, hr, hp, .inr (.inr ⟨hcls, hwb, hrn.symm, hq⟩)⟩)
    · exact absurd h14 (by decide)
  · rcases step_fetches_or_not s with hkept | ⟨-, hfetched⟩
    · exact .inl hkept
    · exact .inr hfetched

/-- Settles O40: no advance of a halted core fetches. -/
theorem haltedLatch : Obligations.HaltedLatch := by
  intro s t h
  obtain rfl := step_next h
  refine ⟨by simpa using workState_halted s, fun hs => ?_⟩
  have hhalted : (workState s).halted = true := (workState_halted s).mpr (.inl hs)
  rcases step_fetches_or_not s with ⟨-, hF⟩ | ⟨hrun, -⟩
  · exact hF
  · rw [hhalted] at hrun
    cases hrun

/-- Phases 0 to 3 leave at most one diagnostic, of a misaligned data access in M (R306). -/
theorem workState_diags_grow (s : State) : ∃ data : List Diagnostic, (workState s).diags = s.diags ++ data ∧
    (data = [] ∨ ∃ r kind, s.slotM = some r ∧ r.addr.toNat % 4 ≠ 0 ∧ (kind = .misalignedRead ∨ kind = .misalignedWrite) ∧
      data = [{ kind := kind, addr := r.addr }]) := by
  rw [workState_diags]
  rcases memoryPhase_diags { s with mwait := false } with h | ⟨r, kind, hM, ha, hk, -, h⟩
  · exact ⟨[], by simpa using h, .inl rfl⟩
  · exact ⟨_, h, .inr ⟨r, kind, hM, mod_four_of_misaligned ha, hk, rfl⟩⟩

/-- Settles O43: the event of phase 0, then that of the fetch, each if there is one. -/
theorem diagnosticsOnlyGrow : Obligations.DiagnosticsOnlyGrow := by
  intro s t h
  obtain rfl := step_next h
  obtain ⟨data, hdata, hkind⟩ := workState_diags_grow s
  rcases (workState s).advance_diags with hd | ⟨ha, hF, hpc, hd⟩
  · exact ⟨data, [], by rw [State.endCycle_diags, hd, hdata, List.append_nil], hkind, .inl rfl⟩
  · have hfrom : (workState s).advance.endCycle.pc - 4 = (workState s).pc := by
      have : (workState s).advance.endCycle.pc = (workState s).pc + 4 := hpc
      rw [this, BitVec.add_sub_cancel]
    refine ⟨data, [{ kind := .misalignedRead, addr := (workState s).pc }], by rw [State.endCycle_diags, hd, hdata], hkind,
      .inr ?_⟩
    rw [hfrom]
    exact ⟨mod_four_of_misaligned ha, hF, rfl⟩

/-! ### Launch and reset -/

/-- Settles O53: the slots and timers are empty, and never-filled caches agree with any store. -/
theorem launchStatesLegal : Obligations.LaunchStatesLegal := by
  intro c regs flags cells hcells
  refine ⟨rfl, ?_, coherent_initial c.chain.caches cells⟩
  rw [State.memoryCanonical_iff, canonical_iff]
  refine ⟨hcells, rfl, fun level hlevel => ?_⟩
  obtain ⟨g, -, rfl⟩ := List.mem_map.mp hlevel
  rfl

/-- Settles O50: the reset state is the launch state of the plain configuration. -/
theorem resetStateLegal : Obligations.ResetStateLegal :=
  launchStatesLegal Config.plain State.reset.regs State.reset.flags [] rfl

/-- The program counter is `RESET_PC` at launch, every other register 0 (R40). -/
theorem launch_reg (c : Config) (x : Reg) : (State.launch c).reg x = if x = 15 then c.resetPc else 0 := by
  simp [State.reg, State.launch, Vector.getElem_set, Fin.ext_iff, eq_comm]

/-- Every line of a cache as constructed is never-filled (R43). -/
theorem initial_line {g : Geometry} {set : List Line} {l : Line} (hset : set ∈ (CacheState.initial g).sets) (hl : l ∈ set) :
    l = Line.empty g.wordsPerLine := by
  obtain rfl := List.eq_of_mem_replicate hset
  exact List.eq_of_mem_replicate hl

/-- A store with nothing listed reads 0 at every word (R43, D6). -/
theorem readWord_nil (a : Nat) : readWord [] a = 0 := by
  simp only [readWord, readCell, sparseGet_nil]
  decide

/-- Settles O60: the registers by `launch_reg`, the cache lines by `initial_line`; every other part is as `State.launch` lists it. -/
theorem resetValues : Obligations.ResetValues := by
  refine ⟨fun c => ?_, rfl, fun x => ?_, readWord_nil⟩
  · refine ⟨fun x hx => by simp [launch_reg, hx], by simp [State.pc, launch_reg], rfl, rfl, rfl, rfl, rfl, rfl, rfl, rfl, rfl,
      rfl, fun _ => rfl, List.length_map .., fun level hlevel => ?_⟩
    obtain ⟨g, -, rfl⟩ := List.mem_map.mp hlevel
    refine ⟨fun _ => rfl, fun set hset l hl => ?_⟩
    obtain rfl := initial_line hset hl
    exact ⟨rfl, rfl, rfl, rfl, fun v hv => List.eq_of_mem_replicate hv⟩
  · have : Config.plain.resetPc = 0 := rfl
    simp [State.reset, launch_reg, this]

end Sys2Proof.Machine

/-!
PROOF. The statements about memory (20_memory): what a load, a store and a fetch do, aligned through any chain of caches and
misaligned, and what a step keeps of memory. What an access can do to the words that reads return is `State.memRead_spec` and
`State.memWrite_spec`; here they are carried over to the states that a load, a store and a fetch leave
(`State.keeps_of_memRead`, `State.replaces_of_memWrite`), and memory is followed through phase 0 and the advance, the two parts
of a step that touch it.
-/

namespace Sys2Proof.Machine

/-! ### Addresses -/

theorem aligned_iff {a : Word} : aligned a = true ↔ a.toNat % 4 = 0 := by
  simp [aligned, slice]

theorem misaligned_iff {a : Word} : aligned a = false ↔ a.toNat % 4 ≠ 0 := by
  rw [← Bool.not_eq_true, aligned_iff]

/-- A byte outside the four of an aligned address lies in another word (R61, R62). -/
theorem flatAddr_ne_of_outside {a b : Word} (hb : b.toNat % 4 = 0) (h : a.toNat < b.toNat ∨ b.toNat + 4 ≤ a.toNat) :
    flatAddr a ≠ flatAddr b := by
  unfold flatAddr
  omega

/-! ### What an access leaves unchanged -/

/-- An aligned read changes the memory levels and nothing else (R64). -/
theorem State.memRead_frame {s : State} {u : Bool} {a : Word} (ha : aligned a = true) :
    (s.memRead u a).2 = { s with mem := (s.memRead u a).2.mem } := by
  rw [State.memRead_aligned ha]
  rfl

/-- An aligned write changes the memory levels and nothing else (R65). -/
theorem State.memWrite_frame {s : State} {u : Bool} {a v : Word} (ha : aligned a = true) :
    (s.memWrite u a v).2 = { s with mem := (s.memWrite u a v).2.mem } := by
  rw [State.memWrite_aligned ha]
  rfl

/-- `State.memRead_keeps` for any state with the memory that the read leaves. -/
theorem State.keeps_of_memRead {s t : State} {u : Bool} {a : Word} (hc : u = true → s.memoryCoherent = true)
    (hchain : t.chain = s.chain) (hm : t.mem = (s.memRead u a).2.mem) :
    (u = true → t.memoryCoherent = true) ∧ ∀ x < 2 ^ 30, t.wordAt u x = s.wordAt u x := by
  have hchain' : t.chain = (s.memRead u a).2.chain := hchain.trans (State.memRead_chain ..).symm
  simp only [State.memoryCoherent_congr hchain' hm, State.wordAt_congr hchain' hm]
  exact State.memRead_keeps hc

/-- `State.memWrite_spec` for any state with the memory that the write leaves. -/
theorem State.replaces_of_memWrite {s t : State} {u : Bool} {a v : Word} (ha : aligned a = true)
    (hc : u = true → s.memoryCoherent = true) (hchain : t.chain = s.chain) (hm : t.mem = (s.memWrite u a v).2.mem) :
    (u = true → t.memoryCoherent = true) ∧
      (((s.memWrite u a v).1 = .waiting ∧ ∀ x < 2 ^ 30, t.wordAt u x = s.wordAt u x) ∨
        ((s.memWrite u a v).1 = .done () ∧
          ∀ x < 2 ^ 30, t.wordAt u x = if x = flatAddr a then v else s.wordAt u x)) := by
  have hchain' : t.chain = (s.memWrite u a v).2.chain := hchain.trans (State.memWrite_chain ..).symm
  simp only [State.memoryCoherent_congr hchain' hm, State.wordAt_congr hchain' hm]
  exact State.memWrite_spec ha hc

/-- A byte as reads return it depends on the inputs and on its word only (R67). -/
theorem State.byteAt_congr {s t : State} {a : Word} (hi : t.input = s.input)
    (hw : t.wordAt s.input.useCache (flatAddr a) = s.wordAt s.input.useCache (flatAddr a)) : t.byteAt a = s.byteAt a := by
  simp only [State.byteAt, hi, hw]

/-- No instruction changes the memory chain (R79). -/
theorem exec_chain {i : Instr} {s t : State} (h : exec i s = .next t) : t.chain = s.chain := by
  cases exec_effect h <;> simp

/-- No instruction changes the inputs of the step (R37). -/
theorem exec_input {i : Instr} {s t : State} (h : exec i s = .next t) : t.input = s.input := by
  have hinputs : t.inputs = s.inputs := by cases exec_effect h <;> simp
  have hlines : t.lines = s.lines := by cases exec_effect h <;> simp
  simp only [State.input, hinputs, hlines]

/-! ### A load and a store in the memory stage -/

theorem exec_load {i : Instr} {s : State} {r : Record} (hcls : i.fields.cls = .memory) (hl : i.fields.l = true)
    (hp : s.phase = .memory) (hs : s.slotM = some r) (hr : r.pass = true) : exec i s = .next (loadMemory r s) := by
  rw [exec_memory hp hs hr, memoryLines_of_memory hcls, if_pos hl]

theorem exec_store {i : Instr} {s : State} {r : Record} (hcls : i.fields.cls = .memory) (hl : i.fields.l = false)
    (hp : s.phase = .memory) (hs : s.slotM = some r) (hr : r.pass = true) : exec i s = .next (storeMemory r s) := by
  rw [exec_memory hp hs hr, memoryLines_of_memory hcls, hl, if_neg Bool.false_ne_true]

theorem loadMemory_waiting {r : Record} {s : State} (ha : aligned r.addr = true)
    (hw : (s.memRead s.input.useCache r.addr).1 = .waiting) :
    loadMemory r s = { s with mem := (s.memRead s.input.useCache r.addr).2.mem, mwait := true } := by
  rw [loadMemory_eq, hw, State.memRead_frame ha]

theorem loadMemory_done {r : Record} {s : State} {w : Word} (ha : aligned r.addr = true)
    (hw : (s.memRead s.input.useCache r.addr).1 = .done w) :
    loadMemory r s =
      { s with mem := (s.memRead s.input.useCache r.addr).2.mem, slotM := some { r with loaded := w } } := by
  rw [loadMemory_eq, hw, State.memRead_frame ha]

theorem storeMemory_waiting {r : Record} {s : State} (ha : aligned r.addr = true)
    (hw : (s.memWrite s.input.useCache r.addr r.vRd).1 = .waiting) :
    storeMemory r s = { s with mem := (s.memWrite s.input.useCache r.addr r.vRd).2.mem, mwait := true } := by
  rw [storeMemory_eq, hw, State.memWrite_frame ha]

theorem storeMemory_done {r : Record} {s : State} (ha : aligned r.addr = true)
    (hw : (s.memWrite s.input.useCache r.addr r.vRd).1 = .done ()) :
    storeMemory r s = { s with mem := (s.memWrite s.input.useCache r.addr r.vRd).2.mem } := by
  rw [storeMemory_eq, hw, State.memWrite_frame ha]

/-- A load leaves the memory levels as its read does, waiting or not (R231). -/
theorem loadMemory_mem (r : Record) (s : State) :
    (loadMemory r s).mem = (s.memRead s.input.useCache r.addr).2.mem := by
  rw [loadMemory_eq]
  split <;> rfl

/-- A store leaves the memory levels as its write does, waiting or not (R232). -/
theorem storeMemory_mem (r : Record) (s : State) :
    (storeMemory r s).mem = (s.memWrite s.input.useCache r.addr r.vRd).2.mem := by
  rw [storeMemory_eq]
  split <;> rfl

/-- Settles O20: the memory of the load is that of its read, which keeps every word and answers the one at its address. -/
theorem loadThroughHierarchy : Obligations.LoadThroughHierarchy := by
  intro i s t r hcls hl hp hs hr hmod hc h
  have ha := aligned_iff.mpr hmod
  have ht : t = loadMemory r s := Host.Outcome.next.inj (h.symm.trans (exec_load hcls hl hp hs hr))
  have hmem : t.mem = (s.memRead s.input.useCache r.addr).2.mem := ht ▸ loadMemory_mem r s
  obtain ⟨hcoh, hwords⟩ := State.keeps_of_memRead hc (exec_chain h) hmem
  have hbytes : ∀ a : Word, t.byteAt a = s.byteAt a := fun a =>
    State.byteAt_congr (exec_input h) (hwords _ (flatAddr_lt a))
  rcases (State.memRead_spec ha hc).2.2 with hwait | hdone
  · have he := ht.trans (loadMemory_waiting ha hwait)
    exact ⟨.inl ⟨by rw [he], by rw [he]⟩, hbytes, hcoh, by rw [he]⟩
  · have he := ht.trans (loadMemory_done ha hdone)
    exact ⟨.inr ⟨by rw [he], by rw [he]⟩, hbytes, hcoh, by rw [he]⟩

/-- Settles O21: the memory of the store is that of its write; a byte outside the stored word lies in a word that is kept. -/
theorem storeThroughHierarchy : Obligations.StoreThroughHierarchy := by
  intro i s t r hcls hl hp hs hr hmod hc h
  have ha := aligned_iff.mpr hmod
  have ht : t = storeMemory r s := Host.Outcome.next.inj (h.symm.trans (exec_store hcls hl hp hs hr))
  have hmem : t.mem = (s.memWrite s.input.useCache r.addr r.vRd).2.mem := ht ▸ storeMemory_mem r s
  obtain ⟨hcoh, ⟨hwait, hwords⟩ | ⟨hdone, hwords⟩⟩ := State.replaces_of_memWrite ha hc (exec_chain h) hmem
  · have he := ht.trans (storeMemory_waiting ha hwait)
    have hbytes : ∀ a : Word, t.byteAt a = s.byteAt a := fun a =>
      State.byteAt_congr (exec_input h) (hwords _ (flatAddr_lt a))
    exact ⟨.inl ⟨by rw [he], hbytes⟩, hcoh, by rw [he]⟩
  · have he := ht.trans (storeMemory_done ha hdone)
    have hstored : t.wordAt s.input.useCache (flatAddr r.addr) = r.vRd := by
      rw [hwords _ (flatAddr_lt _), if_pos rfl]
    have hbytes : ∀ a : Word, (a.toNat < r.addr.toNat ∨ r.addr.toNat + 4 ≤ a.toNat) → t.byteAt a = s.byteAt a :=
      fun a hout => State.byteAt_congr (exec_input h) <| by
        rw [hwords _ (flatAddr_lt a), if_neg (flatAddr_ne_of_outside hmod hout)]
    exact ⟨.inr ⟨by rw [he], hstored, hbytes⟩, hcoh, by rw [he]⟩

/-! ### Canonical form through one step -/

/-- The canonical form is a matter of the memory levels only. -/
theorem State.memoryCanonical_congr {s t : State} (hm : t.mem = s.mem) : t.memoryCanonical = s.memoryCanonical := by
  simp only [State.memoryCanonical, hm]

theorem memoryPhase_canonical {s : State} (h : s.memoryCanonical = true) : (phaseState .memory s).memoryCanonical = true := by
  have h0 : ({ s with phase := .memory } : State).memoryCanonical = true := h
  rcases memoryPhase_mem s with hm | ⟨r, -, -, -, -, hm⟩ | ⟨r, -, -, -, -, hm⟩ <;> rw [State.memoryCanonical_congr hm]
  · exact h
  · exact State.memRead_canonical _ _ h0
  · exact State.memWrite_canonical _ _ _ h0

theorem State.advance_canonical {s : State} (h : s.memoryCanonical = true) : s.advance.memoryCanonical = true := by
  rcases s.advance_mem with hm | hm <;> rw [State.memoryCanonical_congr hm]
  · exact h
  · exact State.memRead_canonical (s := s.shift) _ _ h

/-- Settles O51: of a step only phase 0 and the advance touch memory, and both keep the canonical form. -/
theorem stepKeepsMemoryCanonical : Obligations.StepKeepsMemoryCanonical := by
  intro s t hs h
  obtain rfl := step_next h
  have hphase : (phaseState .memory { s with mwait := false }).memoryCanonical = true := memoryPhase_canonical hs
  have hwork : (workState s).memoryCanonical = true :=
    (State.memoryCanonical_congr (workState_mem s)).trans hphase
  exact State.advance_canonical hwork

/-! ### The words of memory through one step -/

/-- Phase 0 keeps the word that reads return at an address, or an aligned store in M whose condition passed replaced it
(R69, R264). -/
theorem memoryPhase_wordAt {s : State} (hc : s.input.useCache = true → s.memoryCoherent = true) {a : Nat} (ha : a < 2 ^ 30) :
    (phaseState .memory s).wordAt s.input.useCache a = s.wordAt s.input.useCache a ∨
    ∃ r, s.slotM = some r ∧ r.pass = true ∧ r.instr.fields.cls = .memory ∧ r.instr.fields.l = false ∧
      aligned r.addr = true ∧ a = flatAddr r.addr ∧ (phaseState .memory s).wordAt s.input.useCache a = r.vRd := by
  have hc0 : s.input.useCache = true → ({ s with phase := .memory } : State).memoryCoherent = true := hc
  rcases memoryPhase_mem s with hm | ⟨r, -, -, -, -, hm⟩ | ⟨r, hs, hp, hcls, hl, hm⟩
  · exact .inl (State.wordAt_congr (by simp) hm _ _)
  · exact .inl ((State.keeps_of_memRead hc0 (by simp) hm).2 a ha)
  · cases hal : aligned r.addr
    · exact .inl (State.wordAt_congr (by simp) (hm.trans (State.memWrite_misaligned_mem hal)) _ _)
    · obtain ⟨-, ⟨-, hwords⟩ | ⟨-, hwords⟩⟩ := State.replaces_of_memWrite hal hc0 (memoryPhase_chain s) hm
      · exact .inl (hwords a ha)
      · by_cases hx : a = flatAddr r.addr
        · exact .inr ⟨r, hs, hp, hcls, hl, hal, hx, (hwords a ha).trans (if_pos hx)⟩
        · exact .inl ((hwords a ha).trans (if_neg hx))

/-- The advance changes no word that reads return: its only access is the read of the fetch (R72, R275). -/
theorem State.advance_wordAt {s : State} (hc : s.input.useCache = true → s.memoryCoherent = true) {a : Nat}
    (ha : a < 2 ^ 30) : s.advance.wordAt s.input.useCache a = s.wordAt s.input.useCache a := by
  rcases s.advance_mem with hm | hm
  · exact State.wordAt_congr (by simp) hm _ _
  · exact (State.keeps_of_memRead (s := s.shift) hc (State.advance_chain s) hm).2 a ha

/-- Settles O54: the words after the step are those that phase 0 leaves. -/
theorem stepChangesOnlyStoredWord : Obligations.StepChangesOnlyStoredWord := by
  intro s t hc h a ha
  obtain rfl := step_next h
  set m := phaseState .memory { s with mwait := false } with hm
  have hchain : (workState s).chain = m.chain := by simp [hm]
  have hcoh : (workState s).input.useCache = true → (workState s).memoryCoherent = true := fun hu => by
    rw [State.memoryCoherent_congr hchain (workState_mem s)]
    exact memoryPhase_coherent (s := { s with mwait := false }) hc (by simpa [State.input] using hu)
  have hwords : (workState s).advance.endCycle.wordAt s.input.useCache a = m.wordAt s.input.useCache a :=
    calc (workState s).advance.endCycle.wordAt s.input.useCache a
      _ = (workState s).advance.wordAt (workState s).input.useCache a := by rw [workState_input]; rfl
      _ = (workState s).wordAt (workState s).input.useCache a := State.advance_wordAt hcoh ha
      _ = m.wordAt s.input.useCache a := by
        rw [workState_input]
        exact State.wordAt_congr hchain (workState_mem s) _ _
  rw [hwords]
  rcases memoryPhase_wordAt (s := { s with mwait := false }) hc ha with hsame | ⟨r, hs, hp, hcls, hl, hal, hx, hw⟩
  · exact .inl hsame
  · exact .inr ⟨r, hs, hp, hcls, hl, aligned_iff.mp hal, hx, hw⟩

/-! ### Other classes, other stages -/

/-- Outside the memory stage `exec` touches neither memory nor the diagnostics (R63). -/
theorem exec_mem_of_phase_ne {i : Instr} {s t : State} (h : exec i s = .next t) (hp : s.phase ≠ .memory) :
    t.mem = s.mem ∧ t.diags = s.diags := by
  cases exec_effect h with
  | memory r hm => exact absurd hm hp
  | execute | writeback => simp
  | _ => exact ⟨rfl, rfl⟩

/-- In the memory stage an instruction of another class has no lines (R264). -/
theorem exec_memory_of_cls_ne {i : Instr} {s t : State} (h : exec i s = .next t) (hp : s.phase = .memory)
    (hcls : i.fields.cls ≠ .memory) : t = s := by
  cases exec_effect h with
  | idle => rfl
  | memory r => rw [memoryLines_of_ne hcls]; rfl
  | snapshot r hp' | hold r hp' | skip r hp' | execute r hp' | halt r hp' | writeback r hp' =>
    rw [hp] at hp'
    cases hp'

/-- Settles O29: bytes as reads return them follow memory, the chain and the inputs. -/
theorem onlyMemoryClassTouchesMemory : Obligations.OnlyMemoryClassTouchesMemory := by
  intro i s t h
  refine ⟨exec_memory_of_cls_ne h, fun hp => ?_⟩
  obtain ⟨hmem, hdiags⟩ := exec_mem_of_phase_ne h hp
  have hwords := State.wordAt_congr (exec_chain h) hmem s.input.useCache
  exact ⟨fun a => State.byteAt_congr (exec_input h) (hwords _), hmem, hdiags⟩

/-! ### Fetch -/

/-- The fetched record comes with the program counter moved on by 4 (R24, R275). -/
theorem State.fetched_pc (s : State) (w : Word) : (s.fetched w).pc = s.pc + 4 := State.reg_setReg_self _ _ _

/-- Settles O35: of the outcomes of a fetch only a completed read fills F, and it answers the word that reads return. -/
theorem fetchReadsMemory : Obligations.FetchReadsMemory := by
  intro s r hF hinject hmod hc hfetch
  have ha := aligned_iff.mpr hmod
  have hpc : (s.memRead s.input.useCache s.pc).2.pc = s.pc := State.reg_congr (by simp) _
  rcases s.fetch_cases with ⟨w, hi, -⟩ | ⟨-, -, he⟩ | ⟨w, -, hdone, he⟩
  · rw [hinject] at hi
    cases hi
  · rw [he, State.memRead_slotF, hF] at hfetch
    cases hfetch
  · rw [he, State.fetched_slotF, hpc] at hfetch
    obtain rfl := Option.some.inj hfetch
    have hw : w = s.wordAt s.input.useCache (flatAddr s.pc) := by
      rcases (State.memRead_spec ha hc).2.2 with hz | hz <;> rw [hdone] at hz
      · cases hz
      · exact Poll.done.inj hz
    exact ⟨hw, rfl, by rw [he, State.fetched_pc, hpc]⟩

/-! ### Misaligned accesses -/

theorem loadMemory_misaligned {r : Record} {s : State} (ha : aligned r.addr = false) :
    loadMemory r s = { s.diagnose .misalignedRead r.addr with slotM := some { r with loaded := 0 } } := by
  rw [loadMemory_eq, State.memRead_misaligned ha]

theorem storeMemory_misaligned {r : Record} {s : State} (ha : aligned r.addr = false) :
    storeMemory r s = s.diagnose .misalignedWrite r.addr := by
  rw [storeMemory_eq, State.memWrite_misaligned ha]

theorem State.fetch_misaligned {s : State} (hi : s.input.inject = none) (ha : aligned s.pc = false) :
    s.fetch = (s.diagnose .misalignedRead s.pc).fetched 0 := by
  simp only [State.fetch, hi, State.memRead_misaligned ha]

/-- Settles O17: a misaligned access is its diagnostic, at the level of the processor, of `exec` and of the fetch. -/
theorem misalignedAccess : Obligations.MisalignedAccess := by
  refine ⟨fun s u a v hmod => ?_, fun i s r hcls hp hs hr hmod => ?_, fun s hi hmod => ?_⟩
  · have ha := misaligned_iff.mpr hmod
    exact ⟨State.memRead_misaligned ha, State.memWrite_misaligned ha⟩
  · have ha := misaligned_iff.mpr hmod
    refine ⟨fun hl => ?_, fun hl => ?_⟩
    · rw [exec_load hcls hl hp hs hr, loadMemory_misaligned ha]
      rfl
    · rw [exec_store hcls hl hp hs hr, storeMemory_misaligned ha]
      rfl
  · rw [State.fetch_misaligned hi (misaligned_iff.mpr hmod)]
    rfl

end Sys2Proof.Machine

/-!
PROOF. The statements about the cache hierarchy (21_cache_hierarchy): coherence is followed through the two parts of a step that
touch memory, phase 0 (`memoryPhase_coherent`) and the advance (`State.advance_coherent`); the address codec is a sum of weighted
fields (`encode_eq`), whose bounds are multiplied out here; the victim is found by a scan that keeps the first line of the greatest
age so far (`FirstOldest`); and a latency gate polled alone counts its timer up to the latency (`gate_pollCounts`).
-/

namespace Sys2Proof.Machine

/-! ### Coherence through one step -/

/-- Phases 0 to 3 keep the caches coherent, if they go through them (R101, R104). -/
theorem workState_coherent {s : State} (hu : s.input.useCache = true) (hc : s.memoryCoherent = true) :
    (workState s).memoryCoherent = true := by
  rw [State.memoryCoherent_congr (s := phaseState .memory { s with mwait := false }) (by simp) (workState_mem s)]
  exact memoryPhase_coherent (s := { s with mwait := false }) (fun _ => hc) hu

/-- The advance keeps the caches coherent, if its fetch goes through them (R72, R275). -/
theorem State.advance_coherent {s : State} (hu : s.input.useCache = true) (hc : s.memoryCoherent = true) :
    s.advance.memoryCoherent = true := by
  rcases s.advance_mem with hm | hm
  · rwa [State.memoryCoherent_congr (State.advance_chain s) hm]
  · exact (State.keeps_of_memRead (s := s.shift) (fun _ => hc) (State.advance_chain s) hm).1 hu

/-- A core without caches is coherent whatever its memory holds. -/
theorem State.memoryCoherent_of_no_caches {s : State} (h : s.chain.caches = []) : s.memoryCoherent = true := by
  simp only [State.memoryCoherent, h, coherent]

/-- Settles O52: through the caches, phases 0 to 3 and then the advance keep coherence; a chain without caches stays one. -/
theorem stepKeepsMemoryCoherent : Obligations.StepKeepsMemoryCoherent := by
  intro s t hpath hc h
  obtain rfl := step_next h
  rcases hpath with hu | hnone
  · have hwork : (workState s).memoryCoherent = true := workState_coherent hu hc
    have hinput : (workState s).input.useCache = true := by rwa [workState_input]
    exact State.advance_coherent hinput hwork
  · have hchain : (workState s).advance.endCycle.chain = s.chain := by simp
    exact State.memoryCoherent_of_no_caches (hchain ▸ hnone)

/-! ### The address codec -/

/-- The three fields of a valid cache geometry fill a flat address (R92). -/
theorem field_widths_add {g : Geometry} (hg : g.cacheOk = true) : g.indexBits + g.offsetBits + g.tagBits = 32 := by
  have hwidth := (cacheGeometry_facts hg).2.2.2
  unfold Geometry.tagBits
  omega

/-- The flat addresses are as many as the fields within their widths (R92). -/
theorem pow_field_widths {g : Geometry} (hg : g.cacheOk = true) :
    2 ^ g.tagBits * 2 ^ g.indexBits * 2 ^ g.offsetBits = 2 ^ 32 := by
  rw [← pow_add, ← pow_add, ← field_widths_add hg]
  congr 1
  omega

/-- The address of fields within their widths has 32 bits (R95). -/
theorem encode_lt {g : Geometry} {t i o : Nat} (hg : g.cacheOk = true) (ht : t < 2 ^ g.tagBits) (hi : i < 2 ^ g.indexBits)
    (ho : o < 2 ^ g.offsetBits) : g.encode t i o < 2 ^ 32 := by
  have hline : t * 2 ^ g.indexBits + i < 2 ^ g.tagBits * 2 ^ g.indexBits := by
    rw [Nat.mul_comm t]
    exact Nat.mul_add_lt_mul_of_lt_of_lt ht hi
  rw [encode_eq hi ho, ← pow_field_widths hg, Nat.mul_comm (_ + i)]
  exact Nat.mul_add_lt_mul_of_lt_of_lt hline ho

/-- The tag of a 32-bit flat address fits its width. For a word address it is two bits shorter (`tag_lt`). -/
theorem tag_lt_tagBits {g : Geometry} {a : Nat} (hg : g.cacheOk = true) (ha : a < 2 ^ 32) : g.tag a < 2 ^ g.tagBits := by
  unfold Geometry.tag
  apply Nat.div_lt_of_lt_mul
  calc a
    _ < 2 ^ 32 := ha
    _ = 2 ^ (g.offsetBits + g.indexBits) * 2 ^ g.tagBits := by rw [← pow_field_widths hg]; ring

/-- Settles O55: the codec's two directions are `tag_encode`, `index_encode`, `offset_encode` and `encode_decode`. -/
theorem addressCodecRoundTrip : Obligations.AddressCodecRoundTrip := by
  intro g hg
  have hzero : 0 < 2 ^ g.offsetBits := by positivity
  refine ⟨field_widths_add hg, fun t i o ht hi ho => ?_, fun a ha => ?_⟩
  · exact ⟨encode_lt hg ht hi ho, tag_encode hi ho, index_encode hi ho, offset_encode hi ho⟩
  · exact ⟨tag_lt_tagBits hg ha, index_lt g a, offset_lt g a, encode_decode g a, rfl, offset_encode (index_lt g a) hzero⟩

/-! ### The victim -/

/-- The scan for an empty way passes over occupied lines only (R103). -/
theorem findEmpty_some_lower {lines : List Line} {w : Nat} (h : findEmpty lines = some w) :
    ∀ i < w, (lineAt lines i).occupied = true := by
  induction lines generalizing w with
  | nil => cases h
  | cons l rest ih =>
    unfold findEmpty at h
    split at h
    · obtain rfl := Option.some.inj h
      exact fun i hi => absurd hi (Nat.not_lt_zero i)
    · rename_i hl
      obtain ⟨k, hk, rfl⟩ := Option.map_eq_some_iff.mp h
      intro i hi
      cases i with
      | zero => simpa [lineAt] using hl
      | succ i => exact ih hk i (Nat.lt_of_succ_lt_succ hi)

theorem findEmpty_eq_none_iff {lines : List Line} : findEmpty lines = none ↔ ∀ l ∈ lines, l.occupied = true := by
  induction lines with
  | nil => simp [findEmpty]
  | cons l rest ih => cases hl : l.occupied <;> simp [findEmpty, hl, ih]

/-- Among the ways below `n`, `v` is the lowest of the greatest age. -/
def FirstOldest (lines : List Line) (n v : Nat) : Prop :=
  (∀ w < n, (lineAt lines w).age ≤ (lineAt lines v).age) ∧ ∀ w < v, (lineAt lines w).age < (lineAt lines v).age

/-- One step of the scan of R104, to an older line. -/
theorem FirstOldest.succ_older {lines : List Line} {n v : Nat} (h : FirstOldest lines n v)
    (hn : (lineAt lines v).age < (lineAt lines n).age) : FirstOldest lines (n + 1) n := by
  have hlower : ∀ w < n, (lineAt lines w).age < (lineAt lines n).age := fun w hw => Nat.lt_of_le_of_lt (h.1 w hw) hn
  refine ⟨fun w hw => ?_, hlower⟩
  rcases Nat.lt_succ_iff_lt_or_eq.mp hw with hw | rfl
  · exact (hlower w hw).le
  · exact le_rfl

/-- One step of the scan of R104, to a line that is not older. -/
theorem FirstOldest.succ_younger {lines : List Line} {n v : Nat} (h : FirstOldest lines n v)
    (hn : ¬ (lineAt lines v).age < (lineAt lines n).age) : FirstOldest lines (n + 1) v := by
  refine ⟨fun w hw => ?_, h.2⟩
  rcases Nat.lt_succ_iff_lt_or_eq.mp hw with hw | rfl
  · exact h.1 w hw
  · exact Nat.not_lt.mp hn

/-- The scan of R104 over the ways from `w` on, from the lowest way of the greatest age below them. -/
theorem oldestFrom_firstOldest {lines rest : List Line} {w v : Nat} (hdrop : lines.drop w = rest)
    (h : FirstOldest lines w v) : FirstOldest lines lines.length (oldestFrom w v (lineAt lines v).age rest) := by
  induction rest generalizing w v with
  | nil =>
    have hlen : lines.length ≤ w := List.drop_eq_nil_iff.mp hdrop
    exact ⟨fun i hi => h.1 i (by omega), h.2⟩
  | cons l rest ih =>
    have hl : lineAt lines w = l := by
      have hget : lines[w]? = some l := by rw [← List.head?_drop, hdrop]; rfl
      simp only [lineAt, List.getD_eq_getElem?_getD, hget, Option.getD_some]
    have hdrop' : lines.drop (w + 1) = rest := by rw [← List.tail_drop, hdrop]; rfl
    subst hl
    unfold oldestFrom
    split
    · rename_i holder
      exact ih hdrop' (h.succ_older holder)
    · rename_i hyounger
      exact ih hdrop' (h.succ_younger hyounger)

/-- In a full set the victim is the lowest way of the greatest age (R104). -/
theorem findLRU_firstOldest {lines : List Line} (h : findEmpty lines = none) :
    FirstOldest lines lines.length (findLRU lines) := by
  unfold findLRU
  rw [h]
  cases lines with
  | nil => exact ⟨fun w hw => absurd hw (Nat.not_lt_zero w), fun w hw => absurd hw (Nat.not_lt_zero w)⟩
  | cons l rest =>
    have hfirst : FirstOldest (l :: rest) 1 0 :=
      ⟨fun w hw => by rw [Nat.lt_one_iff.mp hw], fun w hw => absurd hw (Nat.not_lt_zero w)⟩
    exact oldestFrom_firstOldest rfl hfirst

/-- Settles O56: an empty way, if any, is found by `findEmpty`; without one the scan of the ages decides. -/
theorem victimChoice : Obligations.VictimChoice := by
  intro lines hne
  refine ⟨findLRU_lt (List.length_pos_iff.mpr hne), fun ⟨l, hl, hempty⟩ => ?_, fun hfull => ?_⟩
  · cases hf : findEmpty lines with
    | none => exact absurd (findEmpty_eq_none_iff.mp hf l hl) (by simp [hempty])
    | some w =>
      have hvictim : findLRU lines = w := by simp only [findLRU, hf]
      rw [hvictim]
      exact ⟨(findEmpty_lt hf).2, findEmpty_some_lower hf⟩
  · exact findLRU_firstOldest (findEmpty_eq_none_iff.mpr hfull)

/-! ### Polls of one level -/

/-- A latency gate polled alone from a timer of 0: the timer rises by 1 with every poll up to the latency, what a waiting poll
keeps is kept, and the poll after that answers (R120). -/
theorem gate_pollCounts {σ α β : Type} {poll : σ → Poll α × σ} {timer : σ → Nat} {keep : σ → β} {latency : Nat} {x : σ}
    (hwaits : ∀ y, timer y < latency →
      (poll y).1 = .waiting ∧ timer (poll y).2 = timer y + 1 ∧ keep (poll y).2 = keep y)
    (hanswers : ∀ y, keep y = keep x → ¬ timer y < latency → (∃ a, (poll y).1 = .done a) ∧ timer (poll y).2 = 0)
    (hx : timer x = 0) :
    let after (k : Nat) : σ := (fun y => (poll y).2)^[k] x
    (∀ k < latency, (poll (after k)).1 = .waiting ∧ keep (after k) = keep x) ∧
    (∃ a, (poll (after latency)).1 = .done a) ∧ timer (after (latency + 1)) = 0 := by
  intro after
  have hsucc : ∀ k, after (k + 1) = (poll (after k)).2 := fun k => Function.iterate_succ_apply' ..
  have hcount : ∀ k ≤ latency, timer (after k) = k ∧ keep (after k) = keep x := by
    intro k
    induction k with
    | zero => exact fun _ => ⟨hx, rfl⟩
    | succ k ih =>
      intro hk
      obtain ⟨htimer, hkeep⟩ := ih (by omega)
      obtain ⟨-, htimer', hkeep'⟩ := hwaits (after k) (by omega)
      rw [hsucc]
      exact ⟨by rw [htimer', htimer], hkeep'.trans hkeep⟩
  obtain ⟨htimer, hkeep⟩ := hcount latency le_rfl
  obtain ⟨hanswer, hreset⟩ := hanswers (after latency) hkeep (by omega)
  refine ⟨fun k hk => ?_, hanswer, by rw [hsucc, hreset]⟩
  obtain ⟨htimer, hkeep⟩ := hcount k hk.le
  exact ⟨(hwaits (after k) (by omega)).1, hkeep⟩

/-- A terminal level before its latency has passed (R120). -/
theorem terminalAccess_waits {latency : Nat} {r : Request} {b : Backing} (h : timerAt b.timer r.addr < latency) :
    terminalAccess latency r b = (.waiting, { b with timer := setTimer b.timer r.addr (timerAt b.timer r.addr + 1) }) :=
  if_pos h

/-- A terminal level whose latency has passed answers and puts the timer back (R116, R120). -/
theorem terminalAccess_answers {latency : Nat} {r : Request} {b : Backing} (h : ¬ timerAt b.timer r.addr < latency) :
    (∃ ws, (terminalAccess latency r b).1 = .done ws) ∧ timerAt (terminalAccess latency r b).2.timer r.addr = 0 := by
  unfold terminalAccess
  rw [if_neg h]
  cases r.kind <;> exact ⟨⟨_, rfl⟩, by simp only [timerAt_setTimer, if_true]⟩

/-- A cache before its latency has passed, whatever hits (R120). -/
theorem cacheAccess_waits {g : Geometry} {next : Request → Hierarchy → Poll (List Word) × Hierarchy} {r : Request}
    {c : CacheState} {h : Hierarchy} (ht : timerAt c.timer r.addr < g.latency) :
    cacheAccess g next r c h =
      (.waiting, { c with timer := setTimer c.timer r.addr (timerAt c.timer r.addr + 1) }, h) := if_pos ht

/-- A cache whose latency has passed and that holds the line answers and puts the timer back (R121). -/
theorem cacheAccess_hit_answers {g : Geometry} {next : Request → Hierarchy → Poll (List Word) × Hierarchy} {r : Request}
    {c : CacheState} {h : Hierarchy} {w : Nat} (ht : ¬ timerAt c.timer r.addr < g.latency)
    (hhit : findHit (c.set (g.index r.addr)) (g.tag r.addr) = some w) :
    (∃ ws, (cacheAccess g next r c h).1 = .done ws) ∧ timerAt (cacheAccess g next r c h).2.1.timer r.addr = 0 := by
  simp only [cacheAccess, if_neg ht, hhit, serve, timerAt_setTimer, if_true, and_true]
  exact ⟨_, rfl⟩

/-- Settles O57: the terminal level is a gate that keeps the store, a cache that holds the line one that keeps the lines. -/
theorem pollCounts : Obligations.PollCounts := by
  refine ⟨fun T r b h0 => ?_, fun g next r w c h h0 hhit => ?_⟩
  · exact gate_pollCounts (poll := terminalAccess T r) (timer := fun b => timerAt b.timer r.addr) (keep := Backing.cells)
      (fun y hy => by simp [terminalAccess_waits hy, timerAt_setTimer])
      (fun y _ hy => terminalAccess_answers hy) h0
  · exact gate_pollCounts (poll := fun c => ((cacheAccess g next r c h).1, (cacheAccess g next r c h).2.1))
      (timer := fun c => timerAt c.timer r.addr) (keep := CacheState.sets)
      (fun y hy => by simp [cacheAccess_waits hy, timerAt_setTimer])
      (fun y hsets hy => cacheAccess_hit_answers hy (by simpa only [CacheState.set, hsets] using hhit)) h0

end Sys2Proof.Machine

/-!
PROOF. The statements about encoding (30_encoding). A format (R143 to R146) is read as a relation: `Formatted w i` says of each
field of `i`, bit range by bit range, that `w` holds its number, and says nothing of the ignored bits. The relation is exactly
`decode w = i` (`decode_eq_iff`); the encoder's word is in its format (`encode_formatted`); a word in a format lies in the row
of the opcode table (`Formatted.inRow`) and is the encoder's word but for its ignored bits
(`Formatted.toNat_encode_add_ignored`). What the statements say of decoding is read off these.
-/

namespace Sys2Proof

open Sys2Proof.Machine Sys2Proof.Laws

/-! ### The numbers of the fields -/

theorem slice_lt (w : Word) (lo n : Nat) : slice w lo n < 2 ^ n := Nat.mod_lt _ (by positivity)

theorem Cond.ofCode_code (c : Cond) : Cond.ofCode c.code = c := by cases c <;> rfl

theorem Cond.code_ofCode {n : Nat} (h : n < 16) : (Cond.ofCode n).code = n := by
  revert n
  decide

theorem ShiftType.ofCode_code (t : ShiftType) : ShiftType.ofCode t.code = t := by cases t <;> rfl

theorem ShiftType.code_ofCode {n : Nat} (h : n < 4) : (ShiftType.ofCode n).code = n := by
  revert n
  decide

theorem AluOp.ofCode_code (op : AluOp) : AluOp.ofCode op.code = op := by cases op <;> rfl

theorem AluOp.code_ofCode {n : Nat} (h : n < 16) : (AluOp.ofCode n).code = n := by
  revert n
  decide

theorem condAt_eq_iff {w : Word} {c : Cond} : condAt w = c ↔ slice w 28 4 = c.code := by
  constructor
  · rintro rfl
    exact (Cond.code_ofCode (slice_lt w 28 4)).symm
  · intro h
    rw [condAt, h, Cond.ofCode_code]

theorem shtypeAt_eq_iff {w : Word} {t : ShiftType} : shtypeAt w = t ↔ slice w 5 2 = t.code := by
  constructor
  · rintro rfl
    exact (ShiftType.code_ofCode (slice_lt w 5 2)).symm
  · intro h
    rw [shtypeAt, h, ShiftType.ofCode_code]

theorem aluOpAt_eq_iff {w : Word} {op : AluOp} : AluOp.ofCode (slice w 21 4) = op ↔ slice w 21 4 = op.code := by
  constructor
  · rintro rfl
    exact (AluOp.code_ofCode (slice_lt w 21 4)).symm
  · intro h
    rw [h, AluOp.ofCode_code]

theorem regAt_eq_iff {w : Word} {lo : Nat} {r : Reg} : regAt w lo = r ↔ slice w lo 4 = r.val := Fin.ext_iff

theorem bitOf_eq_iff {w : Word} {k : Nat} {b : Bool} : bitOf w k = b ↔ slice w k 1 = b.toNat := by
  have := slice_lt w k 1
  unfold bitOf
  cases b
  · simp only [beq_eq_false_iff_ne, Bool.toNat_false]
    omega
  · simp only [beq_iff_eq, Bool.toNat_true]

theorem bitsAt_eq_iff {w : Word} {lo n : Nat} {v : BitVec n} : BitVec.ofNat n (slice w lo n) = v ↔ slice w lo n = v.toNat := by
  rw [← BitVec.toNat_inj, BitVec.toNat_ofNat, Nat.mod_eq_of_lt (slice_lt w lo n)]

/-! ### The forms of an instruction -/

/-- LDR (`l`) or STR with an immediate offset (R144, `R` = 0). -/
def Instr.memImm (l : Bool) (cond : Cond) (p u wb : Bool) (rd rn : Reg) (imm12 : BitVec 12) : Instr :=
  match l with
  | true => .ldrImm cond p u wb rd rn imm12
  | false => .strImm cond p u wb rd rn imm12

/-- LDR (`l`) or STR with a register offset (R144, `R` = 1). -/
def Instr.memReg (l : Bool) (cond : Cond) (p u wb : Bool) (rd rn : Reg) (shamt : BitVec 5) (shtype : ShiftType) (rm : Reg) :
    Instr :=
  match l with
  | true => .ldrReg cond p u wb rd rn shamt shtype rm
  | false => .strReg cond p u wb rd rn shamt shtype rm

/-- BL (`link`) or B (R145, `R` = 0). -/
def Instr.branchImm (link : Bool) (cond : Cond) (imm24 : BitVec 24) : Instr :=
  match link with
  | true => .bl cond imm24
  | false => .b cond imm24

/-- BLX (`link`) or BX (R145, `R` = 1). -/
def Instr.branchReg (link : Bool) (cond : Cond) (rm : Reg) : Instr :=
  match link with
  | true => .blx cond rm
  | false => .bx cond rm

/-- An instruction of class ALU is the ALU row that its fields name. -/
theorem Instr.eq_alu_of_cls {i : Instr} (h : i.fields.cls = .alu) : ∃ o2,
    i = Instr.alu (AluOp.ofCode i.fields.opcode.toNat) i.fields.cond i.fields.s i.fields.rd i.fields.rn o2 := by
  cases i
  case ldrImm | ldrReg | strImm | strReg | b | bl | bx | blx | nop | endStream => cases h
  case andImm | eorImm | subImm | rsbImm | addImm | adcImm | sbcImm | rscImm | tstImm | teqImm | cmpImm | cmnImm | orrImm |
      movImm | bicImm | mvnImm => exact ⟨.imm _, rfl⟩
  case andShImm | eorShImm | subShImm | rsbShImm | addShImm | adcShImm | sbcShImm | rscShImm | tstShImm | teqShImm | cmpShImm |
      cmnShImm | orrShImm | movShImm | bicShImm | mvnShImm => exact ⟨.shImm _ _ _, rfl⟩
  all_goals exact ⟨.shReg _ _ _, rfl⟩

/-- The 58 rows by their formats (R143 to R146), as a case principle. -/
theorem Instr.forms {motive : Instr → Prop}
    (aluImm : ∀ op cond sf rd rn imm8, motive (.aluImm op cond sf rd rn imm8))
    (aluShImm : ∀ op cond sf rd rn shamt shtype rm, motive (.aluShImm op cond sf rd rn shamt shtype rm))
    (aluShReg : ∀ op cond sf rd rn rs shtype rm, motive (.aluShReg op cond sf rd rn rs shtype rm))
    (memImm : ∀ l cond p u wb rd rn imm12, motive (.memImm l cond p u wb rd rn imm12))
    (memReg : ∀ l cond p u wb rd rn shamt shtype rm, motive (.memReg l cond p u wb rd rn shamt shtype rm))
    (branchImm : ∀ link cond imm24, motive (.branchImm link cond imm24))
    (branchReg : ∀ link cond rm, motive (.branchReg link cond rm))
    (nop : ∀ cond, motive (.nop cond)) (endStream : motive .endStream) (i : Instr) : motive i := by
  by_cases h : i.fields.cls = .alu
  · obtain ⟨o2, ho2⟩ := Instr.eq_alu_of_cls h
    rw [ho2]
    cases o2 with
    | imm imm8 => exact aluImm ..
    | shImm shamt shtype rm => exact aluShImm ..
    | shReg rs shtype rm => exact aluShReg ..
  · cases i
    case ldrImm => exact memImm true ..
    case strImm => exact memImm false ..
    case ldrReg => exact memReg true ..
    case strReg => exact memReg false ..
    case bl => exact branchImm true ..
    case b => exact branchImm false ..
    case blx => exact branchReg true ..
    case bx => exact branchReg false ..
    case nop => exact nop _
    case endStream => exact endStream
    all_goals exact absurd rfl h

section
variable (op : AluOp) (cond : Cond) (sf p u wb l link : Bool) (rd rn rs rm : Reg) (shtype : ShiftType) (shamt : BitVec 5)
  (imm8 : BitVec 8) (imm12 : BitVec 12) (imm24 : BitVec 24)

@[simp] theorem encode_aluImm : encode (.aluImm op cond sf rd rn imm8) = packAluImm op cond sf rd rn imm8 := by
  cases op <;> rfl

@[simp] theorem encode_aluShImm :
    encode (.aluShImm op cond sf rd rn shamt shtype rm) = packAluShImm op cond sf rd rn shamt shtype rm := by
  cases op <;> rfl

@[simp] theorem encode_aluShReg :
    encode (.aluShReg op cond sf rd rn rs shtype rm) = packAluShReg op cond sf rd rn rs shtype rm := by
  cases op <;> rfl

@[simp] theorem encode_memImm : encode (.memImm l cond p u wb rd rn imm12) = packMemImm cond p u wb l rd rn imm12 := by
  cases l <;> rfl

@[simp] theorem encode_memReg :
    encode (.memReg l cond p u wb rd rn shamt shtype rm) = packMemReg cond p u wb l rd rn shamt shtype rm := by
  cases l <;> rfl

@[simp] theorem encode_branchImm : encode (.branchImm link cond imm24) = packBranchImm cond link imm24 := by
  cases link <;> rfl

@[simp] theorem encode_branchReg : encode (.branchReg link cond rm) = packBranchReg cond link rm := by
  cases link <;> rfl

@[simp] theorem fields_aluImm : (Instr.aluImm op cond sf rd rn imm8).fields = aluImmFields op cond sf rd rn imm8 :=
  alu_fields op cond sf rd rn (.imm imm8)

@[simp] theorem fields_aluShImm :
    (Instr.aluShImm op cond sf rd rn shamt shtype rm).fields = aluShImmFields op cond sf rd rn shamt shtype rm :=
  alu_fields op cond sf rd rn (.shImm shamt shtype rm)

@[simp] theorem fields_aluShReg :
    (Instr.aluShReg op cond sf rd rn rs shtype rm).fields = aluShRegFields op cond sf rd rn rs shtype rm :=
  alu_fields op cond sf rd rn (.shReg rs shtype rm)

@[simp] theorem fields_memImm :
    (Instr.memImm l cond p u wb rd rn imm12).fields = memImmFields cond p u wb l rd rn imm12 := by
  cases l <;> rfl

@[simp] theorem fields_memReg :
    (Instr.memReg l cond p u wb rd rn shamt shtype rm).fields = memRegFields cond p u wb l rd rn shamt shtype rm := by
  cases l <;> rfl

@[simp] theorem fields_branchImm : (Instr.branchImm link cond imm24).fields = branchImmFields cond link imm24 := by
  cases link <;> rfl

@[simp] theorem fields_branchReg : (Instr.branchReg link cond rm).fields = branchRegFields cond link rm := by
  cases link <;> rfl

@[simp] theorem tableRow_aluImm :
    (Instr.aluImm op cond sf rd rn imm8).tableRow = (0x0FE00000, BitVec.ofNat 32 (op.code * 2 ^ 21)) := by
  cases op <;> rfl

@[simp] theorem tableRow_aluShImm : (Instr.aluShImm op cond sf rd rn shamt shtype rm).tableRow =
    (0x0FE00010, BitVec.ofNat 32 (2 ^ 25 + op.code * 2 ^ 21)) := by
  cases op <;> rfl

@[simp] theorem tableRow_aluShReg : (Instr.aluShReg op cond sf rd rn rs shtype rm).tableRow =
    (0x0FE00010, BitVec.ofNat 32 (2 ^ 25 + op.code * 2 ^ 21 + 2 ^ 4)) := by
  cases op <;> rfl

@[simp] theorem tableRow_memImm : (Instr.memImm l cond p u wb rd rn imm12).tableRow =
    (0x0E200000, BitVec.ofNat 32 (2 ^ 26 + l.toNat * 2 ^ 21)) := by
  cases l <;> rfl

@[simp] theorem tableRow_memReg : (Instr.memReg l cond p u wb rd rn shamt shtype rm).tableRow =
    (0x0E200000, BitVec.ofNat 32 (2 ^ 26 + 2 ^ 25 + l.toNat * 2 ^ 21)) := by
  cases l <;> rfl

@[simp] theorem tableRow_branchImm : (Instr.branchImm link cond imm24).tableRow =
    (0x0F000000, BitVec.ofNat 32 (2 ^ 27 + link.toNat * 2 ^ 24)) := by
  cases link <;> rfl

@[simp] theorem tableRow_branchReg : (Instr.branchReg link cond rm).tableRow =
    (0x0F000000, BitVec.ofNat 32 (2 ^ 27 + 2 ^ 25 + link.toNat * 2 ^ 24)) := by
  cases link <;> rfl

end

/-! ### The formats -/

/-- Bits 31:26 and 24:12 of the ALU format (R143). -/
structure AluHead (w : Word) (op : AluOp) (cond : Cond) (sf : Bool) (rd rn : Reg) : Prop where
  hcond : slice w 28 4 = cond.code
  hcls : slice w 26 2 = 0
  hop : slice w 21 4 = op.code
  hs : slice w 20 1 = sf.toNat
  hrd : slice w 16 4 = rd.val
  hrn : slice w 12 4 = rn.val

/-- Bits 31:26 and 24:12 of the Memory format (R144), but for the ignored bit 20. -/
structure MemHead (w : Word) (l : Bool) (cond : Cond) (p u wb : Bool) (rd rn : Reg) : Prop where
  hcond : slice w 28 4 = cond.code
  hcls : slice w 26 2 = 1
  hp : slice w 24 1 = p.toNat
  hu : slice w 23 1 = u.toNat
  hwb : slice w 22 1 = wb.toNat
  hl : slice w 21 1 = l.toNat
  hrd : slice w 16 4 = rd.val
  hrn : slice w 12 4 = rn.val

/-- Bits 31:26 and 24 of the Branch format (R145). -/
structure BranchHead (w : Word) (link : Bool) (cond : Cond) : Prop where
  hcond : slice w 28 4 = cond.code
  hcls : slice w 26 2 = 2
  hlink : slice w 24 1 = link.toNat

/-- The shifted register of the register layouts: bits 6:5 and 3:0 (R143, R144). -/
structure ShiftedReg (w : Word) (shtype : ShiftType) (rm : Reg) : Prop where
  htype : slice w 5 2 = shtype.code
  hrm : slice w 0 4 = rm.val

/-- `w` is laid out as the format of the instruction says, whatever its ignored bits hold (R143 to R146, R149). -/
inductive Formatted (w : Word) : Instr → Prop
  | aluImm {op cond sf rd rn} {imm8 : BitVec 8} (head : AluHead w op cond sf rd rn) (hreg : slice w 25 1 = 0)
      (himm : slice w 0 8 = imm8.toNat) : Formatted w (.aluImm op cond sf rd rn imm8)
  | aluShImm {op cond sf rd rn} {shamt : BitVec 5} {shtype rm} (head : AluHead w op cond sf rd rn) (hreg : slice w 25 1 = 1)
      (hbit4 : slice w 4 1 = 0) (hshamt : slice w 7 5 = shamt.toNat) (hshifted : ShiftedReg w shtype rm) :
      Formatted w (.aluShImm op cond sf rd rn shamt shtype rm)
  | aluShReg {op cond sf rd rn} {rs : Reg} {shtype rm} (head : AluHead w op cond sf rd rn) (hreg : slice w 25 1 = 1)
      (hbit4 : slice w 4 1 = 1) (hrs : slice w 8 4 = rs.val) (hshifted : ShiftedReg w shtype rm) :
      Formatted w (.aluShReg op cond sf rd rn rs shtype rm)
  | memImm {l cond p u wb rd rn} {imm12 : BitVec 12} (head : MemHead w l cond p u wb rd rn) (hreg : slice w 25 1 = 0)
      (himm : slice w 0 12 = imm12.toNat) : Formatted w (.memImm l cond p u wb rd rn imm12)
  | memReg {l cond p u wb rd rn} {shamt : BitVec 5} {shtype rm} (head : MemHead w l cond p u wb rd rn)
      (hreg : slice w 25 1 = 1) (hshamt : slice w 7 5 = shamt.toNat) (hshifted : ShiftedReg w shtype rm) :
      Formatted w (.memReg l cond p u wb rd rn shamt shtype rm)
  | branchImm {link cond} {imm24 : BitVec 24} (head : BranchHead w link cond) (hreg : slice w 25 1 = 0)
      (himm : slice w 0 24 = imm24.toNat) : Formatted w (.branchImm link cond imm24)
  | branchReg {link cond} {rm : Reg} (head : BranchHead w link cond) (hreg : slice w 25 1 = 1)
      (hrm : slice w 0 4 = rm.val) : Formatted w (.branchReg link cond rm)
  | nop {cond : Cond} (hcls : slice w 26 2 = 3) (hcond : slice w 28 4 = cond.code) (hw : w ≠ sentinelWord) :
      Formatted w (.nop cond)
  | endStream (hw : w = sentinelWord) : Formatted w .endStream

/-! ### Decoding is reading the format -/

theorem slice_cls_sentinelWord : slice sentinelWord 26 2 = 3 := by decide

/-- Only a word of class No-op can be the sentinel (R149). -/
theorem ne_sentinelWord_of_cls {w : Word} (h : slice w 26 2 ≠ 3) : w ≠ sentinelWord := by
  rintro rfl
  exact h slice_cls_sentinelWord

theorem decode_sentinelWord : decode sentinelWord = .endStream := if_pos rfl

theorem decode_alu {w : Word} (h : slice w 26 2 = 0) : decode w = decodeAlu w := by
  rw [decode, if_neg (ne_sentinelWord_of_cls (by omega)), h]
  rfl

theorem decode_memory {w : Word} (h : slice w 26 2 = 1) : decode w = decodeMemory w := by
  rw [decode, if_neg (ne_sentinelWord_of_cls (by omega)), h]
  rfl

theorem decode_branch {w : Word} (h : slice w 26 2 = 2) : decode w = decodeBranch w := by
  rw [decode, if_neg (ne_sentinelWord_of_cls (by omega)), h]
  rfl

theorem decode_noop {w : Word} (h : slice w 26 2 = 3) (hw : w ≠ sentinelWord) : decode w = .nop (condAt w) := by
  rw [decode, if_neg hw, h]
  rfl

/-- What the decoder reads from the head of an ALU word (R150). -/
theorem AluHead.decode_eq {w : Word} {op : AluOp} {cond : Cond} {sf : Bool} {rd rn : Reg} (h : AluHead w op cond sf rd rn) :
    decode w = decodeAlu w ∧ AluOp.ofCode (slice w 21 4) = op ∧ condAt w = cond ∧ bitOf w 20 = sf ∧ regAt w 16 = rd ∧
      regAt w 12 = rn :=
  ⟨decode_alu h.hcls, aluOpAt_eq_iff.mpr h.hop, condAt_eq_iff.mpr h.hcond, bitOf_eq_iff.mpr h.hs, regAt_eq_iff.mpr h.hrd,
    regAt_eq_iff.mpr h.hrn⟩

/-- What the decoder reads from the head of a Memory word (R151). -/
theorem MemHead.decode_eq {w : Word} {l : Bool} {cond : Cond} {p u wb : Bool} {rd rn : Reg}
    (h : MemHead w l cond p u wb rd rn) :
    decode w = decodeMemory w ∧ bitOf w 21 = l ∧ condAt w = cond ∧ bitOf w 24 = p ∧ bitOf w 23 = u ∧ bitOf w 22 = wb ∧
      regAt w 16 = rd ∧ regAt w 12 = rn :=
  ⟨decode_memory h.hcls, bitOf_eq_iff.mpr h.hl, condAt_eq_iff.mpr h.hcond, bitOf_eq_iff.mpr h.hp, bitOf_eq_iff.mpr h.hu,
    bitOf_eq_iff.mpr h.hwb, regAt_eq_iff.mpr h.hrd, regAt_eq_iff.mpr h.hrn⟩

/-- What the decoder reads from the head of a Branch word (R152). -/
theorem BranchHead.decode_eq {w : Word} {link : Bool} {cond : Cond} (h : BranchHead w link cond) :
    decode w = decodeBranch w ∧ bitOf w 24 = link ∧ condAt w = cond :=
  ⟨decode_branch h.hcls, bitOf_eq_iff.mpr h.hlink, condAt_eq_iff.mpr h.hcond⟩

theorem ShiftedReg.at_eq {w : Word} {shtype : ShiftType} {rm : Reg} (h : ShiftedReg w shtype rm) :
    shtypeAt w = shtype ∧ regAt w 0 = rm := ⟨shtypeAt_eq_iff.mpr h.htype, regAt_eq_iff.mpr h.hrm⟩

theorem bitOf_true {w : Word} {k : Nat} (h : slice w k 1 = 1) : bitOf w k = true := bitOf_eq_iff.mpr h

theorem bitOf_false {w : Word} {k : Nat} (h : slice w k 1 = 0) : bitOf w k = false := bitOf_eq_iff.mpr h

/-- A word decodes to the instruction in whose format it is. -/
theorem Formatted.decode_eq {w : Word} {i : Instr} (h : Formatted w i) : decode w = i := by
  cases h with
  | aluImm head hreg himm =>
    obtain ⟨hdecode, rfl, rfl, rfl, rfl, rfl⟩ := head.decode_eq
    obtain rfl := bitsAt_eq_iff.mpr himm
    simp [hdecode, decodeAlu, bitOf_false hreg]
  | aluShImm head hreg hbit4 hshamt hshifted =>
    obtain ⟨hdecode, rfl, rfl, rfl, rfl, rfl⟩ := head.decode_eq
    obtain ⟨rfl, rfl⟩ := hshifted.at_eq
    obtain rfl := bitsAt_eq_iff.mpr hshamt
    simp [hdecode, decodeAlu, bitOf_true hreg, bitOf_false hbit4, shamtAt]
  | aluShReg head hreg hbit4 hrs hshifted =>
    obtain ⟨hdecode, rfl, rfl, rfl, rfl, rfl⟩ := head.decode_eq
    obtain ⟨rfl, rfl⟩ := hshifted.at_eq
    obtain rfl := regAt_eq_iff.mpr hrs
    simp [hdecode, decodeAlu, bitOf_true hreg, bitOf_true hbit4]
  | @memImm l cond p u wb rd rn imm12 head hreg himm =>
    obtain ⟨hdecode, hl, rfl, rfl, rfl, rfl, rfl, rfl⟩ := head.decode_eq
    obtain rfl := bitsAt_eq_iff.mpr himm
    cases l <;> simp [hdecode, decodeMemory, bitOf_false hreg, hl, Instr.memImm]
  | @memReg l cond p u wb rd rn shamt shtype rm head hreg hshamt hshifted =>
    obtain ⟨hdecode, hl, rfl, rfl, rfl, rfl, rfl, rfl⟩ := head.decode_eq
    obtain ⟨rfl, rfl⟩ := hshifted.at_eq
    obtain rfl := bitsAt_eq_iff.mpr hshamt
    cases l <;> simp [hdecode, decodeMemory, bitOf_true hreg, hl, Instr.memReg, shamtAt]
  | @branchImm link cond imm24 head hreg himm =>
    obtain ⟨hdecode, hlink, rfl⟩ := head.decode_eq
    obtain rfl := bitsAt_eq_iff.mpr himm
    cases link <;> simp [hdecode, decodeBranch, bitOf_false hreg, hlink, Instr.branchImm]
  | @branchReg link cond rm head hreg hrm =>
    obtain ⟨hdecode, hlink, rfl⟩ := head.decode_eq
    obtain rfl := regAt_eq_iff.mpr hrm
    cases link <;> simp [hdecode, decodeBranch, bitOf_true hreg, hlink, Instr.branchReg]
  | nop hcls hcond hw => rw [decode_noop hcls hw, condAt_eq_iff.mpr hcond]
  | endStream hw => rw [hw, decode_sentinelWord]

/-- Every word of class ALU has the head of its opcode's operation, with the fields the decoder reads. -/
theorem aluHead_of_cls {w : Word} {op : AluOp} (hcls : slice w 26 2 = 0) (hop : slice w 21 4 = op.code) :
    AluHead w op (condAt w) (bitOf w 20) (regAt w 16) (regAt w 12) :=
  ⟨condAt_eq_iff.mp rfl, hcls, hop, bitOf_eq_iff.mp rfl, rfl, rfl⟩

theorem memHead_of_cls {w : Word} {l : Bool} (hcls : slice w 26 2 = 1) (hl : slice w 21 1 = l.toNat) :
    MemHead w l (condAt w) (bitOf w 24) (bitOf w 23) (bitOf w 22) (regAt w 16) (regAt w 12) :=
  ⟨condAt_eq_iff.mp rfl, hcls, bitOf_eq_iff.mp rfl, bitOf_eq_iff.mp rfl, bitOf_eq_iff.mp rfl, hl, rfl, rfl⟩

theorem branchHead_of_cls {w : Word} {link : Bool} (hcls : slice w 26 2 = 2) (hlink : slice w 24 1 = link.toNat) :
    BranchHead w link (condAt w) := ⟨condAt_eq_iff.mp rfl, hcls, hlink⟩

theorem shiftedReg_at (w : Word) : ShiftedReg w (shtypeAt w) (regAt w 0) := ⟨shtypeAt_eq_iff.mp rfl, rfl⟩

/-- Every word is in some format (R147): the layout bits choose it (R158). -/
theorem exists_formatted (w : Word) : ∃ i, Formatted w i := by
  by_cases hw : w = sentinelWord
  · exact ⟨_, .endStream hw⟩
  have hop : slice w 21 4 = (AluOp.ofCode (slice w 21 4)).code := aluOpAt_eq_iff.mp rfl
  have hreg : slice w 25 1 = 0 ∨ slice w 25 1 = 1 := by
    have := slice_lt w 25 1
    omega
  have hbit4 : slice w 4 1 = 0 ∨ slice w 4 1 = 1 := by
    have := slice_lt w 4 1
    omega
  have hcls : slice w 26 2 = 0 ∨ slice w 26 2 = 1 ∨ slice w 26 2 = 2 ∨ slice w 26 2 = 3 := by
    have := slice_lt w 26 2
    omega
  rcases hcls with hcls | hcls | hcls | hcls
  · have head := aluHead_of_cls hcls hop
    rcases hreg with hreg | hreg
    · exact ⟨_, .aluImm head hreg (bitsAt_eq_iff.mp rfl)⟩
    · rcases hbit4 with hbit4 | hbit4
      · exact ⟨_, .aluShImm head hreg hbit4 (bitsAt_eq_iff.mp rfl) (shiftedReg_at w)⟩
      · exact ⟨_, .aluShReg head hreg hbit4 (regAt_eq_iff.mp rfl) (shiftedReg_at w)⟩
  · have head := memHead_of_cls hcls (bitOf_eq_iff.mp rfl)
    rcases hreg with hreg | hreg
    · exact ⟨_, .memImm head hreg (bitsAt_eq_iff.mp rfl)⟩
    · exact ⟨_, .memReg head hreg (bitsAt_eq_iff.mp rfl) (shiftedReg_at w)⟩
  · have head := branchHead_of_cls hcls (bitOf_eq_iff.mp rfl)
    rcases hreg with hreg | hreg
    · exact ⟨_, .branchImm head hreg (bitsAt_eq_iff.mp rfl)⟩
    · exact ⟨_, .branchReg head hreg (regAt_eq_iff.mp rfl)⟩
  · exact ⟨_, .nop hcls (condAt_eq_iff.mp rfl) hw⟩

/-- Decoding is reading the format: what is decoded, and nothing else, is the instruction in whose format the word is. -/
theorem decode_eq_iff {w : Word} {i : Instr} : decode w = i ↔ Formatted w i := by
  refine ⟨?_, Formatted.decode_eq⟩
  rintro rfl
  obtain ⟨i, hi⟩ := exists_formatted w
  exact hi.decode_eq ▸ hi

theorem formatted_decode (w : Word) : Formatted w (decode w) := decode_eq_iff.mp rfl

/-! ### Encoding writes the format -/

/-- The numbers of the named fields fit their bit ranges (R143). -/
theorem alu_code_bounds (op : AluOp) (cond : Cond) (sf : Bool) : cond.code < 16 ∧ op.code < 16 ∧ sf.toNat ≤ 1 :=
  ⟨code_lt cond, opcode_lt op, toNat_le sf⟩

/-- The numbers of the named fields fit their bit ranges (R144). -/
theorem mem_code_bounds (cond : Cond) (p u wb l : Bool) :
    cond.code < 16 ∧ p.toNat ≤ 1 ∧ u.toNat ≤ 1 ∧ wb.toNat ≤ 1 ∧ l.toNat ≤ 1 :=
  ⟨code_lt cond, toNat_le p, toNat_le u, toNat_le wb, toNat_le l⟩

section
variable (op : AluOp) (cond : Cond) (sf p u wb l link : Bool) (rd rn rs rm : Reg) (shtype : ShiftType) (shamt : BitVec 5)
  (imm8 : BitVec 8) (imm12 : BitVec 12) (imm24 : BitVec 24)

theorem packAluImm_formatted : Formatted (packAluImm op cond sf rd rn imm8) (.aluImm op cond sf rd rn imm8) := by
  have := alu_code_bounds op cond sf
  refine .aluImm ⟨?_, ?_, ?_, ?_, ?_, ?_⟩ ?_ ?_ <;> simp only [slice, packAluImm, BitVec.toNat_ofNat] <;> omega

theorem packAluShImm_formatted :
    Formatted (packAluShImm op cond sf rd rn shamt shtype rm) (.aluShImm op cond sf rd rn shamt shtype rm) := by
  have := alu_code_bounds op cond sf
  have := shtype_lt shtype
  refine .aluShImm ⟨?_, ?_, ?_, ?_, ?_, ?_⟩ ?_ ?_ ?_ ⟨?_, ?_⟩ <;>
    simp only [slice, packAluShImm, BitVec.toNat_ofNat] <;> omega

theorem packAluShReg_formatted :
    Formatted (packAluShReg op cond sf rd rn rs shtype rm) (.aluShReg op cond sf rd rn rs shtype rm) := by
  have := alu_code_bounds op cond sf
  have := shtype_lt shtype
  refine .aluShReg ⟨?_, ?_, ?_, ?_, ?_, ?_⟩ ?_ ?_ ?_ ⟨?_, ?_⟩ <;>
    simp only [slice, packAluShReg, BitVec.toNat_ofNat] <;> omega

theorem packMemImm_formatted : Formatted (packMemImm cond p u wb l rd rn imm12) (.memImm l cond p u wb rd rn imm12) := by
  have := mem_code_bounds cond p u wb l
  refine .memImm ⟨?_, ?_, ?_, ?_, ?_, ?_, ?_, ?_⟩ ?_ ?_ <;>
    simp only [slice, packMemImm, BitVec.toNat_ofNat] <;> omega

theorem packMemReg_formatted :
    Formatted (packMemReg cond p u wb l rd rn shamt shtype rm) (.memReg l cond p u wb rd rn shamt shtype rm) := by
  have := mem_code_bounds cond p u wb l
  have := shtype_lt shtype
  refine .memReg ⟨?_, ?_, ?_, ?_, ?_, ?_, ?_, ?_⟩ ?_ ?_ ⟨?_, ?_⟩ <;>
    simp only [slice, packMemReg, BitVec.toNat_ofNat] <;> omega

theorem packBranchImm_formatted : Formatted (packBranchImm cond link imm24) (.branchImm link cond imm24) := by
  have := code_lt cond
  have := toNat_le link
  refine .branchImm ⟨?_, ?_, ?_⟩ ?_ ?_ <;> simp only [slice, packBranchImm, BitVec.toNat_ofNat] <;> omega

theorem packBranchReg_formatted : Formatted (packBranchReg cond link rm) (.branchReg link cond rm) := by
  have := code_lt cond
  have := toNat_le link
  refine .branchReg ⟨?_, ?_, ?_⟩ ?_ ?_ <;> simp only [slice, packBranchReg, BitVec.toNat_ofNat] <;> omega

theorem packNoop_formatted : Formatted (packNoop cond) (.nop cond) := by
  have := code_lt cond
  refine .nop ?_ ?_ ?_
  · simp only [slice, packNoop, BitVec.toNat_ofNat]
    omega
  · simp only [slice, packNoop, BitVec.toNat_ofNat]
    omega
  · cases cond <;> decide

end

/-- The encoder's word is in the format of the instruction (R143 to R146, R149). -/
theorem encode_formatted (i : Instr) : Formatted (encode i) i := by
  cases i using Instr.forms with
  | aluImm => simpa only [encode_aluImm] using packAluImm_formatted ..
  | aluShImm => simpa only [encode_aluShImm] using packAluShImm_formatted ..
  | aluShReg => simpa only [encode_aluShReg] using packAluShReg_formatted ..
  | memImm => simpa only [encode_memImm] using packMemImm_formatted ..
  | memReg => simpa only [encode_memReg] using packMemReg_formatted ..
  | branchImm => simpa only [encode_branchImm] using packBranchImm_formatted ..
  | branchReg => simpa only [encode_branchReg] using packBranchReg_formatted ..
  | nop => exact packNoop_formatted _
  | endStream => exact .endStream rfl

/-- Settles O1: the encoder's word is in the format of the instruction, and decoding reads the format. -/
theorem decodeInvertsEncode : Obligations.DecodeInvertsEncode := fun i => (encode_formatted i).decode_eq

/-! ### Masks -/

/-- The mask of the `n` bits from bit `lo` up. -/
def fieldMask (lo n : Nat) : Word := BitVec.ofNat 32 ((2 ^ n - 1) * 2 ^ lo)

theorem getLsbD_fieldMask (lo n k : Nat) :
    (fieldMask lo n).getLsbD k = (decide (k < 32) && (decide (lo ≤ k) && decide (k - lo < n))) := by
  rw [fieldMask, BitVec.getLsbD_ofNat, Nat.testBit_mul_two_pow, Nat.testBit_two_pow_sub_one]

/-- A masked field stands for its number times its weight. -/
theorem toNat_and_fieldMask (w : Word) (lo n : Nat) : (w &&& fieldMask lo n).toNat = slice w lo n * 2 ^ lo := by
  apply Nat.eq_of_testBit_eq
  intro k
  rw [BitVec.testBit_toNat, BitVec.getLsbD_and, getLsbD_fieldMask, slice, Nat.testBit_mul_two_pow, Nat.testBit_mod_two_pow,
    Nat.testBit_div_two_pow, BitVec.testBit_toNat]
  by_cases hk : lo ≤ k
  · rw [Nat.sub_add_cancel hk]
    by_cases hlt : k < 32
    · simp [hk, hlt, Bool.and_comm]
    · simp [BitVec.getLsbD_of_ge w k (Nat.not_lt.mp hlt)]
  · simp [hk]

/-- Two masks without a common bit keep what each of them keeps. -/
theorem toNat_and_or_of_disjoint (w : Word) {m m' : Word} (h : m &&& m' = 0) :
    (w &&& (m ||| m')).toNat = (w &&& m).toNat + (w &&& m').toNat := by
  have hdisj : (w &&& m) &&& (w &&& m') = 0 := by
    calc (w &&& m) &&& (w &&& m')
      _ = (w &&& w) &&& (m &&& m') := by ac_rfl
      _ = 0 := by rw [h]; exact BitVec.and_zero
  rw [BitVec.and_or_distrib_left, ← BitVec.add_eq_or_of_and_eq_zero _ _ hdisj]
  exact BitVec.toNat_add_of_and_eq_zero hdisj

/-- A word is what a mask keeps of it and what the mask drops. -/
theorem toNat_and_not_add_and (w m : Word) : (w &&& ~~~m).toNat + (w &&& m).toNat = w.toNat := by
  have hall : ~~~m ||| m = BitVec.allOnes 32 := by
    ext k
    simp
  rw [← toNat_and_or_of_disjoint w (by simp), hall, BitVec.and_allOnes]

/-! ### The rows of the opcode table -/

/-- `w` is a word of the row of `i` (R158). -/
def InRow (w : Word) (i : Instr) : Prop := w &&& i.tableRow.1 = i.tableRow.2

theorem and_eq_ofNat_iff {w m : Word} {n : Nat} (hn : n < 2 ^ 32) : w &&& m = BitVec.ofNat 32 n ↔ (w &&& m).toNat = n := by
  rw [← BitVec.toNat_inj, BitVec.toNat_ofNat, Nat.mod_eq_of_lt hn]

/-- The mask of the ALU rows of the immediate layout: bits 27:21. -/
theorem toNat_and_aluImmMask (w : Word) : (w &&& 0x0FE00000).toNat = slice w 21 7 * 2 ^ 21 := toNat_and_fieldMask w 21 7

/-- The mask of the ALU rows of the register layouts: bits 27:21 and 4. -/
theorem toNat_and_aluRegMask (w : Word) : (w &&& 0x0FE00010).toNat = slice w 21 7 * 2 ^ 21 + slice w 4 1 * 2 ^ 4 := by
  rw [← toNat_and_fieldMask, ← toNat_and_fieldMask, ← toNat_and_or_of_disjoint w (by decide)]
  rfl

/-- The mask of the Memory rows: bits 27:25 and 21. -/
theorem toNat_and_memMask (w : Word) : (w &&& 0x0E200000).toNat = slice w 25 3 * 2 ^ 25 + slice w 21 1 * 2 ^ 21 := by
  rw [← toNat_and_fieldMask, ← toNat_and_fieldMask, ← toNat_and_or_of_disjoint w (by decide)]
  rfl

/-- The mask of the Branch rows: bits 27:24. -/
theorem toNat_and_branchMask (w : Word) : (w &&& 0x0F000000).toNat = slice w 24 4 * 2 ^ 24 := toNat_and_fieldMask w 24 4

/-- The mask of the No-op row: bits 27:26. -/
theorem toNat_and_noopMask (w : Word) : (w &&& 0x0C000000).toNat = slice w 26 2 * 2 ^ 26 := toNat_and_fieldMask w 26 2

section
variable (w : Word) (op : AluOp) (cond : Cond) (sf p u wb l link : Bool) (rd rn rs rm : Reg) (shtype : ShiftType)
  (shamt : BitVec 5) (imm8 : BitVec 8) (imm12 : BitVec 12) (imm24 : BitVec 24)

theorem inRow_aluImm_iff : InRow w (.aluImm op cond sf rd rn imm8) ↔
    slice w 26 2 = 0 ∧ slice w 25 1 = 0 ∧ slice w 21 4 = op.code := by
  have := opcode_lt op
  rw [InRow, tableRow_aluImm, and_eq_ofNat_iff (by omega), toNat_and_aluImmMask]
  unfold slice
  omega

theorem inRow_aluShImm_iff : InRow w (.aluShImm op cond sf rd rn shamt shtype rm) ↔
    slice w 26 2 = 0 ∧ slice w 25 1 = 1 ∧ slice w 21 4 = op.code ∧ slice w 4 1 = 0 := by
  have := opcode_lt op
  rw [InRow, tableRow_aluShImm, and_eq_ofNat_iff (by omega), toNat_and_aluRegMask]
  unfold slice
  omega

theorem inRow_aluShReg_iff : InRow w (.aluShReg op cond sf rd rn rs shtype rm) ↔
    slice w 26 2 = 0 ∧ slice w 25 1 = 1 ∧ slice w 21 4 = op.code ∧ slice w 4 1 = 1 := by
  have := opcode_lt op
  rw [InRow, tableRow_aluShReg, and_eq_ofNat_iff (by omega), toNat_and_aluRegMask]
  unfold slice
  omega

theorem inRow_memImm_iff : InRow w (.memImm l cond p u wb rd rn imm12) ↔
    slice w 26 2 = 1 ∧ slice w 25 1 = 0 ∧ slice w 21 1 = l.toNat := by
  have := toNat_le l
  rw [InRow, tableRow_memImm, and_eq_ofNat_iff (by omega), toNat_and_memMask]
  unfold slice
  omega

theorem inRow_memReg_iff : InRow w (.memReg l cond p u wb rd rn shamt shtype rm) ↔
    slice w 26 2 = 1 ∧ slice w 25 1 = 1 ∧ slice w 21 1 = l.toNat := by
  have := toNat_le l
  rw [InRow, tableRow_memReg, and_eq_ofNat_iff (by omega), toNat_and_memMask]
  unfold slice
  omega

theorem inRow_branchImm_iff : InRow w (.branchImm link cond imm24) ↔
    slice w 26 2 = 2 ∧ slice w 25 1 = 0 ∧ slice w 24 1 = link.toNat := by
  have := toNat_le link
  rw [InRow, tableRow_branchImm, and_eq_ofNat_iff (by omega), toNat_and_branchMask]
  unfold slice
  omega

theorem inRow_branchReg_iff : InRow w (.branchReg link cond rm) ↔
    slice w 26 2 = 2 ∧ slice w 25 1 = 1 ∧ slice w 24 1 = link.toNat := by
  have := toNat_le link
  rw [InRow, tableRow_branchReg, and_eq_ofNat_iff (by omega), toNat_and_branchMask]
  unfold slice
  omega

theorem inRow_nop_iff : InRow w (.nop cond) ↔ slice w 26 2 = 3 := by
  have hrow : (Instr.nop cond).tableRow = (0x0C000000, BitVec.ofNat 32 (3 * 2 ^ 26)) := rfl
  rw [InRow, hrow, and_eq_ofNat_iff (by omega), toNat_and_noopMask]
  unfold slice
  omega

theorem inRow_endStream_iff : InRow w .endStream ↔ w = sentinelWord := by
  have hmask : (0xFFFFFFFF : Word) = BitVec.allOnes 32 := by decide
  show w &&& 0xFFFFFFFF = 0xFFFFFFFF ↔ w = 0xFFFFFFFF
  rw [hmask, BitVec.and_allOnes]

end

/-- A word lies in the row of the instruction in whose format it is. -/
theorem Formatted.inRow {w : Word} {i : Instr} (h : Formatted w i) : InRow w i := by
  cases h with
  | aluImm head hreg => exact (inRow_aluImm_iff ..).mpr ⟨head.hcls, hreg, head.hop⟩
  | aluShImm head hreg hbit4 => exact (inRow_aluShImm_iff ..).mpr ⟨head.hcls, hreg, head.hop, hbit4⟩
  | aluShReg head hreg hbit4 => exact (inRow_aluShReg_iff ..).mpr ⟨head.hcls, hreg, head.hop, hbit4⟩
  | memImm head hreg => exact (inRow_memImm_iff ..).mpr ⟨head.hcls, hreg, head.hl⟩
  | memReg head hreg => exact (inRow_memReg_iff ..).mpr ⟨head.hcls, hreg, head.hl⟩
  | branchImm head hreg => exact (inRow_branchImm_iff ..).mpr ⟨head.hcls, hreg, head.hlink⟩
  | branchReg head hreg => exact (inRow_branchReg_iff ..).mpr ⟨head.hcls, hreg, head.hlink⟩
  | nop hcls => exact (inRow_nop_iff ..).mpr hcls
  | endStream hw => exact (inRow_endStream_iff w).mpr hw

/-- A word of the row of `i` is in the format of an instruction of that row, END before NOP (R149, R158). -/
theorem InRow.exists_formatted {w : Word} {i : Instr} (h : InRow w i) (hsentinel : w = sentinelWord → i = .endStream) :
    ∃ j : Instr, Formatted w j ∧ j.tableRow = i.tableRow := by
  cases i using Instr.forms with
  | aluImm op =>
    obtain ⟨hcls, hreg, hop⟩ := (inRow_aluImm_iff ..).mp h
    exact ⟨_, .aluImm (aluHead_of_cls hcls hop) hreg (bitsAt_eq_iff.mp rfl), by simp⟩
  | aluShImm op =>
    obtain ⟨hcls, hreg, hop, hbit4⟩ := (inRow_aluShImm_iff ..).mp h
    exact ⟨_, .aluShImm (aluHead_of_cls hcls hop) hreg hbit4 (bitsAt_eq_iff.mp rfl) (shiftedReg_at w), by simp⟩
  | aluShReg op =>
    obtain ⟨hcls, hreg, hop, hbit4⟩ := (inRow_aluShReg_iff ..).mp h
    exact ⟨_, .aluShReg (aluHead_of_cls hcls hop) hreg hbit4 (regAt_eq_iff.mp rfl) (shiftedReg_at w), by simp⟩
  | memImm l =>
    obtain ⟨hcls, hreg, hl⟩ := (inRow_memImm_iff ..).mp h
    exact ⟨_, .memImm (memHead_of_cls hcls hl) hreg (bitsAt_eq_iff.mp rfl), by simp⟩
  | memReg l =>
    obtain ⟨hcls, hreg, hl⟩ := (inRow_memReg_iff ..).mp h
    exact ⟨_, .memReg (memHead_of_cls hcls hl) hreg (bitsAt_eq_iff.mp rfl) (shiftedReg_at w), by simp⟩
  | branchImm link =>
    obtain ⟨hcls, hreg, hlink⟩ := (inRow_branchImm_iff ..).mp h
    exact ⟨_, .branchImm (branchHead_of_cls hcls hlink) hreg (bitsAt_eq_iff.mp rfl), by simp⟩
  | branchReg link =>
    obtain ⟨hcls, hreg, hlink⟩ := (inRow_branchReg_iff ..).mp h
    exact ⟨_, .branchReg (branchHead_of_cls hcls hlink) hreg (regAt_eq_iff.mp rfl), by simp⟩
  | nop cond =>
    have hw : w ≠ sentinelWord := fun hw => nomatch hsentinel hw
    exact ⟨_, .nop ((inRow_nop_iff ..).mp h) (condAt_eq_iff.mp rfl) hw, rfl⟩
  | endStream => exact ⟨_, .endStream ((inRow_endStream_iff w).mp h), rfl⟩

/-- Settles O3: a row's mask and match fix the layout bits of a format, and every format fixes those of its row. -/
theorem tableRowsDecode : Obligations.TableRowsDecode := by
  refine ⟨fun w i hrow hsentinel => ?_, fun w => (formatted_decode w).inRow⟩
  obtain ⟨j, hj, heq⟩ := InRow.exists_formatted hrow hsentinel
  rw [hj.decode_eq, heq]

/-! ### Ignored bits -/

theorem toNat_extractLsb'_eq_slice (w : Word) (lo n : Nat) : (w.extractLsb' lo n).toNat = slice w lo n := by
  rw [BitVec.extractLsb'_toNat, Nat.shiftRight_eq_div_pow, slice]

theorem extractLsb'_eq_iff {w : Word} {lo n : Nat} {v : BitVec n} : w.extractLsb' lo n = v ↔ slice w lo n = v.toNat := by
  rw [← BitVec.toNat_inj, toNat_extractLsb'_eq_slice]

theorem getLsbD_eq_bitOf (w : Word) (k : Nat) : w.getLsbD k = bitOf w k := by
  rw [BitVec.getLsbD, Nat.testBit_eq_decide_div_mod_eq]
  rfl

/-- The ignored bits, by the layout bits (R143 to R146). -/
theorem ignoredBits_eq (w : Word) : ignoredBits w =
    if slice w 26 2 = 0 then if bitOf w 25 then if bitOf w 4 then 0x80 else 0 else 0xF00
    else if slice w 26 2 = 1 then if bitOf w 25 then 0x00100010 else 0x00100000
    else if slice w 26 2 = 2 then if bitOf w 25 then 0x00FFFFF0 else 0
    else 0x03FFFFFF := by
  have hcode : (0 : BitVec 2).toNat = 0 ∧ (1 : BitVec 2).toNat = 1 ∧ (2 : BitVec 2).toNat = 2 := by decide
  simp only [ignoredBits, extractLsb'_eq_iff, getLsbD_eq_bitOf, hcode]

/-- No layout bit is an ignored bit. -/
theorem getLsbD_ignoredBits (w : Word) : (ignoredBits w).getLsbD 26 = false ∧ (ignoredBits w).getLsbD 27 = false ∧
    (slice w 26 2 ≠ 3 → (ignoredBits w).getLsbD 25 = false) ∧
    (slice w 26 2 = 0 → bitOf w 25 = true → (ignoredBits w).getLsbD 4 = false) := by
  have := slice_lt w 26 2
  rw [ignoredBits_eq]
  by_cases h0 : slice w 26 2 = 0
  · cases h25 : bitOf w 25
    · simp [h0]
    · cases h4 : bitOf w 4 <;> simp [h0]
  by_cases h1 : slice w 26 2 = 1
  · cases h25 : bitOf w 25 <;> simp [h1]
  by_cases h2 : slice w 26 2 = 2
  · cases h25 : bitOf w 25 <;> simp [h2]
  · have h3 : slice w 26 2 = 3 := by omega
    simp [h3]

/-- The class as its two bits. -/
theorem slice_cls (w : Word) : slice w 26 2 = (bitOf w 27).toNat * 2 + (bitOf w 26).toNat := by
  rw [← bitOf_eq_iff.mp rfl, ← bitOf_eq_iff.mp rfl]
  unfold slice
  omega

/-- Words that agree outside the ignored bits of one of them have the same ignored bits. -/
theorem ignoredBits_congr {w w' : Word} (h : w &&& ~~~ignoredBits w = w' &&& ~~~ignoredBits w) :
    ignoredBits w' = ignoredBits w := by
  have hbit : ∀ k < 32, (ignoredBits w).getLsbD k = false → bitOf w' k = bitOf w k := by
    intro k hk hkeep
    have hk' : (w' &&& ~~~ignoredBits w).getLsbD k = (w &&& ~~~ignoredBits w).getLsbD k := by rw [h]
    rw [BitVec.getLsbD_and, BitVec.getLsbD_and, BitVec.getLsbD_not, hkeep] at hk'
    simpa only [hk, getLsbD_eq_bitOf, decide_true, Bool.not_false, Bool.and_true] using hk'
  obtain ⟨h26, h27, h25, h4⟩ := getLsbD_ignoredBits w
  have hcls : slice w' 26 2 = slice w 26 2 := by
    rw [slice_cls, slice_cls, hbit 27 (by decide) h27, hbit 26 (by decide) h26]
  rw [ignoredBits_eq w', ignoredBits_eq w, hcls]
  by_cases hnoop : slice w 26 2 = 3
  · simp [hnoop]
  rw [hbit 25 (by decide) (h25 hnoop)]
  by_cases halu : slice w 26 2 = 0
  · cases hreg : bitOf w 25
    · simp
    · rw [hbit 4 (by decide) (h4 halu hreg)]
  · simp [halu]

/-- The low bits of a word are a field on top of the bits below it. -/
theorem slice_low (w : Word) (lo n : Nat) : slice w 0 (lo + n) = slice w lo n * 2 ^ lo + slice w 0 lo := by
  unfold slice
  rw [pow_add, Nat.mod_mul, pow_zero, Nat.div_one]
  ring

theorem toNat_eq_slice (w : Word) : w.toNat = slice w 0 32 := by
  rw [slice, pow_zero, Nat.div_one, Nat.mod_eq_of_lt w.isLt]

/-- An ALU word is the weighted sum of its fields (R143). -/
theorem AluHead.toNat_eq {w : Word} {op : AluOp} {cond : Cond} {sf : Bool} {rd rn : Reg} (h : AluHead w op cond sf rd rn) :
    w.toNat = cond.code * 2 ^ 28 + slice w 25 1 * 2 ^ 25 + op.code * 2 ^ 21 + sf.toNat * 2 ^ 20 + rd.val * 2 ^ 16 +
      rn.val * 2 ^ 12 + slice w 0 12 := by
  obtain ⟨hcond, hcls, hop, hs, hrd, hrn⟩ := h
  rw [toNat_eq_slice, slice_low w 28 4, slice_low w 26 2, slice_low w 25 1, slice_low w 21 4, slice_low w 20 1,
    slice_low w 16 4, slice_low w 12 4, hcond, hcls, hop, hs, hrd, hrn]
  ring

/-- A Memory word is the weighted sum of its fields and the ignored bit 20 (R144). -/
theorem MemHead.toNat_eq {w : Word} {l : Bool} {cond : Cond} {p u wb : Bool} {rd rn : Reg}
    (h : MemHead w l cond p u wb rd rn) :
    w.toNat = cond.code * 2 ^ 28 + 2 ^ 26 + slice w 25 1 * 2 ^ 25 + p.toNat * 2 ^ 24 + u.toNat * 2 ^ 23 + wb.toNat * 2 ^ 22 +
      l.toNat * 2 ^ 21 + slice w 20 1 * 2 ^ 20 + rd.val * 2 ^ 16 + rn.val * 2 ^ 12 + slice w 0 12 := by
  obtain ⟨hcond, hcls, hp, hu, hwb, hl, hrd, hrn⟩ := h
  rw [toNat_eq_slice, slice_low w 28 4, slice_low w 26 2, slice_low w 25 1, slice_low w 24 1, slice_low w 23 1,
    slice_low w 22 1, slice_low w 21 1, slice_low w 20 1, slice_low w 16 4, slice_low w 12 4, hcond, hcls, hp, hu, hwb, hl,
    hrd, hrn]
  ring

/-- A Branch word is the weighted sum of its fields (R145). -/
theorem BranchHead.toNat_eq {w : Word} {link : Bool} {cond : Cond} (h : BranchHead w link cond) :
    w.toNat = cond.code * 2 ^ 28 + 2 ^ 27 + slice w 25 1 * 2 ^ 25 + link.toNat * 2 ^ 24 + slice w 0 24 := by
  obtain ⟨hcond, hcls, hlink⟩ := h
  rw [toNat_eq_slice, slice_low w 28 4, slice_low w 26 2, slice_low w 25 1, slice_low w 24 1, hcond, hcls, hlink]
  ring

/-- Bits 6:0 of the register layouts (R143, R144). -/
theorem ShiftedReg.slice_eq {w : Word} {shtype : ShiftType} {rm : Reg} (h : ShiftedReg w shtype rm) :
    slice w 0 7 = shtype.code * 2 ^ 5 + slice w 4 1 * 2 ^ 4 + rm.val := by
  obtain ⟨htype, hrm⟩ := h
  rw [slice_low w 5 2, slice_low w 4 1, htype, hrm]
  ring

/-- The encoder's word of the instruction of a format is the word without its ignored bits (R148). -/
theorem Formatted.toNat_encode_add_ignored {w : Word} {i : Instr} (h : Formatted w i) (hw : w ≠ sentinelWord) :
    (encode i).toNat + (w &&& ignoredBits w).toNat = w.toNat := by
  have hzero : (w &&& 0).toNat = 0 := by simp
  cases h with
  | aluImm head hreg himm =>
    have hignored : ignoredBits w = fieldMask 8 4 := by simp [ignoredBits_eq, head.hcls, bitOf_false hreg, fieldMask]
    have hlow : slice w 0 12 = _ := slice_low w 8 4
    have hsum := head.toNat_eq
    rw [encode_aluImm, packAluImm, hignored, toNat_and_fieldMask, BitVec.toNat_ofNat]
    omega
  | aluShImm head hreg hbit4 hshamt hshifted =>
    have hignored : ignoredBits w = 0 := by simp [ignoredBits_eq, head.hcls, bitOf_true hreg, bitOf_false hbit4]
    have hlow : slice w 0 12 = _ := slice_low w 7 5
    have hsum := head.toNat_eq
    have hshift := hshifted.slice_eq
    rw [encode_aluShImm, packAluShImm, hignored, hzero, BitVec.toNat_ofNat]
    omega
  | aluShReg head hreg hbit4 hrs hshifted =>
    have hignored : ignoredBits w = fieldMask 7 1 := by
      simp [ignoredBits_eq, head.hcls, bitOf_true hreg, bitOf_true hbit4, fieldMask]
    have hlow : slice w 0 12 = _ := slice_low w 8 4
    have hbit7 : slice w 0 8 = _ := slice_low w 7 1
    have hsum := head.toNat_eq
    have hshift := hshifted.slice_eq
    rw [encode_aluShReg, packAluShReg, hignored, toNat_and_fieldMask, BitVec.toNat_ofNat]
    omega
  | memImm head hreg himm =>
    have hignored : ignoredBits w = fieldMask 20 1 := by simp [ignoredBits_eq, head.hcls, bitOf_false hreg, fieldMask]
    have hsum := head.toNat_eq
    rw [encode_memImm, packMemImm, hignored, toNat_and_fieldMask, BitVec.toNat_ofNat]
    omega
  | memReg head hreg hshamt hshifted =>
    have hignored : ignoredBits w = fieldMask 20 1 ||| fieldMask 4 1 := by
      simp [ignoredBits_eq, head.hcls, bitOf_true hreg, fieldMask]
    have hlow : slice w 0 12 = _ := slice_low w 7 5
    have hsum := head.toNat_eq
    have hshift := hshifted.slice_eq
    rw [encode_memReg, packMemReg, hignored, toNat_and_or_of_disjoint w (by decide), toNat_and_fieldMask,
      toNat_and_fieldMask, BitVec.toNat_ofNat]
    omega
  | branchImm head hreg himm =>
    have hignored : ignoredBits w = 0 := by simp [ignoredBits_eq, head.hcls, bitOf_false hreg]
    have hsum := head.toNat_eq
    rw [encode_branchImm, packBranchImm, hignored, hzero, BitVec.toNat_ofNat]
    omega
  | branchReg head hreg hrm =>
    have hignored : ignoredBits w = fieldMask 4 20 := by simp [ignoredBits_eq, head.hcls, bitOf_true hreg, fieldMask]
    have hlow : slice w 0 24 = _ := slice_low w 4 20
    have hsum := head.toNat_eq
    rw [encode_branchReg, packBranchReg, hignored, toNat_and_fieldMask, BitVec.toNat_ofNat]
    omega
  | nop hcls hcond =>
    have hignored : ignoredBits w = fieldMask 0 26 := by simp [ignoredBits_eq, hcls, fieldMask]
    have hhigh : slice w 0 32 = _ := slice_low w 28 4
    have hlow : slice w 0 28 = _ := slice_low w 26 2
    have hsum := toNat_eq_slice w
    rw [encode, packNoop, hignored, toNat_and_fieldMask, BitVec.toNat_ofNat]
    omega
  | endStream heq => exact absurd heq hw

/-- Re-encoding a word writes its ignored bits 0 and keeps the others (R148). -/
theorem encode_decode_of_ne {w : Word} (hw : w ≠ sentinelWord) : encode (decode w) = w &&& ~~~ignoredBits w := by
  have hencode := (formatted_decode w).toNat_encode_add_ignored hw
  have hsplit := toNat_and_not_add_and w (ignoredBits w)
  apply BitVec.eq_of_toNat_eq
  omega

/-- Words that differ only in ignored bits decode alike: the encoder gives both the same word (R148). -/
theorem decode_congr {w w' : Word} (hw : w ≠ sentinelWord) (hw' : w' ≠ sentinelWord)
    (h : (w ^^^ w') &&& ~~~ignoredBits w = 0) : decode w' = decode w := by
  have hkept : w &&& ~~~ignoredBits w = w' &&& ~~~ignoredBits w := by
    have hxor : (w &&& ~~~ignoredBits w) ^^^ (w' &&& ~~~ignoredBits w) = (w ^^^ w') &&& ~~~ignoredBits w := by
      ext k
      simp only [BitVec.getElem_xor, BitVec.getElem_and, Bool.and_xor_distrib_right]
    exact BitVec.xor_eq_zero_iff.mp (hxor.trans h)
  have hencode : encode (decode w') = encode (decode w) := by
    rw [encode_decode_of_ne hw, encode_decode_of_ne hw', ignoredBits_congr hkept, hkept]
  calc decode w'
    _ = decode (encode (decode w')) := (decodeInvertsEncode _).symm
    _ = decode w := by rw [hencode, decodeInvertsEncode]

/-- Settles O2: re-encoding a word clears its ignored bits, so that words that differ in them only have one encoding. -/
theorem ignoredBitsTakeNoPart : Obligations.IgnoredBitsTakeNoPart := by
  refine ⟨fun w w' hw hw' h => decode_congr hw hw' h, fun w hw => encode_decode_of_ne hw, fun op cond sf rd rn o2 => ⟨?_, ?_⟩⟩
  · intro hcompare
    rw [alu_fields_rdUsed, hcompare, Bool.not_true]
  · intro hmove
    refine ⟨alu_fields_rn .., alu_tags (alu_fields_cls ..), fun a a' b c => ?_⟩
    rcases hmove with rfl | rfl <;> rfl

/-! ### The decoded fields of a word -/

/-- The opcode field as a bit vector (R150). -/
theorem AluHead.opcode_eq {w : Word} {op : AluOp} {cond : Cond} {sf : Bool} {rd rn : Reg} (h : AluHead w op cond sf rd rn) :
    w.extractLsb' 21 4 = BitVec.ofNat 4 op.code := by
  rw [extractLsb'_eq_iff, h.hop, BitVec.toNat_ofNat, Nat.mod_eq_of_lt (opcode_lt op)]

/-- Settles O4: the word is in the format of what it decodes to, and each format names its fields' bits. -/
theorem decodedFieldsOfWord : Obligations.DecodedFieldsOfWord := by
  intro w
  have hw := formatted_decode w
  generalize decode w = i at hw
  simp only [toNat_extractLsb'_eq_slice, getLsbD_eq_bitOf]
  cases hw with
  | aluImm head hreg himm =>
    have hopcode := head.opcode_eq
    obtain ⟨hcond, hcls, hop, hs, hrd, hrn⟩ := head
    simp [aluImmFields, aluFields, Cls.ofCode, hcond, hcls, hop, hopcode, bitOf_eq_iff.mpr hs, hrd, hrn, bitOf_false hreg,
      extractLsb'_eq_iff.mpr himm]
  | aluShImm head hreg hbit4 hshamt hshifted =>
    have hopcode := head.opcode_eq
    obtain ⟨hcond, hcls, hop, hs, hrd, hrn⟩ := head
    obtain ⟨htype, hrm⟩ := hshifted
    simp [aluShImmFields, aluFields, Cls.ofCode, hcond, hcls, hop, hopcode, bitOf_eq_iff.mpr hs, hrd, hrn, bitOf_true hreg,
      bitOf_false hbit4, extractLsb'_eq_iff.mpr hshamt, htype, hrm]
  | aluShReg head hreg hbit4 hrs hshifted =>
    have hopcode := head.opcode_eq
    obtain ⟨hcond, hcls, hop, hs, hrd, hrn⟩ := head
    obtain ⟨htype, hrm⟩ := hshifted
    simp [aluShRegFields, aluFields, Cls.ofCode, hcond, hcls, hop, hopcode, bitOf_eq_iff.mpr hs, hrd, hrn, bitOf_true hreg,
      bitOf_true hbit4, hrs, htype, hrm]
  | memImm head hreg himm =>
    obtain ⟨hcond, hcls, hp, hu, hwb, hl, hrd, hrn⟩ := head
    simp [memImmFields, memFields, Cls.ofCode, hcond, hcls, bitOf_eq_iff.mpr hp, bitOf_eq_iff.mpr hu, bitOf_eq_iff.mpr hwb,
      bitOf_eq_iff.mpr hl, hrd, hrn, bitOf_false hreg, extractLsb'_eq_iff.mpr himm]
  | memReg head hreg hshamt hshifted =>
    obtain ⟨hcond, hcls, hp, hu, hwb, hl, hrd, hrn⟩ := head
    obtain ⟨htype, hrm⟩ := hshifted
    simp [memRegFields, memFields, Cls.ofCode, hcond, hcls, bitOf_eq_iff.mpr hp, bitOf_eq_iff.mpr hu, bitOf_eq_iff.mpr hwb,
      bitOf_eq_iff.mpr hl, hrd, hrn, bitOf_true hreg, extractLsb'_eq_iff.mpr hshamt, htype, hrm]
  | branchImm head hreg himm =>
    obtain ⟨hcond, hcls, hlink⟩ := head
    simp [branchImmFields, regPC, Cls.ofCode, hcond, hcls, bitOf_eq_iff.mpr hlink, bitOf_false hreg,
      extractLsb'_eq_iff.mpr himm]
  | branchReg head hreg hrm =>
    obtain ⟨hcond, hcls, hlink⟩ := head
    simp [branchRegFields, regPC, Cls.ofCode, hcond, hcls, bitOf_eq_iff.mpr hlink, bitOf_true hreg, hrm]
  | nop hcls hcond => simp [Instr.fields, noopFields, Cls.ofCode, hcls, hcond]
  | endStream heq =>
    have hcond : slice w 28 4 = Cond.nv.code := by
      rw [heq]
      decide
    have hcls : slice w 26 2 = 3 := by rw [heq, slice_cls_sentinelWord]
    simp [Instr.fields, noopFields, Cls.ofCode, hcls, hcond]

/-! ### Bytes and register uses -/

/-- Settles O6: the four bytes of a word put together again are the word. -/
theorem bytesDecodeAsTheirWord : Obligations.BytesDecodeAsTheirWord := by
  refine ⟨fun w rest => ?_, fun bs hbs => ?_, fun w => ?_⟩
  · simp only [decodeBytes, wordOfBytes_byteOfWord]
  · match bs, hbs with
    | [], _ | [_], _ | [_, _], _ | [_, _, _], _ => rfl
    | _ :: _ :: _ :: _ :: _, hbs =>
      simp only [List.length_cons] at hbs
      omega
  · have hw : BitVec.ofNat 32 (w.toNat % 2 ^ 32) = w := by rw [Nat.mod_eq_of_lt w.isLt, BitVec.ofNat_toNat, BitVec.setWidth_eq]
    simp only [decodeTableWord, hw, decodeBytes, wordOfBytes_byteOfWord, le_refl, if_true]

/-- Settles O7: the set is put together from the four tags and the link register; the condition is not a part of it. -/
theorem registerUseSet : Obligations.RegisterUseSet := by
  refine ⟨fun i x => ?_, rfl, fun r b => rfl⟩
  simp only [Instr.uses, Fields.uses, List.mem_append, List.mem_ite_nil_right, List.mem_singleton, Bool.and_eq_true, beq_iff_eq,
    regLR, or_assoc, and_assoc]

end Sys2Proof

/-!
PROOF. The statements about conditions, the shifter and operands (40_condition_shifter_operands): the table of the condition
codes, what an instruction does whose condition fails, and the barrel shifter in exact arithmetic. The shifter rests on one
lemma for each of the three shifts of bit vectors, at every width: a left shift is a product, a logical right shift a quotient,
an arithmetic right shift a quotient rounded toward minus infinity.
-/

namespace Sys2Proof.Machine

/-! ### The condition evaluator -/

theorem condPass_ge (f : Flags) : condPass .ge f = decide (f.n = f.v) := Bool.beq_eq_decide_eq f.n f.v

theorem condPass_lt (f : Flags) : condPass .lt f = decide (f.n ≠ f.v) := by
  rw [decide_not, ← condPass_ge]
  rfl

theorem condPass_gt (f : Flags) : condPass .gt f = (!f.z && decide (f.n = f.v)) := congrArg (!f.z && ·) (condPass_ge f)

theorem condPass_le (f : Flags) : condPass .le f = (f.z || decide (f.n ≠ f.v)) := congrArg (f.z || ·) (condPass_lt f)

/-- Settles O8: the rows that compare N with V are `condPass_ge` to `condPass_le`; the others are the evaluator's own lines. -/
theorem conditionTable : Obligations.ConditionTable := fun f =>
  ⟨rfl, rfl, rfl, rfl, rfl, rfl, rfl, rfl, rfl, rfl, condPass_ge f, condPass_lt f, condPass_gt f, condPass_le f, rfl, rfl⟩

/-- Settles O28: the stages E, M and W with a failed condition, each by its own law of `exec`. -/
theorem failedConditionDoesNothing : Obligations.FailedConditionDoesNothing := fun _ _ _ =>
  ⟨exec_execute_failed, exec_memory_failed, exec_writeback_failed, rfl⟩

/-! ### Shifts of bit vectors as arithmetic -/

/-- A left shift multiplies; what leaves the width is lost. -/
theorem shiftLeft_eq_ofNat_mul {w : Nat} (x : BitVec w) (n : Nat) : x <<< n = BitVec.ofNat w (x.toNat * 2 ^ n) :=
  congrArg (BitVec.ofNat w) (Nat.shiftLeft_eq x.toNat n)

/-- A logical right shift divides the unsigned number. -/
theorem ushiftRight_eq_ofNat_div {w : Nat} (x : BitVec w) (n : Nat) : x >>> n = BitVec.ofNat w (x.toNat / 2 ^ n) := by
  have hlt : x.toNat / 2 ^ n < 2 ^ w := (Nat.div_le_self ..).trans_lt x.isLt
  apply BitVec.eq_of_toNat_eq
  rw [BitVec.toNat_ushiftRight, BitVec.toNat_ofNat, Nat.mod_eq_of_lt hlt, Nat.shiftRight_eq_div_pow]

/-- An arithmetic right shift divides the signed number, rounding toward minus infinity. -/
theorem sshiftRight_eq_ofInt_fdiv {w : Nat} (x : BitVec w) (n : Nat) :
    x.sshiftRight n = BitVec.ofInt w (x.toInt.fdiv (2 ^ n)) := by
  rw [Int.fdiv_eq_ediv_of_nonneg _ (by positivity), BitVec.sshiftRight, Int.shiftRight_eq_div_pow, Nat.cast_pow,
    Nat.cast_ofNat]

/-! ### The barrel shifter (R184) -/

theorem shift_lsl (v : Word) (n : Nat) :
    shift v .lsl n = if 32 ≤ n then 0 else BitVec.ofNat 32 (v.toNat * 2 ^ n) := by
  rw [shift, shiftLeft_eq_ofNat_mul]

theorem shift_lsr (v : Word) (n : Nat) :
    shift v .lsr n = if 32 ≤ n then 0 else BitVec.ofNat 32 (v.toNat / 2 ^ n) := by
  rw [shift, ushiftRight_eq_ofNat_div]

theorem shift_asr (v : Word) (n : Nat) :
    shift v .asr n =
      if 32 ≤ n then (if v.getLsbD 31 then 0xFFFFFFFF else 0) else BitVec.ofInt 32 (v.toInt.fdiv (2 ^ n)) := by
  rw [shift, sshiftRight_eq_ofInt_fdiv, BitVec.msb_eq_getLsbD_last]

/-- A rotation puts together the quotient, at the low end, and the product, at the high end. -/
theorem shift_ror (v : Word) (n : Nat) :
    shift v .ror n = if n % 32 = 0 then v
      else BitVec.ofNat 32 ((v.toNat / 2 ^ (n % 32)) ||| (v.toNat * 2 ^ (32 - n % 32))) := by
  rw [shift, ushiftRight_eq_ofNat_div, shiftLeft_eq_ofNat_mul, BitVec.ofNat_or]

theorem shift_zero (v : Word) (t : ShiftType) : shift v t 0 = v := by
  cases t with
  | lsl => exact BitVec.shiftLeft_zero v
  | lsr => exact BitVec.ushiftRight_zero v
  | asr => exact BitVec.sshiftRight_zero
  | ror => rfl

/-- Settles O10: one law for each shift type, and the amount 0 for all four. -/
theorem shiftArithmetic : Obligations.ShiftArithmetic := fun v n =>
  ⟨shift_lsl v n, shift_lsr v n, shift_asr v n, shift_ror v n, shift_zero v⟩

end Sys2Proof.Machine

/-!
PROOF. The statements about the ALU (41_alu): the adder, the flags of a compare, and the 48 rows in the execute and writeback
stages. Truncation is treated once, for any number (`toNat_ofNat_ne_iff`, `toInt_ofInt_ne_iff`); the adder's flags in exact
arithmetic are `addWithCarry_flags`, a subtraction, which adds the complement, is `addWithCarry_not_flags`, and every operation
of the arithmetic group is one of the two. A stage of an ALU row is one equation each, `exec_alu_execute` and
`exec_alu_writeback`.
-/

namespace Sys2Proof.Machine

/-! ### Truncation to 32 bits -/

/-- Truncation changes an unsigned number exactly if it needs a 33rd bit. -/
theorem toNat_ofNat_ne_iff (u : Nat) : (BitVec.ofNat 32 u).toNat ≠ u ↔ 2 ^ 32 ≤ u := by
  rw [BitVec.toNat_ofNat, ne_eq, Nat.mod_eq_iff_lt (by decide), not_lt]

/-- Truncation changes a signed number exactly if it lies outside 32 bits. -/
theorem toInt_ofInt_ne_iff (i : Int) : (BitVec.ofInt 32 i).toInt ≠ i ↔ i < -2 ^ 31 ∨ 2 ^ 31 ≤ i := by
  constructor
  · contrapose!
    rintro ⟨hlow, hhigh⟩
    rw [BitVec.toInt_ofInt]
    exact Int.bmod_eq_of_le hlow hhigh
  · intro hout heq
    have hlow : -2 ^ 31 ≤ (BitVec.ofInt 32 i).toInt := BitVec.le_toInt _
    have hhigh : (BitVec.ofInt 32 i).toInt < 2 ^ 31 := BitVec.toInt_lt
    omega

/-- N differs from V exactly if the signed value is negative, provided that it fits 33 bits. -/
theorem msb_ofInt_ne_iff {i : Int} (hlow : -2 ^ 32 ≤ i) (hhigh : i < 2 ^ 32) :
    (BitVec.ofInt 32 i).msb ≠ decide (i < -2 ^ 31 ∨ 2 ^ 31 ≤ i) ↔ i < 0 := by
  have hmod := Int.bmod_def i (2 ^ 32)
  rw [BitVec.msb_eq_toInt, BitVec.toInt_ofInt, ne_eq, decide_eq_decide]
  split at hmod <;> omega

/-! ### The adder (R200) -/

/-- The result is the sum of the signed numbers too. -/
theorem addWithCarry_value_eq_ofInt (p q : Word) (cin : Bool) :
    (addWithCarry p q cin).value = BitVec.ofInt 32 (p.toInt + q.toInt + cin.toNat) := by
  simp only [addWithCarry, BitVec.ofInt_add, BitVec.ofInt_toInt, BitVec.ofInt_natCast, BitVec.ofNat_add, BitVec.ofNat_toNat,
    BitVec.setWidth_eq]

/-- The carry: the unsigned sum needs a 33rd bit. -/
theorem addWithCarry_carry_iff (p q : Word) (cin : Bool) :
    (addWithCarry p q cin).value.toNat ≠ p.toNat + q.toNat + cin.toNat ↔ 2 ^ 32 ≤ p.toNat + q.toNat + cin.toNat :=
  toNat_ofNat_ne_iff _

/-- The overflow: the signed sum lies outside 32 bits. -/
theorem addWithCarry_overflow_iff (p q : Word) (cin : Bool) :
    (addWithCarry p q cin).value.toInt ≠ p.toInt + q.toInt + cin.toNat ↔
      p.toInt + q.toInt + cin.toNat < -2 ^ 31 ∨ 2 ^ 31 ≤ p.toInt + q.toInt + cin.toNat := by
  rw [addWithCarry_value_eq_ofInt]
  exact toInt_ofInt_ne_iff _

/-- The flags are the adder's two mismatches and the sign and zero of its result (R201). -/
theorem addWithCarry_flags_eq (p q : Word) (cin : Bool) (f : Flags) :
    (addWithCarry p q cin).flags f =
      { n := (addWithCarry p q cin).value.msb
        z := decide ((addWithCarry p q cin).value = 0)
        c := decide ((addWithCarry p q cin).value.toNat ≠ p.toNat + q.toNat + cin.toNat)
        v := decide ((addWithCarry p q cin).value.toInt ≠ p.toInt + q.toInt + cin.toNat) } := rfl

/-- Settles O11: the two mismatches are `addWithCarry_carry_iff` and `addWithCarry_overflow_iff`. -/
theorem adderExact : Obligations.AdderExact := fun p q cin =>
  ⟨BitVec.toNat_ofNat .., rfl, addWithCarry_carry_iff p q cin, addWithCarry_overflow_iff p q cin, fun f => by
    rw [addWithCarry_flags_eq, BitVec.msb_eq_getLsbD_last]⟩

/-! ### Flags in exact arithmetic (R201) -/

/-- The flags of an operation with the exact values `u`, unsigned, and `i`, signed, and the given carry. -/
def Flags.ofExact (u i : Int) (carry : Bool) : Flags :=
  { n := (BitVec.ofInt 32 u).msb
    z := decide (BitVec.ofInt 32 u = 0)
    c := carry
    v := decide (i < -2 ^ 31 ∨ 2 ^ 31 ≤ i) }

theorem exactFlags_eq_ofExact (op : AluOp) (a b : Word) (c : Bool) :
    op.exactFlags a b c = Flags.ofExact (op.exact a.toNat b.toNat c.toNat) (op.exact a.toInt b.toInt c.toNat)
      (if op.subtracts then decide (0 ≤ op.exact a.toNat b.toNat c.toNat)
        else decide (2 ^ 32 ≤ op.exact a.toNat b.toNat c.toNat)) := rfl

theorem addWithCarry_value (p q : Word) (cin : Bool) :
    (addWithCarry p q cin).value = BitVec.ofInt 32 (p.toNat + q.toNat + cin.toNat) :=
  (BitVec.ofInt_natCast 32 _).symm

/-- An addition: the carry is the carry out of 32 bits. -/
theorem addWithCarry_flags (p q : Word) (cin : Bool) (f : Flags) :
    (addWithCarry p q cin).flags f = Flags.ofExact (p.toNat + q.toNat + cin.toNat) (p.toInt + q.toInt + cin.toNat)
      (decide ((2 : Int) ^ 32 ≤ p.toNat + q.toNat + cin.toNat)) := by
  have hcarry : 2 ^ 32 ≤ p.toNat + q.toNat + cin.toNat ↔ (2 : Int) ^ 32 ≤ p.toNat + q.toNat + cin.toNat := by omega
  rw [addWithCarry_flags_eq, decide_eq_decide.mpr ((addWithCarry_carry_iff p q cin).trans hcarry),
    decide_eq_decide.mpr (addWithCarry_overflow_iff p q cin), addWithCarry_value, Flags.ofExact]

/-- The complement of `b` is `2 ^ 32 - 1 - b` as an unsigned number. -/
theorem toNat_not_word (b : Word) : ((~~~b).toNat : Int) = 2 ^ 32 - 1 - b.toNat := by
  have := b.isLt
  rw [BitVec.toNat_not]
  omega

/-- The complement of `b` is `-1 - b` as a signed number. -/
theorem toInt_not_word (b : Word) : (~~~b).toInt = -1 - b.toInt := by
  rw [BitVec.toInt_eq_toNat_cond, BitVec.toInt_eq_toNat_cond b, toNat_not_word]
  have := b.isLt
  have := toNat_not_word b
  split <;> split <;> omega

theorem addWithCarry_not_value (a b : Word) (cin : Bool) :
    (addWithCarry a (~~~b) cin).value = BitVec.ofInt 32 (a.toNat - b.toNat - (1 - cin.toNat)) := by
  rw [addWithCarry_value, toNat_not_word]
  apply BitVec.eq_of_toNat_eq
  rw [BitVec.toNat_ofInt, BitVec.toNat_ofInt]
  omega

/-- Adding the complement subtracts: the carry is set exactly if there is no borrow (D14). -/
theorem addWithCarry_not_flags (a b : Word) (cin : Bool) (f : Flags) :
    (addWithCarry a (~~~b) cin).flags f =
      Flags.ofExact (a.toNat - b.toNat - (1 - cin.toNat)) (a.toInt - b.toInt - (1 - cin.toNat))
        (decide ((0 : Int) ≤ a.toNat - b.toNat - (1 - cin.toNat))) := by
  have hcarry : (2 : Int) ^ 32 ≤ a.toNat + (~~~b).toNat + cin.toNat ↔ (0 : Int) ≤ a.toNat - b.toNat - (1 - cin.toNat) := by
    rw [toNat_not_word]
    omega
  have hsigned : a.toInt + (~~~b).toInt + cin.toNat = a.toInt - b.toInt - (1 - cin.toNat) := by
    rw [toInt_not_word]
    ring
  have hvalue := (addWithCarry_value a (~~~b) cin).symm.trans (addWithCarry_not_value a b cin)
  rw [addWithCarry_flags, hsigned, decide_eq_decide.mpr hcarry, Flags.ofExact, hvalue, Flags.ofExact]

/-! ### The operations without a carry in (R204 to R206, R212, R213) -/

theorem aluAdd_value (a b : Word) (c : Bool) : (aluAdd a b c).value = BitVec.ofInt 32 (a.toNat + b.toNat) := by
  simpa [aluAdd] using addWithCarry_value a b false

theorem aluAdd_flags (a b : Word) (c : Bool) (f : Flags) :
    (aluAdd a b c).flags f =
      Flags.ofExact (a.toNat + b.toNat) (a.toInt + b.toInt) (decide ((2 : Int) ^ 32 ≤ a.toNat + b.toNat)) := by
  simpa [aluAdd] using addWithCarry_flags a b false f

theorem aluSub_value (a b : Word) (c : Bool) : (aluSub a b c).value = BitVec.ofInt 32 (a.toNat - b.toNat) := by
  simpa [aluSub] using addWithCarry_not_value a b true

theorem aluSub_flags (a b : Word) (c : Bool) (f : Flags) :
    (aluSub a b c).flags f =
      Flags.ofExact (a.toNat - b.toNat) (a.toInt - b.toInt) (decide ((0 : Int) ≤ a.toNat - b.toNat)) := by
  simpa [aluSub] using addWithCarry_not_flags a b true f

/-! ### The conditions after a compare (R212) -/

/-- A compare writes the flags of the exact difference, as SUB does. -/
theorem aluCmp_flags (a b : Word) (c : Bool) (f : Flags) :
    (aluCmp a b c).flags f =
      Flags.ofExact (a.toNat - b.toNat) (a.toInt - b.toInt) (decide ((0 : Int) ≤ a.toNat - b.toNat)) :=
  aluSub_flags a b c f

theorem ofInt_sub_toNat (a b : Word) : BitVec.ofInt 32 (a.toNat - b.toNat) = a - b := by bv_omega

theorem ofInt_sub_toInt (a b : Word) : BitVec.ofInt 32 (a.toInt - b.toInt) = a - b := by
  rw [Int.sub_eq_add_neg, BitVec.ofInt_add, BitVec.ofInt_neg, BitVec.ofInt_toInt, BitVec.ofInt_toInt, BitVec.sub_eq_add_neg]

theorem aluCmp_z (a b : Word) (c : Bool) (f : Flags) : ((aluCmp a b c).flags f).z = decide (a = b) := by
  rw [aluCmp_flags, Flags.ofExact, ofInt_sub_toNat]
  exact decide_eq_decide.mpr (by bv_omega)

theorem aluCmp_c (a b : Word) (c : Bool) (f : Flags) : ((aluCmp a b c).flags f).c = decide (b.toNat ≤ a.toNat) := by
  rw [aluCmp_flags]
  exact decide_eq_decide.mpr (by omega)

theorem aluCmp_n_ne_v (a b : Word) (c : Bool) (f : Flags) :
    ((aluCmp a b c).flags f).n ≠ ((aluCmp a b c).flags f).v ↔ a.toInt < b.toInt := by
  have ha : -2 ^ 31 ≤ a.toInt ∧ a.toInt < 2 ^ 31 := ⟨BitVec.le_toInt a, BitVec.toInt_lt⟩
  have hb : -2 ^ 31 ≤ b.toInt ∧ b.toInt < 2 ^ 31 := ⟨BitVec.le_toInt b, BitVec.toInt_lt⟩
  rw [aluCmp_flags, Flags.ofExact, ofInt_sub_toNat, ← ofInt_sub_toInt, msb_ofInt_ne_iff (by omega) (by omega)]
  omega

/-- Settles O9: Z is equality, C the unsigned and N = V the signed comparison; the other conditions combine them. -/
theorem compareConditions : Obligations.CompareConditions := by
  intro a b c before
  have hz := aluCmp_z a b c before
  have hc := aluCmp_c a b c before
  have hlt := aluCmp_n_ne_v a b c before
  have hge := not_ne_iff.symm.trans (not_congr hlt)
  have hnat : a = b ↔ a.toNat = b.toNat := BitVec.toNat_inj.symm
  have hint : a = b ↔ a.toInt = b.toInt := BitVec.toInt_inj.symm
  refine ⟨?eq, ?ne, ?cs, ?cc, ?hi, ?ls, ?ge, ?lt, ?gt, ?le⟩
  case eq | ne => simp [condPass, hz]
  case cs | cc => simp [condPass, hc]
  case hi | ls =>
    simp only [condPass, hz, hc, hnat, Bool.and_eq_true, Bool.or_eq_true, Bool.not_eq_true', decide_eq_true_eq,
      decide_eq_false_iff_not]
    omega
  case ge => simp [condPass_ge, hge]
  case lt => simp only [condPass_lt, decide_eq_true_eq, hlt]
  case gt | le =>
    simp only [condPass_gt, condPass_le, hz, hint, hge, hlt, Bool.and_eq_true, Bool.or_eq_true, Bool.not_eq_true',
      decide_eq_true_eq, decide_eq_false_iff_not]
    omega

/-! ### The operations of the two groups (R201) -/

/-- The result of an arithmetic operation is its exact value modulo `2 ^ 32` (R204 to R209, R212, R213). -/
theorem aluOperation_value_exact {op : AluOp} (h : op.isLogical = false) (a b : Word) (c : Bool) :
    (aluOperation op a b c).value = BitVec.ofInt 32 (op.exact a.toNat b.toNat c.toNat) := by
  cases op with
  | and | eor | tst | teq | orr | mov | bic | mvn => cases h
  | sub | cmp => exact aluSub_value a b c
  | rsb => exact aluSub_value b a c
  | add | cmn => exact aluAdd_value a b c
  | adc => exact addWithCarry_value a b c
  | sbc => exact addWithCarry_not_value a b c
  | rsc => exact addWithCarry_not_value b a c

/-- The flags of an arithmetic operation, whatever they were before. -/
theorem aluOperation_flags_exact {op : AluOp} (h : op.isLogical = false) (a b : Word) (c : Bool) (f : Flags) :
    (aluOperation op a b c).flags f = op.exactFlags a b c := by
  rw [exactFlags_eq_ofExact]
  cases op with
  | and | eor | tst | teq | orr | mov | bic | mvn => cases h
  | sub | cmp => exact aluSub_flags a b c f
  | rsb => exact aluSub_flags b a c f
  | add | cmn => exact aluAdd_flags a b c f
  | adc => exact addWithCarry_flags a b c f
  | sbc => exact addWithCarry_not_flags a b c f
  | rsc => exact addWithCarry_not_flags b a c f

/-- An operation of the logical and move group gives its bitwise result, with no carry and no overflow. -/
theorem aluOperation_logical {op : AluOp} (h : op.isLogical = true) (a b : Word) (c : Bool) :
    aluOperation op a b c = logical (op.logicalResult a b) := by
  cases op with
  | sub | rsb | add | adc | sbc | rsc | cmp | cmn => cases h
  | and | eor | tst | teq | orr | mov | bic | mvn => rfl

theorem logical_value (v : Word) : (logical v).value = v := rfl

theorem logical_flags (v : Word) (f : Flags) :
    (logical v).flags f = { n := v.getLsbD 31, z := decide (v = 0), c := f.c, v := f.v } := by
  rw [← BitVec.msb_eq_getLsbD_last v]
  rfl

/-! ### The stages of an ALU row (R201) -/

theorem Operand2.value_pass (o2 : Operand2) (r : Record) (p : Bool) : o2.value { r with pass := p } = o2.value r := by
  cases o2 <;> rfl

/-- The execute stage of an ALU row whose condition passes: the result into the record, the flags if `S` = 1. -/
theorem exec_alu_execute (op : AluOp) {cond : Cond} (sf : Bool) (rd rn : Reg) (o2 : Operand2) {s : State} {r : Record}
    (hp : s.phase = .execute) (hs : s.slotE = some r) (hc : condPass cond s.flags = true) :
    exec (Instr.alu op cond sf rd rn o2) s = .next { s with
      slotE := some { r with pass := true, result := (aluOperation op r.vRn (o2.value r) s.flags.c).value }
      flags := if sf then (aluOperation op r.vRn (o2.value r) s.flags.c).flags s.flags else s.flags } := by
  rw [exec_execute hp hs (by rwa [alu_fields_cond])]
  simp only [executeLines, alu_fields_cls, aluExecute, alu_fields_op, alu_operand2, alu_fields_s, Operand2.value_pass]

/-- The writeback stage of an ALU row whose condition passed: the destination, unless it is a compare. -/
theorem exec_alu_writeback (op : AluOp) (cond : Cond) (sf : Bool) (rd rn : Reg) (o2 : Operand2) {s : State} {r : Record}
    (hp : s.phase = .writeback) (hs : s.slotW = some r) (hr : r.pass = true) :
    exec (Instr.alu op cond sf rd rn o2) s = .next (if op.isCompare then s else s.setReg rd r.result) := by
  rw [exec_writeback hp hs hr]
  simp only [writebackLines, alu_fields_cls, aluWriteback, alu_fields_rdUsed, alu_fields_rd]
  cases op.isCompare <;> rfl

/-- The registers an ALU row uses: its destination unless it is a compare, then its sources (R155). -/
theorem alu_uses (op : AluOp) (cond : Cond) (sf : Bool) (rd rn : Reg) (o2 : Operand2) :
    (Instr.alu op cond sf rd rn o2).uses = (if op.isCompare then [] else [rd]) ++
      match o2 with
      | .imm _ => [rn]
      | .shImm _ _ rm => [rn, rm]
      | .shReg rs _ rm => [rn, rm, rs] := by
  rw [Instr.uses, Fields.uses, alu_fields_rdUsed, alu_fields_rd, alu_fields_rn]
  rw [alu_fields]
  cases o2 <;> cases op.isCompare <;> rfl

/-- Settles O12: the stage's equation, with the result and the flags of the arithmetic group. -/
theorem arithmeticExecutes : Obligations.ArithmeticExecutes := by
  intro op cond sf rd rn o2 s r hop hp hs hc
  rw [exec_alu_execute op sf rd rn o2 hp hs hc, aluOperation_value_exact hop, aluOperation_flags_exact hop]

/-- Settles O13: the stage's equation, with the result and the flags of the logical and move group. -/
theorem logicalExecutes : Obligations.LogicalExecutes := by
  intro op cond sf rd rn o2 s r hop hp hs hc
  rw [exec_alu_execute op sf rd rn o2 hp hs hc, aluOperation_logical hop, logical_value, logical_flags]

/-- Settles O14: the stage's equation; `State.setReg` is the update of the register file. -/
theorem aluWritesBack : Obligations.AluWritesBack := fun op cond sf rd rn o2 _ _ => exec_alu_writeback op cond sf rd rn o2

/-- Settles O15: with `S` = 0 the execute stage keeps the flags; with a compare the writeback stage writes nothing, whether the
slot is EMPTY, its condition failed or it passed. -/
theorem compareWithoutStatusIsInert : Obligations.CompareWithoutStatusIsInert := by
  intro op cond rd rn o2 hop
  refine ⟨fun s r hp hs hc => ⟨_, exec_alu_execute op false rd rn o2 hp hs hc⟩, fun s hp => ?_, ?_⟩
  · cases hs : s.slotW with
    | none => exact exec_empty (by rw [hp]; exact hs)
    | some r =>
      cases hr : r.pass with
      | false => exact exec_writeback_failed hp hs hr
      | true => rw [exec_alu_writeback op cond false rd rn o2 hp hs hr, if_pos hop]
  · cases o2 <;> simp only [alu_uses, hop, if_true, List.nil_append]

/-! ### Words the spec writes out -/

/-- Settles O5: each word evaluated by the decoder. -/
theorem specWordsDecode : Obligations.SpecWordsDecode := by
  unfold Obligations.SpecWordsDecode
  decide

end Sys2Proof.Machine

/-!
PROOF. The statements about loads and stores (42_load_store), stage by stage. The execute and the writeback stage of the Memory
rows are one equation each, over the decoded fields (`exec_memory_execute`; `exec_load_writeback` and `exec_store_writeback`),
read off for the four rows. In the memory stage an access past the caches, or over none, is a poll of the terminal level alone
(`State.poll_terminal`), which waits below its latency and serves the word from then on (R120).
-/

namespace Sys2Proof.Machine

/-! ### The execute stage (R230) -/

/-- `U` decides whether the offset is added or subtracted (R188). -/
theorem add_effectiveOffset (f : Fields) (r : Record) (base : Word) :
    base + effectiveOffset f r = if f.u then base + rawOffset f r else base - rawOffset f r := by
  unfold effectiveOffset
  split
  · rfl
  · bv_omega

/-- The execute stage of a load or a store whose condition passes: the write-back value and the address, into the record. -/
theorem exec_memory_execute {i : Instr} {s : State} {r : Record} (hcls : i.fields.cls = .memory) (hp : s.phase = .execute)
    (hs : s.slotE = some r) (hc : condPass i.fields.cond s.flags = true) :
    let moved := if i.fields.u then r.vRn + rawOffset i.fields r else r.vRn - rawOffset i.fields r
    exec i s = .next { s with
      slotE := some { r with pass := true, wbval := moved, addr := if i.fields.p then moved else r.vRn } } := by
  have hoffset : rawOffset i.fields { r with pass := true } = rawOffset i.fields r := rfl
  rw [exec_execute hp hs hc]
  simp only [executeLines, hcls, memExecute, add_effectiveOffset, hoffset]

/-- Settles O16: one equation for the stage; the fields of each row say which offset it adds or subtracts. -/
theorem memoryAddressing : Obligations.MemoryAddressing := by
  intro cond p u wb rd rn imm12 shamt t rm s r hp hs hc
  exact ⟨exec_memory_execute rfl hp hs hc, exec_memory_execute rfl hp hs hc, exec_memory_execute rfl hp hs hc,
    exec_memory_execute rfl hp hs hc⟩

/-! ### The memory stage, at the terminal level (R71, R120) -/

/-- With the caches bypassed, or none, an access goes through no cache level. -/
theorem State.path_eq_nil {s : State} {u : Bool} (h : u = false ∨ s.chain.caches = []) : s.path u = [] := by
  unfold State.path
  rcases h with rfl | h
  · rfl
  · rw [h, ite_self]

/-- A poll that goes through no cache level is a poll of the terminal level, and leaves the caches as they are. -/
theorem State.poll_terminal {s : State} {u : Bool} (h : s.path u = []) (r : Request) :
    s.poll u r = ((terminalAccess s.chain.backing.latency r s.mem.backing).1,
      { s with mem := { s.mem with backing := (terminalAccess s.chain.backing.latency r s.mem.backing).2 } }) := by
  unfold State.poll
  rw [h]
  rfl

/-- A terminal level whose latency has passed answers a read with the words of the store (R116). -/
theorem terminalAccess_read {latency addr n : Nat} {data : List Word} {b : Backing} (h : latency ≤ timerAt b.timer addr) :
    terminalAccess latency { kind := .read, addr := addr, n := n, data := data } b =
      (.done (readWords b.cells addr n), { b with timer := setTimer b.timer addr 0 }) :=
  if_neg (Nat.not_lt.mpr h)

/-- A terminal level whose latency has passed writes the words of a write to the store (R116). -/
theorem terminalAccess_write {latency addr n : Nat} {data : List Word} {b : Backing} (h : latency ≤ timerAt b.timer addr) :
    terminalAccess latency { kind := .write, addr := addr, n := n, data := data } b =
      (.done [], { timer := setTimer b.timer addr 0, cells := writeWords b.cells addr data }) :=
  if_neg (Nat.not_lt.mpr h)

section
variable {s : State} {u : Bool} {a v : Word}

/-- A read before the latency has passed: one more count on the timer of its word (R64, R120). -/
theorem State.memRead_terminal_waits (hpath : s.path u = []) (ha : aligned a = true)
    (ht : timerAt s.mem.backing.timer (flatAddr a) < s.chain.backing.latency) :
    s.memRead u a = (.waiting, { s with mem := { s.mem with backing := { s.mem.backing with
      timer := setTimer s.mem.backing.timer (flatAddr a) (timerAt s.mem.backing.timer (flatAddr a) + 1) } } }) := by
  rw [State.memRead_aligned ha, State.poll_terminal hpath, terminalAccess_waits ht]

/-- A read once the latency has passed: the word of the store, and the timer back at 0 (R64, R116). -/
theorem State.memRead_terminal_done (hpath : s.path u = []) (ha : aligned a = true)
    (ht : s.chain.backing.latency ≤ timerAt s.mem.backing.timer (flatAddr a)) :
    s.memRead u a = (.done (readWord s.mem.backing.cells (flatAddr a)), { s with mem := { s.mem with
      backing := { s.mem.backing with timer := setTimer s.mem.backing.timer (flatAddr a) 0 } } }) := by
  rw [State.memRead_aligned ha, State.poll_terminal hpath, terminalAccess_read ht]
  rfl

/-- A write before the latency has passed: one more count on the timer of its word (R65, R120). -/
theorem State.memWrite_terminal_waits (hpath : s.path u = []) (ha : aligned a = true)
    (ht : timerAt s.mem.backing.timer (flatAddr a) < s.chain.backing.latency) :
    s.memWrite u a v = (.waiting, { s with mem := { s.mem with backing := { s.mem.backing with
      timer := setTimer s.mem.backing.timer (flatAddr a) (timerAt s.mem.backing.timer (flatAddr a) + 1) } } }) := by
  rw [State.memWrite_aligned ha, State.poll_terminal hpath, terminalAccess_waits ht]

/-- A write once the latency has passed: the word is in the store, and the timer back at 0 (R65, R116). -/
theorem State.memWrite_terminal_done (hpath : s.path u = []) (ha : aligned a = true)
    (ht : s.chain.backing.latency ≤ timerAt s.mem.backing.timer (flatAddr a)) :
    s.memWrite u a v = (.done (), { s with mem := { s.mem with backing := {
      timer := setTimer s.mem.backing.timer (flatAddr a) 0
      cells := writeWord s.mem.backing.cells (flatAddr a) v } } }) := by
  rw [State.memWrite_aligned ha, State.poll_terminal hpath, terminalAccess_write ht]
  rfl

end

/-- Settles O18: the read of the load is a poll of the terminal level, before its latency has passed or after. -/
theorem loadFromTerminalLevel : Obligations.LoadFromTerminalLevel := by
  intro i s r hcls hl hp hs hr hmod hdirect
  have ha := aligned_iff.mpr hmod
  have hpath := State.path_eq_nil hdirect
  rw [exec_load hcls hl hp hs hr, loadMemory_eq]
  refine ⟨fun ht => ?_, fun ht => ?_⟩
  · rw [State.memRead_terminal_waits hpath ha ht]
    rfl
  · rw [State.memRead_terminal_done hpath ha ht]
    rfl

/-- Settles O19: the write of the store is a poll of the terminal level, before its latency has passed or after. -/
theorem storeToTerminalLevel : Obligations.StoreToTerminalLevel := by
  intro i s r hcls hl hp hs hr hmod hdirect
  have ha := aligned_iff.mpr hmod
  have hpath := State.path_eq_nil hdirect
  rw [exec_store hcls hl hp hs hr, storeMemory_eq]
  refine ⟨fun ht => ?_, fun ht => ?_⟩
  · rw [State.memWrite_terminal_waits hpath ha ht]
    rfl
  · rw [State.memWrite_terminal_done hpath ha ht]
    rfl

/-! ### The writeback stage (R231, R232, R272) -/

/-- The base update changes the register file only. -/
theorem baseWriteback_eq (f : Fields) (r : Record) (s : State) :
    baseWriteback f r s = { s with regs := if f.wb then s.regs.set f.rn r.wbval else s.regs } := by
  unfold baseWriteback
  split <;> rfl

/-- The writeback stage of a load whose condition passed: the base, then the destination over it. -/
theorem exec_load_writeback {i : Instr} {s : State} {r : Record} (hcls : i.fields.cls = .memory) (hl : i.fields.l = true)
    (hp : s.phase = .writeback) (hs : s.slotW = some r) (hr : r.pass = true) :
    exec i s = .next { s with
      regs := (if i.fields.wb then s.regs.set i.fields.rn r.wbval else s.regs).set i.fields.rd r.loaded } := by
  rw [exec_writeback hp hs hr]
  simp only [writebackLines, hcls, hl, if_true, loadWriteback, baseWriteback_eq, State.setReg]

/-- The writeback stage of a store whose condition passed: the base. -/
theorem exec_store_writeback {i : Instr} {s : State} {r : Record} (hcls : i.fields.cls = .memory) (hl : i.fields.l = false)
    (hp : s.phase = .writeback) (hs : s.slotW = some r) (hr : r.pass = true) :
    exec i s = .next { s with regs := if i.fields.wb then s.regs.set i.fields.rn r.wbval else s.regs } := by
  rw [exec_writeback hp hs hr]
  simp only [writebackLines, hcls, hl, Bool.false_eq_true, if_false, baseWriteback_eq]

/-- Settles O22: the stage's equation, for the two loads and the two stores. -/
theorem memoryWritesBack : Obligations.MemoryWritesBack := by
  intro cond p u wb rd rn imm12 shamt t rm s r hp hs hr
  exact ⟨exec_load_writeback rfl rfl hp hs hr, exec_load_writeback rfl rfl hp hs hr, exec_store_writeback rfl rfl hp hs hr,
    exec_store_writeback rfl rfl hp hs hr⟩

end Sys2Proof.Machine

/-!
PROOF. The statements about branches (43_branch). The execute and the writeback stage of a branch are one equation each, over its
decoded fields (`exec_branch_execute`, `exec_branch_writeback`), read off for the four rows. In a whole step a taken branch leaves F
and D EMPTY before the advance (`workState_flow`), so that the advance shifts EMPTY slots into D and E and at most fetches into F.
-/

namespace Sys2Proof.Machine

/-! ### The execute stage (R240) -/

/-- The execute stage of a taken branch: the link value into the record, the target into the program counter, and the flush. -/
theorem exec_branch_execute {i : Instr} {s : State} {r : Record} (hcls : i.fields.cls = .branch) (hp : s.phase = .execute)
    (hs : s.slotE = some r) (hc : condPass i.fields.cond s.flags = true) :
    exec i s = .next { s with
      slotE := some { r with pass := true, result := r.pc + 4 }
      regs := s.regs.set 15 (branchTarget i.fields r)
      slotF := none
      slotD := none } := by
  rw [exec_execute hp hs hc]
  simp only [executeLines, hcls]
  rfl

/-- Settles O23: one equation for the stage; the fields of each row say where it goes. -/
theorem branchTakenExecutes : Obligations.BranchTakenExecutes := by
  intro cond imm24 rm s r hp hs hc
  exact ⟨exec_branch_execute rfl hp hs hc, exec_branch_execute rfl hp hs hc, exec_branch_execute rfl hp hs hc,
    exec_branch_execute rfl hp hs hc⟩

/-! ### The writeback stage (R247) -/

/-- The writeback stage of a branch that was taken: the link register, if the branch links. -/
theorem exec_branch_writeback {i : Instr} {s : State} {r : Record} (hcls : i.fields.cls = .branch) (hp : s.phase = .writeback)
    (hs : s.slotW = some r) (hr : r.pass = true) :
    exec i s = .next (if i.fields.link then s.setReg 14 r.result else s) := by
  rw [exec_writeback hp hs hr]
  simp only [writebackLines, hcls, branchWriteback]

/-- In the writeback stage a branch does not write the program counter (R247, D20). -/
theorem exec_branch_writeback_pc {i : Instr} {s t : State} (hcls : i.fields.cls = .branch) (hp : s.phase = .writeback)
    (h : exec i s = .next t) : t.reg 15 = s.reg 15 := by
  by_contra hne
  rcases registerFrame i s t h 15 hne with ⟨-, ⟨halu, -⟩ | ⟨hmem, -⟩ | ⟨hmem, -⟩ | ⟨-, -, h14⟩⟩ | ⟨hexec, -⟩
  · simp [hcls] at halu
  · simp [hcls] at hmem
  · simp [hcls] at hmem
  · exact absurd h14 (by decide)
  · simp [hp] at hexec

/-- Every branch names register 15 as its destination, tagged used (R152). -/
theorem branch_rd {i : Instr} (h : i.fields.cls = .branch) : i.fields.rd = 15 ∧ i.fields.rdUsed = true := by
  cases i with
  | b | bl | bx | blx => exact ⟨rfl, rfl⟩
  | _ => cases h

/-- Register 15 counts in the hazard set of a branch, as its destination (R155, R247). -/
theorem pc_mem_uses_of_branch {i : Instr} (h : i.fields.cls = .branch) : (15 : Reg) ∈ i.uses := by
  obtain ⟨hrd, hused⟩ := branch_rd h
  exact hrd ▸ mem_uses_rd hused

/-- Settles O24: the stage's equation for the four rows; the program counter by the frame of an instruction. -/
theorem branchWritesBack : Obligations.BranchWritesBack := by
  refine ⟨fun cond imm24 rm s r hp hs hr => ?_, fun _ _ _ => exec_branch_writeback_pc,
    fun _ => pc_mem_uses_of_branch⟩
  exact ⟨exec_branch_writeback rfl hp hs hr, exec_branch_writeback rfl hp hs hr, exec_branch_writeback rfl hp hs hr,
    exec_branch_writeback rfl hp hs hr⟩

/-! ### One step of a taken branch (R245, R253, R269) -/

/-- With F and D EMPTY and no memory wait the advance leaves D and E EMPTY: D is not held, and EMPTY slots move up (R276). -/
theorem State.advance_flushed {s : State} (hm : s.mwait = false) (hF : s.slotF = none) (hD : s.slotD = none) :
    s.advance.slotD = none ∧ s.advance.slotE = none := by
  rcases s.advance_cases with ⟨hwait, -⟩ | ⟨-, hheld, -⟩ | ⟨-, -, h⟩ | ⟨-, -, -, -, h⟩
  · simp [hm] at hwait
  · simp [State.held, hD] at hheld
  · simp [h, hF, hD]
  · simp [h, hF, hD]

/-- With F EMPTY the advance leaves F EMPTY, or with a word fetched in this step, from 4 below the program counter it leaves
(R24, R275). -/
theorem State.advance_slotF_of_empty {s : State} (hF : s.slotF = none) :
    s.advance.slotF = none ∨ ∃ w, s.advance.slotF = some (newRecord w (s.advance.pc - 4)) := by
  rcases s.advance_pc with ⟨-, hnone | hsame⟩ | ⟨-, hpc, w, hw⟩
  · exact .inl hnone
  · exact .inl (hsame.trans hF)
  · exact .inr ⟨w, by rw [hw, hpc, BitVec.add_sub_cancel]⟩

/-- Before the advance a taken branch has made F and D EMPTY and left the halted latch alone, whatever D held (R245, R253). -/
theorem workState_branchTaken {s : State} (hw : s.memoryWaits = false) (hb : s.branchTaken = true) :
    (workState s).slotF = none ∧ (workState s).slotD = none ∧ (workState s).halted = s.halted := by
  rcases workState_flow hw with ⟨-, hflushed⟩ | ⟨hnot, -⟩ | ⟨hnot, -⟩
  · exact hflushed
  · simp [hb] at hnot
  · simp [hb] at hnot

/-- Settles O42: phases 0 to 3 flush, and the advance has nothing to move into D and E. -/
theorem takenBranchFlushes : Obligations.TakenBranchFlushes := by
  intro s t hb hw h
  obtain rfl := step_next h
  obtain ⟨hF, hD, hhalted⟩ := workState_branchTaken hw hb
  obtain ⟨hD', hE'⟩ := State.advance_flushed ((workState_mwait s).trans hw) hF hD
  exact ⟨(State.advance_halted _).trans hhalted, hD', hE', State.advance_slotF_of_empty hF⟩

end Sys2Proof.Machine

/-!
PROOF. The statements about the No-op class and the sentinel (44_noop_sentinel). A No-op record has no lines in the memory, the
execute and the writeback stage, whatever its condition (`exec_noop_memory`, `exec_noop_execute`, `exec_noop_writeback`); NOP and
END share these and differ in the sentinel check alone. In a whole step the sentinel leaves F and D EMPTY and the latch set before
the advance (`workState_sentinel`), so that the advance moves the older records on and fetches nothing. In a drained core every
phase meets an EMPTY slot (`workState_of_empty`), and the shift moves EMPTY slots into EMPTY slots.
-/

namespace Sys2Proof.Machine

/-! ### One step of the sentinel in D (R252) -/

/-- Phases 0 to 3 keep the word of the record in E, if the memory stage does not wait (R268). -/
theorem workState_slotE_raw {s : State} (hw : s.memoryWaits = false) :
    (workState s).slotE.map Record.raw = s.slotE.map Record.raw := by
  rcases workState_slotE hw with ⟨hs, hwork⟩ | ⟨r, r', hs, hwork, hraw, -⟩
  · rw [hs, hwork]
  · rw [hs, hwork, Option.map_some, Option.map_some, hraw]

/-- Phase 0 keeps the word of the record in M (R264). -/
theorem memoryPhase_slotM_raw (s : State) : (phaseState .memory s).slotM.map Record.raw = s.slotM.map Record.raw := by
  rcases memoryPhase_slotM s with hsame | ⟨r, w, hs, -, -, -, hloaded⟩
  · rw [hsame]
  · rw [hs, hloaded, Option.map_some, Option.map_some]

/-- Phases 0 to 3 keep the word of the record in M, whether the memory stage waits or not (R264, R265). -/
theorem workState_slotM_raw (s : State) : (workState s).slotM.map Record.raw = s.slotM.map Record.raw := by
  rw [workState_slotM, memoryPhase_slotM_raw]

/-- Before the advance the sentinel in D has halted the core and made F and D EMPTY (R252). -/
theorem workState_sentinel {s : State} (hd : s.sentinelInD = true) (hw : s.memoryWaits = false) (hb : s.branchTaken = false) :
    (workState s).halted = true ∧ (workState s).slotF = none ∧ (workState s).slotD = none := by
  rcases workState_flow hw with ⟨htaken, -⟩ | ⟨-, -, hF, hD, hhalted⟩ | ⟨-, hnot, -⟩
  · simp [hb] at htaken
  · exact ⟨hhalted, hF, hD⟩
  · simp [hd] at hnot

/-- Without a memory wait the advance moves the records in E and M on, held or not (R276). -/
theorem State.advance_older {s : State} (hm : s.mwait = false) : s.advance.slotM = s.slotE ∧ s.advance.slotW = s.slotM := by
  rcases s.advance_cases with ⟨hwait, -⟩ | ⟨-, -, h⟩ | ⟨-, -, h⟩ | ⟨-, -, -, -, h⟩
  · simp [hm] at hwait
  · simp [h]
  · simp [h]
  · simp [h]

/-- With F EMPTY the advance of a halted core leaves F EMPTY: nothing is fetched (R252, R275). -/
theorem State.advance_slotF_of_halted {s : State} (hh : s.halted = true) (hF : s.slotF = none) : s.advance.slotF = none := by
  rcases s.advance_pc with ⟨-, hnone | hsame⟩ | ⟨hrun, -⟩
  · exact hnone
  · exact hsame.trans hF
  · simp [hh] at hrun

/-- Settles O41: phases 0 to 3 halt and flush, and the advance moves the older records on and fetches nothing. -/
theorem sentinelHaltsCore : Obligations.SentinelHaltsCore := by
  intro s t hd hw hb h
  obtain rfl := step_next h
  have hm : (workState s).mwait = false := (workState_mwait s).trans hw
  obtain ⟨hhalted, hF, hD⟩ := workState_sentinel hd hw hb
  obtain ⟨hD', hE'⟩ := State.advance_flushed hm hF hD
  obtain ⟨hM', hW'⟩ := State.advance_older hm
  exact ⟨(State.advance_halted _).trans hhalted, State.advance_slotF_of_halted hhalted hF, hD', hE',
    (congrArg _ hM').trans (workState_slotE_raw hw), (congrArg _ hW').trans (workState_slotM_raw s)⟩

/-! ### The stages of the No-op class (R250, R252) -/

/-- The memory stage of a No-op: nothing, whatever is in M. -/
theorem exec_noop_memory {i : Instr} {s : State} (hcls : i.fields.cls = .noop) (hp : s.phase = .memory) :
    exec i s = .next s := by
  have hsame : execState i s = s := exec_memory_of_cls_ne (exec_eq i s) hp (by simp [hcls])
  rw [exec_eq, hsame]

/-- The execute stage of a No-op: its record keeps whether the condition passed, and nothing else changes. -/
theorem exec_noop_execute {i : Instr} {s : State} {r : Record} (hcls : i.fields.cls = .noop) (hp : s.phase = .execute)
    (hs : s.slotE = some r) :
    exec i s = .next { s with slotE := some { r with pass := condPass i.fields.cond s.flags } } := by
  cases hc : condPass i.fields.cond s.flags with
  | false => exact exec_execute_failed hp hs hc
  | true =>
    rw [exec_execute hp hs hc]
    simp only [executeLines, hcls, noLines]

/-- The writeback stage of a No-op: nothing, whether W is EMPTY, the condition failed or it passed. -/
theorem exec_noop_writeback {i : Instr} {s : State} (hcls : i.fields.cls = .noop) (hp : s.phase = .writeback) :
    exec i s = .next s := by
  cases hs : s.slotW with
  | none => exact exec_empty (by rw [hp]; exact hs)
  | some r =>
    cases hr : r.pass with
    | false => exact exec_writeback_failed hp hs hr
    | true =>
      rw [exec_writeback hp hs hr]
      simp only [writebackLines, hcls, noLines]

/-- An instruction that uses no register is never held: the decode stage takes its snapshots (R266). -/
theorem exec_decode_of_uses_nil {i : Instr} {s : State} {r : Record} (hu : i.uses = []) (hp : s.phase = .decode)
    (hs : s.slotD = some r) : exec i s = .next { s with slotD := some (s.snapshot i.fields r) } := by
  have hfree : s.hazardFree i.uses = true := by
    rw [hu]
    rfl
  rw [exec_decode hp hs, if_pos hfree]

/-- Settles O25: NOP is the No-op class without the sentinel; its stages are those of the class, and it uses no register. -/
theorem nopHasNoEffect : Obligations.NopHasNoEffect := by
  refine ⟨fun w hcls hw => ⟨condAt w, decode_noop (extractLsb'_eq_iff.mp hcls) hw⟩, fun cond s => ⟨rfl, ?_, ?_, ?_⟩⟩
  · rintro (hp | hp | hp)
    · exact exec_noop_memory rfl hp
    · exact exec_sentinel_other hp (by simp)
    · exact exec_noop_writeback rfl hp
  · exact fun r hp hs => exec_noop_execute rfl hp hs
  · exact fun r hp hs => ⟨_, exec_decode_of_uses_nil rfl hp hs, rfl, rfl, rfl⟩

/-- Settles O26: the sentinel check is END's own; the other stages are those of the No-op class, with condition 15. -/
theorem endHaltsInSentinelCheck : Obligations.EndHaltsInSentinelCheck := by
  refine fun s r => ⟨exec_sentinel_end, ?_, exec_noop_execute rfl⟩
  rintro (hp | hp)
  · exact exec_noop_memory rfl hp
  · exact exec_noop_writeback rfl hp

/-! ### The drained core (R254) -/

/-- What the result of a step says when it is false (R254, R278). -/
theorem State.stillRunning_eq_false_iff (s : State) : s.stillRunning = false ↔
    s.halted = true ∧ s.slotF = none ∧ s.slotD = none ∧ s.slotE = none ∧ s.slotM = none ∧ s.slotW = none := by
  simp only [State.stillRunning, State.drained, Bool.not_eq_false', Bool.and_eq_true, Option.isNone_iff_eq_none, and_assoc]

/-- A phase whose slot is EMPTY changes only the model's mark of the phase (R35). -/
theorem phaseState_of_empty {p : Phase} {s : State} (hs : s.slot p = none) : phaseState p s = { s with phase := p } := by
  rw [phaseState, hs]

/-- With D, E, M and W EMPTY phases 0 to 3 change only the model's own marks. -/
theorem workState_of_empty {s : State} (hD : s.slotD = none) (hE : s.slotE = none) (hM : s.slotM = none)
    (hW : s.slotW = none) : workState s = { s with phase := .writeback, mwait := false } := by
  obtain ⟨hw, -⟩ := Quiet.ready ⟨hE, hM, hW⟩
  rw [workState_of_ready hw, phaseState_of_empty (p := .memory), phaseState_of_empty (p := .decode),
    phaseState_of_empty (p := .execute), phaseState_of_empty (p := .sentinel), phaseState_of_empty (p := .writeback)] <;>
    assumption

/-- The shift of five EMPTY slots. -/
theorem State.shift_of_empty {s : State} (hF : s.slotF = none) (hD : s.slotD = none) (hE : s.slotE = none)
    (hM : s.slotM = none) (hW : s.slotW = none) : s.shift = s := by
  cases s
  simp_all [State.shift]

/-- The advance of a drained core: no wait, no hold and no fetch, so a shift of EMPTY slots (R276). -/
theorem State.advance_of_drained {s : State} (h : s.stillRunning = false) (hm : s.mwait = false) : s.advance = s := by
  obtain ⟨hhalted, hF, hD, hE, hM, hW⟩ := s.stillRunning_eq_false_iff.mp h
  rcases s.advance_cases with ⟨hwait, -⟩ | ⟨-, hheld, -⟩ | ⟨-, -, hshift⟩ | ⟨-, -, hrun, -⟩
  · simp [hm] at hwait
  · simp [State.held, hD] at hheld
  · exact hshift.trans (State.shift_of_empty hF hD hE hM hW)
  · simp [hhalted] at hrun

/-- Between steps the end of a cycle only counts it and uses up the inputs, whatever marks the phases left. -/
theorem State.endCycle_of_betweenSteps {s : State} (h : s.betweenSteps = true) (p : Phase) (m : Bool) :
    State.endCycle { s with phase := p, mwait := m } = { s with cycle := s.cycle + 1, inputs := s.inputs.tail } := by
  obtain ⟨hp, hm⟩ : s.phase = .memory ∧ s.mwait = false := by simpa [State.betweenSteps] using h
  rw [State.endCycle, ← hp, ← hm]

/-- Settles O46: no phase finds a record, and the advance moves none. -/
theorem drainedCoreIdles : Obligations.DrainedCoreIdles := by
  intro s hdrained hbetween
  obtain ⟨-, -, hD, hE, hM, hW⟩ := s.stillRunning_eq_false_iff.mp hdrained
  have hadvance : State.advance { s with phase := .writeback, mwait := false } = { s with phase := .writeback, mwait := false } :=
    State.advance_of_drained hdrained rfl
  rw [step_eq, workState_of_empty hD hE hM hW, hadvance, State.endCycle_of_betweenSteps hbetween]

end Sys2Proof.Machine

/-!
PROOF. The pipeline against one instruction at a time, in any mode and over any chain (50_pipeline, R283). Every step keeps
`Follows` (`Follows.step`), so every run from a launch state does; `Follows.drained` then reads off what the program sees, and
`Follows.drains` is the progress.
-/

namespace Sys2Proof.Machine

/-! ### Runs of the core -/

/-- One more step at the front of a run: the next state of the first, then the rest. -/
theorem core_run_succ (n : Nat) (s : State) :
    Host.Core.run Sys2Proof.core (n + 1) s = Host.Core.run Sys2Proof.core n s.stepped := by
  have hstep : Sys2Proof.core.step s = .next s.stepped := s.step_stepped
  simp only [Host.Core.run, hstep]

/-- No run stops: `n` steps answer the `n`-th of the next states. -/
theorem core_run_eq (n : Nat) (s : State) : Host.Core.run Sys2Proof.core n s = .next (State.stepped^[n] s) := by
  induction n generalizing s with
  | zero => rfl
  | succ n ih => rw [core_run_succ, ih, Function.iterate_succ_apply]

/-- What every step keeps, every run keeps. -/
theorem core_run_keeps {P : State → Prop} (hstep : ∀ s, P s → P s.stepped) {s : State} (hs : P s) {n : Nat} {t : State}
    (h : Host.Core.run Sys2Proof.core n s = .next t) : P t := by
  rw [core_run_eq] at h
  injection h with h
  subst h
  induction n generalizing s with
  | zero => exact hs
  | succ n ih => exact ih (hstep s hs)

/-! ### Runs of the one-at-a-time machine -/

/-- A run of `k` instructions that has an end met no sentinel on its way, and its end is the `k`-th instruction. -/
theorem Fetched.after_of_run {k : Nat} {x y : Fetched} (h : Fetched.run k x = some y) : x.live k ∧ x.after k = y := by
  induction k generalizing x with
  | zero =>
    injection h with h
    exact ⟨fun j hj => absurd hj (Nat.not_lt_zero j), h⟩
  | succ k ih =>
    rw [Fetched.run] at h
    split at h
    · cases h
    · rename_i hx
      obtain ⟨hlive, hafter⟩ := ih h
      refine ⟨fun j hj => ?_, hafter⟩
      cases j with
      | zero => exact hx
      | succ j => exact hlive j (by omega)

/-- A launch state follows the one-at-a-time machine that starts from the same registers, flags and store (R42, R44). -/
theorem follows_launch (c : Config) (regs : Vector Word 16) (flags : Flags) (cells : List Host.Cell) {inputs : List StepInput}
    {lines : StepInput} {u : Bool} (hi : ∀ i ∈ lines :: inputs, i.useCache = u ∧ i.inject = none) :
    Follows (Arch.start { regs := regs, flags := flags, cells := cells, diags := [] }) u
      { State.launchWith c regs flags cells with inputs := inputs, lines := lines } 0 0 0 0 := by
  refine follows_initial rfl rfl rfl rfl rfl rfl (fun _ => rfl) rfl (fun b _ => ?_)
    (fun _ => coherent_initial c.chain.caches cells) hi
  cases u
  · rfl
  · exact viewWord_initial c.chain.caches cells b

/-- Settles O59: a run from a launch state keeps following; drained, it has come to the sentinel; and it does drain. -/
theorem pipelineRunsOneAtATime : Obligations.PipelineRunsOneAtATime := by
  intro c regs flags cells inputs lines u hi s x ho
  have hinit : Follows x u s 0 0 0 0 := follows_launch c regs flags cells hi
  refine ⟨fun n t hrun hstop => ?_, fun k y hrun hy => ?_⟩
  · obtain ⟨c', m', e', d', hf⟩ := core_run_keeps (P := fun s => ∃ c m e d, Follows x u s c m e d)
      (fun s ⟨_, _, _, _, h⟩ => h.step rfl ho s.step_stepped) ⟨0, 0, 0, 0, hinit⟩ hrun
    exact ⟨d', _, hf.drained hstop⟩
  · obtain ⟨-, rfl⟩ := Fetched.after_of_run hrun
    exact hinit.drains rfl ho hy

end Sys2Proof.Machine

/-!
PROOF. The other statements about one step of the pipeline (50_pipeline). The phases 0 to 3 leave F and D as `workState_flow` says,
E and M with the words they had, and the advance has the four cases of `State.advance_cases`; each statement about a step reads
these two off.
-/

namespace Sys2Proof.Machine

/-! ### The stages and the phases (R262, R266) -/

/-- An instruction is held exactly if it shares a register with E, M or W (R266). -/
theorem State.hazardFree_false_iff (s : State) (us : List Reg) : s.hazardFree us = false ↔
    ∃ x ∈ us, x ∈ slotUses s.slotE ∨ x ∈ slotUses s.slotM ∨ x ∈ slotUses s.slotW := by
  rw [← Bool.not_eq_true, State.hazardFree_iff]
  push Not
  exact exists_congr fun x => and_congr_right fun _ => by tauto

/-- Settles O27: the decode stage, by whether the instruction is free of hazards. -/
theorem decodeStageHoldsOrSnapshots : Obligations.DecodeStageHoldsOrSnapshots := by
  intro i s r hp hs
  rw [exec_decode hp hs]
  refine ⟨fun hshared => ?_, fun hfree => ?_⟩
  · rw [← State.hazardFree_false_iff] at hshared
    simp [hshared]
  · rw [if_pos ((s.hazardFree_iff _).mpr hfree)]
    rfl

/-- A phase with a record in its slot is `exec` of the record's instruction in that phase (R262). -/
theorem runPhase_of_some {p : Phase} {s : State} {r : Record} (h : s.slot p = some r) :
    runPhase p s = exec (decode r.raw) { s with phase := p } := by
  rw [runPhase, h]
  rfl

/-- Settles O33: a step is its phases as `State.clock` composes them, each an `exec` of the decoded word. -/
theorem stepRunsDecodedInstructions : Obligations.StepRunsDecodedInstructions := by
  refine ⟨fun _ => rfl, fun _ _ => runPhase_of_some (p := .memory), fun _ _ => runPhase_of_some (p := .decode),
    fun _ _ => runPhase_of_some (p := .execute), fun _ _ => runPhase_of_some (p := .sentinel),
    fun _ _ => runPhase_of_some (p := .writeback), fun s p h => ?_⟩
  rw [runPhase, h]

/-! ### Fetch and advance (R275, R276, R278, R279) -/

/-- Settles O34: the injected word, the poll that waits and the poll that answers; a poll leaves F and the registers. -/
theorem fetchCreatesRecord : Obligations.FetchCreatesRecord := by
  intro s
  refine ⟨fun w hw => ?_, fun hnone => ⟨fun u hu => ?_, fun u w hu => ?_⟩⟩
  · rw [State.fetch, hw]
    rfl
  · have hpoll : s.memRead s.input.useCache s.pc = (.waiting, u) := hu
    have hF := State.memRead_slotF s s.input.useCache s.pc
    have hregs := State.memRead_regs s s.input.useCache s.pc
    simp only [hpoll] at hF hregs
    refine ⟨?_, hF, hregs⟩
    rw [State.fetch, hnone]
    simp only [hpoll]
  · have hpoll : s.memRead s.input.useCache s.pc = (.done w, u) := hu
    have hregs := State.memRead_regs s s.input.useCache s.pc
    simp only [hpoll] at hregs
    have hpc : u.pc = s.reg 15 := State.reg_congr hregs 15
    rw [State.fetch, hnone]
    simp only [hpoll, State.fetched, State.setReg, hpc]
    rw [hregs]
    rfl

/-- The record in D is not held: D is EMPTY, or its record is marked decoded (R276). -/
theorem State.held_eq_false_iff (s : State) : s.held = false ↔ ∀ r, s.slotD = some r → r.decoded = true := by
  rw [← Bool.not_eq_true, State.held_iff]
  simp

/-- After the shift D to W are EMPTY exactly if F, D, E and M were before it (R279). -/
theorem State.shift_drained_iff (s : State) : s.shift.drained = true ↔
    s.slotF = none ∧ s.slotD = none ∧ s.slotE = none ∧ s.slotM = none := by
  simp [State.drained, and_assoc]

/-- Settles O36: the branches of the advance, the condition of its fetch spelled out. -/
theorem advanceCases : Obligations.AdvanceCases := by
  intro s
  refine ⟨fun hm => ?_, fun r hm hs hr => ?_, fun hm hr => ?_⟩
  · rw [State.advance, if_pos hm]
  · rw [State.advance, if_neg (by simp [hm]), if_pos (s.held_iff.mpr ⟨r, hs, hr⟩)]
  · intro shifted fetches
    have hfetches : fetches ↔ (!s.halted && (s.input.usePipeline || s.shift.drained)) = true := by
      simp only [fetches, Bool.and_eq_true, Bool.or_eq_true, Bool.not_eq_true', State.shift_drained_iff]
    rw [State.advance_otherwise hm (s.held_eq_false_iff.mpr hr), hfetches]
    exact ⟨fun h => if_pos h, fun h => if_neg h⟩

/-- Settles O47: by the definition of the result. -/
theorem stillRunningResult : Obligations.StillRunningResult := State.stillRunning_eq_false_iff

/-! ### A step whose memory stage waits (R265) -/

/-- A step whose memory stage waits: phases 0 and 3, then W becomes EMPTY (R265, R276). -/
theorem stepped_of_wait {s : State} (hw : s.memoryWaits = true) :
    s.stepped = State.endCycle { workState s with slotW := none } := by
  rw [State.stepped, State.advance, if_pos ((workState_mwait s).trans hw)]

/-- The diagnostics stay when the memory stage waits: a misaligned access does not wait (R66). -/
theorem workState_diags_of_wait {s : State} (hw : s.memoryWaits = true) : (workState s).diags = s.diags := by
  rw [workState_diags]
  rcases memoryPhase_diags { s with mwait := false } with h | ⟨r, kind, -, -, -, hm, -⟩
  · exact h
  · rw [memoryPhase_mwait, hw] at hm
    cases hm

/-- The registers after a step whose memory stage waits are those of the writeback stage alone (R265). -/
theorem workState_regs_of_wait {s : State} (hw : s.memoryWaits = true) :
    (workState s).regs = (phaseState .writeback s).regs := by
  rw [workState_of_wait hw]
  exact writebackPhase_regs_congr (by simp) (by simp)

/-- Settles O44: phases 0 and 3 keep all but the registers, and the advance only makes W EMPTY. -/
theorem memoryWaitHoldsPipeline : Obligations.MemoryWaitHoldsPipeline := by
  intro s t hw h
  obtain rfl : t = s.stepped := step_next h
  obtain ⟨hF, hD, hE, hM, hflags, hhalted⟩ := workState_wait hw
  have hregs := workState_regs_of_wait hw
  rw [stepped_of_wait hw]
  refine ⟨hF, hD, hE, hM, rfl, hflags, hhalted, workState_diags_of_wait hw, fun hnone => ?_, fun r u hs hu => ?_⟩
  · refine hregs.trans ?_
    rw [phaseState_of_empty (p := .writeback) hnone]
  · have hphase : phaseState .writeback s = execState r.instr { s with phase := .writeback } := by
      rw [phaseState, State.slot, hs]
    rw [exec_eq] at hu
    injection hu with hu
    exact hregs.trans (congrArg State.regs (hphase.trans hu))

/-! ### The interlock in one step (R266, R276) -/

/-- Without a wait and with D held, F and D stay and E becomes EMPTY (R276). -/
theorem State.advance_held {s : State} (hm : s.mwait = false) (hh : s.held = true) :
    s.advance = { s with slotW := s.slotM, slotM := s.slotE, slotE := none } := by
  rw [State.advance, if_neg (by simp [hm]), if_pos hh]

/-- Without a wait and with D not held, every record moves one slot on, whether or not a fetch follows (R276). -/
theorem State.advance_shifts {s : State} (hm : s.mwait = false) (hh : s.held = false) :
    s.advance.slotD = s.slotF ∧ s.advance.slotE = s.slotD ∧ s.advance.slotM = s.slotE ∧ s.advance.slotW = s.slotM := by
  rw [State.advance_otherwise hm hh]
  split <;> simp

/-- Settles O45: phase 1 has marked the record in D by its hazard check, and the advance goes by that mark. -/
theorem interlockHoldsOrAdvances : Obligations.InterlockHoldsOrAdvances := by
  intro s t r hs hw hb hd h
  obtain rfl := step_next h
  have hm : (workState s).mwait = false := (workState_mwait s).trans hw
  obtain ⟨hF, hD⟩ : (workState s).slotF = s.slotF ∧ (workState s).slotD = some (s.decodedRecord r) := by
    rcases workState_flow hw with ⟨htaken, -⟩ | ⟨-, hsentinel, -⟩ | ⟨-, -, hF, hD, -⟩
    · simp [hb] at htaken
    · simp [hd] at hsentinel
    · exact ⟨hF, by rw [hD, hs, Option.map_some]⟩
  refine ⟨fun hshared => ?_, fun hfree => ?_⟩
  · have hhazard := (s.hazardFree_false_iff _).mpr hshared
    have hheld : (workState s).held = true := by simp [State.held, hD, hhazard]
    rw [State.advance_held hm hheld]
    exact ⟨hF, by simp [hD, State.decodedRecord, hhazard], rfl⟩
  · have hhazard := (s.hazardFree_iff _).mpr hfree
    have hheld : (workState s).held = false := by simp [State.held, hD, hhazard]
    obtain ⟨hD', hE', -⟩ := State.advance_shifts hm hheld
    refine ⟨hD'.trans hF, hE'.trans (hD.trans ?_)⟩
    rw [State.decodedRecord, if_pos hhazard]
    rfl

/-! ### A legal pipeline stays legal (R252, R266, R267, R281) -/

theorem disjoint_iff (xs ys : List Reg) : disjoint xs ys = true ↔ ∀ x ∈ xs, x ∉ ys := by simp [disjoint]

@[simp] theorem disjoint_nil_left (xs : List Reg) : disjoint [] xs = true := rfl

@[simp] theorem disjoint_nil_right (xs : List Reg) : disjoint xs [] = true := by simp [disjoint]

@[simp] theorem slotUses_none : slotUses none = [] := rfl

@[simp] theorem slotDecoded_none : slotDecoded none = true := rfl

/-- What a record needs in D to move to E: it is marked decoded, and it shares no register with E and M (R266). -/
def State.mayEnter (s : State) : Prop :=
  slotDecoded s.slotD = true ∧ disjoint (slotUses s.slotD) (slotUses s.slotE) = true ∧
    disjoint (slotUses s.slotD) (slotUses s.slotM) = true

/-- Phases 0 to 3 leave a record in D that is not held with nothing in common with E and M (R266). -/
theorem workState_mayEnter {s : State} (hw : s.memoryWaits = false) (hh : (workState s).held = false) :
    (workState s).mayEnter := by
  have hempty : (workState s).slotD = none → (workState s).mayEnter := fun hD => by simp [State.mayEnter, hD]
  rcases workState_flow hw with ⟨-, -, hD, -⟩ | ⟨-, -, -, hD, -⟩ | ⟨-, -, -, hD, -⟩
  · exact hempty hD
  · exact hempty hD
  · cases hs : s.slotD with
    | none => exact hempty (by rw [hD, hs, Option.map_none])
    | some r =>
      rw [hs, Option.map_some] at hD
      have hdecoded := (State.held_eq_false_iff _).mp hh _ hD
      have hfree := (s.hazardFree_iff _).mp ((decodedRecord_decoded s r).symm.trans hdecoded)
      have huses : slotUses (some (s.decodedRecord r)) = r.instr.uses := slotUses_of_raw (decodedRecord_raw s r)
      obtain ⟨husesE, -⟩ := workState_usesE s
      obtain ⟨husesM, -⟩ := workState_usesM s
      rw [State.mayEnter, hD, huses, husesE, husesM, disjoint_iff, disjoint_iff]
      exact ⟨hdecoded, fun x hx => (hfree x hx).1, fun x hx => (hfree x hx).2.1⟩

/-- Without a wait the advance keeps the interlock: E and M move on, and what enters E has nothing in common with them (R267). -/
theorem State.advance_interlocked {s : State} (hm : s.mwait = false)
    (hEM : disjoint (slotUses s.slotE) (slotUses s.slotM) = true) (hD : s.held = false → s.mayEnter) :
    s.advance.interlocked = true := by
  cases hh : s.held
  · obtain ⟨-, hDE, hDM⟩ := hD hh
    obtain ⟨-, hE', hM', hW'⟩ := State.advance_shifts hm hh
    simp [State.interlocked, hE', hM', hW', hDE, hDM, hEM]
  · simp [State.interlocked, State.advance_held hm hh, hEM]

/-- Without a wait the advance lets only decoded records into E (R281). -/
theorem State.advance_pastDecodeDecoded {s : State} (hm : s.mwait = false) (hE : slotDecoded s.slotE = true)
    (hM : slotDecoded s.slotM = true) (hD : s.held = false → s.mayEnter) : s.advance.pastDecodeDecoded = true := by
  cases hh : s.held
  · obtain ⟨hdecoded, -⟩ := hD hh
    obtain ⟨-, hE', hM', hW'⟩ := State.advance_shifts hm hh
    simp [State.pastDecodeDecoded, hE', hM', hW', hdecoded, hE, hM]
  · simp [State.pastDecodeDecoded, State.advance_held hm hh, hE, hM]

theorem State.haltedIsFlushed_iff (s : State) :
    s.haltedIsFlushed = true ↔ (s.halted = true → s.slotF = none ∧ s.slotD = none) := by
  cases h : s.halted <;> simp [State.haltedIsFlushed, h]

/-- Phases 0 to 3 keep a halted core flushed; the sentinel, which halts it, flushes it (R252). -/
theorem workState_haltedIsFlushed {s : State} (h : s.haltedIsFlushed = true) : (workState s).haltedIsFlushed = true := by
  rw [State.haltedIsFlushed_iff] at h ⊢
  cases hw : s.memoryWaits
  · rcases workState_flow hw with ⟨-, hF, hD, -⟩ | ⟨-, -, hF, hD, -⟩ | ⟨-, -, hF, hD, hhalted⟩
    · exact fun _ => ⟨hF, hD⟩
    · exact fun _ => ⟨hF, hD⟩
    · rw [hF, hD, hhalted]
      exact fun hh => ⟨(h hh).1, by rw [(h hh).2, Option.map_none]⟩
  · obtain ⟨hF, hD, -, -, -, hhalted⟩ := workState_wait hw
    rwa [hF, hD, hhalted]

/-- The advance keeps a halted core flushed: EMPTY slots move on and nothing is fetched (R276). -/
theorem State.advance_haltedIsFlushed {s : State} (h : s.haltedIsFlushed = true) : s.advance.haltedIsFlushed = true := by
  rw [State.haltedIsFlushed_iff] at h ⊢
  rw [State.advance_halted]
  intro hh
  obtain ⟨hF, hD⟩ := h hh
  refine ⟨State.advance_slotF_of_halted hh hF, ?_⟩
  rcases s.advance_cases with ⟨-, h'⟩ | ⟨-, -, h'⟩ | ⟨-, -, h'⟩ | ⟨-, -, -, -, h'⟩ <;> rw [h']
  · exact hD
  · exact hD
  · exact hF
  · simpa using hF

/-- Settles O49: E, M and W by the advance, which waits, holds or shifts; F and D of a halted core by the flush. -/
theorem stepKeepsPipelineLegal : Obligations.StepKeepsPipelineLegal := by
  intro s t hok h
  obtain rfl : t = s.stepped := step_next h
  simp only [State.pipelineOk, State.interlocked, State.pastDecodeDecoded, Bool.and_eq_true] at hok
  obtain ⟨⟨⟨⟨⟨hEM, -⟩, -⟩, ⟨hdecE, hdecM⟩, -⟩, hflushed⟩, -⟩ := hok
  obtain ⟨husesE, hdecE'⟩ := workState_usesE s
  obtain ⟨husesM, hdecM'⟩ := workState_usesM s
  have hEM' : disjoint (slotUses (workState s).slotE) (slotUses (workState s).slotM) = true := by rwa [husesE, husesM]
  have hhalted : s.stepped.haltedIsFlushed = true := State.advance_haltedIsFlushed (workState_haltedIsFlushed hflushed)
  obtain ⟨hinterlocked, hpast⟩ : s.stepped.interlocked = true ∧ s.stepped.pastDecodeDecoded = true := by
    cases hw : s.memoryWaits
    · have hm : (workState s).mwait = false := (workState_mwait s).trans hw
      exact ⟨State.advance_interlocked hm hEM' (workState_mayEnter hw),
        State.advance_pastDecodeDecoded hm (hdecE' hdecE) (hdecM' hdecM) (workState_mayEnter hw)⟩
    · rw [stepped_of_wait hw]
      exact ⟨by simp [State.interlocked, hEM', -workState_slotM],
        by simp [State.pastDecodeDecoded, hdecE' hdecE, hdecM' hdecM, -workState_slotM]⟩
  have hmarks : s.stepped.betweenSteps = true := rfl
  rw [State.pipelineOk, hinterlocked, hpast, hhalted, hmarks]
  rfl

end Sys2Proof.Machine

/-!
PROOF. A record that is alone in the pipeline: the phases of the EMPTY slots do nothing (`phaseState_skip`), so the phases 0 to 3
are the one phase of its slot; and in serial mode the advance moves it on and fetches nothing before it has left W (R262, R279).
-/

namespace Sys2Proof.Machine

/-! ### The phases 0 to 3 with one record -/

/-- A phase does not look at the mark of the phase before. -/
theorem phaseState_phase (p q : Phase) (s : State) : phaseState p { s with phase := q } = phaseState p s := by
  cases p <;> rfl

/-- A phase whose slot is EMPTY can be passed over (R35). -/
theorem phaseState_skip {p q : Phase} {s : State} (h : s.slot p = none) : phaseState q (phaseState p s) = phaseState q s := by
  rw [phaseState_of_empty h, phaseState_phase]

/-- The sentinel check of any other record can be passed over (R252). -/
theorem phaseState_skip_sentinel {q : Phase} {s : State} (h : s.sentinelInD = false) :
    phaseState q (phaseState .sentinel s) = phaseState q s := by
  rw [sentinelPhase_eq, if_neg (by simp [h]), phaseState_phase]

section
variable {s : State}

/-- Phase 1 with a record in D (R266). -/
theorem decodePhase_of_some {r : Record} (hD : s.slotD = some r) :
    phaseState .decode s = { s with phase := .decode, slotD := some (s.decodedRecord r) } := by
  rw [phaseState, State.slot, hD]
  simp only [execState, decodeStage, State.decodedRecord]
  split <;> simp_all [State.hazardFree, State.busy, State.snapshot, State.reg]

/-- With E, M and W EMPTY and a record in D that is not the sentinel: the record takes its snapshot (R266). -/
theorem workState_decoding {r : Record} (hD : s.slotD = some r) (hE : s.slotE = none) (hM : s.slotM = none)
    (hW : s.slotW = none) (hr : r.raw ≠ sentinelWord) :
    workState s = { s with slotD := some (s.snapshot r.instr.fields r), phase := .writeback, mwait := false } := by
  obtain ⟨hw, -⟩ := Quiet.ready ⟨hE, hM, hW⟩
  have hfree : s.decodedRecord r = s.snapshot r.instr.fields r := if_pos ((s.hazardFree_iff _).mpr (by simp [hE, hM, hW]))
  have hdecode : phaseState .decode { s with mwait := false } =
      { s with mwait := false, phase := .decode, slotD := some (s.snapshot r.instr.fields r) } := by
    rw [← hfree]
    exact decodePhase_of_some (s := { s with mwait := false }) hD
  have hE' : (phaseState .decode { s with mwait := false }).slotE = none := by simpa using hE
  have hD' : (phaseState .decode { s with mwait := false }).sentinelInD = false := by
    simpa [hdecode, State.sentinelInD, State.snapshot] using hr
  rw [workState_of_ready hw, phaseState_skip (p := .memory) (s := { s with mwait := false }) hM,
    phaseState_skip (p := .execute) hE', phaseState_skip_sentinel hD', phaseState_of_empty (p := .writeback)
      (by simpa [State.slot] using hW), hdecode]

/-- With E, M and W EMPTY and the sentinel in D: the core is halted and flushed (R252). -/
theorem workState_halting {r : Record} (hD : s.slotD = some r) (hE : s.slotE = none) (hM : s.slotM = none)
    (hW : s.slotW = none) (hr : r.raw = sentinelWord) : workState s =
      { s with halted := true, slotF := none, slotD := none, phase := .writeback, mwait := false } := by
  obtain ⟨hw, -⟩ := Quiet.ready ⟨hE, hM, hW⟩
  have hdecode := decodePhase_of_some (s := { s with mwait := false }) hD
  have hE' : (phaseState .decode { s with mwait := false }).slotE = none := by simpa using hE
  have hD' : (phaseState .decode { s with mwait := false }).sentinelInD = true := by
    simpa [hdecode, State.sentinelInD] using hr
  have hsentinel : phaseState .sentinel (phaseState .decode { s with mwait := false }) =
      { s with mwait := false, phase := .sentinel, halted := true, slotF := none, slotD := none } := by
    rw [sentinelPhase_eq, if_pos hD', hdecode]
  rw [workState_of_ready hw, phaseState_skip (p := .memory) (s := { s with mwait := false }) hM,
    phaseState_skip (p := .execute) hE', phaseState_of_empty (p := .writeback) (by simpa [State.slot] using hW), hsentinel]

/-- With D, M and W EMPTY: the execute stage of the record in E. -/
theorem workState_executing (hD : s.slotD = none) (hM : s.slotM = none) (hW : s.slotW = none) :
    workState s = { phaseState .execute { s with mwait := false } with phase := .writeback } := by
  have hw : s.memoryWaits = false := by simp [State.memoryWaits, hM]
  have hD' : (phaseState .execute { s with mwait := false }).slotD = none := by
    rcases executePhase_flow { s with mwait := false } with ⟨-, -, h, -⟩ | ⟨r, -, -, -, -, -, h, -⟩
    · exact h.trans hD
    · exact h
  rw [workState_of_ready hw, phaseState_skip (p := .memory) (s := { s with mwait := false }) hM,
    phaseState_skip (p := .decode) (s := { s with mwait := false }) hD,
    phaseState_skip (p := .sentinel) hD', phaseState_of_empty (p := .writeback) (by simpa [State.slot] using hW)]

/-- With D, E and W EMPTY and no wait: the memory stage of the record in M. -/
theorem workState_accessing (hD : s.slotD = none) (hE : s.slotE = none) (hW : s.slotW = none) (hw : s.memoryWaits = false) :
    workState s = { phaseState .memory { s with mwait := false } with phase := .writeback } := by
  have hD' : (phaseState .memory { s with mwait := false }).slotD = none := by simpa using hD
  have hE' : (phaseState .memory { s with mwait := false }).slotE = none := by simpa using hE
  rw [workState_of_ready hw, phaseState_skip (p := .decode) hD', phaseState_skip (p := .execute) hE',
    phaseState_skip (p := .sentinel) hD', phaseState_of_empty (p := .writeback) (by simpa [State.slot] using hW)]

/-- With D, E and M EMPTY: the writeback stage of the record in W. -/
theorem workState_committing (hD : s.slotD = none) (hE : s.slotE = none) (hM : s.slotM = none) :
    workState s = phaseState .writeback { s with mwait := false } := by
  have hw : s.memoryWaits = false := by simp [State.memoryWaits, hM]
  rw [workState_of_ready hw, phaseState_skip (p := .memory) (s := { s with mwait := false }) hM,
    phaseState_skip (p := .decode) (s := { s with mwait := false }) hD,
    phaseState_skip (p := .execute) (s := { s with mwait := false }) hE,
    phaseState_skip (p := .sentinel) (s := { s with mwait := false }) hD]

/-! ### The advance in serial mode (R279) -/

/-- A step in serial mode, without a wait or a hold: the records move on, and nothing is fetched while one is in F, D, E or M. -/
theorem stepped_serial {w : State} (hwork : workState s = w) (hi : s.input.usePipeline = false) (hm : w.mwait = false)
    (hh : w.held = false) (hbusy : ¬ (w.slotF = none ∧ w.slotD = none ∧ w.slotE = none ∧ w.slotM = none)) :
    s.stepped = w.shift.endCycle := by
  have hi' : w.input.usePipeline = false := by rw [← hwork, workState_input, hi]
  rw [← State.shift_drained_iff] at hbusy
  rw [State.stepped, hwork, State.advance_otherwise hm hh, if_neg (by simp [hi', hbusy])]

/-- In any mode, without a wait, a running core with F, D, E and M EMPTY fetches. -/
theorem State.advance_fetches (hm : s.mwait = false) (hh : s.halted = false) (hF : s.slotF = none) (hD : s.slotD = none)
    (hE : s.slotE = none) (hM : s.slotM = none) : s.advance = s.shift.fetch := by
  have hdrained : s.shift.drained = true := s.shift_drained_iff.mpr ⟨hF, hD, hE, hM⟩
  have hheld : s.held = false := by simp [State.held, hD]
  rw [State.advance_otherwise hm hheld, if_pos (by simp [hh, hdrained])]

/-! ### One step in serial mode -/

/-- A record alone in F moves to D. -/
theorem stepped_alone_in_F {r : Record} (hF : s.slotF = some r) (hD : s.slotD = none) (hE : s.slotE = none)
    (hM : s.slotM = none) (hW : s.slotW = none) (hi : s.input.usePipeline = false) :
    s.stepped = State.endCycle { s with slotF := none, slotD := some r } := by
  rw [stepped_serial (workState_of_empty hD hE hM hW) hi rfl (by simp [State.held, hD]) (by simp [hF])]
  simp [State.shift, State.endCycle, hF, hD, hE, hM, hW]

/-- A record alone in D that is not the sentinel moves to E with its snapshots (R266). -/
theorem stepped_alone_in_D {r : Record} (hF : s.slotF = none) (hD : s.slotD = some r) (hE : s.slotE = none)
    (hM : s.slotM = none) (hW : s.slotW = none) (hi : s.input.usePipeline = false) (hr : r.raw ≠ sentinelWord) :
    s.stepped = State.endCycle { s with slotD := none, slotE := some (s.snapshot r.instr.fields r) } := by
  rw [stepped_serial (workState_decoding hD hE hM hW hr) hi rfl (by simp [State.held, State.snapshot]) (by simp)]
  simp [State.shift, State.endCycle, hF, hE, hM, hW]

/-- The sentinel in D with nothing in E, M and W, in any mode: the core is halted and every slot is EMPTY (R252). -/
theorem stepped_sentinel_alone {r : Record} (hD : s.slotD = some r) (hE : s.slotE = none) (hM : s.slotM = none)
    (hW : s.slotW = none) (hr : r.raw = sentinelWord) :
    s.stepped = State.endCycle { s with halted := true, slotF := none, slotD := none } := by
  rw [State.stepped, workState_halting hD hE hM hW hr, State.advance_of_drained _ rfl]
  · rfl
  · simp [State.stillRunning_eq_false_iff, hE, hM, hW]

end

end Sys2Proof.Machine

/-!
PROOF. Serial mode over a store of latency 0 (R279, R283): one instruction passes the five stages alone. `Serial` says which slot
holds its record and what the program sees; one lemma per stage takes it to the next slot, and five of them are one
`Fetched.next`.
-/

namespace Sys2Proof.Machine

/-! ### A whole instruction in stages -/

@[simp] theorem Arch.setReg_diags (a : Arch) (i : Reg) (v : Word) : (a.setReg i v).diags = a.diags := rfl

/-- What the program sees of the fetched instruction when it has been executed: the flags, and the target of a taken branch
(R268). -/
def Fetched.executed (y : Fetched) : Arch :=
  { y.arch with regs := if y.taken then y.arch.regs.set 15 y.target else y.arch.regs, flags := y.done.flags }

/-- What the program sees when the memory access of the instruction has been made as well (R264). -/
def Fetched.accessed (y : Fetched) : Arch := { y.executed with cells := y.done.cells, diags := y.done.diags }

@[simp] theorem Fetched.executed_cells (y : Fetched) : y.executed.cells = y.arch.cells := rfl
@[simp] theorem Fetched.executed_diags (y : Fetched) : y.executed.diags = y.arch.diags := rfl

/-- The address of the fetched load or store. -/
def Fetched.addr (y : Fetched) : Word := y.arch.accessAddr (decode y.word).fields

/-- The fetched instruction makes a memory access: it is a load or a store whose condition passes (R264). -/
def Fetched.accesses (y : Fetched) : Bool := y.passes && (decode y.word).fields.cls == .memory

/-- The store and the diagnostics after a whole instruction are those after its read or its write, if it makes one (R231,
R232). -/
theorem Fetched.done_access (y : Fetched) :
    let a := if y.accesses then
        if (decode y.word).fields.l then (y.arch.read y.addr).2 else y.arch.write y.addr (y.arch.reg (decode y.word).fields.rd)
      else y.arch
    y.done.cells = a.cells ∧ y.done.diags = a.diags := by
  unfold Fetched.done Arch.perform Fetched.accesses Fetched.passes Fetched.addr
  generalize (decode y.word).fields = f
  cases hp : condPass f.cond y.arch.flags
  · simp
  · cases hc : f.cls
    case alu => cases hs : f.s <;> cases hd : f.rdUsed <;> simp [Arch.alu, hs, hd]
    case memory => cases hl : f.l <;> cases hw : f.wb <;> simp [Arch.loadStore, hl, hw]
    case branch => cases hl : f.link <;> simp [Arch.branch, hl]
    case noop => simp

theorem Fetched.accessed_eq (y : Fetched) : y.accessed =
    if y.accesses then
      if (decode y.word).fields.l then (y.executed.read y.addr).2
      else y.executed.write y.addr (y.arch.reg (decode y.word).fields.rd)
    else y.executed := by
  obtain ⟨hcells, hdiags⟩ := y.done_access
  rw [Fetched.accessed, hcells, hdiags]
  cases y.accesses
  · rfl
  · cases (decode y.word).fields.l <;> cases ha : aligned y.addr <;> simp only [Arch.read, Arch.write, ha] <;> rfl

/-- The program counter after writeback: the branch wrote it in execute, and any other instruction writes it now if it names it
(R24, R247, R272). -/
theorem writebackPhase_accessed_pc {s : State} {y : Fetched} {r : Record} (hs : s.slotW = some r) (h : Accessed y r)
    (hpc : s.reg 15 = y.executed.reg 15) : (phaseState .writeback s).reg 15 = y.done.reg 15 := by
  have hexecuted : y.executed.reg 15 = if y.taken then y.target else y.arch.reg 15 := by
    unfold Fetched.executed
    split <;> simp [Arch.reg]
  rw [hexecuted] at hpc
  have hphase : phaseState .writeback s =
      if y.passes then writebackLines (decode y.word).fields r { s with phase := .writeback }
      else { s with phase := .writeback } := by
    rw [phaseState, State.slot, hs]
    simp only [execState, writebackStage, Carries.instr h.raw, h.pass]
  have hreg : State.reg { s with phase := .writeback } 15 = s.reg 15 := rfl
  have halu := h.alu
  have hwbval := h.wbval
  have hloaded := h.loaded
  rw [hphase]
  unfold Fetched.done Arch.perform
  change _ = Arch.reg (if y.passes = true then _ else _) 15
  unfold Fetched.taken Fetched.target at hpc
  unfold Fetched.aluOut at halu
  revert hpc halu hwbval hloaded
  generalize (decode y.word).fields = f
  intro hpc halu hwbval hloaded
  cases hp : y.passes
  · simpa [hp, hreg] using hpc
  · simp only [hp, if_true, forall_const] at hpc halu hwbval hloaded ⊢
    unfold writebackLines
    cases hc : f.cls
    case alu => simp_all [aluWriteback_reg, Arch.alu_reg]
    case memory =>
      cases hl : f.l <;> cases hw : f.wb <;>
        simp_all [loadWriteback_reg, baseWriteback_reg, Arch.loadStore, Arch.reg_setReg]
    case branch => cases hl : f.link <;> simp_all [branchWriteback_reg, Arch.branch, Arch.reg_setReg, regPC, regLR]
    case noop => simp_all [noLines]

/-- The register file after writeback is that of the whole instruction (R272). -/
theorem writebackPhase_accessed_regs {s : State} {y : Fetched} {r : Record} (hs : s.slotW = some r) (h : Accessed y r)
    (hregs : s.regs = y.executed.regs) : (phaseState .writeback s).regs = y.done.regs := by
  have hreg : ∀ x : Reg, s.reg x = y.executed.reg x := fun x => by simp only [State.reg, Arch.reg, hregs]
  have hsame : ∀ x : Reg, x ≠ 15 → s.reg x = y.arch.reg x := fun x hx => by
    rw [hreg x]
    unfold Fetched.executed
    split
    · exact (Arch.reg_setReg y.arch 15 x y.target).trans (if_neg (Ne.symm hx))
    · rfl
  refine Vector.ext fun i hi => ?_
  by_cases hx : (⟨i, hi⟩ : Reg) = 15
  · have := writebackPhase_accessed_pc hs h (hreg 15)
    rw [← hx] at this
    exact this
  · exact writebackPhase_accessed hs h hsame ⟨i, hi⟩ hx

/-! ### A store of latency 0 -/

/-- The CORE runs in serial mode over one store of latency 0, which it reaches directly and which keeps nothing waiting. -/
structure SerialCore (s : State) : Prop where
  running : s.halted = false
  inputs : s.inputs = []
  serial : s.lines.usePipeline = false
  inject : s.lines.inject = none
  path : s.path s.lines.useCache = []
  latency : s.chain.backing.latency = 0
  timer : s.mem.backing.timer = []

theorem SerialCore.congr {s t : State} (h : SerialCore s) (hh : t.halted = s.halted) (hi : t.inputs = s.inputs.tail)
    (hl : t.lines = s.lines) (hc : t.chain = s.chain) (ht : t.mem.backing.timer = s.mem.backing.timer) : SerialCore t where
  running := hh.trans h.running
  inputs := by rw [hi, h.inputs, List.tail_nil]
  serial := hl ▸ h.serial
  inject := hl ▸ h.inject
  path := by
    have := h.path
    unfold State.path at this ⊢
    rwa [hl, hc]
  latency := hc ▸ h.latency
  timer := ht.trans h.timer

theorem SerialCore.input {s : State} (h : SerialCore s) : s.input = s.lines := by
  rw [State.input, h.inputs, List.headD_nil]

section
variable {s : State} (h : SerialCore s) (a v : Word)
include h

theorem SerialCore.timer_passed : s.chain.backing.latency ≤ timerAt s.mem.backing.timer (flatAddr a) := by
  rw [h.latency]
  exact Nat.zero_le _

/-- A read is made at once, and leaves nothing but what the program sees of it (R64, R66). -/
theorem SerialCore.memRead : (s.memRead s.input.useCache a).1 = .done (s.arch.read a).1 ∧
    (s.memRead s.input.useCache a).2.arch = (s.arch.read a).2 ∧
    (s.memRead s.input.useCache a).2.mem.backing.timer = s.mem.backing.timer := by
  rw [h.input, Arch.read]
  cases ha : aligned a
  · rw [State.memRead_misaligned ha]
    exact ⟨rfl, rfl, rfl⟩
  · rw [State.memRead_terminal_done h.path ha (h.timer_passed a), h.timer]
    exact ⟨rfl, rfl, rfl⟩

/-- A write is made at once, and leaves nothing but what the program sees of it (R65, R66). -/
theorem SerialCore.memWrite : (s.memWrite s.input.useCache a v).1 = .done () ∧
    (s.memWrite s.input.useCache a v).2.arch = s.arch.write a v ∧
    (s.memWrite s.input.useCache a v).2.mem.backing.timer = s.mem.backing.timer := by
  rw [h.input, Arch.write]
  cases ha : aligned a
  · rw [State.memWrite_misaligned ha]
    exact ⟨rfl, rfl, rfl⟩
  · rw [State.memWrite_terminal_done h.path ha (h.timer_passed a), h.timer]
    exact ⟨rfl, rfl, rfl⟩

end

/-! ### The memory stage in serial mode (R264) -/

/-- The memory stage of a record that makes no access leaves all but the model's mark. -/
theorem memoryPhase_no_access {s : State} {y : Fetched} {r : Record} (hs : s.slotM = some r) (h : Executed y r)
    (hno : y.accesses = false) : phaseState .memory s = { s with phase := .memory } := by
  rw [phaseState, State.slot, hs]
  simp only [execState, memoryStage, Carries.instr h.raw, h.pass]
  cases hp : y.passes
  · rfl
  · have hcls : (decode y.word).fields.cls ≠ .memory := by simpa [Fetched.accesses, hp] using hno
    rw [memoryLines_of_ne hcls]
    rfl

/-- The memory stage of a record that makes an access: the lines of its load or its store. -/
theorem memoryPhase_access {s : State} {y : Fetched} {r : Record} (hs : s.slotM = some r) (h : Executed y r)
    (hacc : y.accesses = true) : phaseState .memory s =
      (if (decode y.word).fields.l then loadMemory else storeMemory) r { s with phase := .memory } := by
  obtain ⟨hp, hcls⟩ : y.passes = true ∧ (decode y.word).fields.cls = .memory := by simpa [Fetched.accesses] using hacc
  rw [phaseState, State.slot, hs]
  simp only [execState, memoryStage, Carries.instr h.raw, h.pass, hp, if_true, memoryLines_of_memory hcls]

/-- The memory stage makes the access of the record at once: the record carries what it loaded, and the program sees the store
and the diagnostics of the whole instruction. -/
theorem SerialCore.memoryPhase {s : State} {y : Fetched} {r : Record} (h : SerialCore s) (hs : s.slotM = some r)
    (hr : Executed y r) (ha : s.arch = y.executed) (hm : s.mwait = false) :
    (phaseState .memory s).mwait = false ∧ (∃ r', (phaseState .memory s).slotM = some r' ∧ Accessed y r') ∧
      (phaseState .memory s).arch = y.accessed ∧ (phaseState .memory s).mem.backing.timer = s.mem.backing.timer := by
  rw [Fetched.accessed_eq]
  cases hacc : y.accesses
  · rw [memoryPhase_no_access hs hr hacc]
    refine ⟨hm, ⟨r, hs, ⟨hr, fun hp hcls _ => ?_⟩⟩, ha, rfl⟩
    simp [Fetched.accesses, hp, hcls] at hacc
  · obtain ⟨hp, hcls⟩ : y.passes = true ∧ (decode y.word).fields.cls = .memory := by simpa [Fetched.accesses] using hacc
    have haddr : r.addr = y.addr := hr.addr hp hcls
    rw [memoryPhase_access hs hr hacc, ← ha, ← haddr]
    have h' : SerialCore { s with phase := .memory } := ⟨h.1, h.2, h.3, h.4, h.5, h.6, h.7⟩
    cases hl : (decode y.word).fields.l
    · obtain ⟨hdone, harch, htimer⟩ := h'.memWrite r.addr r.vRd
      simp only [Bool.false_eq_true, if_false, if_true, storeMemory_eq, hdone, ← hr.rd hcls]
      exact ⟨by simpa using hm, ⟨r, by simpa using hs, ⟨hr, fun _ _ e => by rw [hl] at e; cases e⟩⟩, harch, htimer⟩
    · obtain ⟨hdone, harch, htimer⟩ := h'.memRead r.addr
      simp only [if_true, loadMemory_eq, hdone]
      refine ⟨by simpa using hm, ⟨_, rfl, ⟨⟨hr.raw, hr.pass, hr.alu, hr.link, hr.addr, hr.wbval, hr.rd⟩, fun _ _ _ => ?_⟩⟩,
        harch, htimer⟩
      have harch' : State.arch { s with phase := .memory } = y.executed := ha
      rw [harch', Arch.read_word, Fetched.executed_cells, haddr]
      exact (Arch.read_word y.arch y.addr).symm

/-! ### One instruction, five steps -/

/-- The slots of a serial core and what the program sees of it. -/
structure Serial (s : State) (F D E M W : Option Record) (a : Arch) : Prop extends SerialCore s where
  slotF : s.slotF = F
  slotD : s.slotD = D
  slotE : s.slotE = E
  slotM : s.slotM = M
  slotW : s.slotW = W
  arch : s.arch = a

theorem serialAt_iff (s : State) (x : Fetched) :
    s.serialAt x ↔ Serial s (some (newRecord x.word x.pc)) none none none none x.arch := by
  constructor
  · rintro ⟨hF, hD, hE, hM, hW, hrun, ha, hi, hserial, hinject, hpath, hlatency, htimer⟩
    exact ⟨⟨hrun, hi, hserial, hinject, hpath, hlatency, htimer⟩, hF, hD, hE, hM, hW, ha⟩
  · rintro ⟨⟨hrun, hi, hserial, hinject, hpath, hlatency, htimer⟩, hF, hD, hE, hM, hW, ha⟩
    exact ⟨hF, hD, hE, hM, hW, hrun, ha, hi, hserial, hinject, hpath, hlatency, htimer⟩

section
variable {s : State} {y : Fetched} {r : Record}

theorem SerialCore.usePipeline (h : SerialCore s) : s.input.usePipeline = false := h.input ▸ h.serial

/-- The record moves from F to D. -/
theorem Serial.fetched {a : Arch} (h : Serial s (some r) none none none none a) :
    Serial s.stepped none (some r) none none none a := by
  rw [stepped_alone_in_F h.slotF h.slotD h.slotE h.slotM h.slotW h.usePipeline]
  exact ⟨h.toSerialCore.congr rfl rfl rfl rfl rfl, rfl, rfl, h.slotE, h.slotM, h.slotW, h.arch⟩

/-- The record takes the registers the instruction reads and moves from D to E (R266). -/
theorem Serial.decoded (h : Serial s none (some r) none none none y.arch) (hr : Carries y r) (hy : y.word ≠ sentinelWord) :
    ∃ r', Decoded y r' ∧ Serial s.stepped none none (some r') none none y.arch := by
  have hreg : ∀ i : Reg, s.reg i = y.arch.reg i := fun i => by rw [← h.arch]; rfl
  have hi : r.instr = decode y.word := Carries.instr hr.raw
  rw [stepped_alone_in_D h.slotF h.slotD h.slotE h.slotM h.slotW h.usePipeline (by rw [hr.raw]; exact hy), hi]
  exact ⟨s.snapshot (decode y.word).fields r,
    ⟨⟨hr.raw, hr.pc⟩, fun _ => hreg _, fun _ => hreg _, fun _ => hreg _, fun _ => hreg _⟩,
    h.toSerialCore.congr rfl rfl rfl rfl rfl, h.slotF, rfl, rfl, h.slotM, h.slotW, h.arch⟩

/-- The execute stage gives the program the flags, and the target of a taken branch (R268). -/
theorem executePhase_arch (hs : s.slotE = some r) (hr : Decoded y r) (ha : s.arch = y.arch) :
    (phaseState .execute s).arch = y.executed := by
  obtain ⟨-, hflags, hregs⟩ := executePhase_decoded hs hr (congrArg Arch.flags ha)
  have hsregs : s.regs = y.arch.regs := congrArg Arch.regs ha
  rw [hsregs] at hregs
  have hcells : s.mem.backing.cells = y.arch.cells := congrArg Arch.cells ha
  have hdiags : s.diags = y.arch.diags := congrArg Arch.diags ha
  simp only [State.arch, hregs, hflags, executePhase_mem, executePhase_diags, hcells, hdiags, Fetched.executed]

/-- The record is executed and moves from E to M (R268). -/
theorem Serial.executed (h : Serial s none none (some r) none none y.arch) (hr : Decoded y r) :
    ∃ r', Executed y r' ∧ Serial s.stepped none none none (some r') none y.executed := by
  obtain ⟨⟨r', hE, hr'⟩, hflags, hregs⟩ := executePhase_decoded (s := { s with mwait := false }) h.slotE hr
    (congrArg Arch.flags h.arch)
  obtain ⟨hF, hD⟩ : (phaseState .execute { s with mwait := false }).slotF = none ∧
      (phaseState .execute { s with mwait := false }).slotD = none := by
    rcases executePhase_flow { s with mwait := false } with ⟨-, hF, hD, -⟩ | ⟨_, -, -, -, -, hF, hD, -⟩
    · exact ⟨hF.trans h.slotF, hD.trans h.slotD⟩
    · exact ⟨hF, hD⟩
  rw [stepped_serial (workState_executing h.slotD h.slotM h.slotW) h.usePipeline (by simp) (by simp [State.held, hD])
    (by simp [hE])]
  refine ⟨r', hr', h.toSerialCore.congr (by simp) (by simp) (by simp) (by simp) (by simp), rfl, hF, hD, hE,
    by simpa using h.slotM, executePhase_arch h.slotE hr h.arch⟩

/-- The access of the record is made and the record moves from M to W (R264). -/
theorem Serial.accessed (h : Serial s none none none (some r) none y.executed) (hr : Executed y r) :
    ∃ r', Accessed y r' ∧ Serial s.stepped none none none none (some r') y.accessed := by
  have h' : SerialCore { s with mwait := false } := ⟨h.1.1, h.1.2, h.1.3, h.1.4, h.1.5, h.1.6, h.1.7⟩
  obtain ⟨hm, ⟨r', hM, hr'⟩, harch, htimer⟩ := h'.memoryPhase h.slotM hr h.arch rfl
  have hw : s.memoryWaits = false := by rw [← memoryPhase_mwait, hm]
  rw [stepped_serial (workState_accessing h.slotD h.slotE h.slotW hw) h.usePipeline hm (by simp [State.held, h.slotD])
    (by simp [hM])]
  exact ⟨r', hr', h.toSerialCore.congr (by simp) (by simp) (by simp) (by simp) (by simpa using htimer), rfl,
    by simpa using h.slotF, by simpa using h.slotD, by simpa using h.slotE, hM, harch⟩

/-- The writeback stage completes the instruction (R272). -/
theorem writebackPhase_arch (hs : s.slotW = some r) (hr : Accessed y r) (ha : s.arch = y.accessed) :
    (phaseState .writeback s).arch = y.done := by
  have hregs := writebackPhase_accessed_regs hs hr (congrArg Arch.regs ha)
  have hflags : s.flags = y.done.flags := congrArg Arch.flags ha
  have hcells : s.mem.backing.cells = y.done.cells := congrArg Arch.cells ha
  have hdiags : s.diags = y.done.diags := congrArg Arch.diags ha
  simp only [State.arch, hregs, writebackPhase_flags, hflags, writebackPhase_mem, hcells, writebackPhase_diags, hdiags]

theorem State.fetched_arch (s : State) (w : Word) : (s.fetched w).arch = s.arch.setReg 15 (s.pc + 4) := rfl

/-- A fetch of a serial core is made at once: what it puts in F and what the program sees of it is what the one-at-a-time machine
starts with (R275). -/
theorem SerialCore.fetch (h : SerialCore s) : SerialCore s.fetch.endCycle ∧
    s.fetch.slotF = some (newRecord s.arch.start.word s.arch.start.pc) ∧ s.fetch.arch = s.arch.start.arch := by
  obtain ⟨hdone, harch, htimer⟩ := h.memRead s.pc
  have hinject : s.input.inject = none := h.input ▸ h.inject
  have hfetch : s.fetch = (s.memRead s.input.useCache s.pc).2.fetched (s.arch.read s.pc).1 := by
    rcases s.fetch_cases with ⟨w, hw, -⟩ | ⟨-, hw, -⟩ | ⟨w, -, hw, hfetch⟩
    · simp [hinject] at hw
    · simp [hdone] at hw
    · rw [hdone] at hw
      cases hw
      exact hfetch
  have hpc : (s.memRead s.input.useCache s.pc).2.pc = s.pc := State.reg_congr (State.memRead_regs ..) 15
  refine ⟨h.congr (by simp) (by simp) (by simp) (by simp) ?_, ?_, ?_⟩
  · rw [State.endCycle_mem, hfetch]
    exact htimer
  · rw [hfetch, State.fetched_slotF, hpc]
    rfl
  · rw [hfetch, State.fetched_arch, harch, hpc]
    rfl

/-- The record is written back and leaves W, and the next instruction is fetched (R272, R275, R279). -/
theorem Serial.committed (h : Serial s none none none none (some r) y.accessed) (hr : Accessed y r) :
    s.stepped.serialAt y.next := by
  have hwork := workState_committing h.slotD h.slotE h.slotM
  have harch : (workState s).arch = y.done := by
    rw [hwork]
    exact writebackPhase_arch h.slotW hr h.arch
  have hF : (workState s).slotF = none := by simpa [hwork] using h.slotF
  have hD : (workState s).slotD = none := by simpa [hwork] using h.slotD
  have hE : (workState s).slotE = none := by simpa [hwork] using h.slotE
  have hM : (workState s).slotM = none := by simpa [hwork] using h.slotM
  have hhalted : (workState s).halted = false := by simpa [hwork] using h.running
  have hcore : SerialCore (workState s).shift := h.toSerialCore.congr (by simp [hwork]) (by simp [h.inputs]) (by simp) (by simp)
    (by simp [hwork])
  have hstepped : s.stepped = (workState s).shift.fetch.endCycle := by
    rw [State.stepped, State.advance_fetches (by simp [hwork]) hhalted hF hD hE hM]
  obtain ⟨hnext, hslotF, hafter⟩ := hcore.fetch
  have hdone : (workState s).shift.arch = y.done := harch
  rw [hdone] at hslotF hafter
  rw [serialAt_iff, hstepped]
  exact ⟨hnext, hslotF, by simpa using hF, by simpa using hD, by simpa using hE, by simpa using hM, hafter⟩

/-- Five steps of a serial core are one instruction of the one-at-a-time machine (R279, R283). -/
theorem serialAt_five_steps (h : s.serialAt y) (hy : y.word ≠ sentinelWord) : (State.stepped^[5] s).serialAt y.next := by
  have h1 := ((serialAt_iff s y).mp h).fetched
  obtain ⟨r2, hr2, h2⟩ := h1.decoded ⟨rfl, rfl⟩ hy
  obtain ⟨r3, hr3, h3⟩ := h2.executed hr2
  obtain ⟨r4, hr4, h4⟩ := h3.accessed hr3
  exact h4.committed hr4

/-- Two steps of a serial core whose next word is the sentinel: the core has drained, and the program sees nothing of them (R252,
R254). -/
theorem serialAt_sentinel (h : s.serialAt y) (hy : y.word = sentinelWord) :
    (State.stepped^[2] s).stillRunning = false ∧ (State.stepped^[2] s).arch = y.arch := by
  have h1 := ((serialAt_iff s y).mp h).fetched
  rw [Function.iterate_succ_apply, Function.iterate_one, stepped_sentinel_alone h1.slotD h1.slotE h1.slotM h1.slotW hy]
  refine ⟨?_, h1.arch⟩
  rw [State.stillRunning_eq_false_iff]
  exact ⟨rfl, rfl, rfl, h1.slotE, h1.slotM, h1.slotW⟩

end

/-- `k` instructions are `5k` steps. -/
theorem serialAt_steps {k : Nat} {x y : Fetched} {s : State} (h : s.serialAt x) (hrun : Fetched.run k x = some y) :
    (State.stepped^[5 * k] s).serialAt y := by
  induction k generalizing x s with
  | zero =>
    cases hrun
    exact h
  | succ k ih =>
    rw [Fetched.run] at hrun
    split at hrun
    · cases hrun
    · rename_i hx
      have := ih (serialAt_five_steps h hx) hrun
      rwa [← Function.iterate_add_apply] at this

/-- Settles O58: `5k` steps are `k` instructions; two more let the sentinel halt the core. -/
theorem serialModeRunsOneAtATime : Obligations.SerialModeRunsOneAtATime := by
  intro k x y s h hrun
  have hy := serialAt_steps h hrun
  refine ⟨⟨_, core_run_eq (5 * k) s, hy⟩, fun hsentinel => ⟨_, core_run_eq (5 * k + 2) s, ?_⟩⟩
  rw [Nat.add_comm, Function.iterate_add_apply]
  exact serialAt_sentinel hy hsentinel

end Sys2Proof.Machine

/-!
PROOF. Placing a word (log 6). The step after `placeFetchWord` fetches it (`stepped_placeFetchWord`), and in serial mode its
record then moves on alone, one slot a step (`stepped_placedIn_F`, `stepped_placedIn_D`), to where `placeExecWord` puts it. From
there the next step is the execute stage of its record, alone in the pipeline, or the sentinel's halt.
-/

namespace Sys2Proof.Machine

/-! ### The store and the timer at the placed word -/

theorem sparseErase_insert {α : Type} (a : Nat) (v : α) (m : List (Nat × α)) :
    sparseErase (sparseInsert a v m) a = sparseErase m a := by
  induction m with
  | nil => simp [sparseInsert, sparseErase]
  | cons e m ih =>
    rw [sparseInsert]
    split
    · simp [sparseErase]
    · simp only [sparseErase] at ih
      simp [sparseErase, ih, List.filter_cons]

/-- A timer that is put back to 0 is as if it had not run (R120). -/
theorem setTimer_zero_setTimer (m : List (Nat × Nat)) (a t : Nat) : setTimer (setTimer m a t) a 0 = setTimer m a 0 := by
  have herase : sparseErase (sparseErase m a) a = sparseErase m a := by simp [sparseErase]
  show sparseErase (sparseSet 0 m a t) a = sparseErase m a
  unfold sparseSet
  split
  · exact herase
  · rw [sparseErase_insert, herase]

/-! ### A fetch at the terminal level -/

/-- A fetch that goes straight to the terminal level, its latency passed: the word of the store comes into F (R71, R116, R275). -/
theorem fetch_terminal_done {s : State} (hi : s.input.inject = none) (hpath : s.path s.input.useCache = [])
    (ha : aligned s.pc = true) (ht : s.chain.backing.latency ≤ timerAt s.mem.backing.timer (flatAddr s.pc)) :
    s.fetch = { s with
      slotF := some (newRecord (readWord s.mem.backing.cells (flatAddr s.pc)) s.pc)
      regs := s.regs.set 15 (s.pc + 4)
      mem := { s.mem with backing := { s.mem.backing with timer := setTimer s.mem.backing.timer (flatAddr s.pc) 0 } } } := by
  rw [State.fetch, hi]
  simp only [State.memRead_terminal_done hpath ha ht]
  rfl

section
variable (s : State) (w : Word)

theorem fetchAddr_toNat : s.fetchAddr.toNat = flatAddr s.pc * 4 := by
  have := flatAddr_lt s.pc
  rw [State.fetchAddr, BitVec.toNat_ofNat]
  omega

/-- The fetch address is that of the word at the program counter (R62). -/
theorem flatAddr_fetchAddr : flatAddr s.fetchAddr = flatAddr s.pc := by
  rw [flatAddr, fetchAddr_toNat, Nat.mul_div_cancel _ (by decide)]

theorem aligned_fetchAddr : aligned s.fetchAddr = true := by
  rw [aligned_iff, fetchAddr_toNat, Nat.mul_mod_left]

/-! ### From the load to the placed state -/

/-- The core `k` steps after the load: the word in the store, its timer put back, the program counter behind it, and its record in
F or D. -/
def State.placedIn (k : Nat) (F D : Option Record) : State :=
  { (s.withWordAtPC w 0).setReg regPC (s.fetchAddr + 4) with
    slotF := F
    slotD := D
    inputs := List.replicate (stepsBefore w - k) StepInput.alone ++ s.inputs
    cycle := s.cycle + k
    phase := .memory
    mwait := false }

/-- The inputs of the steps before the word's own lines act: so many, each alone. -/
theorem replicate_inputs {n k : Nat} (h : k < n) : List.replicate (n - k) StepInput.alone ++ s.inputs =
    StepInput.alone :: (List.replicate (n - (k + 1)) StepInput.alone ++ s.inputs) := by
  rw [show n - k = n - (k + 1) + 1 by omega, List.replicate_succ, List.cons_append]

theorem two_le_stepsBefore : 2 ≤ stepsBefore w := by
  unfold stepsBefore
  split <;> decide

/-- The step after the load fetches the word and executes nothing (R275). -/
theorem stepped_placeFetchWord :
    (s.placeFetchWord w).stepped = s.placedIn w 1 (some (newRecord w s.fetchAddr)) none := by
  set q : State := { s.placeFetchWord w with phase := .writeback, mwait := false }
  have hwork : workState (s.placeFetchWord w) = q := workState_of_empty rfl rfl rfl rfl
  have hinputs : q.inputs = StepInput.alone :: (List.replicate (stepsBefore w - 1) StepInput.alone ++ s.inputs) :=
    replicate_inputs s (k := 0) (Nat.lt_of_lt_of_le Nat.zero_lt_two (two_le_stepsBefore w))
  have hinput : q.input = StepInput.alone := by rw [State.input, hinputs, List.headD_cons]
  have hpc : q.pc = s.fetchAddr := State.reg_setReg_self _ _ _
  have ht : q.chain.backing.latency ≤ timerAt q.mem.backing.timer (flatAddr q.pc) := by
    rw [hpc, flatAddr_fetchAddr]
    show s.chain.backing.latency ≤ timerAt (setTimer _ _ _) _
    rw [timerAt_setTimer, if_pos rfl]
  have hword : readWord q.mem.backing.cells (flatAddr q.pc) = w := by
    rw [hpc, flatAddr_fetchAddr]
    show readWord (writeWord _ _ _) _ = w
    rw [readWord_writeWord, if_pos rfl]
  have hregs : q.regs.set 15 (s.fetchAddr + 4) = s.regs.set 15 (s.fetchAddr + 4) := Vector.set_set ..
  have htimer : setTimer q.mem.backing.timer (flatAddr s.pc) 0 = setTimer s.mem.backing.timer (flatAddr s.pc) 0 :=
    setTimer_zero_setTimer ..
  have hinject : q.input.inject = none := by rw [hinput]; rfl
  have hpath : q.path q.input.useCache = [] := by rw [hinput]; rfl
  have ha : aligned q.pc = true := by rw [hpc, aligned_fetchAddr]
  have hfetch := fetch_terminal_done (s := q.shift) hinject hpath ha ht
  rw [State.stepped, hwork, State.advance_fetches rfl rfl rfl rfl rfl rfl, hfetch]
  change State.endCycle { q with
    slotF := some (newRecord (readWord q.mem.backing.cells (flatAddr q.pc)) q.pc)
    regs := q.regs.set 15 (q.pc + 4)
    mem := { q.mem with backing := { q.mem.backing with timer := setTimer q.mem.backing.timer (flatAddr q.pc) 0 } } } = _
  rw [hword, hpc, hregs, flatAddr_fetchAddr, htimer, State.endCycle, hinputs]
  rfl

/-- While the placed word's steps last, the core is in serial mode (R279). -/
theorem placedIn_serial {k : Nat} {F D : Option Record} (hk : k < stepsBefore w) :
    (s.placedIn w k F D).input.usePipeline = false := by
  have hinputs : (s.placedIn w k F D).inputs = _ := replicate_inputs s hk
  rw [State.input, hinputs]
  rfl

/-- The placed record moves from F to D. -/
theorem stepped_placedIn_F (r : Record) : (s.placedIn w 1 (some r) none).stepped = s.placedIn w 2 none (some r) := by
  rw [stepped_alone_in_F rfl rfl rfl rfl rfl (placedIn_serial s w (two_le_stepsBefore w)), State.endCycle]
  simp only [State.placedIn, replicate_inputs s (two_le_stepsBefore w), List.tail_cons]

/-- Between steps the placed sentinel in D is the state of `placeExecWord`, but for the cycle counter. -/
theorem placedIn_sentinel (hs : s.betweenSteps = true) (hw : w = sentinelWord) :
    s.placedIn w 2 none (some (newRecord w s.fetchAddr)) = { s.placeExecWord w with cycle := s.cycle + 2 } := by
  obtain ⟨hp, hm⟩ : s.phase = .memory ∧ s.mwait = false := by simpa [State.betweenSteps] using hs
  rw [State.placedIn, State.placeExecWord, stepsBefore, if_pos hw, if_pos hw, ← hp, ← hm]
  rfl

/-- Between steps the placed record moves from D to E with its snapshots, which is the state of `placeExecWord`, but for the cycle
counter (R266). -/
theorem stepped_placedIn_D (hs : s.betweenSteps = true) (hw : w ≠ sentinelWord) :
    (s.placedIn w 2 none (some (newRecord w s.fetchAddr))).stepped = { s.placeExecWord w with cycle := s.cycle + 3 } := by
  obtain ⟨hp, hm⟩ : s.phase = .memory ∧ s.mwait = false := by simpa [State.betweenSteps] using hs
  have hsteps : stepsBefore w = 3 := if_neg hw
  rw [stepped_alone_in_D rfl rfl rfl rfl rfl (placedIn_serial s w (by rw [hsteps]; decide)) hw, State.placeExecWord, if_neg hw,
    State.placedIn, hsteps, State.endCycle, ← hp, ← hm]
  rfl

/-- Between steps the load leads to `placeExecWord` in three steps, the sentinel's in two (R252, R261). -/
theorem run_placeFetchWord (hs : s.betweenSteps = true) :
    Host.Core.run Sys2Proof.core (stepsBefore w) (s.placeFetchWord w) =
      .next { s.placeExecWord w with cycle := s.cycle + stepsBefore w } := by
  rw [core_run_eq]
  by_cases hw : w = sentinelWord
  · have hsteps : stepsBefore w = 2 := if_pos hw
    rw [hsteps, Function.iterate_succ_apply, Function.iterate_one, stepped_placeFetchWord, stepped_placedIn_F,
      placedIn_sentinel s w hs hw]
  · have hsteps : stepsBefore w = 3 := if_neg hw
    rw [hsteps, Function.iterate_succ_apply, Function.iterate_succ_apply, Function.iterate_one, stepped_placeFetchWord,
      stepped_placedIn_F, stepped_placedIn_D s w hs hw]

/-- A placed word that is not the sentinel is alone in E. -/
theorem placeExecWord_alone (hw : w ≠ sentinelWord) : ∃ r : Record, r.raw = w ∧ (s.placeExecWord w).slotD = none ∧
    (s.placeExecWord w).slotE = some r ∧ (s.placeExecWord w).slotM = none ∧ (s.placeExecWord w).slotW = none := by
  rw [State.placeExecWord, if_neg hw]
  exact ⟨_, rfl, rfl, rfl, rfl, rfl⟩

theorem withFetchWord_eq : s.withFetchWord 32 w.toNat = s.placeExecWord w := by
  rw [State.withFetchWord, Nat.mod_eq_of_lt w.isLt, BitVec.ofNat_toNat, BitVec.setWidth_eq]

end

/-! ### The step after -/

/-- With only E filled, a step is `exec` of the instruction in the execute stage, whose record is then in M, and an advance that
changes of the registers the program counter alone, by a fetch (R262, R268, R275). -/
theorem step_alone_in_E {s : State} {r : Record} (hD : s.slotD = none) (hE : s.slotE = some r) (hM : s.slotM = none)
    (hW : s.slotW = none) : ∃ u, exec (decode r.raw) { s with phase := .execute, mwait := false } = .next u ∧
      s.stepped.slotM = u.slotE ∧ s.stepped.flags = u.flags ∧ (∀ x : Reg, x ≠ 15 → s.stepped.reg x = u.reg x) ∧
      (s.stepped.pc = u.pc ∨ (s.stepped.pc = u.pc + 4 ∧ s.stepped.slotF ≠ none)) := by
  have hwork := workState_executing hD hM hW
  have hexec : exec (decode r.raw) { s with phase := .execute, mwait := false } =
      .next (phaseState .execute { s with mwait := false }) := by
    rw [← runPhase_eq]
    exact (runPhase_of_some (p := .execute) (s := { s with mwait := false }) hE).symm
  have hm : (workState s).mwait = false := by simp [hwork]
  have hslotE : (workState s).slotE = (phaseState .execute { s with mwait := false }).slotE := by rw [hwork]
  have hflags : (workState s).flags = (phaseState .execute { s with mwait := false }).flags := by rw [hwork]
  have hregs : (workState s).regs = (phaseState .execute { s with mwait := false }).regs := by rw [hwork]
  obtain ⟨hM', -⟩ := State.advance_older hm
  refine ⟨_, hexec, hM'.trans hslotE, (State.advance_flags _).trans hflags, fun x hx => ?_, ?_⟩
  · exact ((workState s).advance_reg_ne x hx).trans (State.reg_congr hregs x)
  · have hpc : (workState s).pc = (phaseState .execute { s with mwait := false }).pc := State.reg_congr hregs 15
    rw [← hpc]
    rcases (workState s).advance_pc with ⟨hsame, -⟩ | ⟨-, hfour, v, hF⟩
    · exact .inl hsame
    · exact .inr ⟨hfour, by rw [State.stepped, State.endCycle_slotF, hF]; simp⟩

/-- Settles O48: the fetch, the way to `placeExecWord`, and the step from there, of a word in E and of the sentinel in D. -/
theorem placedWordIsFetchedAndRuns : Obligations.PlacedWordIsFetchedAndRuns := by
  intro s w
  rw [withFetchWord_eq]
  refine ⟨⟨_, State.step_stepped _, ?_⟩, fun hs => run_placeFetchWord s w hs, fun hw => ?_, fun hw => ?_⟩
  · rw [stepped_placeFetchWord]
    exact ⟨rfl, rfl, rfl, rfl, rfl, rfl, State.reg_setReg_self _ _ _, fun x hx => State.reg_setReg_of_ne _ _ (Ne.symm hx)⟩
  · obtain ⟨r, rfl, hD, hE, hM, hW⟩ := placeExecWord_alone s w hw
    obtain ⟨u, hu, hrest⟩ := step_alone_in_E hD hE hM hW
    exact ⟨_, u, State.step_stepped _, hu, hrest⟩
  · refine ⟨_, State.step_stepped _, ?_⟩
    have hplaced : s.placeExecWord w = _ := if_pos hw
    rw [hplaced, stepped_sentinel_alone rfl rfl rfl rfl hw, State.stillRunning_eq_false_iff]
    exact ⟨rfl, rfl, rfl, rfl, rfl, rfl, rfl⟩

end Sys2Proof.Machine

/-!
PROOF. Nothing stops the core (60_exceptions). That every step answers a next state is `State.step_stepped`, from the laws of
`exec` phase by phase; what is left is the cycle counter, which the end of the cycle alone moves.
-/

namespace Sys2Proof.Machine

/-- A step counts one cycle, also when it waits, holds, flushes or halts: neither the phases nor the advance touch the counter
(R277, D30). -/
@[simp] theorem stepped_cycle (s : State) : s.stepped.cycle = s.cycle + 1 :=
  calc s.stepped.cycle
    _ = (workState s).advance.cycle + 1 := State.endCycle_cycle _
    _ = (workState s).cycle + 1 := congrArg (· + 1) (State.advance_cycle _)
    _ = s.cycle + 1 := congrArg (· + 1) (workState_cycle s)

/-- Settles O32: the next state is `s.stepped`. -/
theorem stepAlwaysAnswersNext : Obligations.StepAlwaysAnswersNext := fun s =>
  ⟨s.stepped, s.step_stepped, stepped_cycle s⟩

end Sys2Proof.Machine
